-- ==== Sys2Proof/Word.lean ====
section
/-! DEFINITION. The word types of the machine and the sparse tables that hold its state as plain data. -/
namespace Sys2Proof

/-- A 64-bit register or memory word (R77). -/
abbrev Word := BitVec 64

/-- A byte of memory (R2). -/
abbrev Byte := BitVec 8

/-- One 32-bit parcel of code (R56). -/
abbrev Parcel := BitVec 32

/-- A vector register: 512 bytes (R77). -/
abbrev VReg := BitVec 4096

/-- A predicate register: 1,024 bits (R77). -/
abbrev Mask := BitVec 1024

/-- A sparse table: key and value pairs with rising keys. -/
abbrev Table (α : Type) := List (Nat × α)

end Sys2Proof
end

