-- ==== Sys2Proof/Config.lean ====
section
/-! DEFINITION. What the spec leaves open, as constants without a body: nothing in Lean can evaluate them, so a
claim holds whatever they are (logs 3, 14, 19 and 33). -/
namespace Sys2Proof.Config

/-- How many clk pass at a step; the argument is the counter of free values (log 3). -/
opaque clkAdvance : Nat → Nat

/-- How much package time passes at a step, in units of 2^-16 ns (log 3). -/
opaque timeAdvance : Nat → Nat

/-- The SHA3-512 digest of bytes (R312, R366; log 14). -/
opaque sha3 : List Byte → BitVec 512

/-- The ML-DSA-87 signature of bytes under the device identity key (R366; log 14). -/
opaque sign : List Byte → List Byte

/-- Whether a fused multiply-add of 0 x infinity and a quiet NaN signals invalid: IEEE 754-2019 leaves it to the
implementation (R131; log 19). -/
opaque fmaInvalidNaN : Bool

/-- Values that no rule of the spec gives; the argument is the counter of free values (log 3). -/
opaque freeWord : Nat → Word

/-- What a kernel asks of the Stays in its management page (R367). -/
inductive MgmtReq where
  /-- An attestation report over a nonce (R366). -/
  | report (nonce : List Byte)
  /-- A write of an error-injector register: 0 INJSEED, 1 INJRATE, 2 INJMASK, 3 INJSEL (R356). -/
  | injector (reg : Nat) (value : Word)
  /-- A read of the power registers (R368). -/
  | power
  | heapReset
  | other
  deriving DecidableEq, Repr, Inhabited

/-- The request that the bytes of a management page hold: the spec gives the page no layout (R367; log 33). -/
opaque mgmtRequest : List Byte → MgmtReq

/-- Where in the page the reply to a request stands (R367; log 33). -/
opaque mgmtPlace : List Byte → Nat

/-- The nonce of the report that a console line asks for, if it asks for one: the spec gives no command (R366; log 33). -/
opaque consoleRequest : List Byte → Option (List Byte)

/-- The shell's answer to any other line (R359; log 33). -/
opaque consoleAnswer : List Byte → List Byte

/-- An attestation report's text over measurements, part number and nonce (R366; log 33). -/
opaque report : List (BitVec 512) → Nat → List Byte → List Byte

/-- The measurement of the Stays firmware (R366; log 33). -/
opaque firmware : BitVec 512

end Sys2Proof.Config
end

