-- ==== Sys2Proof/Syntax.lean ====
section
/-! DEFINITION. Every instruction and every event of the table as a term (spec/04_encoding.md, R56 to R74;
spec/95_what_each_step_holds.md). An instruction keeps every bit of its parcels that its format names,
the ignored ones included, so that encoding and decoding lose nothing. -/
namespace Sys2Proof

/-- Fields of a format A instruction (R59): the minor and major are the constructor. -/
structure FA where
  k : BitVec 3
  wb : Bool
  wa : Bool
  b : BitVec 5
  a : BitVec 5
  d : BitVec 5
  deriving DecidableEq, Repr

/-- Fields of a format I instruction (R59). -/
structure FI where
  imm : BitVec 13
  wa : Bool
  a : BitVec 5
  d : BitVec 5
  deriving DecidableEq, Repr

/-- Fields of the shift-immediate major (R66): IMM[12:11] is the constructor, IMM[10:6] is reserved. -/
structure FS where
  rsv : BitVec 5
  amt : BitVec 6
  wa : Bool
  a : BitVec 5
  d : BitVec 5
  deriving DecidableEq, Repr

/-- Fields of a format J instruction (R59, R65): `tk` is CS[12], `clr` is CS[11]. -/
structure FJ where
  off : BitVec 19
  tk : Bool
  clr : Bool
  k : BitVec 3
  deriving DecidableEq, Repr

/-- Fields of a format L instruction (R59): parcel 0 as format A, then parcel 1. -/
structure FL where
  r : FA
  sc : BitVec 2
  obj : BitVec 16
  m : BitVec 4
  t : BitVec 4
  wc : Bool
  c : BitVec 5
  deriving DecidableEq, Repr

/-- Fields of a format X instruction (R59): format L and a literal parcel. -/
structure FX where
  l : FL
  lit : BitVec 32
  deriving DecidableEq, Repr

/-- The rows of the opcode table: the instructions, then the events. An event takes its data from the machine's
`data` field, where its docstring says which. -/
inductive Instr where
  /-- R105. Writes A + B modulo 2^64 to sD. -/
  | add (f : FA)
  /-- R105. Writes A - B modulo 2^64 to sD. -/
  | sub (f : FA)
  /-- R105. Writes the bitwise AND of A and B to sD. -/
  | and (f : FA)
  /-- R105. Writes the bitwise OR of A and B to sD. -/
  | or (f : FA)
  /-- R105. Writes the bitwise XOR of A and B to sD. -/
  | xor (f : FA)
  /-- R105. Writes A AND NOT B to sD. -/
  | andn (f : FA)
  /-- R105. Shifts A left by B[5:0] into sD. -/
  | shl (f : FA)
  /-- R105. Shifts A right logically by B[5:0] into sD. -/
  | shr (f : FA)
  /-- R105. Shifts A right arithmetically by B[5:0] into sD. -/
  | sar (f : FA)
  /-- R105. Rotates A left by B[5:0] into sD. -/
  | rol (f : FA)
  /-- R105. Writes the signed smaller of A and B to sD. -/
  | min (f : FA)
  /-- R105. Writes the signed larger of A and B to sD. -/
  | max (f : FA)
  /-- R105. Writes the unsigned smaller of A and B to sD. -/
  | minn (f : FA)
  /-- R105. Writes the unsigned larger of A and B to sD. -/
  | maxn (f : FA)
  /-- R105. Writes the count of leading zero bits of A to sD. -/
  | clz (f : FA)
  /-- R105. Writes the count of set bits of A to sD. -/
  | popc (f : FA)
  /-- R106. Writes the low 64 bits of A × B to sD after 4 clk. -/
  | mul (f : FA)
  /-- R106. Writes the high 64 bits of the signed product to sD. -/
  | mulh (f : FA)
  /-- R106. Writes the high 64 bits of the unsigned product to sD. -/
  | mulhn (f : FA)
  /-- R106. Writes the signed quotient of A by B to sD after 36 clk. -/
  | div (f : FA)
  /-- R106. Writes the unsigned quotient of A by B to sD. -/
  | divn (f : FA)
  /-- R106. Writes the signed remainder of A by B to sD. -/
  | rem (f : FA)
  /-- R106. Writes the unsigned remainder of A by B to sD. -/
  | remn (f : FA)
  /-- R107. Writes A = B into every bit of predicate kD. -/
  | ceq (f : FA)
  /-- R107. Writes A ≠ B into every bit of predicate kD. -/
  | cne (f : FA)
  /-- R107. Writes signed A < B into every bit of predicate kD. -/
  | clt (f : FA)
  /-- R107. Writes signed A ≤ B into every bit of predicate kD. -/
  | cle (f : FA)
  /-- R107. Writes unsigned A < B into every bit of predicate kD. -/
  | cltn (f : FA)
  /-- R107. Writes unsigned A ≤ B into every bit of predicate kD. -/
  | clen (f : FA)
  /-- R107. Writes (A and B) ≠ 0 into every bit of predicate kD. -/
  | ctst (f : FA)
  /-- R109. Writes A + sext(IMM13) to sD. -/
  | addi (f : FI)
  /-- R109. Writes A AND sext(IMM13) to sD. -/
  | andi (f : FI)
  /-- R109. Writes A OR sext(IMM13) to sD. -/
  | ori (f : FI)
  /-- R109. Writes A XOR sext(IMM13) to sD. -/
  | xori (f : FI)
  /-- R110. Shifts A left by an immediate amount into sD. -/
  | shli (f : FS)
  /-- R110. Shifts A right logically by an immediate amount into sD. -/
  | shri (f : FS)
  /-- R110. Shifts A right arithmetically by an immediate amount into sD. -/
  | sari (f : FS)
  /-- R108. Compares A with a sign-extended 10-bit immediate under a condition code and writes the result into every bit of kD. -/
  | cmpi (f : FI)
  /-- R111. Writes kA AND kB to kD. -/
  | kand (f : FA)
  /-- R111. Writes kA OR kB to kD. -/
  | kor (f : FA)
  /-- R111. Writes kA XOR kB to kD. -/
  | kxor (f : FA)
  /-- R111. Writes NOT kA to kD. -/
  | knot (f : FA)
  /-- R111. Writes sA into one 64-bit slice of kD and keeps the other bits. -/
  | kmovs (f : FA)
  /-- R111. Writes one 64-bit slice of kA to sD. -/
  | kmovk (f : FA)
  /-- R111. Writes the count of set bits of kA to sD. -/
  | kpopc (f : FA)
  /-- R111. Writes the index of the lowest set bit of kA, or all ones, to sD. -/
  | kfirst (f : FA)
  /-- R112. Writes LIT32, sign- or zero-extended, to all 64 bits of sD. -/
  | movl (min : BitVec 4) (f : FX)
  /-- R112. Writes LIT32 into bits [63:32] of sD and keeps bits [31:0]. -/
  | movlHi (min : BitVec 4) (f : FX)
  /-- R113. Computes A + scaled B + a 16-bit displacement into sD without accessing memory. -/
  | leaL (min : BitVec 4) (f : FL)
  /-- R113. Computes A + scaled B + a 32-bit displacement into sD without accessing memory. -/
  | leaX (min : BitVec 4) (f : FX)
  /-- R115. Transfers to the target header when bit 0 of k[K] xor the sense bit is 1. -/
  | br (f : FJ)
  /-- R115. Transfers unconditionally to the target header. -/
  | jmp (f : FJ)
  /-- R115. Writes the return address to s31 and transfers to the target header. -/
  | call (f : FJ)
  /-- R119. Decrements LC and branches while LC is nonzero and its predicate test passes. -/
  | loop (f : FJ)
  /-- R121. Splits the vector lanes by a predicate, pushing a reconvergence entry or transferring whole. -/
  | vbr (f : FJ)
  /-- R117. Writes the link to s31 and transfers to the header at sA. -/
  | callr (f : FA)
  /-- R117. Transfers to the header at sA. -/
  | jr (f : FA)
  /-- R117. Transfers to the header at s31. -/
  | ret (f : FA)
  /-- R118. Ends the task, sends its commit request and frees its half. -/
  | endT (f : FA)
  /-- R282. With SSW.PREQ set, saves the live registers at the block boundary and frees the half. -/
  | yield (f : FA)
  /-- R279. Retires and raises TRAPI with the code in D. -/
  | trap (f : FA)
  /-- R280. Checks the frame at s30, restores lanes, stack and s30, re-injects entries and resumes. -/
  | tret (f : FA)
  /-- R279. Retires and raises the BKPT trap. -/
  | bkpt (f : FA)
  /-- R123. Reads a control register into sD. -/
  | crr (f : FA)
  /-- R124. Writes sA into a control register under the write rules. -/
  | crw (f : FA)
  /-- R124. Exchanges a control register with sA, returning the old value in sD. -/
  | crx (f : FA)
  /-- R294. Writes a word of a core's gate table. -/
  | gatew (f : FA)
  /-- R294. Reads a word of a core's gate table into sD. -/
  | gater (f : FA)
  /-- R292. Allocates, writes or frees an object table entry from a 512-byte image. -/
  | objw (f : FA)
  /-- R292. Writes an object entry's header and body to an image. -/
  | objr (f : FA)
  /-- R293. Writes or frees a group table entry from a mask image. -/
  | grpw (f : FA)
  /-- R298. Writes or reads a mapper queue entry, its EDF parameters, or an arbiter list entry by form. -/
  | qmap (f : FA)
  /-- R313. Binds or unbinds a jib set for an ASID. -/
  | jbind (f : FA)
  /-- R312. Checks, measures and registers a jib set image in the jib store. -/
  | jload (f : FA)
  /-- R299. Forces an immediate full save of a named half to an image and frees the half. -/
  | ssav (f : FA)
  /-- R299. Restores a saved image into a free half of a named core. -/
  | srst (f : FA)
  /-- R299. Starts a task at a kernel core's IPI handler with a payload value. -/
  | ipi (f : FA)
  /-- R130. Element-wise A + B into vD. -/
  | vadd (f : FL)
  /-- R130. Element-wise A - B into vD. -/
  | vsub (f : FL)
  /-- R130. Element-wise A × B into vD. -/
  | vmul (f : FL)
  /-- R130. Element-wise A × B + C, rounded once, into vD. -/
  | vfma (f : FL)
  /-- R131. Element-wise minimum into vD. -/
  | vmin (f : FL)
  /-- R131. Element-wise maximum into vD. -/
  | vmax (f : FL)
  /-- R130. Element-wise absolute value into vD. -/
  | vabs (f : FL)
  /-- R130. Element-wise negation into vD. -/
  | vneg (f : FL)
  /-- R130. Element-wise bitwise AND into vD. -/
  | vand (f : FL)
  /-- R130. Element-wise bitwise OR into vD. -/
  | vor (f : FL)
  /-- R130. Element-wise bitwise XOR into vD. -/
  | vxor (f : FL)
  /-- R130. Element-wise left shift into vD. -/
  | vshl (f : FL)
  /-- R130. Element-wise logical right shift into vD. -/
  | vshr (f : FL)
  /-- R130. Element-wise arithmetic right shift into vD. -/
  | vsar (f : FL)
  /-- R130. Selects A or B per element by predicate kC into vD. -/
  | vsel (f : FL)
  /-- R130. Element-wise high half of the double-width product into vD. -/
  | vmulh (f : FL)
  /-- R133. Widening element-wise add into a register pair. -/
  | vwadd (f : FL)
  /-- R133. Widening element-wise subtract into a register pair. -/
  | vwsub (f : FL)
  /-- R133. Widening element-wise multiply into a register pair. -/
  | vwmul (f : FL)
  /-- R133. Widening multiply-accumulate into the destination pair. -/
  | vwfma (f : FL)
  /-- R134. Converts a pair or quad of source registers to a narrower type in one register. -/
  | vnarrow (f : FL)
  /-- R134. Converts each element to the destination type, single, pair or quad. -/
  | vcvt (f : FL)
  /-- R135. Forms dot products of groups of four elements plus C into vD. -/
  | vdot4 (f : FL)
  /-- R136. Compares elements under a condition into predicate kD. -/
  | vcmp (f : FL)
  /-- R137. Writes (A and B) ≠ 0 per element into predicate kD. -/
  | vtest (f : FL)
  /-- R138. Sums the active elements into sD. -/
  | vredsum (f : FL)
  /-- R138. Reduces the active elements to their maximum in sD. -/
  | vredmax (f : FL)
  /-- R138. Reduces the active elements to their minimum in sD. -/
  | vredmin (f : FL)
  /-- R138. Reduces the active elements by AND into sD. -/
  | vredand (f : FL)
  /-- R138. Reduces the active elements by OR into sD. -/
  | vredor (f : FL)
  /-- R139. Writes inclusive prefix add, max or min into vD. -/
  | vscan (f : FL)
  /-- R140. Gathers elements of A by index registers into vD. -/
  | vperm (f : FL)
  /-- R141. Slides elements of A by a signed amount into vD. -/
  | vslide (f : FL)
  /-- R141. Broadcasts one element of A into vD. -/
  | vbcast (f : FL)
  /-- R142. Writes the count of active elements below each index into vD. -/
  | viota (f : FL)
  /-- R142. Packs selected elements of A to the low end of vD. -/
  | vcompress (f : FL)
  /-- R142. Spreads low elements of A onto the selected positions of vD. -/
  | vexpand (f : FL)
  /-- R143. Interleaves elements of A and B into vD. -/
  | vzip (f : FL)
  /-- R143. De-interleaves even elements of A and B into vD. -/
  | vunzip (f : FL)
  /-- R145. Stably sorts the active elements of A into vD. -/
  | vsort (f : FL)
  /-- R146. Merges the active elements of A and B into a register pair. -/
  | vmerge (f : FL)
  /-- R147. Counts for each B element the elements of A that precede it. -/
  | vsearch (f : FL)
  /-- R148. Packs A into the 2:4 sparse layout with metadata nibbles. -/
  | vsparse (f : FL)
  /-- R148. Expands a 2:4 packed register back to dense elements. -/
  | vunsparse (f : FL)
  /-- R149. Element-wise 2^x into vD. -/
  | vexp2 (f : FL)
  /-- R149. Element-wise log2 x into vD. -/
  | vlog2 (f : FL)
  /-- R149. Element-wise reciprocal into vD. -/
  | vrcp (f : FL)
  /-- R149. Element-wise reciprocal square root into vD. -/
  | vrsq (f : FL)
  /-- R149. Element-wise tanh into vD. -/
  | vtanh (f : FL)
  /-- R150. Copies active elements of A into vD. -/
  | vmov (f : FL)
  /-- R150. Fills active elements of vD with a scalar's low bits. -/
  | vsplat (f : FL)
  /-- R150. Inserts a scalar into one element of vD. -/
  | vins (f : FL)
  /-- R150. Extracts one element of A, extended, into sD. -/
  | vext (f : FL)
  /-- R159. Multiplies local A and B tiles named by a shape object into an accumulator. -/
  | mmaL (f : FL)
  /-- R159. Multiplies local A and B tiles named by tile objects into an accumulator. -/
  | mmaX (f : FX)
  /-- R159. Matrix multiply with cluster-addressed operands, shape object form. -/
  | mmarL (f : FL)
  /-- R159. Matrix multiply with cluster-addressed operands, tile object form. -/
  | mmarX (f : FX)
  /-- R162. Issues this core's portion of a ganged product with a multicast B, shape object form. -/
  | mmagL (f : FL)
  /-- R162. Issues this core's portion of a ganged product, tile object form. -/
  | mmagX (f : FX)
  /-- R162. Ganged product with a remote A operand, shape object form. -/
  | mmagrL (f : FL)
  /-- R162. Ganged product with a remote A operand, tile object form. -/
  | mmagrX (f : FX)
  /-- R168. Zeroes an accumulator, or its active elements, and resets its state. -/
  | mzero (f : FL)
  /-- R169. Loads a tile into an accumulator on its grid, with masks for -∞. -/
  | mload (f : FL)
  /-- R170. Runs the ABFT compare and writes the accumulator, rounded once, to a tile. -/
  | mdrain (f : FL)
  /-- R171. Raises an accumulator's tile exponent to a given value. -/
  | mexp (f : FL)
  /-- R171. Runs the ABFT compare alone on an accumulator. -/
  | mchk (f : FL)
  /-- R172. Moves one side register between an accumulator and a v register. -/
  | mside (f : FL)
  /-- R171. Transposes an accumulator and rebuilds its checksums. -/
  | mtrans (f : FL)
  /-- R174. Performs one online-softmax step on each accumulator row. -/
  | msmax (f : FL)
  /-- R175. Scales each row of an accumulator by another accumulator's correction factors. -/
  | mscale (f : FL)
  /-- R176. Sets mask bits of an accumulator by causal, band, tree or explicit mode. -/
  | mmask (f : FL)
  /-- R177. Zeroes an accumulator and applies a tree mask. -/
  | mtree (f : FL)
  /-- R198. Loads 1 to 8 bytes of local scratchpad into sD. -/
  | ld (f : FL)
  /-- R198. Loads 512 bytes of local scratchpad into vD. -/
  | ldv (f : FL)
  /-- R198. Loads from another core's scratchpad by cluster address into sD. -/
  | ldr (f : FL)
  /-- R198. Loads 128 bytes of local scratchpad into kD. -/
  | ldk (f : FL)
  /-- R199. Stores 1 to 8 bytes to local scratchpad. -/
  | st (f : FL)
  /-- R199. Stores the active elements of a v register to local scratchpad. -/
  | stv (f : FL)
  /-- R199. Direct store to another core's scratchpad by cluster address. -/
  | str (f : FL)
  /-- R199. Stores a predicate register to local scratchpad. -/
  | stk (f : FL)
  /-- R201. Speculative shared load into sD, recorded in the read signature. -/
  | lds (f : FL)
  /-- R202. Speculative acquire load that sets ORDST from the release record. -/
  | lda (f : FL)
  /-- R201. Speculative 512-byte shared load into vD. -/
  | ldsv (f : FL)
  /-- R203. Buffers a shared store in the staging area and sends a translation probe. -/
  | sts (f : FL)
  /-- R204. Waits for safety, flushes staged lines and writes a release word. -/
  | strel (f : FL)
  /-- R203. Buffers a 512-byte shared vector store in the staging area. -/
  | stsv (f : FL)
  /-- R205. Direct multicast store of 256 bytes to every member of a group. -/
  | stsm (f : FL)
  /-- R207. Direct value-returning atomic on a shared word at its home. -/
  | atom (f : FL)
  /-- R209. Direct atomic reduction without a result. -/
  | red (f : FL)
  /-- R210. Remote value-returning atomic sent to the home's atomic engine. -/
  | atomr (f : FL)
  /-- R210. Remote reduction sent to the home's atomic engine. -/
  | redr (f : FL)
  /-- R211. Waits for safety and visibility at a scope, flushing staged lines and optionally engines. -/
  | fence (min : BitVec 4) (f : FA)
  /-- R212. Direct store to a cluster address that decrements a target arrival counter, 16-bit displacement. -/
  | puthL (f : FL)
  /-- R212. PUTH with a 32-bit displacement. -/
  | puthX (f : FX)
  /-- R213. Joins a ring rotation of a tile among the members of a group. -/
  | rot (f : FL)
  /-- R214. Asks stations to pre-walk the pages a tile touches. -/
  | pft (f : FL)
  /-- R217. Direct command to a copy engine to move or convert elements under a descriptor. -/
  | copy (f : FL)
  /-- R222. Direct command to an erasure engine to compute parity members. -/
  | ecenc (f : FL)
  /-- R222. Direct command to an erasure engine to rebuild erased members. -/
  | ecrec (f : FL)
  /-- R223. Registers a task lock on a local scratchpad range. -/
  | rlock (f : FL)
  /-- R223. Releases a task lock with exactly that base and length. -/
  | runlock (f : FL)
  /-- R224. Allocates a block from the partition heap into sD, or 0 with NOMEM. -/
  | alloc (f : FA)
  /-- R224. Returns a heap block to the partition heap. -/
  | free (f : FA)
  /-- R255. Direct send of a message to an endpoint's handler or engine opcode. -/
  | send (f : FL)
  /-- R255. Direct multicast message to every member of a group. -/
  | sendm (f : FL)
  /-- R255. Direct message to the reply endpoint of the task's activation message. -/
  | reply (f : FL)
  /-- R256. Places the activation message's payload into s1 to s7. -/
  | recv (f : FL)
  /-- R257. Writes the inbox and ingress occupancy of the core into sD. -/
  | pollq (f : FL)
  /-- R261. Direct request adding a child task to the launch, handler from the launch or sC. -/
  | spawnL (f : FL)
  /-- R261. Direct request adding a child task at a handler offset. -/
  | spawnX (f : FX)
  /-- R259. Direct launch request from a descriptor object to a cluster's dispatcher. -/
  | launchL (f : FL)
  /-- R259. Direct launch request with a handler offset in LIT32. -/
  | launchX (f : FX)
  /-- R262. Direct request ending a launch named by its handle. -/
  | abort (f : FL)
  /-- R258. ABORT encoded in format X, which the major allows; LIT32 is not used. -/
  | abortX (f : FX)
  /-- R264. Waits for safety and opens a reef with preserved and held ranges. -/
  | reef (f : FL)
  /-- R265. Re-executes a named reef or its nearest intact ancestor. -/
  | reefx (f : FL)
  /-- R266. Writes the state of a reef record into sD. -/
  | reefq (f : FL)
  /-- R268. Arrives at the next generation of a group barrier and continues. -/
  | bar (f : FL)
  /-- R268. Arrives at the next barrier generation and waits for it to complete. -/
  | barw (f : FL)
  /-- R269. Arms an arrival counter with a 16-bit count or sA, no handler. -/
  | actrL (f : FL)
  /-- R269. Arms an arrival counter with a 32-bit count and an optional handler. -/
  | actrX (f : FX)
  /-- R270. Waits until an arrival counter is not armed. -/
  | waitc (f : FL)
  /-- R335. Reads a counter into sD. -/
  | ctrr (f : FA)
  /-- R336. Returns a counter's old content and clears or sets it where permitted. -/
  | ctrw (f : FA)
  /-- R338. Holds issue until package time reaches sA. -/
  | waitt (f : FA)
  /-- R338. Writes package time in ns, and with .f the fraction and LOCKED, to sD. -/
  | time (f : FA)
  /-- R325. Waits for safety and starts a ratline loop at the MF0 controller. -/
  | rlbegin (f : FL)
  /-- R326. Reserves a ratline cell for the iteration in round one. -/
  | rlrsv (f : FL)
  /-- R327. Writes whether the iteration holds all its cells into kD. -/
  | rlchk (f : FL)
  /-- R328. Reads a ratline cell into sD, checked against the hold list in round two. -/
  | rlld (f : FL)
  /-- R328. Writes a held ratline cell at its bank in round two. -/
  | rlst (f : FL)
  /-- R329. Ends a body activation, committing or with .fail queuing it for retry. -/
  | rlend (f : FL)
  /-- R330. Reports window or loop counts of the current or last loop. -/
  | rlstat (f : FL)
  /-- R303. Executes the micro-op sequence bound to a jib slot, format A. -/
  | jibA (slot : BitVec 6) (f : FA)
  /-- R303. Executes the micro-op sequence bound to a jib slot, format L with parcel 1 fields. -/
  | jibL (slot : BitVec 6) (f : FL)
  /-- R73. Retires as a counted no-op. -/
  | nop
  /-- R73. No-op that fetches a named block into the code buffer. -/
  | pfh (off : BitVec 19)
  /-- R73. No-op that sets the network priority of the task's later shared requests. -/
  | prio (n : BitVec 2)
  /-- R73. No-op that tells fetch the following parcels are padding. -/
  | alignh (n : BitVec 4)
  /-- R73. An unnamed hint encoding of one parcel. -/
  | hint1 (p0 : BitVec 32)
  /-- R73. An unnamed hint encoding of two parcels. -/
  | hint2 (p0 p1 : BitVec 32)
  /-- R73. An unnamed hint encoding of three parcels. -/
  | hint3 (p0 p1 p2 : BitVec 32)
  /-- R244. An inbox accepts an arriving or held message, counts it and fills the sender's status. Data: n: place in the network, or with yes, n: core and m: inbox of a message held at ingress. -/
  | inboxAccept
  /-- R24. A free half activates the head message of the highest-priority non-empty inbox. Data: n: half. -/
  | taskActivation
  /-- R314. The loader finishes fetching a set into free pages, evicting if needed, and switches banks. Data: n: cluster, m: partition. -/
  | jibSetResident
  /-- R25. The dispatcher accepts a launch with a free tag or refuses it with BUSY. Data: n: place among the launch requests. -/
  | launchRequest
  /-- R261. The dispatcher accepts a spawned child at the next index or returns QUOTA or NOINDEX. Data: n: place among the spawn requests. -/
  | spawnAccept
  /-- R262. The dispatcher drops a launch's indices, discards its tasks and sends TERMINATED. Data: n: place among the abort requests. -/
  | abortRequest
  /-- R26. The dispatcher places the lowest unplaced index on the least-loaded eligible member. Data: n: 8 x cluster + tag, or 256 + partition for a ratline loop. -/
  | taskPlacement
  /-- R27. A reduction sweep checks idleness and message sums and ends the launch when two agree. Data: n: 8 x cluster + tag. -/
  | launchEndSweep
  /-- R30. The dispatcher saves a blocked team's registers and regions and frees its halves. Data: n: 8 x cluster + tag. -/
  | teamSwapOut
  /-- R30. A swapped team returns to its cores with its regions written back. Data: n: task, m: half. -/
  | teamRestore
  /-- R37. The reef's arbiter commits a task in timestamp order, writing its staged set. Data: n: task. -/
  | commitRequest
  /-- R38. A direct operation waiting for safety takes the commit slot and is sent. Data: n: half. -/
  | taskSafeSend
  /-- R35. The device discards a reef's uncommitted tasks and relaunches it from its launch record. Data: n: partition, m: reef. -/
  | reefReexecution
  /-- R40. The slot scheduler gives a free slot to the earliest-deadline queue with budget. Data: n: slot. -/
  | slotSchedule
  /-- R40. A queue that exhausts its budget loses its slot and an OVERRUN message is sent. Data: n: slot. -/
  | overrun
  /-- R40. A queue's period starts and its budget is refilled. Data: n: queue. -/
  | queuePeriodStart
  /-- R248. A slot serves the head entry of its launch queue by sending a LAUNCH request. Data: n: slot. -/
  | launchQueueServe
  /-- R248. After 1 µs of a BUSY refusal the slot moves to another queue. Data: n: slot. -/
  | slotBusyTimeout
  /-- R41. At a tenant's slice end the dispatcher sets SSW.PREQ on its cores. Data: n: partition. -/
  | sliceEnd
  /-- R41. When PDLC reaches PDL the core forces a save at the next boundary. Data: n: half. -/
  | pdlForcedSave
  /-- R42. A task whose resident clk reach WDOG is terminated and recorded. Data: n: half. -/
  | wdog
  /-- R43. A save drain finishes and the half becomes free. Data: n: half. -/
  | saveComplete
  /-- R43. A restore fill finishes and the task begins issuing. Data: n: half. -/
  | restoreComplete
  /-- R341. After all cores end a quantum, deferred requests and external effects are applied in order. Data: n: partition. -/
  | quantumBoundary
  /-- R78. A long-latency value arrives, is written and sets its register full. Data: n: place among the values in flight. -/
  | registerFill
  /-- R79. A parity error on a read is repaired by replay, task re-run or reef re-execution. Data: n: half, gran: the granule. -/
  | parityError
  /-- R184. A code fetch completes, faults or is refused with an ACCESS trap. Data: n: half, ecc: what the memory's code reports. -/
  | codeFetch
  /-- R273. A pending trap writes its frame below s30 and enters the handler at TVEC. Data: n: half. -/
  | trapDelivery
  /-- R187. A station translates a shared request by range table, page cache or walk. Data: n: place among the shared requests. -/
  | translationRequest
  /-- R188. A walk ends with a cached translation or a page fault. Data: n: place among the shared requests, m: level of the entry that ecc is about, ecc: what the memory's code reports. -/
  | pageWalkComplete
  /-- R190. The station posts a fault to the page request queue, waiting for an entry if none is free. Data: n: place among the shared requests. -/
  | pageFaultPost
  /-- R189. Station opcode invalidating one page's cached entries. Data: n: station. -/
  | invpage
  /-- R189. Station opcode invalidating an ASID's cached entries. Data: n: station. -/
  | invasid
  /-- R189. Station opcode invalidating every cached entry. Data: n: station. -/
  | invall
  /-- R252. Station opcode that retries or fails the held requests of a page request entry. Data: n: station. -/
  | resume
  /-- R297. Station opcode writing a translation range entry. Data: n: station. -/
  | rangew
  /-- R297. Station opcode invalidating a translation range entry. Data: n: station. -/
  | rangeinv
  /-- R192. A refused store probe traps the task ACCESS and drops its staged lines. Data: n: place among the shared requests. -/
  | probeRefusal
  /-- R194. The home of a word applies an arriving access in arrival order. Data: n: place among the shared requests, ecc: what the memory's code reports. -/
  | homeAccess
  /-- R347. After 256 corrections on one pin group the Stays mark it failed. Data: n: pseudo-channel, m: pin group. -/
  | pinGroupFailed
  /-- R236. Atomic engine opcode that widens a release record whose tag still matches. Data: n: place among the requests at the atomic engines. -/
  | widen
  /-- R196. An access to another core's scratchpad is checked against its gate windows and locks. Data: n: place among the remote accesses, ecc: what the memory's code reports. -/
  | remoteScratchpadAccess
  /-- R205. A member checks and writes a multicast line whole, or refuses it. Data: n: operation, m: core. -/
  | stsmMemberWrite
  /-- R385. Switches merge member answers and fill sD at the last merge. Data: n: operation. -/
  | stsmAnswerMerge
  /-- R246. An engine takes a command from its queue and starts it. Data: n: engine. -/
  | engineCommandStart
  /-- R219. Engine bytes land at their destination and decrement an arrival counter. Data: n: command, m: first element, k: how many, yes: they are only read, ecc: what the code of their memory reports. -/
  | engineBytesLand
  /-- R219. The last byte lands, the destination lock is released and the status fills. Data: n: command. -/
  | engineCommandComplete
  /-- R269. A counter reaches zero, disarms and starts its handler if one is named. Data: n: core, m: counter. -/
  | arrivalCounterZero
  /-- R210. An atomic engine applies a remote atomic or reduction at its home. Data: n: place among the requests at the atomic engines, ecc: what the memory's code reports. -/
  | atomicEngineRequest
  /-- R247. A remote atomic reply fills its completion queue entry and sD. Data: n: place among the replies. -/
  | atomrReply
  /-- R225. The heap unit applies an ALLOC or FREE to the partition heap map. Data: n: place among the heap requests. -/
  | heapRequest
  /-- R162. When every member has issued, the gang reads B once and multicasts it. Data: n: gang, m: range of the operand and k: byte of it that ecc is about, ecc: what the memory's code reports. -/
  | gangStart
  /-- R162. One completion message sets every member's accumulator full in the same clk. Data: n: gang. -/
  | gangComplete
  /-- R213. When every member has issued ROT, the tiles move around the ring. Data: n: ring. -/
  | ringStart
  /-- R160. A matrix instruction loads operands and runs the prescan, taking any trap. Data: n: matrix operation, m: range of the operands and k: byte of it that ecc is about, ecc: what the memory's code reports. -/
  | mmulLoadPhase
  /-- R159. The compute phase finishes, the products are added and the accumulator is full. Data: n: matrix operation, yes: the residue check fails. -/
  | mmulComputeDone
  /-- R268. A barrier generation completes and its BARW waiters continue. Data: n: place among the barriers. -/
  | barrierGenerationComplete
  /-- R338. Package time reaches the WAITT target and the task continues. Data: n: half. -/
  | waittExpire
  /-- R325. The MF0 controller accepts a loop or refuses it with BUSY. Data: n: place among the loop requests. -/
  | ratlineRequest
  /-- R318. The controllers fill a window and start its round one. Data: n: partition. -/
  | ratlineWindowStart
  /-- R320. After round one ends, hold lists are built and round two starts. Data: n: partition. -/
  | holdListBuild
  /-- R325. A window leaving no retry ends the loop and fills RLBEGIN's status. Data: n: partition. -/
  | ratlineLoopEnd
  /-- R249. A virtual function reset completes its descriptors with RESET and frees its queues. Data: n: virtual function. -/
  | vfReset
  /-- R360. The mapper handles a host vsock packet and sends a message for its data. Data: n: virtual function, pkt: the packet. -/
  | vsockPacket
  /-- R362. The mapper copies a host send ring entry into the next host rx buffer. Data: n: virtual function, yes: the host has posted an rx buffer. -/
  | hostSendRingService
  /-- R359. A driver negotiates virtio features, failing FEATURES_OK without VERSION_1. Data: n: virtual function, word: the features the driver accepts. -/
  | virtioFeatureNegotiation
  /-- R363. A frame received in Ethernet mode lands in the network ring and starts the handler. Data: n: port, bytes: the frame. -/
  | ethernetFrameReceive
  /-- R10. A die-to-die link retries or repairs a failed lane invisibly. Data: n: link, 4 x compute die + MF die, yes: a retry, as against a repair. -/
  | ucieLaneRepair
  /-- R349. A port that loses a lane retrains narrower and resends unacknowledged flits. Data: n: port, m: how many flits are sent again. -/
  | nimoshLaneLoss
  /-- R350. Every 100 ms the Stays run a self-test on each core. Data: n: core, yes: the test passes, bytes: the scratchpad words that cannot be read, two bytes for each number, m: 1 when the inboxes, counters or gate cannot be read. -/
  | coreSelfTest
  /-- R351. A lost compute die is replaced by a spare and its reefs re-executed. Data: n: die, m: package and k: physical die of a remote spare. -/
  | computeDieLoss
  /-- R352. A lost MF die stops and recovers the partitions that use it. Data: n: die. -/
  | mfDieLoss
  /-- R353. After 1 ms of silence a package is declared lost and a standby takes its id. Data: n: package. -/
  | packageLoss
  /-- R355. A signed diagnosis arrives and the action is decided at its threshold. Data: vote: the diagnosis. -/
  | diagnosisVote
  /-- R355. A vote short of its threshold after 10 ms declines. Data: n: place among the votes. -/
  | voteTimeout
  /-- R365. The Stays boot, train links, write the spar map and start the partitions. Data: none. -/
  | powerOnBringUp
  /-- R367. Every 10 µs the Stays poll the management page and answer a request. Data: n: partition. -/
  | managementPagePoll
  /-- R368. Power or coolant over limit lowers the core clock by a step. Data: n: watts, m: coolant flow in tenths of a litre per minute, k: inlet temperature. -/
  | clockStepDown
  /-- R368. Above 60 °C inlet the Stays stop every partition. Data: n: inlet temperature. -/
  | inletOverLimit
  /-- R337. A PTP message disciplines package time. Data: n: ns, m: fraction. -/
  | ptpMessage
  /-- R337. Lost lock puts the clock in holdover and clears LOCKED. Data: none. -/
  | ptpLockLoss
  /-- R366. A request written by the host to the PF virtio-console port reaches the forestay's command shell, which answers it, for example with a signed attestation report. Data: bytes: the line. -/
  | consoleCommand
  /-- R363. A flit that arrives on a Nimosh port with a failed CRC is sent again from the 64-flit replay buffer, and LINK is incremented. Data: n: port. -/
  | nimoshLinkRetry
  /-- R241. A partition is torn down, and its page request queue entries are freed along with its resources. Data: n: partition. -/
  | partitionTeardown
  deriving DecidableEq, Repr

end Sys2Proof
end

