-- ==== Sys2Proof/Decode.lean ====
section
/-! DEFINITION. Decoding and encoding of instructions (spec/04_encoding.md, R56 to R75). Decoding is total
and rejects by name; the encoder writes the parcels of a term from the same layouts. -/
namespace Sys2Proof

/-- Why parcels are not an instruction (R75). -/
inductive DecodeError where
  /-- No parcel is left to decode. -/
  | noParcel
  /-- LEN = 0b11 where an instruction is expected: a header (R57, R73). -/
  | header
  /-- A major from 0x31 to 0x37 (R70). -/
  | undefinedMajor
  /-- A minor that R70 does not list. -/
  | undefinedMinor
  /-- A LEN that the format column of the major does not allow (R70). -/
  | badLength
  /-- The instruction runs past the parcels given (R57). -/
  | truncated
  deriving DecidableEq, Repr

/-- MAJ, bits [7:2] of parcel 0. -/
def majOf (p : Parcel) : Nat := (p.extractLsb' 2 6).toNat

/-- LEN, bits [1:0] of parcel 0 (R56). -/
def lenOf (p : Parcel) : Nat := (p.extractLsb' 0 2).toNat

/-- MIN, bits [31:28] of parcel 0. -/
def minOf (p : Parcel) : Nat := (p.extractLsb' 28 4).toNat

/-- The register and predicate fields of a format A parcel (R59). -/
def faOf (p : Parcel) : FA :=
  { k := p.extractLsb' 25 3, wb := p.getLsbD 24, wa := p.getLsbD 23
    b := p.extractLsb' 18 5, a := p.extractLsb' 13 5, d := p.extractLsb' 8 5 }

/-- The fields of a format I parcel (R59). -/
def fiOf (p : Parcel) : FI :=
  { imm := p.extractLsb' 19 13, wa := p.getLsbD 18, a := p.extractLsb' 13 5, d := p.extractLsb' 8 5 }

/-- The fields of a shift-immediate parcel (R66). -/
def fsOf (p : Parcel) : FS :=
  { rsv := p.extractLsb' 25 5, amt := p.extractLsb' 19 6, wa := p.getLsbD 18
    a := p.extractLsb' 13 5, d := p.extractLsb' 8 5 }

/-- The fields of a format J parcel (R59). -/
def fjOf (p : Parcel) : FJ :=
  { off := p.extractLsb' 13 19, tk := p.getLsbD 12, clr := p.getLsbD 11, k := p.extractLsb' 8 3 }

/-- The fields of a format L pair of parcels (R59). -/
def flOf (p q : Parcel) : FL :=
  { r := faOf p, sc := q.extractLsb' 30 2, obj := q.extractLsb' 14 16, m := q.extractLsb' 10 4
    t := q.extractLsb' 6 4, wc := q.getLsbD 5, c := q.extractLsb' 0 5 }

/-- The fields of a format X triple of parcels (R59). -/
def fxOf (p q r : Parcel) : FX := { l := flOf p q, lit := r }

/-- Parcel 0 of formats A, L and X (R59). -/
def parcelA (maj : BitVec 6) (len : BitVec 2) (min : BitVec 4) (f : FA) : Parcel :=
  min ++ f.k ++ BitVec.ofBool f.wb ++ BitVec.ofBool f.wa ++ f.b ++ f.a ++ f.d ++ maj ++ len

/-- Format I (R59). -/
def parcelI (maj : BitVec 6) (f : FI) : Parcel :=
  f.imm ++ BitVec.ofBool f.wa ++ f.a ++ f.d ++ maj ++ 0#2

/-- Format I with the shift fields of R66. -/
def parcelS (maj : BitVec 6) (op : BitVec 2) (f : FS) : Parcel :=
  op ++ f.rsv ++ f.amt ++ BitVec.ofBool f.wa ++ f.a ++ f.d ++ maj ++ 0#2

/-- Format J (R59). -/
def parcelJ (maj : BitVec 6) (f : FJ) : Parcel :=
  f.off ++ BitVec.ofBool f.tk ++ BitVec.ofBool f.clr ++ f.k ++ maj ++ 0#2

/-- Parcel 1 of formats L and X (R59). -/
def parcel1 (f : FL) : Parcel :=
  f.sc ++ f.obj ++ f.m ++ f.t ++ BitVec.ofBool f.wc ++ f.c

/-- The minors of each format A major, from 0 (R70). -/
def minorsA : Nat → List (FA → Instr)
  | 0x00 => [.add, .sub, .and, .or, .xor, .andn, .shl, .shr, .sar, .rol, .min, .max, .minn, .maxn, .clz, .popc]
  | 0x01 => [.mul, .mulh, .mulhn, .div, .divn, .rem, .remn]
  | 0x02 => [.ceq, .cne, .clt, .cle, .cltn, .clen, .ctst]
  | 0x09 => [.kand, .kor, .kxor, .knot, .kmovs, .kmovk, .kpopc, .kfirst]
  | 0x0F => [.callr, .jr, .ret, .endT, .yield, .trap, .tret, .bkpt]
  | 0x12 => [.crr, .crw, .crx]
  | 0x13 => [.gatew, .gater, .objw, .objr, .grpw, .qmap, .jbind, .jload, .ssav, .srst, .ipi]
  | 0x2A => [.alloc, .free]
  | 0x2F => [.ctrr, .ctrw, .waitt, .time]
  | _ => []

/-- The minors of each format L major, from 0 (R70). -/
def minorsL : Nat → List (FL → Instr)
  | 0x14 => [.vadd, .vsub, .vmul, .vfma, .vmin, .vmax, .vabs, .vneg, .vand, .vor, .vxor, .vshl, .vshr, .vsar, .vsel, .vmulh]
  | 0x15 => [.vwadd, .vwsub, .vwmul, .vwfma, .vnarrow, .vcvt, .vdot4]
  | 0x16 => [.vcmp, .vtest]
  | 0x17 => [.vredsum, .vredmax, .vredmin, .vredand, .vredor, .vscan]
  | 0x18 => [.vperm, .vslide, .vbcast, .viota, .vcompress, .vexpand, .vzip, .vunzip]
  | 0x19 => [.vsort, .vmerge, .vsearch, .vsparse, .vunsparse]
  | 0x1A => [.vexp2, .vlog2, .vrcp, .vrsq, .vtanh]
  | 0x1B => [.vmov, .vsplat, .vins, .vext]
  | 0x1C => [.mmaL, .mmarL, .mmagL, .mmagrL]
  | 0x1D => [.mzero, .mload, .mdrain, .mexp, .mchk, .mside, .mtrans]
  | 0x1E => [.msmax, .mscale, .mmask, .mtree]
  | 0x1F => [.ld, .ldv, .ldr, .ldk]
  | 0x20 => [.st, .stv, .str, .stk]
  | 0x21 => [.lds, .lda, .ldsv]
  | 0x22 => [.sts, .strel, .stsv, .stsm]
  | 0x23 => [.atom]
  | 0x24 => [.red]
  | 0x25 => [.atomr, .redr]
  | 0x27 => [.puthL, .rot, .pft]
  | 0x28 => [.copy, .ecenc, .ecrec]
  | 0x29 => [.rlock, .runlock]
  | 0x2B => [.send, .sendm, .reply, .recv, .pollq]
  | 0x2C => [.spawnL, .launchL, .abort]
  | 0x2D => [.reef, .reefx, .reefq]
  | 0x2E => [.bar, .barw, .actrL, .waitc]
  | 0x30 => [.rlbegin, .rlrsv, .rlchk, .rlld, .rlst, .rlend, .rlstat]
  | _ => []

/-- The minors of the majors that format X allows (R70). TASK, MMUL and PLACE, and ACTR of SYNC. -/
def minorsX : Nat → Nat → Option (FX → Instr)
  | 0x1C, 0 => some .mmaX
  | 0x1C, 1 => some .mmarX
  | 0x1C, 2 => some .mmagX
  | 0x1C, 3 => some .mmagrX
  | 0x27, 0 => some .puthX
  | 0x2C, 0 => some .spawnX
  | 0x2C, 1 => some .launchX
  | 0x2C, 2 => some .abortX
  | 0x2E, 2 => some .actrX
  | _, _ => none

/-- A hint of one parcel: the named forms first (R73). -/
def decodeHint (p : Parcel) : Instr :=
  if p = 0xF0#32 then .nop
  else if p.extractLsb' 0 13 = 0xF4#13 then .pfh (p.extractLsb' 13 19)
  else if p.extractLsb' 0 28 = 0xF8#28 ∧ p.extractLsb' 30 2 = 0#2 then .prio (p.extractLsb' 28 2)
  else if p.extractLsb' 0 28 = 0xFC#28 then .alignh (p.extractLsb' 28 4)
  else .hint1 p

/-- The jib slot of a parcel: (MAJ - 0x38) x 16 + MIN (R74). -/
def jibSlotOf (p : Parcel) : BitVec 6 := p.extractLsb' 2 2 ++ p.extractLsb' 28 4

/-- An instruction of one parcel (R56, R59, R70). -/
def decode1 (p : Parcel) : Except DecodeError Instr :=
  match majOf p with
  | 0x03 => .ok (.addi (fiOf p))
  | 0x04 => .ok (.andi (fiOf p))
  | 0x05 => .ok (.ori (fiOf p))
  | 0x06 => .ok (.xori (fiOf p))
  | 0x07 =>
    match (p.extractLsb' 30 2).toNat with
    | 0 => .ok (.shli (fsOf p))
    | 1 => .ok (.shri (fsOf p))
    | 2 => .ok (.sari (fsOf p))
    | _ => .error .undefinedMinor
  | 0x08 => .ok (.cmpi (fiOf p))
  | 0x0C => .ok (.br (fjOf p))
  | 0x0D => .ok (.jmp (fjOf p))
  | 0x0E => .ok (.call (fjOf p))
  | 0x10 => .ok (.loop (fjOf p))
  | 0x11 => .ok (.vbr (fjOf p))
  | 0x26 => .ok (.fence (p.extractLsb' 28 4) (faOf p))
  | 0x38 | 0x39 | 0x3A | 0x3B => .ok (.jibA (jibSlotOf p) (faOf p))
  | 0x3C | 0x3D | 0x3E | 0x3F => .ok (decodeHint p)
  | 0x31 | 0x32 | 0x33 | 0x34 | 0x35 | 0x36 | 0x37 => .error .undefinedMajor
  | maj =>
    if (minorsA maj).isEmpty then .error .badLength
    else match (minorsA maj)[minOf p]? with
      | some c => .ok (c (faOf p))
      | none => .error .undefinedMinor

/-- An instruction of two parcels (R56, R59, R70). -/
def decode2 (p q : Parcel) : Except DecodeError Instr :=
  match majOf p with
  | 0x0B => .ok (.leaL (p.extractLsb' 28 4) (flOf p q))
  | 0x38 | 0x39 | 0x3A | 0x3B => .ok (.jibL (jibSlotOf p) (flOf p q))
  | 0x3C | 0x3D | 0x3E | 0x3F => .ok (.hint2 p q)
  | 0x31 | 0x32 | 0x33 | 0x34 | 0x35 | 0x36 | 0x37 => .error .undefinedMajor
  | maj =>
    if (minorsL maj).isEmpty then .error .badLength
    else match (minorsL maj)[minOf p]? with
      | some c => .ok (c (flOf p q))
      | none => .error .undefinedMinor

/-- An instruction of three parcels (R56, R59, R70). MOVL with SC = 0b01 is MOVL.hi (R71). -/
def decode3 (p q r : Parcel) : Except DecodeError Instr :=
  match majOf p with
  | 0x0A => if q.extractLsb' 30 2 = 1#2 then .ok (.movlHi (p.extractLsb' 28 4) (fxOf p q r))
    else .ok (.movl (p.extractLsb' 28 4) (fxOf p q r))
  | 0x0B => .ok (.leaX (p.extractLsb' 28 4) (fxOf p q r))
  | 0x3C | 0x3D | 0x3E | 0x3F => .ok (.hint3 p q r)
  | 0x31 | 0x32 | 0x33 | 0x34 | 0x35 | 0x36 | 0x37 => .error .undefinedMajor
  | maj =>
    match minorsX maj (minOf p) with
    | some c => .ok (c (fxOf p q r))
    | none =>
      if maj = 0x1C ∨ maj = 0x27 ∨ maj = 0x2C ∨ maj = 0x2E then .error .undefinedMinor else .error .badLength

/-- The instruction at the head of a list of parcels, and the parcels after it (R57). -/
def decode : List Parcel → Except DecodeError (Instr × List Parcel)
  | [] => .error .noParcel
  | p :: rest =>
    match lenOf p with
    | 0 => (decode1 p).map (·, rest)
    | 1 => match rest with
      | q :: rest => (decode2 p q).map (·, rest)
      | [] => .error .truncated
    | 2 => match rest with
      | q :: r :: rest => (decode3 p q r).map (·, rest)
      | _ => .error .truncated
    | _ => .error .header

/-- The parcels that bytes hold, little-endian (R2, R56); bytes short of a parcel are dropped. -/
def parcelsOf : List Byte → List Parcel
  | b0 :: b1 :: b2 :: b3 :: rest => (b3 ++ b2 ++ b1 ++ b0 : Parcel) :: parcelsOf rest
  | _ => []

/-- The four bytes of a parcel, lowest address first (R2). -/
def bytesOfParcel (p : Parcel) : List Byte :=
  [p.extractLsb' 0 8, p.extractLsb' 8 8, p.extractLsb' 16 8, p.extractLsb' 24 8]

/-- The instruction that bytes hold. -/
def decodeBytes (bs : List Byte) : Except DecodeError Instr := (decode (parcelsOf bs)).map (·.1)

/-- A format L instruction. -/
def encL (maj : BitVec 6) (min : BitVec 4) (f : FL) : List Parcel := [parcelA maj 1#2 min f.r, parcel1 f]

/-- A format X instruction. -/
def encX (maj : BitVec 6) (min : BitVec 4) (f : FX) : List Parcel :=
  [parcelA maj 2#2 min f.l.r, parcel1 f.l, f.lit]

/-- The parcels of an instruction (R59, R70 to R74); an event has none. -/
def encode : Instr → List Parcel
  | .add f => [parcelA 0x00#6 0#2 0#4 f]
  | .sub f => [parcelA 0x00#6 0#2 1#4 f]
  | .and f => [parcelA 0x00#6 0#2 2#4 f]
  | .or f => [parcelA 0x00#6 0#2 3#4 f]
  | .xor f => [parcelA 0x00#6 0#2 4#4 f]
  | .andn f => [parcelA 0x00#6 0#2 5#4 f]
  | .shl f => [parcelA 0x00#6 0#2 6#4 f]
  | .shr f => [parcelA 0x00#6 0#2 7#4 f]
  | .sar f => [parcelA 0x00#6 0#2 8#4 f]
  | .rol f => [parcelA 0x00#6 0#2 9#4 f]
  | .min f => [parcelA 0x00#6 0#2 10#4 f]
  | .max f => [parcelA 0x00#6 0#2 11#4 f]
  | .minn f => [parcelA 0x00#6 0#2 12#4 f]
  | .maxn f => [parcelA 0x00#6 0#2 13#4 f]
  | .clz f => [parcelA 0x00#6 0#2 14#4 f]
  | .popc f => [parcelA 0x00#6 0#2 15#4 f]
  | .mul f => [parcelA 0x01#6 0#2 0#4 f]
  | .mulh f => [parcelA 0x01#6 0#2 1#4 f]
  | .mulhn f => [parcelA 0x01#6 0#2 2#4 f]
  | .div f => [parcelA 0x01#6 0#2 3#4 f]
  | .divn f => [parcelA 0x01#6 0#2 4#4 f]
  | .rem f => [parcelA 0x01#6 0#2 5#4 f]
  | .remn f => [parcelA 0x01#6 0#2 6#4 f]
  | .ceq f => [parcelA 0x02#6 0#2 0#4 f]
  | .cne f => [parcelA 0x02#6 0#2 1#4 f]
  | .clt f => [parcelA 0x02#6 0#2 2#4 f]
  | .cle f => [parcelA 0x02#6 0#2 3#4 f]
  | .cltn f => [parcelA 0x02#6 0#2 4#4 f]
  | .clen f => [parcelA 0x02#6 0#2 5#4 f]
  | .ctst f => [parcelA 0x02#6 0#2 6#4 f]
  | .addi f => [parcelI 0x03#6 f]
  | .andi f => [parcelI 0x04#6 f]
  | .ori f => [parcelI 0x05#6 f]
  | .xori f => [parcelI 0x06#6 f]
  | .shli f => [parcelS 0x07#6 0#2 f]
  | .shri f => [parcelS 0x07#6 1#2 f]
  | .sari f => [parcelS 0x07#6 2#2 f]
  | .cmpi f => [parcelI 0x08#6 f]
  | .kand f => [parcelA 0x09#6 0#2 0#4 f]
  | .kor f => [parcelA 0x09#6 0#2 1#4 f]
  | .kxor f => [parcelA 0x09#6 0#2 2#4 f]
  | .knot f => [parcelA 0x09#6 0#2 3#4 f]
  | .kmovs f => [parcelA 0x09#6 0#2 4#4 f]
  | .kmovk f => [parcelA 0x09#6 0#2 5#4 f]
  | .kpopc f => [parcelA 0x09#6 0#2 6#4 f]
  | .kfirst f => [parcelA 0x09#6 0#2 7#4 f]
  | .movl min f => encX 0x0A#6 min f
  | .movlHi min f => encX 0x0A#6 min f
  | .leaL min f => encL 0x0B#6 min f
  | .leaX min f => encX 0x0B#6 min f
  | .br f => [parcelJ 0x0C#6 f]
  | .jmp f => [parcelJ 0x0D#6 f]
  | .call f => [parcelJ 0x0E#6 f]
  | .loop f => [parcelJ 0x10#6 f]
  | .vbr f => [parcelJ 0x11#6 f]
  | .callr f => [parcelA 0x0F#6 0#2 0#4 f]
  | .jr f => [parcelA 0x0F#6 0#2 1#4 f]
  | .ret f => [parcelA 0x0F#6 0#2 2#4 f]
  | .endT f => [parcelA 0x0F#6 0#2 3#4 f]
  | .yield f => [parcelA 0x0F#6 0#2 4#4 f]
  | .trap f => [parcelA 0x0F#6 0#2 5#4 f]
  | .tret f => [parcelA 0x0F#6 0#2 6#4 f]
  | .bkpt f => [parcelA 0x0F#6 0#2 7#4 f]
  | .crr f => [parcelA 0x12#6 0#2 0#4 f]
  | .crw f => [parcelA 0x12#6 0#2 1#4 f]
  | .crx f => [parcelA 0x12#6 0#2 2#4 f]
  | .gatew f => [parcelA 0x13#6 0#2 0#4 f]
  | .gater f => [parcelA 0x13#6 0#2 1#4 f]
  | .objw f => [parcelA 0x13#6 0#2 2#4 f]
  | .objr f => [parcelA 0x13#6 0#2 3#4 f]
  | .grpw f => [parcelA 0x13#6 0#2 4#4 f]
  | .qmap f => [parcelA 0x13#6 0#2 5#4 f]
  | .jbind f => [parcelA 0x13#6 0#2 6#4 f]
  | .jload f => [parcelA 0x13#6 0#2 7#4 f]
  | .ssav f => [parcelA 0x13#6 0#2 8#4 f]
  | .srst f => [parcelA 0x13#6 0#2 9#4 f]
  | .ipi f => [parcelA 0x13#6 0#2 10#4 f]
  | .vadd f => encL 0x14#6 0#4 f
  | .vsub f => encL 0x14#6 1#4 f
  | .vmul f => encL 0x14#6 2#4 f
  | .vfma f => encL 0x14#6 3#4 f
  | .vmin f => encL 0x14#6 4#4 f
  | .vmax f => encL 0x14#6 5#4 f
  | .vabs f => encL 0x14#6 6#4 f
  | .vneg f => encL 0x14#6 7#4 f
  | .vand f => encL 0x14#6 8#4 f
  | .vor f => encL 0x14#6 9#4 f
  | .vxor f => encL 0x14#6 10#4 f
  | .vshl f => encL 0x14#6 11#4 f
  | .vshr f => encL 0x14#6 12#4 f
  | .vsar f => encL 0x14#6 13#4 f
  | .vsel f => encL 0x14#6 14#4 f
  | .vmulh f => encL 0x14#6 15#4 f
  | .vwadd f => encL 0x15#6 0#4 f
  | .vwsub f => encL 0x15#6 1#4 f
  | .vwmul f => encL 0x15#6 2#4 f
  | .vwfma f => encL 0x15#6 3#4 f
  | .vnarrow f => encL 0x15#6 4#4 f
  | .vcvt f => encL 0x15#6 5#4 f
  | .vdot4 f => encL 0x15#6 6#4 f
  | .vcmp f => encL 0x16#6 0#4 f
  | .vtest f => encL 0x16#6 1#4 f
  | .vredsum f => encL 0x17#6 0#4 f
  | .vredmax f => encL 0x17#6 1#4 f
  | .vredmin f => encL 0x17#6 2#4 f
  | .vredand f => encL 0x17#6 3#4 f
  | .vredor f => encL 0x17#6 4#4 f
  | .vscan f => encL 0x17#6 5#4 f
  | .vperm f => encL 0x18#6 0#4 f
  | .vslide f => encL 0x18#6 1#4 f
  | .vbcast f => encL 0x18#6 2#4 f
  | .viota f => encL 0x18#6 3#4 f
  | .vcompress f => encL 0x18#6 4#4 f
  | .vexpand f => encL 0x18#6 5#4 f
  | .vzip f => encL 0x18#6 6#4 f
  | .vunzip f => encL 0x18#6 7#4 f
  | .vsort f => encL 0x19#6 0#4 f
  | .vmerge f => encL 0x19#6 1#4 f
  | .vsearch f => encL 0x19#6 2#4 f
  | .vsparse f => encL 0x19#6 3#4 f
  | .vunsparse f => encL 0x19#6 4#4 f
  | .vexp2 f => encL 0x1A#6 0#4 f
  | .vlog2 f => encL 0x1A#6 1#4 f
  | .vrcp f => encL 0x1A#6 2#4 f
  | .vrsq f => encL 0x1A#6 3#4 f
  | .vtanh f => encL 0x1A#6 4#4 f
  | .vmov f => encL 0x1B#6 0#4 f
  | .vsplat f => encL 0x1B#6 1#4 f
  | .vins f => encL 0x1B#6 2#4 f
  | .vext f => encL 0x1B#6 3#4 f
  | .mmaL f => encL 0x1C#6 0#4 f
  | .mmaX f => encX 0x1C#6 0#4 f
  | .mmarL f => encL 0x1C#6 1#4 f
  | .mmarX f => encX 0x1C#6 1#4 f
  | .mmagL f => encL 0x1C#6 2#4 f
  | .mmagX f => encX 0x1C#6 2#4 f
  | .mmagrL f => encL 0x1C#6 3#4 f
  | .mmagrX f => encX 0x1C#6 3#4 f
  | .mzero f => encL 0x1D#6 0#4 f
  | .mload f => encL 0x1D#6 1#4 f
  | .mdrain f => encL 0x1D#6 2#4 f
  | .mexp f => encL 0x1D#6 3#4 f
  | .mchk f => encL 0x1D#6 4#4 f
  | .mside f => encL 0x1D#6 5#4 f
  | .mtrans f => encL 0x1D#6 6#4 f
  | .msmax f => encL 0x1E#6 0#4 f
  | .mscale f => encL 0x1E#6 1#4 f
  | .mmask f => encL 0x1E#6 2#4 f
  | .mtree f => encL 0x1E#6 3#4 f
  | .ld f => encL 0x1F#6 0#4 f
  | .ldv f => encL 0x1F#6 1#4 f
  | .ldr f => encL 0x1F#6 2#4 f
  | .ldk f => encL 0x1F#6 3#4 f
  | .st f => encL 0x20#6 0#4 f
  | .stv f => encL 0x20#6 1#4 f
  | .str f => encL 0x20#6 2#4 f
  | .stk f => encL 0x20#6 3#4 f
  | .lds f => encL 0x21#6 0#4 f
  | .lda f => encL 0x21#6 1#4 f
  | .ldsv f => encL 0x21#6 2#4 f
  | .sts f => encL 0x22#6 0#4 f
  | .strel f => encL 0x22#6 1#4 f
  | .stsv f => encL 0x22#6 2#4 f
  | .stsm f => encL 0x22#6 3#4 f
  | .atom f => encL 0x23#6 0#4 f
  | .red f => encL 0x24#6 0#4 f
  | .atomr f => encL 0x25#6 0#4 f
  | .redr f => encL 0x25#6 1#4 f
  | .fence min f => [parcelA 0x26#6 0#2 min f]
  | .puthL f => encL 0x27#6 0#4 f
  | .puthX f => encX 0x27#6 0#4 f
  | .rot f => encL 0x27#6 1#4 f
  | .pft f => encL 0x27#6 2#4 f
  | .copy f => encL 0x28#6 0#4 f
  | .ecenc f => encL 0x28#6 1#4 f
  | .ecrec f => encL 0x28#6 2#4 f
  | .rlock f => encL 0x29#6 0#4 f
  | .runlock f => encL 0x29#6 1#4 f
  | .alloc f => [parcelA 0x2A#6 0#2 0#4 f]
  | .free f => [parcelA 0x2A#6 0#2 1#4 f]
  | .send f => encL 0x2B#6 0#4 f
  | .sendm f => encL 0x2B#6 1#4 f
  | .reply f => encL 0x2B#6 2#4 f
  | .recv f => encL 0x2B#6 3#4 f
  | .pollq f => encL 0x2B#6 4#4 f
  | .spawnL f => encL 0x2C#6 0#4 f
  | .spawnX f => encX 0x2C#6 0#4 f
  | .launchL f => encL 0x2C#6 1#4 f
  | .launchX f => encX 0x2C#6 1#4 f
  | .abort f => encL 0x2C#6 2#4 f
  | .abortX f => encX 0x2C#6 2#4 f
  | .reef f => encL 0x2D#6 0#4 f
  | .reefx f => encL 0x2D#6 1#4 f
  | .reefq f => encL 0x2D#6 2#4 f
  | .bar f => encL 0x2E#6 0#4 f
  | .barw f => encL 0x2E#6 1#4 f
  | .actrL f => encL 0x2E#6 2#4 f
  | .actrX f => encX 0x2E#6 2#4 f
  | .waitc f => encL 0x2E#6 3#4 f
  | .ctrr f => [parcelA 0x2F#6 0#2 0#4 f]
  | .ctrw f => [parcelA 0x2F#6 0#2 1#4 f]
  | .waitt f => [parcelA 0x2F#6 0#2 2#4 f]
  | .time f => [parcelA 0x2F#6 0#2 3#4 f]
  | .rlbegin f => encL 0x30#6 0#4 f
  | .rlrsv f => encL 0x30#6 1#4 f
  | .rlchk f => encL 0x30#6 2#4 f
  | .rlld f => encL 0x30#6 3#4 f
  | .rlst f => encL 0x30#6 4#4 f
  | .rlend f => encL 0x30#6 5#4 f
  | .rlstat f => encL 0x30#6 6#4 f
  | .jibA slot f => [parcelA (14#4 ++ slot.extractLsb' 4 2) 0#2 (slot.extractLsb' 0 4) f]
  | .jibL slot f => encL (14#4 ++ slot.extractLsb' 4 2) (slot.extractLsb' 0 4) f
  | .nop => [0xF0#32]
  | .pfh off => [off ++ 0xF4#13]
  | .prio n => [0#2 ++ n ++ 0xF8#28]
  | .alignh n => [n ++ 0xFC#28]
  | .hint1 p => [p]
  | .hint2 p q => [p, q]
  | .hint3 p q r => [p, q, r]
  | .inboxAccept => []
  | .taskActivation => []
  | .jibSetResident => []
  | .launchRequest => []
  | .spawnAccept => []
  | .abortRequest => []
  | .taskPlacement => []
  | .launchEndSweep => []
  | .teamSwapOut => []
  | .teamRestore => []
  | .commitRequest => []
  | .taskSafeSend => []
  | .reefReexecution => []
  | .slotSchedule => []
  | .overrun => []
  | .queuePeriodStart => []
  | .launchQueueServe => []
  | .slotBusyTimeout => []
  | .sliceEnd => []
  | .pdlForcedSave => []
  | .wdog => []
  | .saveComplete => []
  | .restoreComplete => []
  | .quantumBoundary => []
  | .registerFill => []
  | .parityError => []
  | .codeFetch => []
  | .trapDelivery => []
  | .translationRequest => []
  | .pageWalkComplete => []
  | .pageFaultPost => []
  | .invpage => []
  | .invasid => []
  | .invall => []
  | .resume => []
  | .rangew => []
  | .rangeinv => []
  | .probeRefusal => []
  | .homeAccess => []
  | .pinGroupFailed => []
  | .widen => []
  | .remoteScratchpadAccess => []
  | .stsmMemberWrite => []
  | .stsmAnswerMerge => []
  | .engineCommandStart => []
  | .engineBytesLand => []
  | .engineCommandComplete => []
  | .arrivalCounterZero => []
  | .atomicEngineRequest => []
  | .atomrReply => []
  | .heapRequest => []
  | .gangStart => []
  | .gangComplete => []
  | .ringStart => []
  | .mmulLoadPhase => []
  | .mmulComputeDone => []
  | .barrierGenerationComplete => []
  | .waittExpire => []
  | .ratlineRequest => []
  | .ratlineWindowStart => []
  | .holdListBuild => []
  | .ratlineLoopEnd => []
  | .vfReset => []
  | .vsockPacket => []
  | .hostSendRingService => []
  | .virtioFeatureNegotiation => []
  | .ethernetFrameReceive => []
  | .ucieLaneRepair => []
  | .nimoshLaneLoss => []
  | .coreSelfTest => []
  | .computeDieLoss => []
  | .mfDieLoss => []
  | .packageLoss => []
  | .diagnosisVote => []
  | .voteTimeout => []
  | .powerOnBringUp => []
  | .managementPagePoll => []
  | .clockStepDown => []
  | .inletOverLimit => []
  | .ptpMessage => []
  | .ptpLockLoss => []
  | .consoleCommand => []
  | .nimoshLinkRetry => []
  | .partitionTeardown => []

/-- How many parcels an instruction has (R56); an event has none. -/
def parcelCount (i : Instr) : Nat := (encode i).length

/-- The instruction that the decoder reads from an instruction whose bits are `w`, bit 0 the least significant
bit of the first parcel; the bits above `nbits`, up to three parcels, are zero. Parcels are stored little-endian,
so bit order and byte order agree. -/
def decodeTableWord (nbits w : Nat) : Option Instr :=
  let v : Nat := w % 2 ^ nbits
  let bytes : List Byte := (List.range 12).map fun j => BitVec.ofNat 8 (v / 2 ^ (8 * j))
  match decodeBytes bytes with
  | .ok i => some i
  | .error _ => none

end Sys2Proof
end

