-- ==== Sys2Proof/Machine/Checks.lean ====
section
/-! DEFINITION. The encoding checks that R75 gathers: codes and field combinations that make an encoding trap ILL
whatever the state (spec/04_encoding.md R66 to R75; spec/08, R126 to R149; spec/09, R154 to R172; spec/14, R253,
R258; spec/19, R334, R338). Checks that depend on the state are made at issue. -/
namespace Sys2Proof.Machine

/-- The width in bits of an element type code (R68, R89): 6-bit types count as their 8-bit containers. -/
def typeWidth (t : BitVec 4) : Nat :=
  match t.toNat with
  | 0 | 1 => 8
  | 2 | 3 => 16
  | 4 | 5 => 32
  | 6 => 64
  | 7 => 4
  | 8 => 32
  | 9 | 10 => 16
  | 11 | 12 | 13 => 8
  | 14 => 4
  | _ => 8

/-- An integer type that vector instructions take (R68). -/
def isIntType (t : BitVec 4) : Bool := t.toNat ≤ 5 || t.toNat = 7

/-- A floating type that vector arithmetic takes (R68). -/
def isFloatType (t : BitVec 4) : Bool := t.toNat = 8 || t.toNat = 9 || t.toNat = 10

/-- A type that the vector column of R68 marks "yes". -/
def isVecType (t : BitVec 4) : Bool := isIntType t || isFloatType t

/-- Any code but i64: the types of VCVT, VNARROW, MLOAD, MDRAIN, LDV and STV (R68, R71, R198). -/
def notI64 (t : BitVec 4) : Bool := t.toNat ≠ 6

/-- The first register of a group of `g` (R132). -/
def groupAligned (r : BitVec 5) (g : Nat) : Bool := r.toNat % g = 0

/-- VARITH (R71, R126, R130): `ints` restricts the minor to integer types. -/
def okVarith (ints : Bool) (f : FL) : Bool :=
  isVecType f.t && (!ints || isIntType f.t) && f.sc.toNat ≤ 1 && !(f.m.getLsbD 0 && isFloatType f.t)

/-- VWADD, VWSUB, VWMUL, VWFMA (R132, R133). -/
def okVwide (f : FL) : Bool :=
  f.sc.toNat ≠ 3 && [0, 1, 2, 3, 7, 9, 10].contains f.t.toNat && groupAligned f.r.d 2

/-- The destination type of VCVT and VNARROW, OBJ16[3:0] (R129). -/
def cvtDst (f : FL) : BitVec 4 := f.obj.extractLsb' 0 4

/-- VCVT (R134): the destination is 1, 2 or 4 times as wide. -/
def okVcvt (f : FL) : Bool :=
  let ws := typeWidth f.t; let wd := typeWidth (cvtDst f)
  f.sc.toNat ≠ 3 && notI64 f.t && notI64 (cvtDst f) && (wd = ws || wd = 2 * ws || wd = 4 * ws)
    && groupAligned f.r.d (wd / ws)

/-- VNARROW (R134): the source is 2 or 4 times as wide. -/
def okVnarrow (f : FL) : Bool :=
  let ws := typeWidth f.t; let wd := typeWidth (cvtDst f)
  f.sc.toNat ≠ 3 && notI64 f.t && notI64 (cvtDst f) && (ws = 2 * wd || ws = 4 * wd)
    && groupAligned f.r.a (ws / wd)

/-- VDOT4 (R135). -/
def okVdot4 (f : FL) : Bool := f.sc.toNat ≠ 3 && [0, 1, 7, 9, 10].contains f.t.toNat

/-- VCMP (R136): condition code 7, and .tst on a float, are undefined. -/
def okVcmp (f : FL) : Bool :=
  isVecType f.t && (f.m.extractLsb' 0 3).toNat ≠ 7 && !((f.m.extractLsb' 0 3).toNat = 6 && isFloatType f.t)

/-- Any vector type (R126). -/
def okVec (f : FL) : Bool := isVecType f.t

/-- Integer types only (R126). -/
def okVecInt (f : FL) : Bool := isIntType f.t

/-- VSCAN (R71): M[1:0] = 0b11 is undefined. -/
def okVscan (f : FL) : Bool := isVecType f.t && (f.m.extractLsb' 0 2).toNat ≠ 3

/-- VPERM (R140): the index registers are a pair for 8-bit and a quad for 4-bit elements. -/
def okVperm (f : FL) : Bool :=
  isVecType f.t && (if typeWidth f.t = 8 then groupAligned f.r.b 2
    else if typeWidth f.t = 4 then groupAligned f.r.b 4 else true)

/-- VMERGE (R146): D is even. -/
def okVmerge (f : FL) : Bool := isVecType f.t && groupAligned f.r.d 2

/-- VSFU (R71). -/
def okVsfu (f : FL) : Bool := isFloatType f.t

/-- MEXP, MCHK and MTRANS (R154). -/
def okWhole (f : FL) : Bool := f.r.k.toNat = 0

/-- MSIDE (R71, R154, R172). -/
def okMside (f : FL) : Bool := f.r.k.toNat = 0 && (f.m.extractLsb' 0 2).toNat ≠ 3 && f.sc.toNat ≤ 1

/-- MLOAD (R169). -/
def okMload (f : FL) : Bool := notI64 f.t

/-- MDRAIN (R71, R170). -/
def okMdrain (f : FL) : Bool := notI64 f.t && f.sc.toNat ≠ 3

/-- LDV, STV, LDSV, STSV: the element type is any but i64 (R198); that LDSV and STSV take the types of LDV and STV is the
model's choice (log 105). -/
def okVmem (f : FL) : Bool := notI64 f.t

/-- LDA and STREL (R200): M[3:1] is a scope of R69. -/
def okScope (f : FL) : Bool := (f.m.extractLsb' 1 3).toNat ≤ 4

/-- ATOM and ATOMR (R71, R206). -/
def okAtom (f : FL) : Bool :=
  f.m.toNat ≤ 12 && f.sc.toNat ≥ 2 && (f.m.toNat < 10 || (f.sc.toNat = 2 && f.t.toNat = 8))

/-- RED and REDR (R71, R209). -/
def okRed (f : FL) : Bool := okAtom f && f.m.toNat ≠ 8 && f.m.toNat ≠ 9

/-- SEND, SENDM and REPLY (R253): the payload ends at s31. -/
def okSend (f : FL) : Bool := f.r.b.toNat + (f.m.extractLsb' 0 3).toNat ≤ 32

/-- A format X TASK (R258): M[1] is 0. -/
def okTaskX (f : FX) : Bool := !f.l.m.getLsbD 1

/-- CRR, CRW and CRX (R72). -/
def okCreg (f : FA) : Bool := f.b.toNat ≤ 24

/-- CTRR and CTRW (R334). -/
def okCtr (f : FA) : Bool := f.b.toNat ≤ 10

/-- TIME.f with D = 31 (R338). -/
def okTime (f : FA) : Bool := !(f.b.getLsbD 0 && f.d.toNat = 31)

/-- CMPI (R108): condition code 7. -/
def okCmpi (f : FI) : Bool := (f.imm.extractLsb' 10 3).toNat ≠ 7

/-- MOVL (R112), without `.hi`. -/
def okMovl (f : FX) : Bool := (f.l.t.toNat = 4 || f.l.t.toNat = 5) && f.l.sc.toNat = 0

/-- MOVL.hi (R112). -/
def okMovlHi (f : FX) : Bool := (f.l.t.toNat = 4 || f.l.t.toNat = 5) && f.l.sc.toNat = 1

/-- FENCE (R211): MIN[2:0] is a scope. -/
def okFence (min : BitVec 4) : Bool := (min.extractLsb' 0 3).toNat ≤ 4

/-- An unnamed hint keeps a parcel of the hint region (R73). -/
def okHint1 (p : Parcel) : Bool := lenOf p = 0 && majOf p ≥ 0x3C && decide (decodeHint p = .hint1 p)

/-- A hint of two parcels (R73). -/
def okHint2 (p : Parcel) : Bool := lenOf p = 1 && majOf p ≥ 0x3C

/-- A hint of three parcels (R73). -/
def okHint3 (p : Parcel) : Bool := lenOf p = 2 && majOf p ≥ 0x3C

/-- Whether a term is an encoding that R75 defines; events are not encodings and are well formed. -/
def encodingDefined : Instr → Bool
  | .add _ => true
  | .sub _ => true
  | .and _ => true
  | .or _ => true
  | .xor _ => true
  | .andn _ => true
  | .shl _ => true
  | .shr _ => true
  | .sar _ => true
  | .rol _ => true
  | .min _ => true
  | .max _ => true
  | .minn _ => true
  | .maxn _ => true
  | .clz _ => true
  | .popc _ => true
  | .mul _ => true
  | .mulh _ => true
  | .mulhn _ => true
  | .div _ => true
  | .divn _ => true
  | .rem _ => true
  | .remn _ => true
  | .ceq _ => true
  | .cne _ => true
  | .clt _ => true
  | .cle _ => true
  | .cltn _ => true
  | .clen _ => true
  | .ctst _ => true
  | .addi _ => true
  | .andi _ => true
  | .ori _ => true
  | .xori _ => true
  | .shli _ => true
  | .shri _ => true
  | .sari _ => true
  | .cmpi f => okCmpi f
  | .kand _ => true
  | .kor _ => true
  | .kxor _ => true
  | .knot _ => true
  | .kmovs _ => true
  | .kmovk _ => true
  | .kpopc _ => true
  | .kfirst _ => true
  | .movl _ f => okMovl f
  | .movlHi _ f => okMovlHi f
  | .leaL _ _ => true
  | .leaX _ _ => true
  | .br _ => true
  | .jmp _ => true
  | .call _ => true
  | .loop _ => true
  | .vbr _ => true
  | .callr _ => true
  | .jr _ => true
  | .ret _ => true
  | .endT _ => true
  | .yield _ => true
  | .trap _ => true
  | .tret _ => true
  | .bkpt _ => true
  | .crr f => okCreg f
  | .crw f => okCreg f
  | .crx f => okCreg f
  | .gatew _ => true
  | .gater _ => true
  | .objw _ => true
  | .objr _ => true
  | .grpw _ => true
  | .qmap _ => true
  | .jbind _ => true
  | .jload _ => true
  | .ssav _ => true
  | .srst _ => true
  | .ipi _ => true
  | .vadd f => okVarith false f
  | .vsub f => okVarith false f
  | .vmul f => okVarith false f
  | .vfma f => okVarith false f
  | .vmin f => okVarith false f
  | .vmax f => okVarith false f
  | .vabs f => okVarith false f
  | .vneg f => okVarith false f
  | .vand f => okVarith true f
  | .vor f => okVarith true f
  | .vxor f => okVarith true f
  | .vshl f => okVarith true f
  | .vshr f => okVarith true f
  | .vsar f => okVarith true f
  | .vsel f => okVarith false f
  | .vmulh f => okVarith true f
  | .vwadd f => okVwide f
  | .vwsub f => okVwide f
  | .vwmul f => okVwide f
  | .vwfma f => okVwide f
  | .vnarrow f => okVnarrow f
  | .vcvt f => okVcvt f
  | .vdot4 f => okVdot4 f
  | .vcmp f => okVcmp f
  | .vtest f => okVec f
  | .vredsum f => okVec f
  | .vredmax f => okVec f
  | .vredmin f => okVec f
  | .vredand f => okVecInt f
  | .vredor f => okVecInt f
  | .vscan f => okVscan f
  | .vperm f => okVperm f
  | .vslide f => okVec f
  | .vbcast f => okVec f
  | .viota f => okVecInt f
  | .vcompress f => okVec f
  | .vexpand f => okVec f
  | .vzip f => okVec f
  | .vunzip f => okVec f
  | .vsort f => okVec f
  | .vmerge f => okVmerge f
  | .vsearch f => okVec f
  | .vsparse f => okVec f
  | .vunsparse f => okVec f
  | .vexp2 f => okVsfu f
  | .vlog2 f => okVsfu f
  | .vrcp f => okVsfu f
  | .vrsq f => okVsfu f
  | .vtanh f => okVsfu f
  | .vmov f => okVec f
  | .vsplat f => okVec f
  | .vins f => okVec f
  | .vext f => okVec f
  | .mmaL _ => true
  | .mmaX _ => true
  | .mmarL _ => true
  | .mmarX _ => true
  | .mmagL _ => true
  | .mmagX _ => true
  | .mmagrL _ => true
  | .mmagrX _ => true
  | .mzero _ => true
  | .mload f => okMload f
  | .mdrain f => okMdrain f
  | .mexp f => okWhole f
  | .mchk f => okWhole f
  | .mside f => okMside f
  | .mtrans f => okWhole f
  | .msmax _ => true
  | .mscale _ => true
  | .mmask _ => true
  | .mtree _ => true
  | .ld _ => true
  | .ldv f => okVmem f
  | .ldr _ => true
  | .ldk _ => true
  | .st _ => true
  | .stv f => okVmem f
  | .str _ => true
  | .stk _ => true
  | .lds _ => true
  | .lda f => okScope f
  | .ldsv f => okVmem f
  | .sts _ => true
  | .strel f => okScope f
  | .stsv f => okVmem f
  | .stsm _ => true
  | .atom f => okAtom f
  | .red f => okRed f
  | .atomr f => okAtom f
  | .redr f => okRed f
  | .fence min _ => okFence min
  | .puthL _ => true
  | .puthX _ => true
  | .rot _ => true
  | .pft _ => true
  | .copy _ => true
  | .ecenc _ => true
  | .ecrec _ => true
  | .rlock _ => true
  | .runlock _ => true
  | .alloc _ => true
  | .free _ => true
  | .send f => okSend f
  | .sendm f => okSend f
  | .reply f => okSend f
  | .recv _ => true
  | .pollq _ => true
  | .spawnL _ => true
  | .spawnX f => okTaskX f
  | .launchL _ => true
  | .launchX f => okTaskX f
  | .abort _ => true
  | .abortX f => okTaskX f
  | .reef _ => true
  | .reefx _ => true
  | .reefq _ => true
  | .bar _ => true
  | .barw _ => true
  | .actrL _ => true
  | .actrX _ => true
  | .waitc _ => true
  | .ctrr f => okCtr f
  | .ctrw f => okCtr f
  | .waitt _ => true
  | .time f => okTime f
  | .rlbegin _ => true
  | .rlrsv _ => true
  | .rlchk _ => true
  | .rlld _ => true
  | .rlst _ => true
  | .rlend _ => true
  | .rlstat _ => true
  | .jibA _ _ => true
  | .jibL _ _ => true
  | .nop => true
  | .pfh _ => true
  | .prio _ => true
  | .alignh _ => true
  | .hint1 p => okHint1 p
  | .hint2 p _ => okHint2 p
  | .hint3 p _ _ => okHint3 p
  | .inboxAccept => true
  | .taskActivation => true
  | .jibSetResident => true
  | .launchRequest => true
  | .spawnAccept => true
  | .abortRequest => true
  | .taskPlacement => true
  | .launchEndSweep => true
  | .teamSwapOut => true
  | .teamRestore => true
  | .commitRequest => true
  | .taskSafeSend => true
  | .reefReexecution => true
  | .slotSchedule => true
  | .overrun => true
  | .queuePeriodStart => true
  | .launchQueueServe => true
  | .slotBusyTimeout => true
  | .sliceEnd => true
  | .pdlForcedSave => true
  | .wdog => true
  | .saveComplete => true
  | .restoreComplete => true
  | .quantumBoundary => true
  | .registerFill => true
  | .parityError => true
  | .codeFetch => true
  | .trapDelivery => true
  | .translationRequest => true
  | .pageWalkComplete => true
  | .pageFaultPost => true
  | .invpage => true
  | .invasid => true
  | .invall => true
  | .resume => true
  | .rangew => true
  | .rangeinv => true
  | .probeRefusal => true
  | .homeAccess => true
  | .pinGroupFailed => true
  | .widen => true
  | .remoteScratchpadAccess => true
  | .stsmMemberWrite => true
  | .stsmAnswerMerge => true
  | .engineCommandStart => true
  | .engineBytesLand => true
  | .engineCommandComplete => true
  | .arrivalCounterZero => true
  | .atomicEngineRequest => true
  | .atomrReply => true
  | .heapRequest => true
  | .gangStart => true
  | .gangComplete => true
  | .ringStart => true
  | .mmulLoadPhase => true
  | .mmulComputeDone => true
  | .barrierGenerationComplete => true
  | .waittExpire => true
  | .ratlineRequest => true
  | .ratlineWindowStart => true
  | .holdListBuild => true
  | .ratlineLoopEnd => true
  | .vfReset => true
  | .vsockPacket => true
  | .hostSendRingService => true
  | .virtioFeatureNegotiation => true
  | .ethernetFrameReceive => true
  | .ucieLaneRepair => true
  | .nimoshLaneLoss => true
  | .coreSelfTest => true
  | .computeDieLoss => true
  | .mfDieLoss => true
  | .packageLoss => true
  | .diagnosisVote => true
  | .voteTimeout => true
  | .powerOnBringUp => true
  | .managementPagePoll => true
  | .clockStepDown => true
  | .inletOverLimit => true
  | .ptpMessage => true
  | .ptpLockLoss => true
  | .consoleCommand => true
  | .nimoshLinkRetry => true
  | .partitionTeardown => true

end Sys2Proof.Machine
end

