-- ==== Sys2Proof/Machine/Bits.lean ====
section
/-! DEFINITION. Bit fields, sign extension and the elements of vector registers (spec/00_scope.md R2, R4;
spec/06_number_formats.md R89). -/
namespace Sys2Proof.Machine

/-- Bits [hi:lo] of a natural number (R2). -/
def bits (x hi lo : Nat) : Nat := x / 2 ^ lo % 2 ^ (hi + 1 - lo)

/-- Bit i of a natural number. -/
def bit (x i : Nat) : Bool := x / 2 ^ i % 2 = 1

/-- Bits [hi:lo] of a word, as a number. -/
def wbits (x : Word) (hi lo : Nat) : Nat := bits x.toNat hi lo

/-- sext(x, 64) of an n-bit field. -/
def sx {n : Nat} (x : BitVec n) : Word := x.signExtend 64

/-- zext(x, 64) of an n-bit field. -/
def zx {n : Nat} (x : BitVec n) : Word := x.setWidth 64

/-- A number as a word, modulo 2^64. -/
def word (n : Nat) : Word := BitVec.ofNat 64 n

/-- An integer as a word, modulo 2^64. -/
def wordI (n : Int) : Word := BitVec.ofInt 64 n

/-- A boolean as a number. -/
def b2n (b : Bool) : Nat := if b then 1 else 0

/-- The bits [hi:lo] of a word replaced. -/
def putBits (x : Word) (hi lo : Nat) (v : Nat) : Word :=
  let m := (2 ^ (hi + 1 - lo) - 1) * 2 ^ lo
  (x &&& ~~~ word m) ||| word ((v % 2 ^ (hi + 1 - lo)) * 2 ^ lo)

/-- The number of elements of width w in a vector register (R125). -/
def lanesOf (w : Nat) : Nat := 4096 / w

/-- Element i of a vector register, as a pattern of w bits (R89). -/
def elem (v : VReg) (w i : Nat) : Nat := v.toNat / 2 ^ (w * i) % 2 ^ w

/-- A vector register from the patterns of its elements, element 0 lowest. -/
def ofElems (w : Nat) : List Nat → Nat
  | [] => 0
  | x :: t => x % 2 ^ w + 2 ^ w * ofElems w t

/-- A vector register from a function of the element index. -/
def vecOf (w : Nat) (f : Nat → Nat) : VReg := BitVec.ofNat 4096 (ofElems w ((List.range (lanesOf w)).map f))

/-- A mask from a function of the bit index. -/
def maskOf (f : Nat → Bool) : Mask := BitVec.ofNat 1024 (ofElems 1 ((List.range 1024).map fun i => b2n (f i)))

/-- The signed value of a w-bit pattern. -/
def sval (w x : Nat) : Int := if x < 2 ^ (w - 1) then (x : Int) else (x : Int) - (2 ^ w : Nat)

/-- The w-bit pattern of an integer, modulo 2^w. -/
def pat (w : Nat) (x : Int) : Nat := (x % ((2 ^ w : Nat) : Int)).toNat

/-- The number of set bits. -/
def popCount : Nat → Nat → Nat
  | 0, _ => 0
  | n + 1, x => x % 2 + popCount n (x / 2)

/-- The index of the lowest set bit among n bits. -/
def lowestSet (n x : Nat) : Option Nat := (List.range n).find? fun i => bit x i

/-- The number of leading zeros among n bits. -/
def leadingZeros (n x : Nat) : Nat := if x = 0 then n else n - 1 - x.log2

/-- Little-endian bytes of a number (R2). -/
def toBytes : Nat → Nat → List Byte
  | 0, _ => []
  | n + 1, x => BitVec.ofNat 8 x :: toBytes n (x / 256)

/-- The number that little-endian bytes hold (R2). -/
def ofBytes : List Byte → Nat
  | [] => 0
  | b :: t => b.toNat + 256 * ofBytes t

/-- Words that little-endian bytes hold. -/
def wordsOf : List Byte → List Word
  | b0 :: b1 :: b2 :: b3 :: b4 :: b5 :: b6 :: b7 :: t =>
    word (ofBytes [b0, b1, b2, b3, b4, b5, b6, b7]) :: wordsOf t
  | _ => []

/-- The n-th word of a list, 0 beyond it. -/
def nth (l : List Word) (n : Nat) : Word := l.getD n 0

end Sys2Proof.Machine
end

