-- ==== Sys2Proof/Machine/Map.lean ====
section
/-! DEFINITION. Tables: lists of key and value with rising keys. -/
namespace Sys2Proof.Machine

/-- The value at a key. -/
def tget {α : Type} : Table α → Nat → Option α
  | [], _ => none
  | (k, v) :: t, i => if i = k then some v else if i < k then none else tget t i

/-- The table with a value at a key. -/
def tput {α : Type} : Table α → Nat → α → Table α
  | [], i, x => [(i, x)]
  | (k, v) :: t, i, x =>
    if i < k then (i, x) :: (k, v) :: t
    else if i = k then (i, x) :: t
    else (k, v) :: tput t i x

/-- The table without a key. -/
def tdel {α : Type} : Table α → Nat → Table α
  | [], _ => []
  | (k, v) :: t, i =>
    if i < k then (k, v) :: t
    else if i = k then t
    else (k, v) :: tdel t i

/-- The table with a value, or without one, at a key. -/
def tset {α : Type} (t : Table α) (i : Nat) : Option α → Table α
  | some x => tput t i x
  | none => tdel t i

/-- Every key lies above a bound, and the keys rise. -/
def tabove {α : Type} : Nat → Table α → Bool
  | _, [] => true
  | lo, (k, _) :: t => decide (lo ≤ k) && tabove (k + 1) t

/-- The keys rise. -/
def trising {α : Type} (t : Table α) : Bool := tabove 0 t

/-- The value at a key, or a default. -/
def tgetD {α : Type} (t : Table α) (i : Nat) (d : α) : α := (tget t i).getD d

/-- The values that a predicate on key and value keeps. -/
def tfilter {α : Type} (p : Nat → α → Bool) (t : Table α) : Table α := t.filter fun x => p x.1 x.2

/-- The table with every value changed. -/
def tmap {α : Type} (f : Nat → α → α) (t : Table α) : Table α := t.map fun x => (x.1, f x.1 x.2)

/-- The n-th element of a list changed. -/
def lset {α : Type} : List α → Nat → α → List α
  | [], _, _ => []
  | _ :: t, 0, x => x :: t
  | y :: t, n + 1, x => y :: lset t n x

/-- The list without its n-th element. -/
def ldel {α : Type} : List α → Nat → List α
  | [], _ => []
  | _ :: t, 0 => t
  | y :: t, n + 1 => y :: ldel t n

end Sys2Proof.Machine
end

