-- ==== Sys2Proof/Machine/State.lean ====
section
/-! DEFINITION. Everything the machine holds, as plain data (INVENTORY.md, heading State), the reasons a step can
stop, and the machine right after reset. Operations over it are in Machine/Map.lean, Machine/Bits.lean and
Machine/Ops.lean. -/
namespace Sys2Proof.Machine

/-- A granule that parity protects (R79, R316). -/
inductive Granule where
  | s (r : Nat)
  | v (r slice : Nat)
  | k (r slice : Nat)
  | side (acc row : Nat)
  | control (n : Nat)
  | jib (n : Nat)
  deriving DecidableEq, Repr

/-- What the code of a memory reports for the read of an access (R185). -/
inductive Ecc where
  | clean
  | corrected (group : Nat)
  | uncorrectable
  deriving DecidableEq, Repr

/-- A vsock packet that the host driver places on the tx virtqueue (R360). -/
structure VsockPkt where
  srcCid : BitVec 64
  dstCid : BitVec 64
  srcPort : BitVec 32
  dstPort : BitVec 32
  stream : Bool
  op : BitVec 16
  bufAlloc : BitVec 32
  fwdCnt : BitVec 32
  payload : List Byte
  deriving DecidableEq, Repr

/-- A signed diagnosis on its way to the voters (R355). -/
structure Diagnosis where
  cls : Nat
  unit : Nat
  epoch : Nat
  /-- Package of the Stay that signed it. -/
  package : Nat
  /-- Which Stay of that package: false forestay, true backstay. -/
  backstay : Bool
  deriving DecidableEq, Repr

/-- What an event of the table is given: which docstring of `Instr` uses which field. -/
structure EventData where
  n : Nat
  m : Nat
  k : Nat
  yes : Bool
  gran : Granule
  ecc : Ecc
  word : Word
  bytes : List Byte
  pkt : Option VsockPkt
  vote : Option Diagnosis
  deriving DecidableEq, Repr

/-- No data. -/
def EventData.none : EventData := ⟨0, 0, 0, false, .s 0, .clean, 0, [], .none, .none⟩

/-- Trap and error causes (R276). -/
inductive Cause where
  | ill | absent | empty | align | bound | stale | tretx | badssw | rlock | gate | access | badtgt | wdog | fpx
  | trapi | bkpt | priv | held | resmiss | jiblim | detww | double
  deriving DecidableEq, Repr

/-- A register that an instruction reads or writes. -/
inductive Reg where
  | s (r : Nat)
  | v (r : Nat)
  | k (r : Nat)
  | a (r : Nat)
  deriving DecidableEq, Repr

/-- An accumulator (R77, R92 to R96, R164). Elements are 48-bit two's complement by 32r + c, an unlisted element
being 0 and 0x8000_0000_0000 being NF; checksums are by 8 x block + line, an unlisted one being 0, `none` NF. -/
structure Acc where
  elems : Table (BitVec 48)
  mb : Mask
  e : BitVec 16
  m : Vector (BitVec 32) 32
  l : Vector (BitVec 32) 32
  c : Vector (BitVec 32) 32
  cc : Table (Option Int)
  cr : Table (Option Int)
  mbPar : BitVec 32
  deriving DecidableEq, Repr

/-- The state of an accumulator at activation and after MZERO (R77, R168). -/
def Acc.reset : Acc where
  elems := []
  mb := 0
  e := 0x8000
  m := Vector.replicate 32 0xFF800000
  l := Vector.replicate 32 0
  c := Vector.replicate 32 0x3F800000
  cc := []
  cr := []
  mbPar := 0

/-- An accumulator that a restore leaves outside its image (R81): 0. -/
def Acc.zero : Acc := { Acc.reset with e := 0, m := Vector.replicate 32 0, c := Vector.replicate 32 0 }

/-- An entry of the replay queue, and an entry of a frame (R80, R275). -/
structure Entry where
  seq : Nat
  addr : Word
  p0 : Parcel
  p1 : Parcel
  p2 : Parcel
  nore : Bool
  a : Word
  b : Word
  c : Word
  mask : Mask
  /-- The v registers whose versions it pins, each as long as nothing later has written it (R80, R152). -/
  pins : List Nat
  /-- The registers whose value is the one that it produces: those of its destinations that nothing later has written (R79). -/
  dsts : List Reg
  /-- It has been issued again (R281). -/
  again : Bool
  deriving DecidableEq, Repr

/-- An entry of which nothing is known. -/
def Entry.blank : Entry := ⟨0, 0, 0, 0, 0, false, 0, 0, 0, 0, [], [], false⟩

/-- A reconvergence stack entry (R120, R275). -/
structure RcEntry where
  rc : Word
  tgt : Word
  phase : Bool
  outer : Mask
  pend : Mask
  deriving DecidableEq, Repr

/-- A jib set in the jib store (R302, R311): slot entries START, LEN by slot, and body words. -/
structure JibSet where
  slots : Table (Nat × Nat)
  body : List Word
  measure : BitVec 512
  deriving DecidableEq, Repr

/-- A jib in progress (R303, R304): micro-PC, slot, clk used, hidden temporaries. -/
structure JibRun where
  upc : Nat
  slot : Nat
  used : Nat
  h : Vector Word 8
  hv : Vector VReg 2
  /-- The set it was found in, by number, from its set check on; none after a return or a restore, which look it up again
  (R313, R315). -/
  found : Option (Nat × JibSet)
  /-- Accumulator of a JMMA that is in its load phase (R308). -/
  loading : Option Nat
  deriving DecidableEq, Repr

/-- A trap raised by an instruction that has issued and not yet delivered (R271, R272). -/
structure Pending where
  seq : Nat
  cause : Cause
  iaddr : Word
  faddr : Word
  info : Word
  entry : Option Entry
  /-- Raised by an entry at its reissue (R281). -/
  again : Bool
  deriving DecidableEq, Repr

/-- The 25 control registers as a half stores them (R72, R83 to R86); formed fields are not stored. -/
structure Ctl where
  fmta : Word
  fmtb : Word
  fmtc : Word
  scla : Word
  sclb : Word
  rmode : Word
  fflags : Word
  ftrap : Word
  lc : Word
  tvec : Word
  /-- SSW.SS. -/
  ss : Bool
  /-- SSW.JST. -/
  jst : BitVec 2
  /-- TRAPD.DEPTH. -/
  trapd : Bool
  stage : Word
  ordst : Word
  gang : BitVec 8
  abftp : Word
  quant : BitVec 32
  pdl : BitVec 32
  wdog : BitVec 32
  dito : Word
  deriving DecidableEq, Repr

/-- The reset values of R83 to R86. -/
def Ctl.reset : Ctl where
  fmta := 0x9
  fmtb := 0x9
  fmtc := 0
  scla := 0
  sclb := 0
  rmode := 0
  fflags := 0
  ftrap := 0
  lc := 0
  tvec := 0
  ss := false
  jst := 0
  trapd := false
  stage := 0x800038000
  ordst := 0
  gang := 0
  abftp := 0
  quant := 0x1000
  pdl := 0x4E20
  wdog := 0x1000000
  dito := 0

/-- What a half is doing (R23, R43). -/
inductive Occ where
  /-- No task; the next activation or restore may take it. -/
  | free
  /-- A task is resident and may issue. -/
  | live
  /-- A save drains from the half. -/
  | draining
  /-- A restore fills the half. -/
  | filling
  deriving DecidableEq, Repr

/-- What a resident task waits for, as its last issue attempt found it (R23, R342). -/
inductive Block where
  | none
  /-- An empty or unfinished register, or a unit. -/
  | register
  /-- A direct operation whose task is not yet safe (R38). -/
  | safe
  | waitc (ac : Nat)
  | barw (group : Nat)
  | waitt (ns : Word)
  /-- Writes on their way, or a word that its home holds (R211, R237). -/
  | fence
  /-- A jib set that is not resident (R303). -/
  | jibSet
  /-- A page fault or a code fetch. -/
  | fetch
  deriving DecidableEq, Repr

/-- One half of a core (R77). `hdr` and `hdrWord` are the address and the image of the header of the current block,
`roff` the parcels from it to the next instruction. `busyS`, `busyV`, `busyK` and `busyA` mark registers whose value is in
flight without the register being empty (R104, R125, R167, R224, R328). -/
structure Half where
  occ : Occ
  tid : Nat
  /-- Package clk at the task's activation: the older task has the lower value (R23). -/
  age : Nat
  hdr : Word
  hdrWord : Word
  roff : Nat
  /-- The header still has to be entered (its fetch waits, or RC has to be compared). -/
  entering : Bool
  /-- That header is the one at TVEC, of the handler of a trap that has been delivered (R273). -/
  toHandler : Bool
  s : Vector Word 32
  v : Vector VReg 32
  k : Vector Mask 8
  a : Vector Acc 4
  fes : BitVec 32
  fev : BitVec 32
  fek : BitVec 8
  fea : BitVec 4
  busyS : BitVec 32
  busyV : BitVec 32
  busyK : BitVec 8
  busyA : BitVec 4
  replay : List Entry
  /-- The spare vector versions in use: of each superseded version, the issue numbers of the entries that pin it (R80). -/
  spares : List (List Nat)
  ctl : Ctl
  lanes : Mask
  stack : List RcEntry
  jib : Option JibRun
  traps : List Pending
  /-- Entries of a TRET or restore that are still to be issued again, in order (R281). -/
  reinj : List Entry
  /-- The entry that is being issued again: its captured values replace the registers (R281). -/
  reissue : Option Entry
  block : Block
  /-- The time that the WAITT at the resume point has captured; saves keep it (R338). -/
  waitt : Option Word
  /-- Words 0x000 to 0x04F of the frame of the trap being handled (R277). -/
  frame : List Word
  /-- A synchronous translation of the current instruction was refused at this address (R191). -/
  refusedAt : Option Word
  /-- Issue number of the next instruction of the task. -/
  seq : Nat
  /-- Issue number of an instruction whose status later ones wait for (R290), or one that never comes for a task that is
  to be discarded (R35). -/
  hold : Option Nat
  /-- SSW.PREQ (R41, R85). -/
  preq : Bool
  deriving DecidableEq, Repr

/-- A half at activation (R77), with no task in it. -/
def Half.reset : Half where
  occ := .free
  tid := 0
  age := 0
  hdr := 0
  hdrWord := 0
  roff := 0
  entering := false
  toHandler := false
  s := (Vector.replicate 32 0).set 30 0x38000
  v := Vector.replicate 32 0
  k := (Vector.replicate 8 0).set 0 (BitVec.allOnes 1024)
  a := Vector.replicate 4 Acc.reset
  fes := BitVec.allOnes 32
  fev := BitVec.allOnes 32
  fek := BitVec.allOnes 8
  fea := BitVec.allOnes 4
  busyS := 0
  busyV := 0
  busyK := 0
  busyA := 0
  replay := []
  spares := []
  ctl := Ctl.reset
  lanes := BitVec.allOnes 1024
  stack := []
  jib := none
  traps := []
  reinj := []
  reissue := none
  block := .none
  waitt := none
  frame := []
  refusedAt := none
  seq := 0
  hold := none
  preq := false

/-- A message (R242): header words and payload. -/
structure Msg where
  h0 : Word
  h1 : Word
  h2 : Word
  h3 : Word
  pay : List Word
  deriving DecidableEq, Repr

/-- What a ratline body activation carries (R321, R326). -/
structure Body where
  part : Nat
  index : Nat
  round : Bool
  key : Nat
  window : Nat
  /-- Addresses in the iteration's hold list, for round two (R328). -/
  holds : List Word
  holdsAll : Bool
  deriving DecidableEq, Repr

/-- The bytes that have landed in a receive ring for the task that an activation starts (R360, R363): the ring by its base, the
place and length there, and the connection, as virtual function and serial, of a vsock packet. -/
structure Packet where
  part : Nat
  ring : Nat
  pos : Nat
  len : Nat
  conn : Option (Nat × Nat)
  deriving DecidableEq, Repr

/-- An activation: a message on its way to an inbox, or in it, and what its task will be (R21, R22, R254, R256). -/
structure Act where
  msg : Msg
  /-- TASKID.INDEX (R22, R254). -/
  index : BitVec 32
  /-- The header kind that the entry demands (R58). -/
  kind : Nat
  /-- The launch, as cluster x 8 + tag, of a launched, spawned or counted task. -/
  launch : Option Nat
  /-- Takes no part in commit arbitration (R235, R321, R387). -/
  free : Bool
  body : Option Body
  /-- A released word whose scope-miss message started it (R235). -/
  miss : Bool
  /-- A spawned task that counts against the quota (R29). -/
  counted : Bool
  /-- The packet or frame that started it (R360, R363). -/
  packet : Option Packet
  /-- Virtual function whose traffic placed it (R249). -/
  vf : Option Nat
  /-- The mapper queue that served the launch (R334, BUDG). -/
  queue : Option Nat
  /-- The page request entry whose post this is (R252). -/
  pageReq : Option Nat
  /-- The first task that it started, when a task of it has been aborted: it runs again in the reef it joined, with
  unchanged identity (R37, R387). -/
  again : Option Nat
  deriving DecidableEq, Repr

/-- Where a task is in its life (R21, R36). -/
inductive Life where
  | resident
  /-- Out of its half with a saved context: a yield, a forced save or a team swap (R41, R30). -/
  | saved
  /-- Saved by SSAV; resumes only through SRST (R299). -/
  | parked
  /-- Ended, its commit request with the arbiter (R36). -/
  | ended
  deriving DecidableEq, Repr

/-- A staged line (R181): data and nibble mask. -/
structure Line where
  data : BitVec 512
  mask : BitVec 128
  deriving DecidableEq, Repr

/-- A task (R22, R36, R38, R42, R181). -/
structure Task where
  core : Nat
  half : Nat
  part : Nat
  reef : BitVec 12
  ts : BitVec 48
  tag : Option (BitVec 3)
  pri : Nat
  act : Act
  life : Life
  readSig : BitVec 2048
  writeSig : BitVec 2048
  /-- The part of the read signature whose lines have been read at their homes (R234). -/
  took : BitVec 2048
  /-- Staged lines by virtual line address. -/
  lines : Table Line
  /-- It holds the next commit slot of its timestamp (R38). -/
  slot : Bool
  /-- It has performed a direct operation (R79). -/
  direct : Bool
  /-- Its shared stores go home at once (R181, overflow). -/
  overflow : Bool
  /-- Its first accepted SPAWN has used the reserved slot (R29). -/
  spawned : Bool
  /-- Resident clk counted before the current residence, and the clk at which it began (R42). -/
  wdBase : Nat
  wdFrom : Nat
  /-- Values of instructions issued before this number are discarded: a save has come between (R81). -/
  floor : Nat
  /-- Heap blocks it allocated and has not committed, and frees to apply at commit (R224). -/
  allocs : List Word
  frees : List Word
  /-- Twice how often this run has issued BAR or BARW on each group (R268), and 1 more while its last BARW waits. -/
  bars : Table Nat
  /-- Cells that the body has sent reservations for and that have not been refused (R326). -/
  rsv : List Word
  rlFail : Bool
  saved : Option Half
  /-- Bytes of the trap frame that a restore writes back, and its base (R283). -/
  savedFrame : List Byte
  savedAt : Word
  deriving DecidableEq, Repr

/-- An arrival counter (R269, R332). -/
structure Arrival where
  count : BitVec 32
  armed : Bool
  handler : Option Word
  pri : Nat
  reef : BitVec 12
  ts : BitVec 48
  tag : Option (BitVec 3)
  index : BitVec 32
  launch : Option Nat
  deriving DecidableEq, Repr

/-- An unarmed counter (R332). -/
def Arrival.reset : Arrival := ⟨0, false, none, 0, 0, 0, none, 0, none⟩

/-- Where the status of an operation goes: half, task, issue number, register. -/
structure Dest where
  hid : Nat
  tid : Nat
  seq : Nat
  reg : Nat
  deriving DecidableEq, Repr

/-- A message in flight to an inbox (R230, R255). -/
structure NetMsg where
  src : Nat
  core : Nat
  pri : Nat
  act : Act
  status : Option Dest
  /-- SENDM operation that the copy belongs to. -/
  mcast : Option Nat
  deriving DecidableEq, Repr

/-- An inbox: return slots, entries and the messages held at ingress (R24, R244). -/
structure Inbox where
  ret : List Act
  q : List Act
  deriving DecidableEq, Repr

/-- A matrix multiply in the core's matrix unit (R153, R158): its sampled parameters and operand buffers. -/
structure MOp where
  id : Nat
  hid : Nat
  tid : Nat
  seq : Nat
  acc : Nat
  mask : Mask
  m : Nat
  n : Nat
  kk : Nat
  aAddr : Nat
  bAddr : Nat
  aStride : Nat
  bStride : Nat
  /-- Core whose scratchpad holds A, B, and the scales of B (logical package id). -/
  aCore : Nat
  bCore : Nat
  sCore : Nat
  /-- The rows of B that it reads itself: none where a gang's leader reads them for it (R162). -/
  bRows : Nat
  sp : Bool
  fmta : Word
  fmtb : Word
  fmtc : Word
  scla : Word
  sclb : Word
  abftp : Word
  gang : Option Nat
  /-- JMMA of a jib (R308). -/
  jib : Bool
  /-- The objects that gave it its shape (R290). -/
  objs : List Nat
  loaded : Bool
  done : Bool
  repeated : Bool
  aBytes : List Byte
  bBytes : List Byte
  aScale : List Byte
  bScale : List Byte
  deriving DecidableEq, Repr

/-- An operation that a quantum's end applies (R44, R341): half, task, issue number. -/
structure Deferred where
  hid : Nat
  tid : Nat
  seq : Nat
  /-- A request that is held until then, as against the place of a direct operation in issue order. -/
  held : Bool
  deriving DecidableEq, Repr

/-- A core, compute or kernel (R241, R294, R332). -/
structure Core where
  gate : Table Word
  inbox0 : Inbox
  inbox1 : Inbox
  inbox2 : Inbox
  inbox3 : Inbox
  /-- Messages held at the core's ingress, in arrival order. -/
  ingress : List NetMsg
  /-- Entries of the tenant's inboxes that a slice's end has taken out, by priority (R245). -/
  aside : Table (List Act)
  arrivals : Table Arrival
  /-- Counters that have reached 0 and whose handlers are still to start, as they stood (R269). -/
  due : List (Nat × Arrival)
  sent : Table (BitVec 32)
  recv : Table (BitVec 32)
  ret : BitVec 64
  qpos : BitVec 32
  /-- The half, 0 or 1, whose instruction issued last (R23). -/
  issued : Nat
  /-- Package clk at which CYC read 0. -/
  cycBase : Nat
  /-- Package clk at which PREQ was set, or PDLC last cleared. -/
  preqFrom : Nat
  /-- Completion queue entries in use (R247). -/
  completions : Nat
  mops : List MOp
  /-- The Stays have stopped it, and no spare has taken its place (R350). -/
  failed : Bool
  /-- The half and the granule of the last parity error that a replay repaired (R79, R350). -/
  replayed : Option (Nat × Granule)
  deriving DecidableEq, Repr

/-- An empty inbox. -/
def Inbox.reset : Inbox := ⟨[], []⟩

/-- A core at partition creation (R332). -/
def Core.reset : Core where
  gate := []
  inbox0 := Inbox.reset
  inbox1 := Inbox.reset
  inbox2 := Inbox.reset
  inbox3 := Inbox.reset
  ingress := []
  aside := []
  arrivals := []
  due := []
  sent := []
  recv := []
  ret := 0
  qpos := 0
  issued := 0
  cycBase := 0
  preqFrom := 0
  completions := 0
  mops := []
  failed := false
  replayed := none

/-- What a launch asks for (R25, R259), with the group membership it was issued with (R32). -/
structure LDesc where
  n : Nat
  group : Nat
  members : BitVec 4096
  reef : BitVec 12
  cluster : Nat
  handler : Word
  arg : Word
  base : BitVec 48
  stride : BitVec 48
  reply : BitVec 32
  rkind : Bool
  rhaddr : BitVec 54
  pri : Nat
  part : Nat
  /-- The issuing task lies in the launch's reef or an inner reef of it (R35). -/
  inside : Bool
  queue : Option Nat
  /-- Virtual function whose traffic started the issuing task, and whether it has been reset meanwhile (R249). -/
  vf : Option Nat
  reset : Bool
  deriving DecidableEq, Repr

/-- A spawned child that is not yet placed (R250, R261). -/
structure Child where
  index : Nat
  ts : BitVec 48
  handler : Word
  arg : Word
  pri : Nat
  counted : Bool
  deriving DecidableEq, Repr

/-- A team that is swapped out (R30): its tasks that have not returned, the saved named regions of the cores to which
none has returned, by core, and whether it is being restored. -/
structure TeamOut where
  tasks : List Nat
  regions : Table (List Byte)
  back : Bool
  deriving DecidableEq, Repr

/-- A launch record of a dispatcher (R250). -/
structure Launch where
  desc : LDesc
  next : Nat
  children : List Child
  /-- Children accepted so far; the next index is N plus this (R261). -/
  spawnCount : Nat
  committed : Nat
  /-- The sum of the previous sweep that found every core idle (R27). -/
  sweep : Option Nat
  error : Bool
  /-- It answers to another package, and takes part in a collective that is withdrawn (R249, R353). -/
  withdrawn : Bool
  /-- Teams that are swapped out (R30). -/
  outs : List TeamOut
  /-- The cores on which it has been placed (R179). -/
  cores : List Nat
  deriving DecidableEq, Repr

/-- The tasks of a launch that are swapped out (R30). -/
def Launch.team (l : Launch) : List Nat := l.outs.flatMap (·.tasks)

/-- Who holds a range lock (R296). -/
inductive Owner where
  | command (id : Nat)
  /-- The tile of a ROT: rows so many bytes long, and so far apart, from the entry's first byte (R213). -/
  | tile (id rows stride bytes : Nat)
  | task (tid : Nat)
  | reef (part id : Nat)
  deriving DecidableEq, Repr

/-- A range-lock or reef-guard entry (R296): `core` is the scratchpad, or the ASID of a guard. -/
structure Lock where
  kind : Nat
  core : Nat
  first : Nat
  last : Nat
  owner : Owner
  deriving DecidableEq, Repr

/-- A resident jib set of a cluster (R302). -/
structure Resident where
  part : Nat
  set : Nat
  pages : Nat
  lastStart : Nat
  deriving DecidableEq, Repr

/-- A performance counter (R332, R340). -/
structure Perf where
  count : BitVec 64
  sel : Word
  deriving DecidableEq, Repr

/-- A cluster: dispatcher, range-lock table, jib binding table, performance counters. -/
structure Cluster where
  part : Option Nat
  launches : Table Launch
  locks : List Lock
  /-- The binding table, by entry. -/
  jibs : Table Resident
  /-- Residency requests being served: partition and set (R314). -/
  jibWanted : List (Nat × Nat)
  perf : Table Perf
  spares : Nat
  deriving DecidableEq, Repr

/-- A cluster at reset: four spares (R6, R8). -/
def Cluster.reset : Cluster := ⟨none, [], [], [], [], [], 4⟩

/-- A translation range entry (R297). -/
structure Range where
  base : Nat
  limit : Nat
  offset : Nat
  control : Word
  deriving DecidableEq, Repr

/-- A cached page translation (R187, R188): `bits` is the log of its size. -/
structure Page where
  asid : Nat
  va : Nat
  bits : Nat
  pa : Nat
  rights : Word
  /-- Addresses of the leaf entries it came from. -/
  leaf : Nat
  deriving DecidableEq, Repr

/-- A command in a station's queue (R189, R297): opcode, payload, sender and where its reply goes. -/
structure StCmd where
  opcode : Nat
  pay : List Word
  sender : Nat
  /-- Reply endpoint and handler of the sending message (H2, H3). -/
  h2 : Word
  h3 : Word
  part : Nat
  deriving DecidableEq, Repr

/-- A translation station (R187, R190, R296). -/
structure Station where
  ranges : Table Range
  cache : List Page
  guards : List Lock
  cmds : List StCmd
  deriving DecidableEq, Repr

/-- A station at reset. -/
def Station.reset : Station := ⟨[], [], [], []⟩

/-- A release record of a word (R202, R236). -/
structure Release where
  core : Nat
  scope : Nat
  tag : BitVec 32
  missed : Bool
  deriving DecidableEq, Repr

/-- An object table entry (R291): body words 1 to 63. -/
structure Obj where
  gen : BitVec 16
  holds : Nat
  state : BitVec 2
  kind : Nat
  body : List Word
  /-- The ABM banks that the entry, a live range marked ratline, has switched into ratline mode (R183, R292). -/
  banks : List Nat
  deriving DecidableEq, Repr

/-- A free entry of generation 0 (R288). -/
def Obj.reset : Obj := ⟨0, 0, 0, 0, [], []⟩

/-- A preserved or held range (R263): shared virtual, or the scratchpad of a core. -/
structure Span where
  scratch : Bool
  core : Nat
  base : Nat
  len : Nat
  intact : Bool
  deriving DecidableEq, Repr

/-- A launch in a reef's launch record (R35, R262). -/
structure LRec where
  desc : LDesc
  lid : Nat
  running : Bool
  /-- It still has to be launched again (R35, step 4). -/
  again : Bool
  deriving DecidableEq, Repr

/-- A reef record (R33, R266): state 0 free, 1 open, 2 re-executing. -/
structure Reef where
  state : Nat
  parent : Nat
  depth : Nat
  pres : List Span
  held : List Span
  launches : List LRec
  arbiter : Nat
  opener : Option Nat
  /-- The timestamp and the joined write signatures of the tasks that have committed last (R39). -/
  wrote : Option (BitVec 48 × BitVec 2048)
  /-- It has been re-executed, and the launches that this has relaunched may still run (R346). -/
  rerun : Bool
  /-- It ran on a package that this one has taken the place of (R353). -/
  taken : Bool
  deriving DecidableEq, Repr

/-- An iteration of the current ratline window (R318, R320). -/
structure Iter where
  index : Nat
  key : Nat
  /-- The cells reserved: the effective address, and the package address at which its bank has applied it (R326). -/
  rsv : List (Word × Nat)
  holdsAll : Bool
  /-- 0 unplaced in round one, 1 running it, 2 ended it; 3, 4, 5 the same for round two. -/
  phase : Nat
  failed : Bool
  deriving DecidableEq, Repr

/-- A ratline loop in progress (R318, R325). -/
structure Loop where
  n : Nat
  w : Nat
  group : Nat
  members : BitVec 4096
  pri : Nat
  arg : Word
  body : Word
  reef : BitVec 12
  hid : Nat
  tid : Nat
  seq : Nat
  reg : Nat
  next : Nat
  retry : List Nat
  iters : List Iter
  /-- A window has been filled and has not completed. -/
  active : Bool
  windows : Nat
  done : Nat
  error : Bool
  deriving DecidableEq, Repr

/-- The report of RLSTAT (R330). -/
structure RlReport where
  wnum : Nat
  commits : Nat
  retries : Nat
  done : Nat
  retried : Nat
  deriving DecidableEq, Repr

/-- The error injector of a partition (R356). -/
structure Injector where
  seed : Word
  rate : BitVec 32
  mask : BitVec 6
  sel : Word
  n : Nat
  deriving DecidableEq, Repr

/-- Reset values of the injector (R356). -/
def Injector.reset : Injector := ⟨1, 0, 0, 0x0000FFFFFFFF007F, 0⟩

/-- A partition image (R364): what the Stays read from flash; `load` is memory it brings, by package address. -/
structure Image where
  valid : Bool
  clusters : List Nat
  channels : List Nat
  port : Nat
  ethernet : Bool
  /-- The NVMe namespace, and the root port behind which it stands (R9). -/
  nvme : Nat
  nvmePort : Nat
  world : Bool
  test : Bool
  det : Bool
  quant : BitVec 32
  pdl : BitVec 32
  wdog : BitVec 32
  retain : Nat
  quota : Nat
  heapBase : Word
  heapSize : Word
  mgmtCore : Nat
  errBase : Word
  portTable : Word
  netRing : Word
  /-- The network ring's size in bytes, and the network handler's endpoint, header address and priority (R363). -/
  netBytes : Nat
  netEndpoint : BitVec 32
  netHandler : Word
  netPri : Nat
  mgmtPage : Word
  entry : Word
  asids : List Nat
  vfs : List Nat
  roots : List (Nat × Word)
  /-- The named regions of the program's scratchpad layout: base and length (R388). -/
  regions : List (Nat × Nat)
  load : List Host.Cell
  /-- SHA3-512 measurement of the image as it stands in flash (R366). -/
  measure : BitVec 512
  deriving DecidableEq, Repr

/-- A receive ring (R360, R363): the bytes that have landed in it, and the place and length of those whose tasks have still to
commit. -/
structure RecvRing where
  head : Nat
  live : List (Nat × Nat)
  deriving DecidableEq, Repr

/-- A partition (R288, R364). -/
structure Part where
  image : Image
  running : Bool
  quant : BitVec 32
  pdl : BitVec 32
  wdog : BitVec 32
  objects : Table Obj
  groups : Table (BitVec 4096)
  reefs : Table Reef
  arbList : Table (BitVec 8)
  errors : Table (BitVec 64)
  spawnedCount : Nat
  /-- Retained pages: virtual base and bytes (R358). -/
  retained : List (Nat × Nat)
  jibSets : Table JibSet
  jibMap : Table Nat
  window : BitVec 8
  loop : Option Loop
  report : RlReport
  injector : Injector
  /-- Quanta completed (R341). -/
  quanta : Nat
  /-- The clk of its creation, from which its counters run (R332). -/
  since : Nat
  /-- The receive rings, by base (R360, R363). -/
  rings : Table RecvRing
  /-- ns at which the management page was last polled (R367). -/
  polled : Nat
  deriving DecidableEq, Repr

/-- What a shared request does at its home (R200, R206, R209). -/
inductive Access where
  | load (size : Nat) (sx : Bool)
  | acquire (size scope : Nat)
  | vload
  | atom (op : Nat) (dbl : Bool) (b c : Word)
  | red (op : Nat) (dbl : Bool) (b : Word)
  /-- The probe of a buffered store (R192). -/
  | probe
  /-- A ratline read, reservation or write of a cell (R326, R328). -/
  | cellRead
  | cellReserve (window key : Nat)
  | cellWrite (w : Word)
  /-- A synchronous translation that faulted, of the instruction now at issue. -/
  | sync
  /-- A line of a commit or flush that faulted (R192). -/
  | commit
  /-- An engine command's line that faulted, of its source or of its destination (R251, R345). -/
  | engine (id : Nat) (write : Bool)
  /-- A write of the device itself, of an error record, that faulted (R386). -/
  | record
  /-- A staged line that a flush or a task in overflow has sent, with the place of its task in arbitration, for the
  broadcast of its signature (R204, R211, R234, R181). -/
  | line (l : Line) (reef : BitVec 12) (ts : BitVec 48) (free : Bool)
  /-- The word of a STREL (R204). -/
  | release (size scope : Nat) (w : Word)
  deriving DecidableEq, Repr

/-- Where a shared request stands (R187, R190). -/
inductive Phase where
  | translate
  /-- A miss for which its station has no record free: it waits in the cluster network (R187). -/
  | missing
  | walk
  | fault
  | held
  | home
  /-- A probe that was refused (R192). -/
  | refused (cause : Cause)
  deriving DecidableEq, Repr

/-- A shared request between its core and its home. `pas` are the line translations obtained so far, in order. -/
structure Req where
  id : Nat
  hid : Nat
  tid : Nat
  seq : Nat
  core : Nat
  part : Nat
  asid : Nat
  world : Bool
  acc : Access
  reg : Nat
  va : Nat
  lines : List Nat
  /-- The bytes accessed of each line. -/
  touch : List (BitVec 64)
  pas : List Nat
  phase : Phase
  /-- Active element mask and bytes gathered, for a vector load. -/
  mask : Mask
  esize : Nat
  data : VReg
  got : Nat
  /-- An atomic that its home holds behind a narrow release (R237). -/
  waiting : Bool
  /-- The instruction, for a trap after it has left the replay queue (R272). -/
  entry : Entry
  /-- Order of arrival at its station, 0 until it has missed there (R187, R190). -/
  stamp : Nat
  /-- The page request entry that has last held it (R190). -/
  page : Option Nat
  /-- Scopes at which a write is visible, each with the first identifier that stands behind it there (R231, R232). -/
  seen : List (Nat × Nat)
  deriving DecidableEq, Repr

/-- A value on its way to a register (R78). -/
inductive Value where
  | s (r : Nat) (w : Word)
  | v (r : Nat) (w : VReg)
  | k (r : Nat) (m : Mask)
  | a (r : Nat) (x : Acc)
  /-- The result of an instruction that takes more than a clk stands in its registers and may be read from now on (R104,
  R125, R167); `fp` for a floating vector instruction (R127). -/
  | ready (l : List Reg) (fp : Bool)
  deriving DecidableEq, Repr

/-- A long-latency value that has left its producer. -/
structure Fill where
  hid : Nat
  tid : Nat
  seq : Nat
  value : Value
  flags : BitVec 5
  /-- New ORDST bits, for an acquire. -/
  ordst : Option Word
  /-- The value comes from the core's completion queue (R247). -/
  completion : Bool
  /-- It reports so many messages under this tag as sent (R255). -/
  sent : Option (Nat × Nat)
  /-- The value is that of this control register once every earlier instruction that may change it has completed (R82,
  R104). -/
  ctl : Option Nat
  deriving DecidableEq, Repr

/-- What a remote scratchpad access does (R198, R212). -/
inductive RemOp where
  | ldr (size : Nat) (reg : Nat)
  | str (size : Nat) (w : Word)
  | puth (size : Nat) (w : Word) (ac : Nat)
  deriving DecidableEq, Repr

/-- An access on its way to another core's scratchpad (R196). -/
structure Remote where
  id : Nat
  hid : Nat
  tid : Nat
  seq : Nat
  core : Nat
  target : Nat
  off : Nat
  ea : Word
  op : RemOp
  entry : Entry
  deriving DecidableEq, Repr

/-- A multicast store or message that collects its members' answers (R205, R255). -/
structure Mcast where
  id : Nat
  dest : Dest
  core : Nat
  /-- Data and offset of an STSM; none for a SENDM. -/
  data : Option (BitVec 2048 × Nat)
  /-- The group whose members it reaches (R290). -/
  group : Nat
  waiting : List Nat
  pos : Nat
  neg : Nat
  first : Nat
  reason : Nat
  /-- The tag under which an accepted copy of a SENDM counts (R255). -/
  tag : Option Nat
  deriving DecidableEq, Repr

/-- A command of a copy or erasure engine (R215 to R222). -/
structure EngCmd where
  id : Nat
  erasure : Bool
  /-- 0 COPY, 1 ECENC, 2 ECREC. -/
  op : Nat
  engine : Nat
  dest : Dest
  core : Nat
  part : Nat
  asid : Nat
  world : Bool
  obj : Nat
  desc : List Word
  sA : Word
  sB : Word
  ac : Option Nat
  retain : Bool
  started : Bool
  /-- Reef of the issuing task (R296), virtual function whose traffic started it (R249), and DITHO as the command issued
  (R99). -/
  reef : Nat
  vf : Option Nat
  dito : Word
  /-- Elements that have been read and have not landed, by linear index. -/
  buf : Table Nat
  /-- Elements that have landed, as ranges of first and count in linear order. -/
  landed : List (Nat × Nat)
  bytes : Nat
  flags : BitVec 5
  /-- A failure that ends the command, 0 for none (R219). -/
  code : Nat
  deriving DecidableEq, Repr

/-- A request to the atomic engine of an MF die, or a widening message to it (R210, R235). -/
structure AtomReq where
  id : Nat
  /-- The MF die, and with `pa` the word there; `pa` of a word in another package lies above every package address. -/
  mf : Nat
  widen : Bool
  dest : Dest
  core : Nat
  part : Nat
  pa : Nat
  op : Nat
  dbl : Bool
  b : Word
  c : Word
  value : Bool
  waiting : Bool
  pay : List Word
  va : Nat
  entry : Entry
  /-- A widening message that found the queue full: its status is still to be answered (R246, R255). -/
  owed : Bool
  /-- As of a shared request (R231, R232). -/
  seen : List (Nat × Nat)
  deriving DecidableEq, Repr

/-- A reply on its way to a completion queue (R247). -/
structure AtomReply where
  dest : Dest
  old : Word
  ordst : Option Word
  deriving DecidableEq, Repr

/-- A request of ALLOC or FREE (R224). -/
structure HeapReq where
  dest : Dest
  part : Nat
  alloc : Bool
  arg : Word
  deriving DecidableEq, Repr

/-- A LAUNCH request on its way to a dispatcher (R25). -/
structure LaunchReq where
  desc : LDesc
  dest : Option Dest
  deriving DecidableEq, Repr

/-- A SPAWN request (R261). -/
structure SpawnReq where
  dest : Dest
  launch : Option Nat
  handler : Option Word
  arg : Word
  pri : Nat
  ts : BitVec 48
  /-- An earlier SPAWN of the same activation has used the reserved slot (R29). -/
  used : Bool
  deriving DecidableEq, Repr

/-- An ABORT request (R262). -/
structure AbortReq where
  dest : Option Dest
  handle : BitVec 9
  part : Nat
  deriving DecidableEq, Repr

/-- A loop request at the controller of MF0 (R325). -/
structure LoopReq where
  dest : Dest
  part : Nat
  loop : Loop
  deriving DecidableEq, Repr

/-- A member of a gang or ring (R162, R213). -/
structure Member where
  core : Nat
  hid : Nat
  tid : Nat
  seq : Nat
  base : Nat
  rows : Nat
  rowBytes : Nat
  stride : Nat
  ac : Nat
  /-- The owner number of its range lock (R213), and the object of its tile (R290). -/
  op : Nat
  obj : Nat
  done : Bool
  entry : Entry
  deriving DecidableEq, Repr

/-- A gang of matrix units (R162). `lead` is the leader's portion as it issued, and from the start on holds the B
tile and its scales. -/
structure Gang where
  id : Nat
  part : Nat
  group : Nat
  members : List Nat
  joined : List Member
  withdrawn : List Nat
  started : Bool
  lead : Option MOp
  deriving DecidableEq, Repr

/-- A ring rotation (R213). -/
structure Ring where
  id : Nat
  part : Nat
  group : Nat
  members : List Nat
  joined : List Member
  withdrawn : List Nat
  deriving DecidableEq, Repr

/-- Arrivals at the barrier of a launch and group (R268): arrivals by task index. -/
structure Barrier where
  lid : Nat
  group : Nat
  arrived : Table Nat
  /-- Generations that have completed. -/
  generation : Nat
  deriving DecidableEq, Repr

/-- An entry for a reef's error record that the device has still to write (R386). -/
structure ErrRec where
  part : Nat
  reef : Nat
  tagIndex : Word
  ts : Word
  place : Word
  frame : List Word
  deriving DecidableEq, Repr

/-- The identity of a task that is gone while requests of it are in flight (R191, R277). -/
structure Ghost where
  identity : ErrRec
  launch : Option Nat
  deriving DecidableEq, Repr

/-- Everything that is between agents. -/
structure Net where
  nextId : Nat
  reqs : List Req
  fills : List Fill
  remotes : List Remote
  msgs : List NetMsg
  mcasts : List Mcast
  cmds : List EngCmd
  atoms : List AtomReq
  replies : List AtomReply
  heap : List HeapReq
  launches : List LaunchReq
  spawns : List SpawnReq
  aborts : List AbortReq
  loops : List LoopReq
  gangs : List Gang
  rings : List Ring
  barriers : List Barrier
  /-- Commands that wait at a full station queue: station and command (R246). -/
  stCmds : List (Nat × StCmd × Option Dest)
  /-- Error records that wait for a page (R386). -/
  errors : List ErrRec
  /-- Tasks that are gone, with requests still in flight. -/
  ghosts : Table Ghost
  deriving DecidableEq, Repr

/-- Nothing in flight. -/
def Net.reset : Net where
  nextId := 0
  reqs := []
  fills := []
  remotes := []
  msgs := []
  mcasts := []
  cmds := []
  atoms := []
  replies := []
  heap := []
  launches := []
  spawns := []
  aborts := []
  loops := []
  gangs := []
  rings := []
  barriers := []
  stCmds := []
  errors := []
  ghosts := []

/-- A queue of the mapper (R248, R298); KIND 0 is unassigned. -/
structure Queue where
  kind : Nat
  cls : Nat
  part : Nat
  vf : Nat
  size : Nat
  qidx : Nat
  base : Word
  period : Nat
  budget : Nat
  /-- Budget left, in ns, when the queue last entered or left a slot or its period began (R40, R332). -/
  left : Nat
  /-- Start of the current period, in µs of package time. -/
  start : Nat
  /-- EDF parameters that take effect at the next period (R298, form 1). -/
  next : Option (Nat × Nat)
  /-- The head entry of a launch queue is with a dispatcher (R248). -/
  inFlight : Bool
  deriving DecidableEq, Repr

/-- An active slot that serves a queue (R40, R248): since when in ns, and the ns of a BUSY refusal. -/
structure Slot where
  queue : Nat
  since : Nat
  busyAt : Option Nat
  deriving DecidableEq, Repr

/-- An entry of the page request queue (R251). -/
structure PageReq where
  va : Nat
  asid : Nat
  station : Nat
  part : Nat
  kind : Nat
  rsv : Bool
  held : Nat
  /-- 1 posted, 2 in service, 3 resuming. -/
  state : Nat
  /-- The station whose RESUME walks again (R252). -/
  resumer : Nat
  deriving DecidableEq, Repr

/-- MF0: mapper queues, slots, page request queue. -/
structure Mf0 where
  queues : Table Queue
  slots : Table Slot
  pages : Table PageReq
  deriving DecidableEq, Repr

/-- A vsock connection (R360). -/
structure Conn where
  /-- Distinguishes it from every other connection. -/
  serial : Nat
  srcCid : BitVec 64
  srcPort : BitVec 32
  dstPort : BitVec 32
  /-- Port entry at the opening: endpoint, handler, priority, ring base and size. -/
  endpoint : BitVec 32
  handler : Word
  pri : Nat
  ring : Word
  ringBytes : Nat
  fwd : Nat
  stream : Bool
  deriving DecidableEq, Repr

/-- A virtual function (R359, R360). -/
structure Vf where
  part : Option Nat
  features : BitVec 64
  featuresOk : Bool
  conns : Table Conn
  /-- Connections that the kernel has asked the host for: its CID and port, the port here, and whether of streams (R360). -/
  asked : List (BitVec 64 × BitVec 32 × BitVec 32 × Bool)
  /-- The mapper's own packets that wait for a buffer of the host (R360, R362). -/
  answers : List (List Byte)
  /-- Packets placed in the host's buffers, oldest first. -/
  toHost : List (List Byte)
  deriving DecidableEq, Repr

/-- A Nimosh port (R349, R363). -/
structure Port where
  ethernet : Bool
  /-- Healthy lanes, of which as many as R349 names are trained. -/
  lanes : Nat
  up : Bool
  part : Option Nat
  resends : Nat
  deriving DecidableEq, Repr

/-- A port at reset: four lanes, up. -/
def Port.reset : Port := ⟨false, 4, true, none, 0⟩

/-- A vote in progress (R355). -/
structure Vote where
  cls : Nat
  unit : Nat
  epoch : Nat
  voters : List (Nat × Bool)
  since : Nat
  deriving DecidableEq, Repr

/-- A slot of the spar map (R300). -/
structure Spar where
  valid : Bool
  remote : Bool
  pkg : BitVec 12
  phys : Nat
  deriving DecidableEq, Repr

/-- An erasure group (R354): its data and parity members by logical package id, each with its tray. -/
structure Group where
  data : List (Nat × Nat)
  parity : List (Nat × Nat)
  deriving DecidableEq, Repr

/-- No group. -/
def Group.none : Group := ⟨[], []⟩

/-- What a standby's Stays need of another member (R353): its signed images, and for each the partition's reef table. -/
structure Peer where
  images : List Image
  reefs : List (Table Reef)
  deriving DecidableEq, Repr

/-- The host side, the ports and the Stays. -/
structure Fabric where
  vfs : Table Vf
  consoleFeatures : BitVec 64
  console : List (List Byte)
  ports : Table Port
  votes : List Vote
  /-- Die-level and package-level actions that a vote has decided and that wait their turn: class and unit (R346, R355). -/
  decided : List (Nat × Nat)
  spar : Table Spar
  spareDie : Option Nat
  /-- The erasure group and its standby, while that is free (R353, R354). -/
  group : Group
  standby : Option Nat
  /-- The group and standby that the Stays' configuration names (R354), and what a standby's Stays hold of the other members. -/
  config : Group × Option Nat
  peers : Table Peer
  lostPackages : List Nat
  lostStays : List (Nat × Bool)
  flash : List Image
  booted : Bool
  retired : List Nat
  /-- Corrections counted per channel x 64 + pin group, and failed groups (R347). -/
  corrections : Table Nat
  failedGroups : List Nat
  /-- The error counters that the Stays keep for each unit (R339). -/
  unitErrors : Table (BitVec 64)
  watts : Nat
  inlet : Nat
  step : Nat
  deriving DecidableEq, Repr

/-- Package time and the core clock (R337). -/
structure Clock where
  clk : Nat
  ns : Nat
  frac : Nat
  locked : Bool
  deriving DecidableEq, Repr

/-- Part and identity of the package (R16). -/
structure Package where
  id : BitVec 12
  /-- CAP: the part, and the optional units that it has. -/
  cap : Word
  asidRoot : Nat
  lost : Bool
  deriving DecidableEq, Repr

/-- Which agent moves at a step: a half issues, with what the code of the memory reports for the words that its instruction
reads as it issues (R185), or an event of the table happens. -/
inductive Sched where
  | issue (hid : Nat) (ecc : Ecc)
  | event (i : Instr) (d : EventData)
  deriving DecidableEq, Repr

/-- The machine. `halves` are keyed by 2 x core + half, cores 0 to 4,095 being compute cores and 4,096 + k the
kernel cores; stations, clusters and partitions by their numbers; `release` and `tags` by package address, `releases` by home. -/
structure State where
  package : Package
  clock : Clock
  mem : List Host.Cell
  /-- The words of scratchpads and banks that stay uncorrectable until they are next written (R347). -/
  spoilt : List Nat
  release : Table Release
  releases : Table Nat
  /-- ABM banks in ratline mode, and the non-empty tags by cell address (R183). -/
  ratBanks : List Nat
  tags : Table (BitVec 32)
  halves : Table Half
  cores : Table Core
  clusters : Table Cluster
  stations : Table Station
  parts : Table Part
  tasks : Table Task
  deferred : List Deferred
  net : Net
  mf0 : Mf0
  fabric : Fabric
  /-- The model's own: agents that move next, the half that issues, the data of the event that happens, the counter
  of free values. -/
  agenda : List Sched
  cur : Nat
  data : EventData
  free : Nat
  deriving DecidableEq, Repr

/-- Why the machine stops. -/
inductive Fault where
  /-- Raised by `step` once this package has been declared lost (R353): nothing of it runs on. Safe. -/
  | packageLost
  deriving DecidableEq, Repr

/-- Why an instruction has no meaning. -/
inductive Refusal where
  /-- Raised by an arm of `exec` whose instruction has no meaning yet, named by its mnemonic. Safe. -/
  | notModelled (mnemonic : String)
  deriving DecidableEq, Repr

/-- An FJ-40 before bring-up (log 6): CAP as R16 gives it. -/
def Package.reset : Package := ⟨0, 0x000001280482000F, 0, false⟩

/-- An FJ-20 before bring-up: CAP as R16 gives it, with no tree-mask generator and no erasure engine. -/
def Package.resetFj20 : Package := { Package.reset with cap := 0x000001140241000C }

/-- Time before lock is acquired (R337; log 1). -/
def Clock.reset : Clock := ⟨0, 0, 0, false⟩

/-- The mapper with every queue unassigned and every slot free (R241). -/
def Mf0.reset : Mf0 := ⟨[], [], []⟩

/-- Host side, ports and Stays before bring-up (R359 to R368; log 1). -/
def Fabric.reset : Fabric where
  vfs := []
  consoleFeatures := 0
  console := []
  ports := []
  votes := []
  decided := []
  spar := []
  spareDie := some 8
  group := Group.none
  standby := none
  config := (Group.none, none)
  peers := []
  lostPackages := []
  lostStays := []
  flash := []
  booted := false
  retired := []
  corrections := []
  failedGroups := []
  unitErrors := []
  watts := 0
  inlet := 0
  step := 0

/-- The machine right after power-on, before the bring-up of R365: no partition, no task, every memory as R179
leaves it. -/
def State.reset : State where
  package := Package.reset
  clock := Clock.reset
  mem := []
  spoilt := []
  release := []
  releases := []
  ratBanks := []
  tags := []
  halves := []
  cores := []
  clusters := []
  stations := []
  parts := []
  tasks := []
  deferred := []
  net := Net.reset
  mf0 := Mf0.reset
  fabric := Fabric.reset
  agenda := []
  cur := 0
  data := EventData.none
  free := 0

end Sys2Proof.Machine
end

