-- ==== Sys2Proof/Machine/Mem.lean ====
section
/-! DEFINITION. The one memory of the package, keyed by package address [39:0] (spec/10_memories.md R179 to R186):
bytes with rising addresses, no byte listed that equals what an unlisted address reads as. -/
namespace Sys2Proof.Machine

/-- What a byte that nothing has written reads as: the scrub of R179 (log 7). -/
def memDefault : Byte := 0

/-- The canonical form of memory: rising addresses, and no entry equal to what an unlisted address reads as. -/
def Memory.wf (m : List Host.Cell) : Bool := trising m && m.all fun c => c.2 != memDefault

/-- One byte of memory. -/
def memGet (m : List Host.Cell) (a : Nat) : Byte := tgetD m a memDefault

/-- Memory with one byte written. -/
def memSet (m : List Host.Cell) (a : Nat) (b : Byte) : List Host.Cell :=
  if b = memDefault then tdel m a else tput m a b

/-- n bytes from an address up. -/
def memBytes (m : List Host.Cell) (a n : Nat) : List Byte := (List.range n).map fun i => memGet m (a + i)

/-- The little-endian number in n bytes from an address up (R2). -/
def memNat (m : List Host.Cell) (a n : Nat) : Nat := ofBytes (memBytes m a n)

/-- The 64-bit word at an address. -/
def memWord (m : List Host.Cell) (a : Nat) : Word := word (memNat m a 8)

/-- The FJ-20, as against the FJ-40, by CAP.PARTNO (R16). -/
def Package.fj20 (p : Package) : Bool := wbits p.cap 39 32 == 0x14

/-- The extents that a package shows (R6, R20, R186): an FJ-40's, an FJ-20's, or those of an FJ-20 whose physical cores and
banks each stand for two of the V4096 shape. -/
inductive Extent where
  | fj40
  | fj20
  | v4096
  deriving DecidableEq, Repr

/-- The image of the deterministic partition of the package: it has the package alone, since the 4,096 core numbers and banks of
its shape are all that there are (R20, R341; log 6). -/
def State.detImage (s : State) : Option Image := (s.parts.find? fun p => p.2.image.det).map (·.2.image)

/-- The extents of the package: an FJ-20 has the cores and banks of V4096 while a deterministic partition has it (R20, R341;
log 6). -/
def State.extent (s : State) : Extent :=
  if !s.package.fj20 then .fj40 else if s.detImage.isSome then .v4096 else .fj20

/-- The logical clusters of a partition: those that its image names, or all of the V4096 shape when it runs deterministically
(R20, R341). -/
def Image.shape (x : Image) : List Nat := if x.det then List.range 32 else x.clusters

/-- First address of HBM stack space that does not exist (R186). -/
def hbmEnd (x : Extent) : Nat := if x = .fj40 then 0xC000000000 else 0x6000000000

/-- First byte of ABM (R186). -/
def abmBase : Nat := 0xE000000000

/-- Bytes of ABM on the part (R186). -/
def abmBytes (x : Extent) : Nat := if x = .fj20 then 0x8000000 else 0x10000000

/-- First byte of the scratchpad aperture (R186). -/
def apBase : Nat := 0xF000000000

/-- Bytes of the aperture on the part (R186). -/
def apBytes (x : Extent) : Nat := if x = .fj20 then 0x20000000 else 0x40000000

/-- Logical clusters of the package (R6, R20). -/
def clusterCount (x : Extent) : Nat := if x = .fj20 then 16 else 32

/-- Compute cores of the package (R6, R20). -/
def computeCores (x : Extent) : Nat := 128 * clusterCount x

/-- Compute dies and MF dies that the part has (R6, R16: CAP.CDIE and CAP.MFD). -/
def Package.dies (p : Package) : Nat := if p.fj20 then 4 else 8
def Package.mfDies (p : Package) : Nat := if p.fj20 then 2 else 4

/-- Which memory a package address names (R186). -/
inductive Home where
  | hbm (chan : Nat)
  | abm (bank : Nat)
  | scratch (core : Nat)
  | nowhere
  deriving DecidableEq, Repr

/-- The memory that holds a package address (R186). -/
def homeOf (x : Extent) (a : Nat) : Home :=
  if a < hbmEnd x then .hbm (a / 0x40000000)
  else if abmBase ≤ a ∧ a < abmBase + abmBytes x then .abm ((a - abmBase) / 0x10000)
  else if apBase ≤ a ∧ a < apBase + apBytes x then .scratch ((a - apBase) / 0x40000)
  else .nowhere

/-- MF die of a home (R182, R187): an ABM bank by number, an HBM channel by stack. -/
def dieOfHome : Home → Nat
  | .hbm chan => chan / 64 / 3
  | .abm bank => bank / 1024
  | .scratch _ => 0
  | .nowhere => 0

/-- Where a core's own scratchpad stands; kernel cores' local store follows the compute cores' (R186; log 5). -/
def scratchAt (core off : Nat) : Nat := apBase + core * 0x40000 + off

end Sys2Proof.Machine
end

