-- ==== Sys2Proof/Machine/Effects.lean ====
section
/-! DEFINITION. The primitive effects and the meanings built from them. A meaning is a tree of effects; running it
is the only way a step changes the machine, so what every effect keeps, every step keeps. -/
namespace Sys2Proof.Machine

/-- A primitive change of the machine. -/
inductive Eff where
  | byte (a : Nat) (b : Byte)
  | half (hid : Nat) (h : Half)
  | core (cid : Nat) (c : Core)
  | cluster (n : Nat) (c : Cluster)
  | station (n : Nat) (c : Station)
  | part (n : Nat) (p : Option Part)
  | task (tid : Nat) (t : Option Task)
  | release (a : Nat) (r : Option Release)
  | releases (home n : Nat)
  | tag (a : Nat) (t : Option (BitVec 32))
  | banks (l : List Nat)
  | deferred (l : List Deferred)
  | net (n : Net)
  | mf0 (m : Mf0)
  | fabric (f : Fabric)
  | clock (c : Clock)
  | package (p : Package)
  | free (n : Nat)
  | spoilt (l : List Nat)
  | ecc (e : Ecc)

/-- The machine after a primitive change. -/
def Eff.apply (s : State) : Eff → State
  | .byte a b => { s with mem := memSet s.mem a b, spoilt := s.spoilt.filter (· != a / 8 * 8) }
  | .half hid h => { s with halves := tput s.halves hid h }
  | .core cid c => { s with cores := tput s.cores cid c }
  | .cluster n c => { s with clusters := tput s.clusters n c }
  | .station n c => { s with stations := tput s.stations n c }
  | .part n p => { s with parts := tset s.parts n p }
  | .task tid t => { s with tasks := tset s.tasks tid t }
  | .release a r => { s with release := tset s.release a r }
  | .releases home n => { s with releases := tput s.releases home n }
  | .tag a t => { s with tags := tset s.tags a t }
  | .banks l => { s with ratBanks := l }
  | .deferred l => { s with deferred := l }
  | .net n => { s with net := n }
  | .mf0 m => { s with mf0 := m }
  | .fabric f => { s with fabric := f }
  | .clock c => { s with clock := c }
  | .package p => { s with package := p }
  | .free n => { s with free := n }
  | .spoilt l => { s with spoilt := l }
  | .ecc e => { s with data := { s.data with ecc := e } }

/-- A meaning: effects in order, each able to look at the machine as the earlier ones left it. -/
inductive Mv where
  | done
  | eff (e : Eff) (k : Mv)
  | look (k : State → Mv)

/-- The machine after a meaning. -/
def Mv.run : Mv → State → State
  | .done, s => s
  | .eff e k, s => k.run (e.apply s)
  | .look k, s => (k s).run s

/-- One meaning, then another. -/
def Mv.andThen : Mv → Mv → Mv
  | .done, m => m
  | .eff e k, m => .eff e (k.andThen m)
  | .look k, m => .look fun s => (k s).andThen m

/-- Meanings in order. -/
def Mv.seq : List Mv → Mv
  | [] => .done
  | m :: t => m.andThen (Mv.seq t)

/-- A single effect. -/
def Mv.one (e : Eff) : Mv := .eff e .done

/-- A meaning for each element, in order. -/
def Mv.each {α : Type} (l : List α) (f : α → Mv) : Mv := Mv.seq (l.map f)

/-- A meaning under a condition. -/
def Mv.when (c : Bool) (m : Mv) : Mv := if c then m else .done

/-- Whether a core number is a kernel core's: 4,096 + k (log 5). -/
def isKernel (cid : Nat) : Bool := decide (4096 ≤ cid)

/-- The logical cluster of a core (R7). -/
def clusterOf (cid : Nat) : Nat := if 4096 ≤ cid then (cid - 4096) / 2 else cid / 128

/-- The physical cluster that stands for a logical one: the clusters of a deterministic partition stand for those of the V4096
shape in turn (R20; log 6). -/
def State.physical (s : State) (cluster : Nat) : Nat :=
  match s.detImage with
  | some x => x.clusters.getD (cluster % x.clusters.length) cluster
  | none => cluster

/-- The physical compute die that runs a core: four clusters each (R6, R20). -/
def State.dieOf (s : State) (core : Nat) : Nat := s.physical (clusterOf core) / 4

/-- The logical cores that one physical core stands for (R20). -/
def State.twins (s : State) (core : Nat) : List Nat :=
  if s.detImage.isNone || isKernel core then [core]
  else ((List.range 32).filter fun n => s.physical n == s.physical (core / 128)).map fun n => 128 * n + core % 128

/-- The core of a half: halves are numbered 2 x core + half. -/
def coreOf (hid : Nat) : Nat := hid / 2

/-- A core, in its reset state where nothing has happened to it. -/
def State.core (s : State) (cid : Nat) : Core := tgetD s.cores cid Core.reset

/-- A half, in its reset state where nothing has happened to it. -/
def State.half (s : State) (hid : Nat) : Half := tgetD s.halves hid Half.reset

/-- A cluster. -/
def State.cluster (s : State) (n : Nat) : Cluster := tgetD s.clusters n Cluster.reset

/-- A translation station. -/
def State.station (s : State) (n : Nat) : Station := tgetD s.stations n Station.reset

/-- The partition of a core, if any. -/
def State.partOf (s : State) (cid : Nat) : Option Nat := (s.cluster (clusterOf cid)).part

/-- A task. -/
def State.task? (s : State) (tid : Nat) : Option Task := tget s.tasks tid

/-- The resident task of a half. -/
def State.taskOf (s : State) (hid : Nat) : Option Task := s.task? (s.half hid).tid

/-- A partition. -/
def State.part? (s : State) (n : Nat) : Option Part := tget s.parts n

/-- Changing a half. -/
def upHalf (hid : Nat) (f : Half → Half) : Mv := .look fun s => .one (.half hid (f (s.half hid)))

/-- Changing a core. -/
def upCore (cid : Nat) (f : Core → Core) : Mv := .look fun s => .one (.core cid (f (s.core cid)))

/-- Changing a cluster. -/
def upCluster (n : Nat) (f : Cluster → Cluster) : Mv := .look fun s => .one (.cluster n (f (s.cluster n)))

/-- Changing a station. -/
def upStation (n : Nat) (f : Station → Station) : Mv := .look fun s => .one (.station n (f (s.station n)))

/-- Changing a partition that exists. -/
def upPart (n : Nat) (f : Part → Part) : Mv := .look fun s =>
  match s.part? n with
  | some p => .one (.part n (some (f p)))
  | none => .done

/-- Changing a task that exists. -/
def upTask (tid : Nat) (f : Task → Task) : Mv := .look fun s =>
  match s.task? tid with
  | some t => .one (.task tid (some (f t)))
  | none => .done

/-- Changing what is in flight. -/
def upNet (f : Net → Net) : Mv := .look fun s => .one (.net (f s.net))

/-- Changing MF0. -/
def upMf0 (f : Mf0 → Mf0) : Mv := .look fun s => .one (.mf0 (f s.mf0))

/-- Changing the host side, the ports or the Stays. -/
def upFabric (f : Fabric → Fabric) : Mv := .look fun s => .one (.fabric (f s.fabric))

/-- Writing bytes at package addresses from `a` up. -/
def pokeBytes (a : Nat) (bs : List Byte) : Mv := Mv.each bs.zipIdx fun x => .one (.byte (a + x.2) x.1)

/-- A fresh identifier for something in flight. -/
def withId (k : Nat → Mv) : Mv := .look fun s =>
  .eff (.net { s.net with nextId := s.net.nextId + 1 }) (k s.net.nextId)

/-- A free value (log 3): an opaque constant of Config applied to a counter that the step advances. -/
def withFree (k : Word → Mv) : Mv := .look fun s => .eff (.free (s.free + 1)) (k (Config.freeWord s.free))

/-- A unit whose events the error counters count (R339). -/
inductive Source where
  | core (cid : Nat)
  | memory (home : Home)
  | port (n : Nat)
  | link (die : Nat)
  | arbiter (n : Nat)
  deriving DecidableEq, Repr

/-- The place of a unit's first counter among those that the Stays keep. -/
def Source.key : Source → Nat
  | .core c => 8 * c
  | .memory (.scratch c) => 8 * c
  | .memory (.abm b) => 0x10000 + 8 * b
  | .memory (.hbm c) => 0x20000 + 8 * c
  | .memory .nowhere => 0x30000
  | .port n => 0x40000 + 8 * n
  | .link n => 0x50000 + 8 * n
  | .arbiter n => 0x60000 + 8 * n

/-- One more in a table of 64-bit counters, saturating (R332, R339). -/
def bump (t : Table (BitVec 64)) (i : Nat) : Table (BitVec 64) :=
  let c := tgetD t i 0
  tput t i (if c = BitVec.allOnes 64 then c else c + 1)

/-- Adding to an error counter of a partition (R332, R339). -/
def countPart (part idx : Nat) : Mv := upPart part fun p => { p with errors := bump p.errors idx }

/-- Adding to an error counter that the Stays keep for a unit (R339). -/
def countUnit (idx : Nat) (u : Source) : Mv := upFabric fun f => { f with unitErrors := bump f.unitErrors (u.key + idx) }

/-- Adding to an error counter of a partition, and to that of the unit where the event was (R332, R339). -/
def countError (part idx : Nat) (u : Source) : Mv := (countPart part idx).andThen (countUnit idx u)

/-- Adding n to the performance counters of a cluster that select an event (R340). -/
def countPerf (cluster event n : Nat) : Mv := upCluster cluster fun c =>
  { c with perf := tmap (fun _ p => if p.sel.getLsbD 15 && wbits p.sel 7 0 == event
      then { p with count := p.count + BitVec.ofNat 64 n } else p) c.perf }

end Sys2Proof.Machine
end

