-- ==== Sys2Proof/Machine/Real.lean ====
section
/-! DEFINITION. Number formats, exact values, and the one rounding rule (spec/06_number_formats.md R87 to R103).
A finite value is sign, magnitude and exponent; `sticky` says that the exact magnitude lies strictly between
`man` and `man + 1` units. -/
namespace Sys2Proof.Machine

/-- A finite value: (-1)^neg x man x 2^exp, or a little above it in magnitude when `sticky`. -/
structure Dy where
  neg : Bool
  man : Nat
  exp : Int
  sticky : Bool
  deriving DecidableEq, Repr

/-- A value of any format: a NaN keeps its sign, whether it is signalling, and its mantissa below the quiet bit,
left-aligned to 22 bits. -/
inductive Num where
  | nan (neg : Bool) (sig : Bool) (pay : Nat)
  | inf (neg : Bool)
  | fin (x : Dy)
  deriving DecidableEq, Repr

/-- The value zero with a sign. -/
def zeroNum (neg : Bool) : Num := .fin ⟨neg, 0, 0, false⟩

/-- The default NaN (R88). -/
def defaultNaN : Num := .nan false false 0

/-- An integer as an exact value. -/
def intNum (n : Int) : Num := .fin ⟨decide (n < 0), n.natAbs, 0, false⟩

/-- floor(log2 |x|) of a nonzero finite value (R93). -/
def Dy.log (x : Dy) : Int := (x.man.log2 : Int) + x.exp

/-- A finite value that is exactly zero. -/
def Dy.isZero (x : Dy) : Bool := x.man = 0 && !x.sticky

/-- The product of two exact finite values. -/
def Dy.mul (x y : Dy) : Dy := ⟨x.neg != y.neg, x.man * y.man, x.exp + y.exp, false⟩

/-- The magnitude of an exact value in units of 2^e, where e does not lie above its exponent. -/
def Dy.units (x : Dy) (e : Int) : Int :=
  let m : Int := (x.man * 2 ^ (x.exp - e).toNat : Nat)
  if x.neg then -m else m

/-- The exact sum. A zero sum is -0 only when both are negative zeros (IEEE 754-2019, R131). -/
def Dy.add (x y : Dy) : Dy :=
  let e := min x.exp y.exp
  let z := x.units e + y.units e
  if z = 0 then ⟨x.neg && y.neg, 0, 0, false⟩ else ⟨decide (z < 0), z.natAbs, e, false⟩

/-- The exact value scaled by 2^n. -/
def Dy.scale (x : Dy) (n : Int) : Dy := { x with exp := x.exp + n }

/-- The order of two exact values, -0 and +0 being equal. -/
def Dy.lt (x y : Dy) : Bool := let e := min x.exp y.exp; decide (x.units e < y.units e)

/-- Equality of two exact values, -0 and +0 being equal. -/
def Dy.eq (x y : Dy) : Bool := let e := min x.exp y.exp; decide (x.units e = y.units e)

/-- A binary floating format (R87): field widths, bias; `nans` 0 IEEE style, 1 e4m3, 2 neither NaN nor infinity. -/
structure Fmt where
  ebits : Nat
  mbits : Nat
  bias : Nat
  nans : Nat
  deriving DecidableEq, Repr

/-- What an element type holds. -/
inductive Kind where
  | int (signed : Bool) (w : Nat)
  | float (f : Fmt)
  | lg6
  deriving DecidableEq, Repr

/-- The element types by T code (R68, R87, R89). -/
def kindOf (t : BitVec 4) : Kind :=
  match t.toNat with
  | 0 => .int false 8
  | 1 => .int true 8
  | 2 => .int false 16
  | 3 => .int true 16
  | 4 => .int false 32
  | 5 => .int true 32
  | 6 => .int true 64
  | 7 => .int true 4
  | 8 => .float ⟨8, 23, 127, 0⟩
  | 9 => .float ⟨8, 7, 127, 0⟩
  | 10 => .float ⟨5, 10, 15, 0⟩
  | 11 => .float ⟨4, 3, 7, 1⟩
  | 12 => .float ⟨5, 2, 15, 0⟩
  | 13 => .float ⟨2, 3, 1, 2⟩
  | 14 => .float ⟨2, 1, 1, 2⟩
  | _ => .lg6

/-- The T code of f32. -/
def tF32 : BitVec 4 := 8

/-- The log-to-linear table LT (R91). -/
def lgTable (f : Nat) : Nat := match f with | 0 => 0x800 | 1 => 0x983 | 2 => 0xB50 | _ => 0xD74

/-- LT[t mod 4] x 2^(floor(t/4) - 11), the magnitude both of a code and of a product (R91, R92). -/
def lgMag (neg : Bool) (t : Int) : Dy := ⟨neg, lgTable (t % 4).toNat, t / 4 - 11, false⟩

/-- The value of an lg6 pattern (R91). -/
def lgValue (p : Nat) : Dy :=
  if p % 32 = 0 then ⟨false, 0, 0, false⟩ else lgMag (bit p 5) ((p % 32 : Int) - 16)

/-- The product of two lg6 patterns (R92). -/
def lgProduct (p q : Nat) : Dy :=
  if p % 32 = 0 ∨ q % 32 = 0 then ⟨false, 0, 0, false⟩
  else lgMag (bit p 5 != bit q 5) ((p % 32 : Int) + (q % 32 : Int) - 32)

/-- The value of a pattern of a floating format (R87). -/
def floatValue (f : Fmt) (p : Nat) : Num :=
  let neg := bit p (f.ebits + f.mbits)
  let e := bits p (f.ebits + f.mbits - 1) f.mbits
  let m := p % 2 ^ f.mbits
  if f.nans = 0 ∧ e = 2 ^ f.ebits - 1 then
    if m = 0 then .inf neg
    else .nan neg (!bit m (f.mbits - 1)) (m % 2 ^ (f.mbits - 1) * 2 ^ (23 - f.mbits))
  else if f.nans = 1 ∧ e = 15 ∧ m = 7 then .nan neg false (3 * 2 ^ 20)
  else if e = 0 then .fin ⟨neg, m, 1 - (f.bias : Int) - f.mbits, false⟩
  else .fin ⟨neg, 2 ^ f.mbits + m, (e : Int) - f.bias - f.mbits, false⟩

/-- The value of a pattern of an element type (R87, R89, R91). -/
def valueOf (t : BitVec 4) (p : Nat) : Num :=
  match kindOf t with
  | .int false w => intNum (p % 2 ^ w : Nat)
  | .int true w => intNum (sval w (p % 2 ^ w))
  | .float f => floatValue f p
  | .lg6 => .fin (lgValue p)

/-- Whether flush-to-zero applies to the type (R101). -/
def flushes (t : BitVec 4) : Bool := isFloatType t

/-- A subnormal pattern of a type to which FTZ applies (R101). -/
def isSubnormal (t : BitVec 4) (p : Nat) : Bool :=
  match kindOf t with
  | .float f => bits p (f.ebits + f.mbits - 1) f.mbits == 0 && p % 2 ^ f.mbits != 0
  | _ => false

/-- An operand of an instruction that computes a floating value, flushed under FTZ (R84, R101, R127). -/
def operand (ftz : Bool) (t : BitVec 4) (p : Nat) : Num :=
  if ftz && flushes t && isSubnormal t p then
    match kindOf t with
    | .float f => zeroNum (bit p (f.ebits + f.mbits))
    | _ => zeroNum false
  else valueOf t p

/-- Rounding modes (R69, R98): `.sd` carries its dither threshold. -/
inductive Rnd where
  | rne
  | rz
  | sd (d : Nat)
  deriving DecidableEq, Repr

/-- FFLAGS bits [4:0]: NV, DZ, OF, UF, NX (R84). -/
abbrev Flags := BitVec 5
/-- Invalid operation. -/
def flNV : Flags := 0x10
/-- Division by zero. -/
def flDZ : Flags := 0x8
/-- Overflow. -/
def flOF : Flags := 0x4
/-- Underflow. -/
def flUF : Flags := 0x2
/-- Inexact. -/
def flNX : Flags := 0x1

/-- A flag under a condition. -/
def flIf (c : Bool) (f : Flags) : Flags := if c then f else 0

/-- Whether a magnitude of `man` units, `sticky` above, cut at `sh` low bits, rounds up (R98); `odd` says that
the lower neighbour has an odd encoding. -/
def roundsUp (r : Rnd) (man sh : Nat) (sticky odd : Bool) : Bool :=
  let rem := man % 2 ^ sh
  match r with
  | .rz => false
  | .rne =>
    if sh = 0 then false
    else if rem = 2 ^ (sh - 1) then sticky || odd
    else decide (2 ^ (sh - 1) < rem)
  | .sd d => decide (d * 2 ^ sh < rem * 256) || (sticky && decide (d * 2 ^ sh = rem * 256) && decide (sh ≠ 0))

/-- A magnitude in units of 2^q, rounded: the units, and whether it was inexact (R98). -/
def roundUnits (r : Rnd) (x : Dy) (q : Int) : Nat × Bool :=
  if q ≤ x.exp then (x.man * 2 ^ (x.exp - q).toNat, x.sticky)
  else
    let sh := (q - x.exp).toNat
    let lo := x.man / 2 ^ sh
    let up := roundsUp r x.man sh x.sticky (lo % 2 = 1)
    (if up then lo + 1 else lo, x.man % 2 ^ sh != 0 || x.sticky)

/-- align_to(x, E) for an exact value, as a signed integer (R4, R93). -/
def alignTo (x : Dy) (e : Int) : Int :=
  let m := (roundUnits .rne x e).1
  if x.neg then -(m : Int) else m

/-- The pattern of a float from sign, units and unit exponent, known to be in range. -/
def packFloat (f : Fmt) (neg : Bool) (m : Nat) (q : Int) : Nat :=
  let s := b2n neg * 2 ^ (f.ebits + f.mbits)
  if m < 2 ^ f.mbits then s + m
  else
    -- a carry out of the mantissa moves to the next binade with mantissa 0
    let m' := if 2 ^ (f.mbits + 1) ≤ m then m / 2 else m
    let q' := if 2 ^ (f.mbits + 1) ≤ m then q + 1 else q
    s + (q' + f.mbits + f.bias).toNat * 2 ^ f.mbits + (m' - 2 ^ f.mbits)

/-- The largest finite magnitude of a float format, as mantissa and exponent (R87). -/
def maxFinite (f : Fmt) : Nat × Int :=
  let e : Int := if f.nans = 0 then 2 ^ f.ebits - 2 else 2 ^ f.ebits - 1
  let m := if f.nans = 1 then 2 ^ (f.mbits + 1) - 2 else 2 ^ (f.mbits + 1) - 1
  (m, e - f.bias - f.mbits)

/-- The pattern of the largest finite magnitude with a sign. -/
def maxPattern (f : Fmt) (neg : Bool) : Nat := packFloat f neg (maxFinite f).1 (maxFinite f).2

/-- The pattern of an infinity, or of what overflow gives where the format has none (R100). -/
def infPattern (f : Fmt) (neg : Bool) : Nat :=
  if f.nans = 0 then b2n neg * 2 ^ (f.ebits + f.mbits) + (2 ^ f.ebits - 1) * 2 ^ f.mbits else maxPattern f neg

/-- The pattern of a quiet NaN, 0 where the format has none (R88, R100). -/
def nanPattern (f : Fmt) (neg : Bool) (pay : Nat) : Nat :=
  if f.nans = 0 then
    b2n neg * 2 ^ (f.ebits + f.mbits) + (2 ^ f.ebits - 1) * 2 ^ f.mbits + 2 ^ (f.mbits - 1) + pay / 2 ^ (23 - f.mbits)
  else if f.nans = 1 then b2n neg * 128 + 0x7F
  else 0

/-- Rounding a value into a binary float format, with its flags (R98, R100, R101). -/
def roundFloat (f : Fmt) (ftz : Bool) (r : Rnd) : Num → Nat × Flags
  | .nan neg sig pay => (nanPattern f neg pay, flIf (sig || f.nans = 2) flNV)
  | .inf neg => (infPattern f neg, flIf (f.nans ≠ 0) flNV)
  | .fin x =>
    if x.isZero then (b2n x.neg * 2 ^ (f.ebits + f.mbits), 0)
    else
      let qmin : Int := 1 - (f.bias : Int) - f.mbits
      let q := max (x.log - f.mbits) qmin
      let (m, inexact) := roundUnits r x q
      let (mm, mq) := maxFinite f
      let tiny := decide (x.log < 1 - (f.bias : Int))
      let ovf := decide (mq < q ∨ (mq = q ∧ mm < m))
      if ovf then
        let p := if f.nans = 0 ∧ r = .rz then maxPattern f x.neg else infPattern f x.neg
        (p, flOF ||| flNX)
      else if ftz && m < 2 ^ f.mbits && m != 0 then
        (b2n x.neg * 2 ^ (f.ebits + f.mbits), flUF ||| flNX)
      else (packFloat f x.neg m q, flIf (tiny && inexact) flUF ||| flIf inexact flNX)

/-- Rounding into an integer type from a real value (R98, R100, R101). -/
def roundInt (signed : Bool) (w : Nat) (r : Rnd) : Num → Nat × Flags
  | .nan _ _ _ => (0, flNV)
  | .inf neg =>
    let lo : Int := if signed then -(2 ^ (w - 1) : Nat) else 0
    let hi : Int := if signed then (2 ^ (w - 1) : Nat) - 1 else (2 ^ w : Nat) - 1
    (pat w (if neg then lo else hi), flNV)
  | .fin x =>
    let (m, inexact) := roundUnits r x 0
    let z : Int := if x.neg then -(m : Int) else m
    let lo : Int := if signed then -(2 ^ (w - 1) : Nat) else 0
    let hi : Int := if signed then (2 ^ (w - 1) : Nat) - 1 else (2 ^ w : Nat) - 1
    if z < lo then (pat w lo, flNV ||| flNX)
    else if hi < z then (pat w hi, flNV ||| flNX)
    else (pat w z, flIf inexact flNX)

/-- The magnitude of lg6 code c, the scale continuing above 31 (R91, R98). -/
def lgCode (c : Nat) : Dy := if c = 0 then ⟨false, 0, 0, false⟩ else lgMag false ((c : Int) - 16)

/-- The largest code whose magnitude does not exceed x, among the codes up to n. -/
def lgFloor (x : Dy) : Nat → Nat
  | 0 => 0
  | n + 1 => if x.lt (lgCode (n + 1)) then lgFloor x n else n + 1

/-- Rounding into lg6 (R98, R100, R101). -/
def roundLg6 (r : Rnd) : Num → Nat × Flags
  | .nan _ _ _ => (0, flNV)
  | .inf neg => (b2n neg * 32 + 31, flNV)
  | .fin x =>
    let ax : Dy := { x with neg := false }
    if x.isZero then (0, 0)
    else
      let lo := lgFloor ax 32
      let e := min (-40 : Int) x.exp
      let xu := ax.units e
      let lu := (lgCode lo).units e
      let hu := (lgCode (lo + 1)).units e
      let num := xu - lu
      let den := hu - lu
      let up := match r with
        | .rz => false
        | .rne => decide (den < 2 * num) || (decide (den = 2 * num) && (x.sticky || lo % 2 = 1))
        | .sd d => decide ((d : Int) * den < num * 256)
      let c := if up then lo + 1 else lo
      let inexact := decide (num ≠ 0) || x.sticky
      let tiny := decide (lo = 0)
      if 31 < c then (b2n x.neg * 32 + 31, flOF ||| flNX)
      else (if c = 0 then 0 else b2n x.neg * 32 + c, flIf (tiny && inexact) flUF ||| flIf inexact flNX)

/-- Rounding a value into an element type, with its flags (R98 to R101). -/
def roundTo (t : BitVec 4) (ftz : Bool) (r : Rnd) (x : Num) : Nat × Flags :=
  match kindOf t with
  | .int signed w => roundInt signed w r x
  | .float f => roundFloat f (ftz && flushes t) r x
  | .lg6 => roundLg6 r x

/-- The dither threshold D(i, j) (R99, R301). -/
def dither (i j : Nat) : Nat :=
  let x := (i % 16) ^^^ (j % 16)
  128 * b2n (bit x 0) + 32 * b2n (bit x 1) + 8 * b2n (bit x 2) + 2 * b2n (bit x 3)
    + 64 * b2n (bit i 0) + 16 * b2n (bit i 1) + 4 * b2n (bit i 2) + b2n (bit i 3)

/-- The threshold at a row and column with the origin of DITHO (R84, R99). -/
def ditherAt (dito : Word) (row col : Nat) : Nat :=
  dither ((row + wbits dito 7 4) % 16) ((col + wbits dito 3 0) % 16)

/-- The threshold of element m of a vector (R99). -/
def ditherElem (dito : Word) (m : Nat) : Nat := ditherAt dito (m / 16 % 16) (m % 16)

/-- The first NaN of a list of operands, quieted (R127). -/
def firstNaN (l : List Num) : Option Num :=
  l.findSome? fun x => match x with | .nan neg _ pay => some (.nan neg false pay) | _ => none

/-- Some operand is a signalling NaN. -/
def anySignalling (l : List Num) : Bool := l.any fun x => match x with | .nan _ sig _ => sig | _ => false

/-- Exact addition with the special cases of IEEE 754-2019 (R127, R131): the value, and NV. -/
def addNum (x y : Num) : Num × Flags :=
  match firstNaN [x, y] with
  | some n => (n, flIf (anySignalling [x, y]) flNV)
  | none =>
    match x, y with
    | .inf a, .inf b => if a = b then (.inf a, 0) else (defaultNaN, flNV)
    | .inf a, _ => (.inf a, 0)
    | _, .inf b => (.inf b, 0)
    | .fin a, .fin b => (.fin (a.add b), 0)
    | _, _ => (defaultNaN, 0)

/-- The negation of a value, NaNs unchanged. -/
def negNum : Num → Num
  | .nan a b c => .nan a b c
  | .inf a => .inf !a
  | .fin x => .fin { x with neg := !x.neg }

/-- Exact multiplication with the special cases of IEEE 754-2019. -/
def mulNum (x y : Num) : Num × Flags :=
  match firstNaN [x, y] with
  | some n => (n, flIf (anySignalling [x, y]) flNV)
  | none =>
    match x, y with
    | .inf a, .inf b => (.inf (a != b), 0)
    | .inf a, .fin b => if b.man = 0 then (defaultNaN, flNV) else (.inf (a != b.neg), 0)
    | .fin a, .inf b => if a.man = 0 then (defaultNaN, flNV) else (.inf (a.neg != b), 0)
    | .fin a, .fin b => (.fin (a.mul b), 0)
    | _, _ => (defaultNaN, 0)

/-- x x y is 0 x infinity. -/
def infTimesZero (x y : Num) : Bool :=
  match x, y with
  | .inf _, .fin b => b.man = 0
  | .fin a, .inf _ => a.man = 0
  | _, _ => false

/-- The exact x x y + z (R130). 0 x infinity + quiet NaN: NV is left open (log 19). -/
def fmaNum (x y z : Num) : Num × Flags :=
  match firstNaN [x, y, z] with
  | some n => (n, flIf (anySignalling [x, y, z] || (infTimesZero x y && Config.fmaInvalidNaN)) flNV)
  | none =>
    let (p, fl) := mulNum x y
    match p with
    | .nan _ _ _ => (p, fl)
    | _ => addNum p z

/-- A subtraction whose second operand keeps its NaN as it is (R127). -/
def subNum (x y : Num) : Num × Flags := addNum x (negNum y)

/-- Numeric order of two values that are not NaNs, -0 below +0 when `signed0` (R131, R136). -/
def ltNum (signed0 : Bool) (x y : Num) : Bool :=
  match x, y with
  | .inf a, .inf b => a && !b
  | .inf a, .fin _ => a
  | .fin _, .inf b => !b
  | .fin a, .fin b => a.lt b || (signed0 && a.man = 0 && b.man = 0 && a.neg && !b.neg)
  | _, _ => false

/-- Numeric equality of two values that are not NaNs; -0 = +0. -/
def eqNum (x y : Num) : Bool :=
  match x, y with
  | .inf a, .inf b => a == b
  | .fin a, .fin b => a.eq b
  | _, _ => false

/-- A NaN of either kind. -/
def isNaN : Num → Bool
  | .nan _ _ _ => true
  | _ => false

/-- Floating minimum or maximum (R131). -/
def minMaxNum (isMax : Bool) (x y : Num) : Num × Flags :=
  let fl := flIf (anySignalling [x, y]) flNV
  if isNaN x && isNaN y then (defaultNaN, fl)
  else if isNaN x then (y, fl)
  else if isNaN y then (x, fl)
  else if isMax then (if ltNum true x y then y else x, fl) else (if ltNum true y x then y else x, fl)

/-- One rounded addition of two patterns, with `.rne` (R102). -/
def addRounded (t : BitVec 4) (ftz : Bool) (x y : Nat) : Nat × Flags :=
  let (z, f1) := addNum (operand ftz t x) (operand ftz t y)
  let (p, f2) := roundTo t ftz .rne z
  (p, f1 ||| f2)

/-- One level of the pairwise tree: adjacent partial sums added; an odd last one is carried up. -/
def treeLevel (t : BitVec 4) (ftz : Bool) : List Nat → List Nat × Flags
  | x :: y :: l =>
    let (p, f1) := addRounded t ftz x y
    let (r, f2) := treeLevel t ftz l
    (p :: r, f1 ||| f2)
  | l => (l, 0)

/-- The pairwise tree sum of patterns (R102); the fuel bounds the levels. -/
def treeSum (t : BitVec 4) (ftz : Bool) : Nat → List Nat → Nat × Flags
  | _, [] => (0, 0)
  | _, [x] => (x, 0)
  | 0, x :: _ => (x, 0)
  | n + 1, l =>
    let (l', f1) := treeLevel t ftz l
    let (p, f2) := treeSum t ftz n l'
    (p, f1 ||| f2)

/-- The NaN input with the smallest payload, sign 0 winning between equal ones: its payload and sign (R103). -/
def leastNaN (l : List Num) : Option (Nat × Bool) := l.foldl (fun best x =>
  match x, best with
  | .nan neg _ pay, none => some (pay, neg)
  | .nan neg _ pay, some (p, n) => if pay < p ∨ (pay = p ∧ n ∧ ¬ neg) then some (pay, neg) else best
  | _, _ => best) none

/-- Floating adds at a bank (R103): the special values are those of the whole set of inputs, the word among them;
finite ones are summed by the tree of R102, and the sum is added to the word. -/
def bankAdd (old : Nat) (l : List Nat) : Nat :=
  let xs := (old :: l).map (valueOf tF32)
  match leastNaN xs, xs.contains (.inf false), xs.contains (.inf true) with
  | some (pay, neg), _, _ => (roundTo tF32 false .rne (.nan neg false pay)).1
  | none, true, true => (roundTo tF32 false .rne defaultNaN).1
  | none, true, false => (roundTo tF32 false .rne (.inf false)).1
  | none, false, true => (roundTo tF32 false .rne (.inf true)).1
  | none, false, false => (addRounded tF32 false old (treeSum tF32 false 32 l).1).1

/-- The pattern of -0 of a floating type. -/
def negZero (t : BitVec 4) : Nat := 2 ^ (typeWidth t - 1)

/-- The integer square root by bits: the largest r with r^2 at most x, r below 2^n times the start. -/
def isqrtGo (x : Nat) : Nat → Nat → Nat
  | 0, r => r
  | n + 1, r => let c := r + 2 ^ n; isqrtGo x n (if c * c ≤ x then c else r)

/-- floor(sqrt x). -/
def isqrt (x : Nat) : Nat := isqrtGo x (x.log2 / 2 + 1) 0

/-- Working precision in bits of the special functions (log 15). -/
def fp : Nat := 256

/-- ln 2 in units of 2^-256: the sum of 1/(k 2^k), to 300 terms. -/
def ln2Fixed : Nat := (List.range 300).foldl (fun acc i => acc + 2 ^ (2 * fp) / ((i + 1) * 2 ^ (i + 1))) 0 / 2 ^ fp

/-- e^y for y in [0, 1) in units of 2^-256, by the exponential series. -/
def expGo (y : Nat) : Nat → Nat → Nat → Nat → Nat
  | 0, _, _, acc => acc
  | n + 1, k, term, acc => let term' := term * y / 2 ^ fp / k; expGo y n (k + 1) term' (acc + term')

/-- 2^f for f in [0, 1), both in units of 2^-256. -/
def exp2Frac (f : Nat) : Nat := expGo (f * ln2Fixed / 2 ^ fp) 80 1 (2 ^ fp) (2 ^ fp)

/-- 2^x for an exact finite x (R149, R174). -/
def exp2Dy (x : Dy) : Dy :=
  if x.man = 0 then ⟨false, 1, 0, false⟩
  else if decide (11 ≤ x.log) then
    if x.neg then ⟨false, 1, -4000, true⟩ else ⟨false, 1, 4000, true⟩
  else if decide (x.log < -200) then
    -- |x| < 2^-200: the result is just above or just below 1
    if x.neg then ⟨false, 2 ^ 128 - 1, -128, true⟩ else ⟨false, 2 ^ 128, -128, true⟩
  else
    let u := (roundUnits .rz x (-(fp : Int))).1
    let u : Int := if x.neg then -(u : Int) else u
    let n := u / (2 ^ fp : Nat)
    let f := (u % (2 ^ fp : Nat)).toNat
    if f = 0 then ⟨false, 1, n, false⟩ else ⟨false, exp2Frac f, n - fp, true⟩

/-- atanh(t) for t in [0, 1/3], in units of 2^-256, by its series. -/
def atanhGo (t2 : Nat) : Nat → Nat → Nat → Nat → Nat
  | 0, _, _, acc => acc
  | n + 1, k, pw, acc => atanhGo t2 n (k + 2) (pw * t2 / 2 ^ fp) (acc + pw / k)

/-- log2 of a positive exact value (R149). -/
def log2Dy (x : Dy) : Dy :=
  let e := x.log
  let m := x.man * 2 ^ fp / 2 ^ x.man.log2
  if m = 2 ^ fp then ⟨decide (e < 0), e.natAbs, 0, false⟩
  else
    let t := (m - 2 ^ fp) * 2 ^ fp / (m + 2 ^ fp)
    let ln := 2 * atanhGo (t * t / 2 ^ fp) 90 1 t 0
    let r : Int := e * (2 ^ fp : Nat) + (ln * 2 ^ fp / ln2Fixed : Nat)
    -- truncation is toward zero for a positive result, and away from it for a negative one
    if r < 0 then ⟨true, r.natAbs - 1, -(fp : Int), true⟩ else ⟨false, r.natAbs, -(fp : Int), true⟩

/-- 1/x of a nonzero exact value (R149). -/
def rcpDy (x : Dy) : Dy :=
  let k := x.man.log2 + 128
  let q := 2 ^ k / x.man
  ⟨x.neg, q, -x.exp - k, decide (q * x.man ≠ 2 ^ k)⟩

/-- 1/sqrt(x) of a positive exact value (R149). -/
def rsqDy (x : Dy) : Dy :=
  let (man, e) := if x.exp % 2 = 0 then (x.man, x.exp) else (2 * x.man, x.exp - 1)
  let k := (man.log2 / 2 + 128) * 2
  let r := isqrt (2 ^ k / man)
  ⟨false, r, -e / 2 - k / 2, decide (r * r * man ≠ 2 ^ k)⟩

/-- tanh of a nonzero exact value (R149). -/
def tanhDy (x : Dy) : Dy :=
  if decide (x.log < -40) then ⟨x.neg, x.man * 2 ^ 64 - 1, x.exp - 64, true⟩
  else if decide (7 ≤ x.log) then ⟨x.neg, 2 ^ 64 - 1, -64, true⟩
  else
    -- e^(2|x|) = 2^(2|x| / ln 2)
    let u := (roundUnits .rz x (-(fp : Int))).1
    let y := 2 * u * 2 ^ fp / ln2Fixed
    let n := y / 2 ^ fp
    let ex := exp2Frac (y % 2 ^ fp) * 2 ^ n
    ⟨x.neg, (ex - 2 ^ fp) * 2 ^ fp / (ex + 2 ^ fp), -(fp : Int), true⟩

end Sys2Proof.Machine
end

