-- ==== Sys2Proof/Machine/Flags.lean ====
section
/-! DEFINITION. Condition codes, the FFLAGS rules and the status bits that SSW and ORDST form
(spec/04_encoding.md R69; spec/05_registers.md R82 to R86; spec/06_number_formats.md R101). -/
namespace Sys2Proof.Machine

/-- The condition code on two words (R69, R107): 0 .eq, 1 .ne, 2 .lt, 3 .le, 4 .ltn, 5 .len, 6 .tst. -/
def condHolds (code : Nat) (a b : Word) : Bool :=
  match code with
  | 0 => a == b
  | 1 => a != b
  | 2 => a.slt b
  | 3 => a.sle b
  | 4 => a.ult b
  | 5 => a.ule b
  | 6 => a &&& b != 0
  | _ => false

/-- A comparison's result in every bit of a predicate (R107). -/
def allBits (c : Bool) : Mask := if c then BitVec.allOnes 1024 else 0

/-- The exceptions that FTRAP.EN makes trap (R84, R101). -/
def trapping (c : Ctl) (fl : Flags) : Flags := fl &&& c.ftrap.setWidth 5

/-- FFLAGS with flags ORed in (R84, R101). -/
def orFlags (c : Ctl) (fl : Flags) : Ctl := { c with fflags := c.fflags ||| fl.setWidth 64 }

/-- RMODE.FTZ (R84). -/
def ftzOf (c : Ctl) : Bool := c.rmode.getLsbD 0

/-- The rounding mode that an SC code names, with the dither threshold of the element (R69, R98, R99). -/
def rndOf (sc : BitVec 2) (d : Nat) : Rnd :=
  match sc.toNat with
  | 0 => .rne
  | 1 => .rz
  | _ => .sd d

/-- ORDST from a release record's scope and STRIP (R86, R202). -/
def ordstOf (scope : Nat) (strip : Bool) : Word := word (scope % 8 * 2 + b2n strip)

/-- The size in bytes of an SC code (R69). -/
def sizeOf (sc : BitVec 2) : Nat := 2 ^ sc.toNat

/-- Cause codes (R276). -/
def causeCode : Cause → Nat
  | .ill => 0x01
  | .absent => 0x02
  | .empty => 0x03
  | .align => 0x04
  | .bound => 0x05
  | .stale => 0x06
  | .tretx => 0x07
  | .badssw => 0x08
  | .rlock => 0x09
  | .gate => 0x0A
  | .access => 0x0B
  | .badtgt => 0x0C
  | .wdog => 0x0D
  | .fpx => 0x0E
  | .trapi => 0x0F
  | .bkpt => 0x10
  | .priv => 0x11
  | .held => 0x12
  | .resmiss => 0x13
  | .jiblim => 0x14
  | .detww => 0x15
  | .double => 0x16

end Sys2Proof.Machine
end

