-- ==== Sys2Proof/Machine/Translate.lean ====
section
/-! DEFINITION. Translation of shared virtual addresses and the fetch of code (spec/10_memories.md R184, R187 to
R193; spec/20_recovery.md R348). Looking up is a pure function of the machine; installing what a walk found is an
effect. -/
namespace Sys2Proof.Machine

/-- Kinds of shared access (R187): the numbers are those of the page request queue (R251). -/
inductive AKind where
  | read
  | write
  | atomic
  | fetch
  /-- A read of a ratline cell (R328). -/
  | cell
  deriving DecidableEq, Repr

/-- The KIND code of a page request (R251). -/
def AKind.code : AKind → Nat
  | .read => 0
  | .write => 1
  | .atomic => 2
  | .fetch => 3
  | .cell => 0

/-- The party that a request is translated for: cluster of the station, partition, ASID, world, kind (R187). -/
structure Party where
  cluster : Nat
  part : Nat
  asid : Nat
  secure : Bool
  deriving DecidableEq, Repr

/-- Result of a translation. -/
inductive XRes where
  | ok (pa : Nat)
  | refused
  | fault
  deriving DecidableEq, Repr

/-- The station of an address: 2 x cluster + VA[16] (R187). -/
def stationOf (cluster va : Nat) : Nat := 2 * cluster + b2n (bit va 16)

/-- The address-space id of a partition: the first that the Stays gave it (R85; log 20). -/
def State.asidOf (s : State) (part : Nat) : Nat :=
  match s.part? part with
  | some p => p.image.asids.headD 0
  | none => 0

/-- Whether a partition is secure (R193). -/
def State.secure (s : State) (part : Nat) : Bool :=
  match s.part? part with
  | some p => p.image.world
  | none => false

/-- Whether a partition runs deterministically (R341). -/
def State.det (s : State) (part : Nat) : Bool :=
  match s.part? part with
  | some p => p.image.det
  | none => false

/-- A core of the V4096 shape of a deterministic partition: what crosses into it is applied at boundaries (R341). The
kernel cores stand outside the shape (log 36). -/
def State.detCore (s : State) (core : Nat) : Bool := !isKernel core && s.det ((s.partOf core).getD 0)

/-- The party of a core's partition. -/
def State.party (s : State) (cid : Nat) : Party :=
  let part := (s.partOf cid).getD 0
  ⟨clusterOf cid, part, s.asidOf part, s.secure part⟩

/-- Rights in the places of R189: SEC, ATM, X, W, RD in bits [6:2]. -/
def rightsOk (rights : Word) : AKind → Bool
  | .read => rights.getLsbD 2
  | .write => rights.getLsbD 3
  | .atomic => rights.getLsbD 5 && rights.getLsbD 3
  | .fetch => rights.getLsbD 4
  | .cell => rights.getLsbD 5 && rights.getLsbD 2

/-- A non-secure requester is refused a secure region (R193). -/
def worldOk (rights : Word) (secure : Bool) : Bool := secure || !rights.getLsbD 6

/-- The world bit of the block that holds an address (R193): that of the partition which owns the HBM channel, the core of
the scratchpad, or the cluster among whose banks the ABM bank stands, 128 for each (R7; log 98). -/
def State.blockSecure (s : State) (pa : Nat) : Bool :=
  let ofCluster (n : Nat) : Bool := s.parts.any fun p => p.2.image.world && p.2.image.shape.contains n
  match homeOf s.extent pa with
  | .hbm chan => s.parts.any fun p => p.2.image.world && p.2.image.channels.contains chan
  | .abm bank => ofCluster (bank / 128)
  | .scratch core => ofCluster (clusterOf core)
  | .nowhere => false

/-- The package address of a system physical address of this package; none for another package (R186; log 6). -/
def State.localPa (s : State) (spa : Nat) : Option Nat :=
  if bits spa 51 40 = s.package.id.toNat then some (bits spa 39 0) else none

/-- A page or block is refused or gives its address. -/
def State.grant (s : State) (rights : Word) (p : Party) (kind : AKind) (spa : Nat) : XRes :=
  if !worldOk rights p.secure || !rightsOk rights kind then .refused
  else match s.localPa spa with
    | some pa => if s.blockSecure pa && !p.secure then .refused else .ok spa
    | none => .ok spa

/-- The lowest-index valid range entry that covers the address (R187, R297). -/
def rangeHit (st : Station) (asid va : Nat) : Option Range :=
  (st.ranges.find? fun r => r.2.control.getLsbD 0 && wbits r.2.control 31 16 == asid
    && decide (r.2.base ≤ va) && decide (va ≤ r.2.limit)).map (·.2)

/-- The cached page that covers the address (R187). -/
def cacheHit (st : Station) (asid va : Nat) : Option Page :=
  st.cache.find? fun p => p.asid == asid && p.va / 2 ^ p.bits == va / 2 ^ p.bits

/-- What a walk found: the leaf, or why not. -/
inductive Walk where
  | leaf (p : Page)
  | invalid
  | secret
  deriving DecidableEq, Repr

/-- The levels below the root: shift and index width (R188). -/
def walkLevels : List (Nat × Nat) := [(48, 8), (39, 9), (30, 9), (21, 9), (12, 9)]

/-- PA bits [51:12] of an entry (R189). -/
def entryPa (e : Word) : Nat := wbits e 51 12 * 4096

/-- A page whose frames include a retired one (R348). -/
def State.hasRetired (s : State) (pa bitsN : Nat) : Bool := match s.localPa pa with
  | some a => s.fabric.retired.any fun f => f / 2 ^ bitsN == a / 2 ^ bitsN
  | none => false

/-- The 64 KiB group of an L4 entry agrees (R188). -/
def groupAgrees (s : State) (table idx : Nat) : Bool :=
  let first := memWord s.mem (table + 8 * (idx / 16 * 16))
  (List.range 16).all fun i =>
    let e := memWord s.mem (table + 8 * (idx / 16 * 16 + i))
    e.getLsbD 0 && e.getLsbD 1 && e.getLsbD 7 && wbits e 6 2 == wbits first 6 2
      && entryPa e == entryPa first + 4096 * i

/-- The walk from a table down the levels (R188). A table of a secure block is refused to a non-secure ASID; a table address
that has no memory, or lies in another package, gives an entry that is not valid (log 122). -/
def walkFrom (s : State) (secure : Bool) (asid va : Nat) : List (Nat × Nat) → Nat → Walk
  | [], _ => .invalid
  | (shift, width) :: rest, table =>
    match s.localPa table with
    | none => .invalid
    | some t =>
      if s.blockSecure t && !secure then .secret
      else
        let idx := va / 2 ^ shift % 2 ^ width
        let e := memWord s.mem (t + 8 * idx)
        if !e.getLsbD 0 then .invalid
        else if e.getLsbD 1 then
          if shift = 30 || shift = 21 || shift = 12 then
            if shift = 12 && e.getLsbD 7 && groupAgrees s t idx then
              let g := memWord s.mem (t + 8 * (idx / 16 * 16))
              if s.hasRetired (entryPa g) 16 then .invalid
              else .leaf ⟨asid, va / 2 ^ 16 * 2 ^ 16, 16, entryPa g, e, t + 8 * idx⟩
            else if entryPa e % 2 ^ shift ≠ 0 then .invalid
            else if s.hasRetired (entryPa e) shift then .invalid
            else .leaf ⟨asid, va / 2 ^ shift * 2 ^ shift, shift, entryPa e, e, t + 8 * idx⟩
          else .invalid
        else if shift = 12 then .invalid
        else walkFrom s secure asid va rest (entryPa e)

/-- The package addresses of the entries that a walk reads, from the root down (R188). -/
def walkPath (s : State) (va : Nat) : List (Nat × Nat) → Nat → List Nat
  | [], _ => []
  | (shift, width) :: rest, table =>
    match s.localPa table with
    | none => []
    | some t =>
      let a := t + 8 * (va / 2 ^ shift % 2 ^ width)
      let e := memWord s.mem a
      a :: (if e.getLsbD 0 && !e.getLsbD 1 then walkPath s va rest (entryPa e) else [])

/-- The page of an address of an ASID whose leaf names a retired frame, as its size in address bits (R348). -/
def State.retiredPage (s : State) (asid va : Nat) : Option Nat :=
  let path := walkPath s va walkLevels (entryPa (memWord s.mem (s.package.asidRoot + 8 * asid)))
  match path.getLast? with
  | none => none
  | some a =>
    let e := memWord s.mem a
    let shift := (walkLevels.getD (path.length - 1) (12, 9)).1
    let n := if shift = 12 && e.getLsbD 7 && groupAgrees s (a / 4096 * 4096) (a % 4096 / 8) then 16 else shift
    if e.getLsbD 0 && e.getLsbD 1 && s.hasRetired (entryPa e) n then some n else none

/-- The entry that a walk of an address of an ASID reads at a level; level 0 is the ASID root. -/
def State.walkEntry (s : State) (asid va level : Nat) : Nat :=
  let root := s.package.asidRoot + 8 * asid
  (root :: walkPath s va walkLevels (entryPa (memWord s.mem root))).getD level root

/-- The walk of an address of an ASID (R188). -/
def walk (s : State) (secure : Bool) (asid va : Nat) : Walk :=
  let root := memWord s.mem (s.package.asidRoot + 8 * asid)
  if !root.getLsbD 0 then .invalid else walkFrom s secure asid va walkLevels (entryPa root)

/-- Entries of a page cache (R187). -/
def cacheSize : Nat := 4096

/-! ### Misses of a station -/

/-- The line that a request translates next. -/
def Req.line (q : Req) : Nat := q.lines.getD q.pas.length q.va

/-- The station that a request stands at (R187). -/
def Req.station (q : Req) : Nat := stationOf (clusterOf q.core) q.line

/-- A miss is recorded by address space and page, which requests share (R190). -/
def Req.record (q : Req) : Nat × Nat := (q.asid, q.line / 4096)

/-- The misses that a station holds in the order in which they arrived: those whose walk is still to be made, or all. -/
def State.records (s : State) (station : Nat) (walking : Bool) : List (Nat × Nat) :=
  ((s.net.reqs.filter fun r => r.station == station && (match r.phase with
      | .walk => true
      | .fault | .held => !walking
      | _ => false)).insertionSort fun a b => a.stamp ≤ b.stamp).map Req.record |>.eraseDups

/-- Walks that a station runs at once, and misses that it holds (R187). -/
def stationWalks : Nat := 8
def stationMisses : Nat := 64

/-- A station may walk at once for a request that has just missed: a walk and a miss are free, and no earlier miss waits in
the cluster network (R187; log 97). -/
def State.walkRoom (s : State) (station : Nat) : Bool :=
  decide ((s.records station true).length < stationWalks) && decide ((s.records station false).length < stationMisses)
    && !s.net.reqs.any fun r => decide (r.phase = .missing) && r.station == station

/-- Translation by range table and page cache alone; none is a miss (R187). An access that a range entry allows to a retired
frame is a page fault, as it is through a leaf (R348; log 128). -/
def lookup (s : State) (p : Party) (kind : AKind) (va : Nat) : Option XRes :=
  let st := s.station (stationOf p.cluster va)
  match rangeHit st p.asid va with
  | some r =>
    let spa := (va + r.offset) % 2 ^ 52
    let x := s.grant r.control p kind spa
    some (if decide (x = .ok spa) && s.hasRetired spa 12 then .fault else x)
  | none =>
    match cacheHit st p.asid va with
    | some g => some (s.grant g.rights p kind (g.pa + va % 2 ^ g.bits))
    | none => none

/-- What the tables say of an address: range table, page cache, then walk (R187). -/
def mapped (s : State) (p : Party) (kind : AKind) (va : Nat) : XRes :=
  match lookup s p kind va with
  | some r => r
  | none =>
    match walk s p.secure p.asid va with
    | .leaf g => s.grant g.rights p kind (g.pa + va % 2 ^ g.bits)
    | .invalid => .fault
    | .secret => .refused

/-- Translation at once, of what the core or an engine does now: a miss for which the station has no walk free gives nothing
yet, as a page that is not mapped does (R187). -/
def translate (s : State) (p : Party) (kind : AKind) (va : Nat) : XRes :=
  if (lookup s p kind va).isNone && !s.walkRoom (stationOf p.cluster va) then .fault else mapped s p kind va

/-- Writing bytes at their home: a later write that is no release clears the record of each word it touches (R202).
A scratchpad has no records. -/
def writeHome (pa : Nat) (bs : List Byte) : Mv := .look fun s =>
  (pokeBytes pa bs).andThen
    (match homeOf s.extent pa with
     | .hbm _ | .abm _ => Mv.each (List.range ((pa % 8 + bs.length + 7) / 8)) fun i =>
         .one (.release ((pa / 8 + i) * 8) none)
     | _ => .done)

/-- Caching what a walk of the address finds, and setting ACC in the entry that was walked, in no other entry of a 64 KiB
group (R187, R189; log 123). The oldest entry leaves a full cache (log 21). -/
def cacheLeaf (p : Party) (va : Nat) : Mv := .look fun s =>
  match lookup s p .read va with
  | some _ => .done
  | none =>
    match walk s p.secure p.asid va with
    | .leaf g =>
      (upStation (stationOf p.cluster va) fun st =>
        { st with cache := (if st.cache.length < cacheSize then st.cache else st.cache.drop 1) ++ [g] }).andThen
      (writeHome g.leaf (toBytes 8 (memWord s.mem g.leaf ||| 0x100).toNat))
    | _ => .done

/-- Caching what a walk that is made at once finds, where the station may make one (R187). -/
def install (p : Party) (va : Nat) : Mv := .look fun s =>
  Mv.when (s.walkRoom (stationOf p.cluster va)) (cacheLeaf p va)

/-- Setting D of the leaf that a write goes through, which is walked again once it has left the page cache (R189). -/
def setDirty (p : Party) (va : Nat) : Mv := .look fun s =>
  let st := s.station (stationOf p.cluster va)
  let mark (g : Page) : Mv := writeHome g.leaf (toBytes 8 (memWord s.mem g.leaf ||| 0x200).toNat)
  match rangeHit st p.asid va with
  | some _ => .done
  | none =>
    match cacheHit st p.asid va with
    | some g => mark g
    | none => match walk s p.secure p.asid va with
      | .leaf g => mark g
      | _ => .done

/-- What the code of a memory reports for n bytes that are read at a package address (R185): nothing can be had of a retired
frame (R348), nor of a word of a scratchpad or bank that stays uncorrectable; in a pseudo-channel with a failed pin group an
error of another group is one of two (R347; log 127). -/
def State.eccAt (s : State) (pa n : Nat) : Ecc :=
  match homeOf s.extent pa with
  | .hbm chan =>
    if s.fabric.retired.contains (pa / 4096 * 4096) then .uncorrectable
    else match s.data.ecc with
      | .corrected g => if (s.fabric.failedGroups.any fun k => k / 64 == chan) && !s.fabric.failedGroups.contains (64 * chan + g % 64)
          then .uncorrectable else .corrected g
      | e => e
  | _ => if s.spoilt.any fun w => decide (w < pa + n) && decide (pa < w + 8) then .uncorrectable else s.data.ecc

/-- The package address that a translation gives, if it lies in this package's memory (R186). -/
def State.reach (s : State) (r : XRes) : Option Nat :=
  match r with
  | .ok spa => match s.localPa spa with
    | some pa => if homeOf s.extent pa = .nowhere then none else some pa
    | none => none
  | _ => none

/-- Whether a package address lies in a bank in ratline mode (R183). -/
def State.inRatBank (s : State) (pa : Nat) : Bool :=
  match homeOf s.extent pa with
  | .abm b => s.ratBanks.contains b
  | _ => false

/-- A bank in ratline mode has no cell at an address: a request to it completes with ACCESS (R183). -/
def State.beyondCells (s : State) (pa : Nat) : Bool := s.inRatBank pa && decide (0x8000 ≤ pa % 0x10000)

/-- A core may read memory at a package address: it reaches no scratchpad through the aperture, and no bank in ratline
mode beyond its cells (R183, R186). -/
def State.readable (s : State) (pa : Nat) : Bool := decide (pa / 2 ^ 36 ≠ 15) && !s.beyondCells pa

/-- Result of fetching a parcel. -/
inductive Fetch where
  | ok (p : Parcel)
  | fault
  | refused
  deriving DecidableEq, Repr

/-- A parcel of code by its virtual address (R184). -/
def fetchParcel (s : State) (cid : Nat) (addr : Word) : Fetch :=
  if wbits addr 63 56 ≠ 0 then .refused
  else
    let r := translate s (s.party cid) .fetch addr.toNat
    match r with
    | .fault => .fault
    | .refused => .refused
    | .ok _ =>
      match s.reach r with
      | some pa => if s.readable pa then .ok (BitVec.ofNat 32 (memNat s.mem pa 4)) else .refused
      | none => .refused

/-- Whether an address is a header: bits [1:0] of the address are 0 and of the parcel 0b11 (R58). -/
def isHeaderParcel (p : Parcel) : Bool := lenOf p = 3

/-- BLEN of a header image (R59): parcel 0 in bits [31:0], parcel 1 in bits [63:32]. -/
def hdrBlen (w : Word) : Nat := wbits w 10 2
/-- HK of a header image. -/
def hdrKind (w : Word) : Nat := wbits w 63 60
/-- LIVES of a header image. -/
def hdrLiveS (w : Word) : Nat := wbits w 22 15
/-- LIVEV of a header image. -/
def hdrLiveV (w : Word) : Nat := wbits w 30 23
/-- LIVEK of a header image. -/
def hdrLiveK (w : Word) : Bool := w.getLsbD 31
/-- LIVEA of a header image. -/
def hdrLiveA (w : Word) : Nat := wbits w 35 32
/-- RECONV of a header image: a signed 14-bit count of parcels (R60). -/
def hdrReconv (w : Word) : BitVec 14 := BitVec.ofNat 14 (wbits w 49 36)

/-- Result of fetching a header. -/
inductive HFetch where
  | ok (w : Word)
  | notHeader
  | fault (at_ : Word)
  | refused (at_ : Word)
  deriving DecidableEq, Repr

/-- The header at an address (R57, R58, R184). -/
def fetchHeader (s : State) (cid : Nat) (addr : Word) : HFetch :=
  if wbits addr 1 0 ≠ 0 then .notHeader
  else match fetchParcel s cid addr with
    | .fault => .fault addr
    | .refused => .refused addr
    | .ok p0 =>
      if !isHeaderParcel p0 then .notHeader
      else match fetchParcel s cid (addr + 4) with
        | .fault => .fault (addr + 4)
        | .refused => .refused (addr + 4)
        | .ok p1 => .ok (word (p0.toNat + 2 ^ 32 * p1.toNat))

end Sys2Proof.Machine
end

