-- ==== Sys2Proof/Machine/Operands.lean ====
section
/-! DEFINITION. Registers as operands: reading and writing each class, full and empty, captured operands of a
re-injected entry, effective addresses and branch targets (spec/04_encoding.md R62 to R67; spec/05_registers.md
R77, R78; spec/07, R113, R114; spec/11, R195; spec/15, R281). -/
namespace Sys2Proof.Machine

/-- The i-th element of a vector of registers, or a default. -/
def vget {α : Type} {n : Nat} (v : Vector α n) (i : Nat) (d : α) : α := v.toList.getD i d

/-- A vector of registers with one changed. -/
def vset {α : Type} {n : Nat} (v : Vector α n) (i : Nat) (x : α) : Vector α n := v.setIfInBounds i x

/-- s[r]; s0 reads as 0 (R62, R77). -/
def readS (h : Half) (r : Nat) : Word := if r = 0 then 0 else vget h.s r 0

/-- v[r]. -/
def readV (h : Half) (r : Nat) : VReg := vget h.v r 0

/-- k[r]; k0 reads as all ones (R62). -/
def readK (h : Half) (r : Nat) : Mask := if r = 0 then BitVec.allOnes 1024 else vget h.k r 0

/-- a[r]. -/
def readA (h : Half) (r : Nat) : Acc := vget h.a r Acc.reset

/-- Writing s[r] leaves it full; a write to s0 is discarded (R62). -/
def writeS (h : Half) (r : Nat) (w : Word) : Half :=
  if r = 0 then h
  else { h with s := vset h.s r w, fes := h.fes ||| BitVec.twoPow 32 r, busyS := h.busyS &&& ~~~ BitVec.twoPow 32 r }

/-- Writing v[r] leaves it full. -/
def writeV (h : Half) (r : Nat) (w : VReg) : Half :=
  { h with v := vset h.v r w, fev := h.fev ||| BitVec.twoPow 32 r }

/-- Writing k[r] leaves it full; a write to k0 is discarded (R62). -/
def writeK (h : Half) (r : Nat) (m : Mask) : Half :=
  if r = 0 then h else { h with k := vset h.k r m, fek := h.fek ||| BitVec.twoPow 8 r }

/-- Writing a[r] leaves it full. -/
def writeA (h : Half) (r : Nat) (x : Acc) : Half :=
  { h with a := vset h.a r x, fea := h.fea ||| BitVec.twoPow 4 r }

/-- Whether a register is full (R78); s0 and k0 are never empty. -/
def isFull (h : Half) : Reg → Bool
  | .s r => r = 0 || h.fes.getLsbD r
  | .v r => h.fev.getLsbD r
  | .k r => r = 0 || h.fek.getLsbD r
  | .a r => h.fea.getLsbD r

/-- Whether a register's value is in flight without the register being empty (R224, R328). -/
def isBusy (h : Half) : Reg → Bool
  | .s r => r != 0 && h.busyS.getLsbD r
  | .v r => h.busyV.getLsbD r
  | .k r => r != 0 && h.busyK.getLsbD r
  | .a r => h.busyA.getLsbD r

/-- The control registers with only their defined bits (R3, R83 to R86). -/
def Ctl.defined (c : Ctl) : Ctl := { c with
  fmta := c.fmta &&& 0x1F
  fmtb := c.fmtb &&& 0x1F
  fmtc := c.fmtc &&& 3
  scla := c.scla &&& 0x3FFFF
  sclb := c.sclb &&& 0x3FFFF
  rmode := c.rmode &&& 1
  fflags := c.fflags &&& 0x3F
  ftrap := c.ftrap &&& 0x1F
  tvec := c.tvec &&& 0xFFFFFFFFFFFFFC
  stage := c.stage &&& 0x1FF0003F000
  abftp := c.abftp &&& 7
  dito := c.dito &&& 0xFF
  ordst := c.ordst &&& 0xF }

/-- Marking a register empty (R78); s0 and k0 stay full. -/
def markEmpty (h : Half) : Reg → Half
  | .s r => if r = 0 then h else { h with fes := h.fes &&& ~~~ BitVec.twoPow 32 r }
  | .v r => { h with fev := h.fev &&& ~~~ BitVec.twoPow 32 r }
  | .k r => if r = 0 then h else { h with fek := h.fek &&& ~~~ BitVec.twoPow 8 r }
  | .a r => { h with fea := h.fea &&& ~~~ BitVec.twoPow 4 r }

/-- Marking a register full, its value unchanged. -/
def markFull (h : Half) : Reg → Half
  | .s r => { h with fes := h.fes ||| BitVec.twoPow 32 r, busyS := h.busyS &&& ~~~ BitVec.twoPow 32 r }
  | .v r => { h with fev := h.fev ||| BitVec.twoPow 32 r }
  | .k r => { h with fek := h.fek ||| BitVec.twoPow 8 r }
  | .a r => { h with fea := h.fea ||| BitVec.twoPow 4 r }

/-- Marking a register's value in flight without emptying it. -/
def markBusy (h : Half) : Reg → Half
  | .s r => if r = 0 then h else { h with busyS := h.busyS ||| BitVec.twoPow 32 r }
  | .v r => { h with busyV := h.busyV ||| BitVec.twoPow 32 r }
  | .k r => if r = 0 then h else { h with busyK := h.busyK ||| BitVec.twoPow 8 r }
  | .a r => { h with busyA := h.busyA ||| BitVec.twoPow 4 r }

/-- A register's value is in flight no more. -/
def markReady (h : Half) : Reg → Half
  | .s r => { h with busyS := h.busyS &&& ~~~ BitVec.twoPow 32 r }
  | .v r => { h with busyV := h.busyV &&& ~~~ BitVec.twoPow 32 r }
  | .k r => { h with busyK := h.busyK &&& ~~~ BitVec.twoPow 8 r }
  | .a r => { h with busyA := h.busyA &&& ~~~ BitVec.twoPow 4 r }

/-- The number of a register in its class. -/
def Reg.number : Reg → Nat
  | .s r | .v r | .k r | .a r => r

/-- A source register field: 1 A, 2 B, 3 C (R276, EMPTY); 0 where no field names it. `w` is its W bit (R63). -/
structure Src where
  fld : Nat
  reg : Reg
  w : Bool
  deriving DecidableEq, Repr

/-- What issue needs to know of an instruction (R76): the predicate it reads, whether bit 0 of it decides (R64),
the register fields it reads in order, the registers it writes. -/
structure Spec where
  k : Option (BitVec 3)
  scalar : Bool
  srcs : List Src
  dsts : List Reg
  deriving DecidableEq, Repr

/-- What a meaning sees of the instruction at issue: where it issues, the values of its A, B and C scalar fields,
and its governing masks. -/
structure Ctx where
  hid : Nat
  core : Nat
  h : Half
  tid : Nat
  task : Task
  len : Nat
  addr : Word
  a : Word
  b : Word
  c : Word
  /-- k[K], or the captured mask (R281). -/
  kmask : Mask
  /-- LANES and k[K] (R120), or the captured mask. -/
  vmask : Mask
  entry : Entry
  /-- The registers that it writes. -/
  dsts : List Reg
  deriving DecidableEq, Repr

/-- The address of the instruction at the resume point: HDR + 8 + 4 x ROFF (R280). -/
def pcOf (h : Half) : Word := h.hdr + 8 + word (4 * h.roff)

/-- The effective address of the memory instructions (R195). -/
def effAddr (f : FL) (a b : Word) : Word := a + (sx f.obj + (if f.m.getLsbD 0 then b else 0))

/-- The effective address of a format X PUTH (R212); that M[0] adds sB there, as in format L, is the model's choice
(log 106). -/
def effAddrX (f : FX) (a b : Word) : Word := a + (sx f.lit + (if f.l.m.getLsbD 0 then b else 0))

/-- The address that LEA computes (R113). -/
def leaAddr (f : FL) (disp : Word) (a b : Word) : Word :=
  a + (if f.m.getLsbD 0 then b <<< f.sc.toNat else 0) + disp

/-- The target of a format J transfer (R114). -/
def jTarget (addr : Word) (off : BitVec 19) : Word := (addr + (sx off <<< 2)) &&& word (2 ^ 56 - 1)

/-- The handler address at a signed distance in parcels from parcel 0 (R67). -/
def handlerAt (addr : Word) (off : Word) : Word := (addr + (off <<< 2)) &&& word (2 ^ 56 - 1)

/-- A scalar value truncated to a size in bytes. -/
def truncTo (size : Nat) (w : Word) : Nat := w.toNat % 2 ^ (8 * size)

/-- A loaded value extended to 64 bits (R198). -/
def extendFrom (size : Nat) (sgn : Bool) (n : Nat) : Word := if sgn then wordI (sval (8 * size) n) else word n

/-- A format A scalar instruction with A and B in s and D written in s (R105). -/
def specAB (f : FA) : Spec :=
  ⟨some f.k, true, [⟨1, .s f.a.toNat, f.wa⟩, ⟨2, .s f.b.toNat, f.wb⟩], [.s f.d.toNat]⟩

/-- A format A scalar instruction with A in s and D in s. -/
def specA (f : FA) : Spec := ⟨some f.k, true, [⟨1, .s f.a.toNat, f.wa⟩], [.s f.d.toNat]⟩

/-- A comparison into a predicate (R107). -/
def specCmp (f : FA) : Spec :=
  ⟨some f.k, true, [⟨1, .s f.a.toNat, f.wa⟩, ⟨2, .s f.b.toNat, f.wb⟩], [.k (f.d.toNat % 8)]⟩

/-- Format I: A in s, D in s, no predicate. -/
def specI (f : FI) : Spec := ⟨none, true, [⟨1, .s f.a.toNat, f.wa⟩], [.s f.d.toNat]⟩

/-- A format A instruction that reads only its predicate. -/
def specK (f : FA) : Spec := ⟨some f.k, true, [], []⟩

/-- The registers of a group of g from r up (R132). -/
def vgroup (r g : Nat) : List Reg := (List.range g).map fun i => .v (r + i)

/-- What a half is found to wait for once something that it may have waited for has happened: it tries again. -/
def Block.woken : Block → Block
  | .register | .fence => .none
  | b => b

end Sys2Proof.Machine
end

