-- ==== Sys2Proof/WellFormed.lean ====
section
/-! DEFINITION. Well-formed terms: the encodings that R75 (spec/04_encoding.md) defines. -/
namespace Sys2Proof

/-- A term whose encoding R75 does not make trap ILL by itself. -/
def Instr.wf (i : Instr) : Bool := Machine.encodingDefined i

/-- An instruction, which has parcels, as against an event of the table. -/
def Instr.isInstruction (i : Instr) : Bool := !(encode i).isEmpty

end Sys2Proof
end

