-- ==== Sys2Proof/Machine/Ops.lean ====
section
/-! DEFINITION. The named operations that the meanings share: safety and the life of a task (spec/02, R22 to R38;
spec/14; spec/20), error records (spec/16, R386), raising, delivering and recording a trap (spec/15, R271 to R277),
entering a block (spec/04, R57, R58; spec/07, R122), issue and retirement (spec/04, R76; spec/19, R333). -/
namespace Sys2Proof.Machine

/-! ### Timestamps and safety -/

/-- The sum of floor((a i + b) / m) for i below n, by the Euclidean recursion. -/
def floorSum : Nat → Nat → Nat → Nat → Nat → Nat
  | 0, _, _, _, _ => 0
  | fuel + 1, n, m, a, b =>
    if n = 0 ∨ m = 0 then 0
    else
      let base := n * (n - 1) / 2 * (a / m) + n * (b / m)
      let a' := a % m
      let b' := b % m
      let y := a' * n + b'
      if y < m then base else base + floorSum fuel (y / m) a' m (y % m)

/-- How many i below n have (a i + b) mod m below t, for t at most m. -/
def countBelow (n m a b t : Nat) : Nat := floorSum 200 n m a (b + m) - floorSum 200 n m a (b + m - t)

/-- Some unplaced index of a launch has a timestamp below t (R22, R38). -/
def unplacedBelow (l : Launch) (t : Nat) : Bool :=
  decide (l.next < l.desc.n) &&
    decide (0 < countBelow (l.desc.n - l.next) (2 ^ 48) l.desc.stride.toNat
      ((l.desc.base.toNat + l.next * l.desc.stride.toNat) % 2 ^ 48) t)
  || l.children.any fun c => decide (c.ts.toNat < t)

/-- The four inboxes of a core (R24). -/
def Core.inbox (c : Core) (p : Nat) : Inbox :=
  match p with
  | 0 => c.inbox0
  | 1 => c.inbox1
  | 2 => c.inbox2
  | _ => c.inbox3

/-- A core with one inbox changed. -/
def Core.setInbox (c : Core) (p : Nat) (x : Inbox) : Core :=
  match p with
  | 0 => { c with inbox0 := x }
  | 1 => { c with inbox1 := x }
  | 2 => { c with inbox2 := x }
  | _ => { c with inbox3 := x }

/-- Every activation queued at a core: return slots, entries, entries set aside, ingress. -/
def Core.queued (c : Core) : List Act :=
  [0, 1, 2, 3].flatMap (fun p => (c.inbox p).ret ++ tgetD c.aside p [] ++ (c.inbox p).q) ++ c.ingress.map (·.act)

/-- H1.TS of an activation (R243). -/
def Act.ts (a : Act) : BitVec 48 := a.msg.h1.setWidth 48

/-- H1.REEF of an activation (R243). -/
def Act.reef (a : Act) : BitVec 12 := a.msg.h1.extractLsb' 52 12

/-- A launched or spawned task, as against one that a message starts (R22). -/
def Act.placed (a : Act) : Bool := a.launch.isSome && a.index != 0xFFFFFFFF

/-- An activation that stands for an uncommitted task of its reef: placed by a dispatcher, or of a task that joined
the reef and was aborted (R37, R38, R387; log 22). -/
def Act.counts (a : Act) : Bool := a.placed || (a.again.isSome && !a.free)

/-- Activations that no half has yet activated, with the core that holds or will hold them. -/
def State.placedActs (s : State) : List (Nat × Act) :=
  (s.cores.flatMap fun c => c.2.queued.map fun a => (c.1, a)) ++ s.net.msgs.map (fun m => (m.core, m.act))

/-- An uncommitted task of the reef has a timestamp below t, placed or not (R38; log 22). -/
def State.earlier (s : State) (part : Nat) (reef : BitVec 12) (t : BitVec 48) : Bool :=
  (s.tasks.any fun u => u.2.part == part && u.2.reef == reef && !u.2.act.free && u.2.ts.ult t)
  || (s.placedActs.any fun a => a.2.counts && a.2.reef == reef && a.2.ts.ult t && s.partOf a.1 == some part)
  || (s.clusters.any fun c => c.2.part == some part &&
      c.2.launches.any fun l => l.2.desc.reef == reef && unplacedBelow l.2 t.toNat)

/-- A task is safe when no task of its reef with a smaller timestamp is uncommitted (R38); tasks outside
arbitration are safe from activation (R235, R321, R387). -/
def State.safe (s : State) (tid : Nat) : Bool :=
  match s.task? tid with
  | some t => t.act.free || !s.earlier t.part t.reef t.ts
  | none => false

/-- Another uncommitted task of the timestamp holds the next commit slot (R38). -/
def State.slotTaken (s : State) (tid : Nat) : Bool :=
  match s.task? tid with
  | some t => s.tasks.any fun u => u.1 != tid && u.2.part == t.part && u.2.reef == t.reef && u.2.ts == t.ts && u.2.slot
  | none => false

/-- A direct operation of the task may be sent (R38, R229). -/
def State.directReady (s : State) (tid : Nat) : Bool :=
  match s.task? tid with
  | some t => t.act.free || t.slot || (s.safe tid && !s.slotTaken tid)
  | none => false

/-! ### Status words -/

/-- SSW of a half (R85). -/
def State.ssw (s : State) (hid : Nat) (h : Half) : Word :=
  let core := coreOf hid
  let part := (s.partOf core).getD 0
  let test := match s.part? part with | some p => p.image.test | none => false
  word (h.ctl.jst.toNat * 2 ^ 8 + b2n h.ctl.ss * 2 ^ 7 + b2n test * 2 ^ 6 + hid % 2 * 2 ^ 5
    + b2n (s.safe h.tid) * 2 ^ 3 + b2n (s.secure part) * 2 ^ 2 + b2n (s.det part) * 2 + b2n h.preq)

/-- F/E bits as word 0x048 of a frame (R274). -/
def feWord (h : Half) : Word := word (h.fea.toNat * 2 ^ 8 + h.fek.toNat)

/-- Words 0x000 to 0x04F of a frame (R274). -/
def State.frameWords (s : State) (hid : Nat) (h : Half) (td : Bool) (nent : Nat) (cause : Nat)
    (iaddr faddr info : Word) : List Word :=
  [s.ssw hid h,
   word (b2n td * 2 ^ 16 + h.stack.length * 2 ^ 12 + nent * 2 ^ 8 + cause),
   iaddr, faddr, h.hdr, word h.roff, info, readS h 30,
   word (h.fev.toNat * 2 ^ 32 + h.fes.toNat), feWord h]

/-- Words 0x050 to 0x0C0 of a frame: the control registers (R274). -/
def ctlWords (c : Ctl) : List Word :=
  [c.fmta, c.fmtb, c.fmtc, c.scla, c.sclb, c.rmode, c.fflags, c.ftrap, c.lc, c.tvec, c.stage, zx c.gang, c.abftp,
   c.dito, c.ordst]

/-! ### Error records -/

/-- The system physical address at which the device reaches a virtual address with its own rights, through the stations of
the partition's first cluster (R225, R386). A page that is not mapped, or for which the station has no walk free, faults. -/
def State.deviceSpa (s : State) (part va : Nat) : XRes :=
  match s.part? part with
  | none => .refused
  | some p =>
    let cluster := p.image.shape.headD 0
    let asid := p.image.asids.headD 0
    let st := s.station (stationOf cluster va)
    match rangeHit st asid va with
    | some r => .ok ((va + r.offset) % 2 ^ 52)
    | none =>
      match cacheHit st asid va with
      | some g => .ok (g.pa + va % 2 ^ g.bits)
      | none =>
        if !s.walkRoom (stationOf cluster va) then .fault
        else match walk s true asid va with
          | .leaf g => .ok (g.pa + va % 2 ^ g.bits)
          | _ => .fault

/-- The package address at which the device reads a virtual address with its own rights: no bank in ratline mode beyond its
cells (R183). -/
def State.devicePa (s : State) (part va : Nat) : Option Nat :=
  (s.reach (s.deviceSpa part va)).filter fun a => !s.beyondCells a

/-- The package address at which it writes one: no bank in ratline mode (R183). -/
def State.deviceWrites (s : State) (part va : Nat) : Option Nat :=
  (s.reach (s.deviceSpa part va)).filter fun a => !s.inRatBank a

/-- Writing an error into the reef's record at a package address (R386). -/
def writeRecord (a : Nat) (e : ErrRec) : Mv := .look fun s =>
  let count := (memNat s.mem a 4)
  let count' := if count = 2 ^ 32 - 1 then count else count + 1
  (writeHome a (toBytes 4 count')).andThen
    (Mv.when (count = 0) (writeHome (a + 8)
      (([e.tagIndex, e.ts, e.place] ++ e.frame).flatMap fun w => toBytes 8 w.toNat)))

/-- The address of a reef's error record (R386). -/
def State.recordVa (s : State) (e : ErrRec) : Nat :=
  (match s.part? e.part with | some p => p.image.errBase.toNat | none => 0) + 128 * e.reef

/-- A shared request that its station has found without a valid translation (R190). -/
def faultReq (id hid tid seq core : Nat) (p : Party) (acc : Access) (reg va : Nat) : Req where
  id := id
  hid := hid
  tid := tid
  seq := seq
  core := core
  part := p.part
  asid := p.asid
  world := p.secure
  acc := acc
  reg := reg
  va := va
  lines := [va]
  touch := []
  pas := []
  phase := .fault
  mask := 0
  esize := 0
  data := 0
  got := 0
  waiting := false
  entry := Entry.blank
  stamp := id + 1
  page := none
  seen := []

/-- Where a request stands that could not be translated at once: its walk has failed, or its station has no walk free for it
and makes one in its turn (R187, R190). -/
def State.missPhase (s : State) (cluster va : Nat) : Phase :=
  if s.walkRoom (stationOf cluster va) then .fault else .missing

/-- An access of the device that faults waits at a station of the partition's first cluster, one for a page (R190, R386). -/
def deviceFault (part va : Nat) : Mv := .look fun s =>
  if s.net.reqs.any fun r => r.part == part && decide (r.acc = .record) && r.va / 4096 == va / 4096 then .done
  else
    let core := 128 * (match s.part? part with | some p => p.image.shape.headD 0 | none => 0)
    withId fun id => upNet fun n => { n with reqs := n.reqs ++
      [{ faultReq id (2 * core) 0 0 core ⟨clusterOf core, part, s.asidOf part, s.secure part⟩ .record 0 va with
          phase := s.missPhase (clusterOf core) va }] }

/-- Recording an error of a reef (R277, R386). A record whose page is not mapped waits for it (R190); of one that no write
reaches nothing is left (log 129). -/
def recordError (e : ErrRec) : Mv := .look fun s =>
  match s.deviceWrites e.part (s.recordVa e) with
  | some a => writeRecord a e
  | none => Mv.when (decide (s.deviceSpa e.part (s.recordVa e) = .fault))
      ((upNet fun n => { n with errors := n.errors ++ [e] }).andThen (deviceFault e.part (s.recordVa e)))

/-- COUNT of a reef's record, 0 while its page cannot be read (R386). -/
def State.errorCount (s : State) (part reef : Nat) : Nat :=
  let base := match s.part? part with | some p => p.image.errBase.toNat | none => 0
  match s.devicePa part (base + 128 * reef) with
  | some a => memNat s.mem a 4
  | none => 0

/-- The record of a task's error (R386): identity of the task, and its frame words. -/
def errOf (t : Task) (frame : List Word) : ErrRec where
  part := t.part
  reef := t.reef.toNat
  tagIndex := word ((match t.tag with | some g => g.toNat | none => 0) * 2 ^ 32 + t.act.index.toNat)
  ts := zx t.ts
  place := word (t.half * 2 ^ 12 + t.core % 4096)
  frame := frame

/-! ### The end of a task -/

/-- The launch record of a launch id, cluster x 8 + tag. -/
def State.launch? (s : State) (lid : Nat) : Option Launch := tget (s.cluster (lid / 8)).launches (lid % 8)

/-- Changing a launch record that exists. -/
def upLaunch (lid : Nat) (f : Launch → Launch) : Mv := .look fun s =>
  match s.launch? lid with
  | some l => upCluster (lid / 8) fun c => { c with launches := tput c.launches (lid % 8) (f l) }
  | none => .done

/-- Freeing the half of a task that is in one; nothing of it passes on (R21, R36). -/
def freeHalf (tid : Nat) (t : Task) : Mv := .look fun s =>
  let hid := 2 * t.core + t.half
  if (s.half hid).tid = tid ∧ (s.half hid).occ ≠ .free then .one (.half hid Half.reset) else .done

/-- Requests that are dropped with their task: everything that has not been sent as a direct operation or as a write of a
cell, which nothing undoes (R228). -/
def speculative : Access → Bool
  | .load _ _ | .acquire _ _ | .vload | .probe | .cellRead | .sync | .commit => true
  | .atom _ _ _ _ | .red _ _ _ | .cellReserve _ _ | .cellWrite _ | .engine _ _ | .record | .line _ _ _ _
  | .release _ _ _ => false

/-- The lock of the tile of this number (R213). -/
def Owner.isTile : Owner → Nat → Bool
  | .tile id _ _ _, n => id == n
  | _, _ => false

/-- Withdrawing a task from its gangs and rings; a gang that every member has left is gone (R162, R213). -/
def withdraw (tid : Nat) : Mv := upNet fun n =>
  { n with
    gangs := (n.gangs.map fun g => { g with
      withdrawn := g.withdrawn ++ (g.joined.filter fun m => m.tid == tid && !m.done).map (·.core)
      joined := g.joined.filter fun m => !(m.tid == tid && !m.done) }).filter fun g => !g.members.all g.withdrawn.contains
    rings := (n.rings.map fun g => { g with
      withdrawn := g.withdrawn ++ (g.joined.filter fun m => m.tid == tid).map (·.core)
      joined := g.joined.filter fun m => m.tid != tid }).filter fun g => !g.members.all g.withdrawn.contains }

/-- Releasing a member's tile lock (R213). -/
def unlockRing (m : Member) : Mv := upCluster (clusterOf m.core) fun c =>
  { c with locks := c.locks.filter fun l => !l.owner.isTile m.op }

/-- Releasing what a task holds outside its half: matrix operations, task locks, ring locks, loads in flight. -/
def releaseTask (tid : Nat) (t : Task) : Mv := Mv.seq [
  freeHalf tid t,
  upCore t.core fun c => { c with mops := c.mops.filter fun m => m.tid != tid },
  upCluster (clusterOf t.core) fun c => { c with locks := c.locks.filter fun l => l.owner != .task tid },
  .look (fun s => Mv.each (s.net.rings.flatMap fun g => g.joined.filter fun m => m.tid == tid) unlockRing),
  withdraw tid,
  upNet fun n => { n with reqs := n.reqs.filter fun r => !(r.tid == tid && speculative r.acc)
                          heap := n.heap.filter fun q => q.dest.tid != tid
                          fills := n.fills.filter fun f => f.tid != tid || f.completion || f.sent.isSome }]

/-! ### The heap (R225) -/

/-- Bytes of the tail of a heap, which holds its map. -/
def heapTail (size : Nat) : Nat := ((size + 255) / 256 + 0xFFFF) / 0x10000 * 0x10000

/-- Granules of a heap that may be allocated: all but the map's tail. -/
def heapGranules (size : Nat) : Nat := (size - heapTail size) / 64

/-- Where the map byte of a granule stands: two bits a granule from the lowest address up, USED below START (log 96). -/
def Image.mapVa (p : Image) (g : Nat) : Nat := p.heapBase.toNat + p.heapSize.toNat - heapTail p.heapSize.toNat + g / 4

/-- The two bits of a granule, as the heap unit reads them: 1 USED, 2 START. -/
def State.granule (s : State) (part : Nat) (p : Image) (g : Nat) : Nat :=
  match s.devicePa part (p.mapVa g) with
  | some a => (memGet s.mem a).toNat / 4 ^ (g % 4) % 4
  | none => 0

/-- Writing the two bits of a granule. -/
def setGranule (part : Nat) (p : Image) (g v : Nat) : Mv := .look fun s =>
  match s.deviceWrites part (p.mapVa g) with
  | some a =>
    let old := (memGet s.mem a).toNat
    writeHome a [BitVec.ofNat 8 (old - old / 4 ^ (g % 4) % 4 * 4 ^ (g % 4) + v * 4 ^ (g % 4))]
  | none => .done

/-- The granules from g on of the block that holds g, up to the next START or free one; the fuel is what is left of the
heap. -/
def State.blockRest (s : State) (part : Nat) (p : Image) : Nat → Nat → List Nat
  | 0, _ => []
  | n + 1, g => if s.granule part p g = 1 then g :: s.blockRest part p n (g + 1) else []

/-- A page of the map that the heap unit cannot reach, if any. -/
def State.heapFault (s : State) (part : Nat) (p : Image) : Option Nat :=
  let bytes := (p.heapSize.toNat + 255) / 256
  ((List.range ((bytes + 4095) / 4096)).map fun i => p.mapVa (4 * 4096 * i)).find? fun va => decide (s.deviceSpa part va = .fault)

/-- FREE at the map: of a granule with START set, its block's bits are cleared; anything else does nothing (R224). -/
def heapFree (part : Nat) (a : Word) : Mv := .look fun s =>
  match s.part? part with
  | none => .done
  | some q =>
    let p := q.image
    let g := (a - p.heapBase).toNat / 64
    let total := heapGranules p.heapSize.toNat
    if a.toNat % 64 ≠ 0 ∨ a.ult p.heapBase ∨ total ≤ g ∨ s.granule part p g ≠ 3 then .done
    else Mv.each (g :: s.blockRest part p (total - g - 1) (g + 1)) fun x => setGranule part p x 0

/-- Returning a task's uncommitted allocations to the heap (R224, R225). -/
def returnAllocs (t : Task) : Mv := Mv.each t.allocs (heapFree t.part)

/-- Discarding an uncommitted task: its staged lines, locks, loads and allocations go, and its half is free
(R35, R37, R42, R224). The caller counts it for its launch. -/
def discardTask (tid : Nat) : Mv := .look fun s =>
  match s.task? tid with
  | none => .done
  | some t => Mv.seq [
      releaseTask tid t,
      returnAllocs t,
      .one (.task tid none)]

/-- A spawned task that counted against the quota is gone (R29). -/
def unspawn (t : Task) : Mv :=
  Mv.when t.act.counted (upPart t.part fun p => { p with spawnedCount := p.spawnedCount - 1 })

/-- Aborting a task: discarded, and its activation message back at the head of its inbox through a return slot,
with unchanged identity (R37, R244). -/
def abortTask (tid : Nat) : Mv := .look fun s =>
  match s.task? tid with
  | none => .done
  | some t => (discardTask tid).andThen (upCore t.core fun c =>
      let b := c.inbox t.pri
      c.setInbox t.pri { b with ret := { t.act with again := some (t.act.again.getD tid) } :: b.ret })

/-- The iteration record of a body changed (R318, R329). -/
def upIter (b : Body) (f : Iter → Iter) : Mv := upPart b.part fun p =>
  { p with loop := p.loop.map fun l => { l with iters := l.iters.map fun i => if i.index = b.index then f i else i } }

/-- The bytes of a packet make room in their ring again (R360, R363). -/
def releasePacket (a : Act) : Mv := match a.packet with
  | some x => upPart x.part fun p =>
      let r := tgetD p.rings x.ring ⟨0, []⟩
      { p with rings := tput p.rings x.ring { r with live := r.live.erase (x.pos, x.len) } }
  | none => .done

/-- What the launch, loop and quota learn when a task is gone without committing and does not run again
(R27, R42, R268, R277, R329). A body that fails in round one is as one that ends it; its loop ends with ERROR. -/
def taskGone (t : Task) (error : Bool) : Mv := Mv.seq [
  unspawn t,
  releasePacket t.act,
  (match t.act.launch with
   | some lid => upLaunch lid fun l => { l with error := l.error || error }
   | none => .done),
  (match t.act.body with
   | some b => (upIter b fun i => { i with phase := if b.round then 5 else 2, failed := i.failed || b.round }).andThen
      (upPart b.part fun p => { p with loop := p.loop.map fun l => { l with error := true } })
   | none => .done)]

/-! ### The closing of reefs -/

/-- A reef record (R33). -/
def State.reef? (s : State) (part id : Nat) : Option Reef :=
  match s.part? part with | some p => tget p.reefs id | none => none

/-- Freeing a reef's locks and guards (R34). -/
def releaseReef (part id : Nat) : Mv := .look fun s => Mv.seq [
  Mv.each s.clusters (fun c => upCluster c.1 fun c =>
    { c with locks := c.locks.filter fun l => l.owner != .reef part id }),
  Mv.each s.stations (fun t => upStation t.1 fun t =>
    { t with guards := t.guards.filter fun l => l.owner != .reef part id })]

/-- A reef closes when it is open, every task, launch and ratline loop of it is done, no LAUNCH into it is on its way, its opener
is done, and it has no inner reef (R34, R264; log 131). -/
def State.mayClose (s : State) (part id : Nat) : Bool :=
  match s.part? part with
  | none => false
  | some p =>
    match tget p.reefs id with
    | none => false
    | some r =>
      id != 0 && r.state == 1 && !p.reefs.any (fun x => x.2.parent == id && x.1 != id && x.1 != 0)
        && !(s.tasks.any fun t => t.2.part == part && t.2.reef.toNat == id)
        && !(s.placedActs.any fun a => a.2.counts && a.2.reef.toNat == id && s.partOf a.1 == some part)
        && !(r.launches.any fun l => l.running || l.again)
        && !(s.net.launches.any fun q => q.desc.part == part && q.desc.reef.toNat == id)
        && !(p.loop.any fun l => l.reef.toNat == id) && !(s.net.loops.any fun q => q.part == part && q.loop.reef.toNat == id)
        && (match r.opener with | some t => (s.task? t).isNone | none => true)

/-- Closing a reef, and the reefs around it that may then close (R34). The fuel is the depth of nesting. -/
def closeReefs (part : Nat) : Nat → Nat → Mv
  | 0, _ => .done
  | n + 1, id => .look fun s =>
    if s.mayClose part id then
      let parent := match s.reef? part id with | some r => r.parent | none => 0
      Mv.seq [
        releaseReef part id,
        upPart part (fun p => { p with reefs := tdel p.reefs id }),
        closeReefs part n parent]
    else .done

/-- The reefs that a task's end may close: its own, and those that it opened (R34, R264). -/
def closeAfter (tid : Nat) (t : Task) : Mv := .look fun s =>
  let opened := match s.part? t.part with
    | some p => (p.reefs.filter fun r => r.2.opener == some tid).map (·.1)
    | none => []
  Mv.each (opened ++ [t.reef.toNat]) fun id => closeReefs t.part 9 id

/-- Terminating a task: discarded, not run again, recorded in its reef's error record (R42, R277). -/
def terminate (tid : Nat) (frame : List Word) : Mv := .look fun s =>
  match s.task? tid with
  | none => .done
  | some t => Mv.seq [recordError (errOf t frame), discardTask tid, taskGone t true, closeAfter tid t]

/-! ### Page faults of the instruction at issue -/

/-- Posting a page fault for the instruction or header that a half waits for (R184, R190): one request per page. -/
def syncFault (hid : Nat) (p : Party) (kind : AKind) (va : Nat) : Mv := .look fun s =>
  let h := s.half hid
  Mv.seq [
    upHalf hid fun h => { h with block := .fetch },
    (if s.net.reqs.any fun r => r.hid == hid && r.tid == h.tid && decide (r.acc = .sync) && r.va / 4096 == va / 4096
     then .done
     else withId fun id => upNet fun n => { n with reqs := n.reqs ++
      [{ faultReq id hid h.tid h.seq (coreOf hid) p .sync kind.code va with phase := s.missPhase p.cluster va }] })]

/-! ### Traps -/

/-- What delivery does with an outstanding instruction of the replay queue (R272). -/
inductive Outstanding where
  | becomesEntry
  | waitedFor
  deriving DecidableEq, Repr

/-- Whether a matrix operation has left its load phase. -/
def State.mopLoaded (s : State) (core tid seq : Nat) : Bool :=
  (s.core core).mops.any fun m => m.tid == tid && m.seq == seq && m.loaded

/-- How R272 sorts an entry of the replay queue. -/
def State.sortEntry (s : State) (core tid : Nat) (e : Entry) : Outstanding :=
  match decode [e.p0, e.p1, e.p2] with
  | .ok (i, _) =>
    match i with
    | .ld f | .lds f => if f.r.d = 30 then .waitedFor else .becomesEntry
    | .ldv _ | .ldk _ | .ldsv _ => .becomesEntry
    | .mmaL _ | .mmaX _ | .mmarL _ | .mmarX _ | .mmagL _ | .mmagX _ | .mmagrL _ | .mmagrX _ =>
      if s.mopLoaded core tid e.seq then .waitedFor else .becomesEntry
    | _ => .waitedFor
  | .error _ => .waitedFor

/-- A trap that stays pending when an earlier one is delivered: its instruction has retired, or is never issued
again (R272, R279). -/
def Pending.lasting (p : Pending) : Bool :=
  decide (p.cause = .trapi) || decide (p.cause = .bkpt) || (match p.entry with | some e => e.nore | none => false)

/-- The pending trap of the earliest instruction (R271). -/
def earliest : List Pending → Option Pending
  | [] => none
  | p :: t => match earliest t with
    | some q => if q.seq < p.seq then some q else some p
    | none => some p

/-- Entries in issue order. -/
def insertEntry (e : Entry) : List Entry → List Entry
  | [] => [e]
  | x :: t => if e.seq < x.seq then e :: x :: t else x :: insertEntry e t

/-- An entry's bytes in a frame (R275): 0x100 bytes. -/
def entryBytes (e : Entry) : List Byte :=
  toBytes 8 e.addr.toNat ++ toBytes 4 e.p0.toNat ++ toBytes 4 e.p1.toNat ++ toBytes 4 e.p2.toNat
    ++ toBytes 4 (b2n e.nore) ++ toBytes 8 e.a.toNat ++ toBytes 8 e.b.toNat ++ toBytes 8 e.c.toNat
    ++ toBytes 80 0 ++ toBytes 128 e.mask.toNat

/-- A reconvergence stack entry's bytes (R275): 0x120 bytes. -/
def stackBytes (x : RcEntry) : List Byte :=
  toBytes 8 x.rc.toNat ++ toBytes 8 x.tgt.toNat ++ toBytes 16 (b2n x.phase) ++ toBytes 128 x.outer.toNat
    ++ toBytes 128 x.pend.toNat

/-- The jib extension's bytes up to hv1 (R275): 0x480 bytes from 0x1280. -/
def jibBytes (j : JibRun) : List Byte :=
  toBytes 8 (j.upc + j.slot * 2 ^ 13 + j.used * 2 ^ 32) ++ (j.h.toList.flatMap fun w => toBytes 8 w.toNat)
    ++ toBytes 56 0 ++ (j.hv.toList.flatMap fun w => toBytes 512 w.toNat)

/-- The written parts of a frame as offset and bytes (R273, R274). -/
def frameParts (words : List Word) (h : Half) (ents : List Entry) : List (Nat × List Byte) :=
  [(0, ((words ++ ctlWords h.ctl).flatMap fun w => toBytes 8 w.toNat) ++ toBytes 56 0),
   (0x100, toBytes 128 h.lanes.toNat)]
  ++ (ents.zipIdx.map fun e => (0x180 + 0x100 * e.2, entryBytes e.1))
  ++ (h.stack.reverse.zipIdx.map fun x => (0x980 + 0x120 * x.2, stackBytes x.1))
  ++ (match h.jib with | some j => if h.ctl.jst = 1 then [(0x1280, jibBytes j)] else [] | none => [])

/-- The reconvergence comparison of R122 at a header address; the top of the stack is the head of the list. The
fuel is two visits of each entry. -/
def reconverge : Nat → Word → Mask → List RcEntry → Word × Mask × List RcEntry
  | 0, a, l, st => (a, l, st)
  | n + 1, a, l, st =>
    match st with
    | [] => (a, l, st)
    | x :: rest =>
      if a = x.rc then
        if x.phase then reconverge n a x.outer rest
        else reconverge n x.tgt x.pend ({ x with phase := true } :: rest)
      else (a, l, st)

/-- Whether any byte of a local range lies in the staging area of a STAGE value, or beyond the scratchpad
(R86, R181, R273). -/
def stageHits (stage : Word) (a n : Nat) : Bool :=
  let base := wbits stage 17 12 * 4096
  let size := wbits stage 40 32 * 4096
  decide (a < base + size) && decide (base < a + n)

/-- A frame area fits at an address (R273, R280). -/
def frameFits (stage : Word) (a : Int) : Bool :=
  decide (0 ≤ a) && decide (a + 0x1800 ≤ 0x40000) && !stageHits stage a.toNat 0x1800

/-- Terminating with cause DOUBLE: the first frame's words with CAUSE and INFO replaced (R277). -/
def double (tid : Nat) (first : List Word) (second : Cause) : Mv :=
  let w1 := putBits (nth first 1) 7 0 (causeCode .double)
  let w6 := word (causeCode second)
  terminate tid ((first.take 1) ++ [w1] ++ ((first.drop 2).take 4) ++ [w6] ++ first.drop 7)

/-- Entering the header at an address: the comparison of R122, then the checks of R57 and the fetch of R184.
`deny` is what a header that cannot be entered does: its cause, fault address and header address. -/
def enterWith (hid : Nat) (addr : Word) (deny : Cause → Word → Word → Mv) : Mv := .look fun s =>
  let h := s.half hid
  let (a, lanes, st) := reconverge (2 * h.stack.length) addr h.lanes h.stack
  let into (w : Word) : Mv := upHalf hid fun h =>
    { h with hdr := a, hdrWord := w, roff := 0, entering := false, lanes := lanes, stack := st, block := .none,
             refusedAt := none }
  match fetchHeader s (coreOf hid) a with
  | .ok w => (into w).andThen (Mv.when (hdrBlen w = 0 || decide (5 ≤ hdrKind w)) (deny .ill 0 a))
  | .notHeader => (into 0).andThen (deny .badtgt a a)
  | .refused at_ => (into 0).andThen (deny .access at_ a)
  | .fault at_ =>
    if h.refusedAt.isSome then (into 0).andThen (deny .access at_ a)
    else (upHalf hid fun h => { h with hdr := addr, roff := 0, entering := true }).andThen
      (syncFault hid (s.party (coreOf hid)) .fetch at_.toNat)

/-- Entering the handler of a trap whose frame words these are: TVEC must name a header of kind 2 (R58, R273). -/
def enterHandler (hid : Nat) (words : List Word) : Mv := .look fun s =>
  let h := s.half hid
  let fails (c : Cause) : Mv := double h.tid words c
  match fetchHeader s (coreOf hid) h.ctl.tvec with
  | .ok w => if hdrKind w ≠ 2 then fails .badtgt else
      (upHalf hid fun h => { h with toHandler := false }).andThen (enterWith hid h.ctl.tvec fun c _ _ => fails c)
  | .notHeader => fails .badtgt
  | .refused _ => fails .badtgt
  | .fault _ =>
    (upHalf hid fun h => { h with toHandler := true }).andThen (enterWith hid h.ctl.tvec fun c _ _ => fails c)

/-- Issue numbers from here on are those of loads that a trap or a save has abandoned: their values are still
written, and an entry issued again takes over what they owe (R272, R281). -/
def abandoned : Nat := 2 ^ 64

/-- Marking what the loads with these issue numbers have in flight as abandoned (R272). -/
def abandon (tid : Nat) (seqs : List Nat) : Mv := upNet fun n => { n with
  fills := n.fills.map fun f => if f.tid == tid && seqs.contains f.seq then { f with seq := abandoned + f.seq } else f
  reqs := n.reqs.map fun f => if f.tid == tid && seqs.contains f.seq then { f with seq := abandoned + f.seq } else f }

/-- A JMMA that is still in its load phase is given up: its accumulator is as it was, and it will run again (R316); at the end
of its load phase the jib has gone on. -/
def settleJib (h : Half) : Half :=
  match h.jib with
  | some j => (match j.loading with
    | some a => { markFull h (.a a) with jib := some { j with loading := none } }
    | none => h)
  | none => h

/-- The entries of a frame, in order, for a trap that is delivered and the outstanding instructions that R272 sorts among them:
one that traps at or after its reissue comes first, then those that have not been issued again (R281); otherwise they keep
their issue order. -/
def frameEntries (h : Half) (p : Pending) (others : List Entry) : List Entry :=
  match p.entry with
  | some e => if e.again || !h.reinj.isEmpty then e :: ((if p.again then h.reinj.drop 1 else h.reinj) ++ others) else insertEntry e others
  | none => h.reinj ++ others

/-- The instructions that issued and are still outstanding when a trap is delivered: those of the replay queue, and those that
have been refused too (R272). -/
def outstanding (h : Half) (p : Pending) : List Entry :=
  ((h.traps.filter fun q => decide (q ≠ p) && !q.lasting && !q.again).filterMap (·.entry)).foldr insertEntry
    (h.replay.filter fun e => e.seq != p.seq || p.entry.isNone)

/-- Delivery has to wait: for an outstanding instruction that R272 waits for, or for the one that single-stepping has raised
its BKPT after, which is to retire (R272, R279). -/
def State.deliveryWaits (s : State) (core : Nat) (h : Half) (p : Pending) : Bool :=
  h.replay.any fun e => (decide (p.cause = .bkpt) && e.seq == p.seq) ||
    ((e.seq != p.seq || p.entry.isNone) && s.sortEntry core h.tid e == .waitedFor)

/-- Taking an exception: the delivery of R273 for a pending trap, once everything that R272 waits for is done. A frame has
eight entries (R274): a flagged one that finds no room is left out, since nothing issues it again (log 112).
Saves the resume point, the status and the entries in the frame below s30, sets TRAPD, and enters TVEC. -/
def deliver (hid : Nat) : Mv := .look fun s =>
  let h := settleJib (s.half hid)
  match earliest h.traps with
  | none => .done
  | some p =>
    let core := coreOf hid
    let others := outstanding h p
    let all := frameEntries h p others
    let ents := if 8 < all.length then all.filter fun e => !e.nore else all
    if h.ctl.trapd || s.deliveryWaits core h p then .done
    else
      let words := s.frameWords hid h false ents.length (causeCode p.cause) p.iaddr p.faddr p.info
      let fa : Int := ((readS h 30).toNat : Int) - 0x1800
      let fa := fa - fa % 64
      let rest := h.traps.filter fun q => decide (q ≠ p) && q.lasting
      if !frameFits h.ctl.stage fa then double h.tid words .bound
      else Mv.seq [
        Mv.each (frameParts words h ents) (fun x => pokeBytes (scratchAt core (fa.toNat + x.1)) x.2),
        abandon h.tid (others.map (·.seq)),
        upCore core fun c => { c with mops := c.mops.filter fun m =>
          !(m.tid == h.tid && !m.loaded && (m.jib || ents.any fun e => e.seq == m.seq)) },
        upHalf hid fun h =>
          let h := writeS (settleJib h) 30 (wordI fa)
          { h with ctl := { h.ctl with trapd := true, ss := false, jst := 0 }, lanes := BitVec.allOnes 1024,
                   stack := [], jib := none, traps := rest, reinj := [], reissue := none, block := .none, waitt := none,
                   replay := [], spares := [], frame := words, refusedAt := none },
        enterHandler hid words]

/-- Raising traps (R271): while a handler runs the first terminates the task (R277); otherwise they are pending, and
the earliest is delivered at once when nothing has to be waited for. -/
def raiseAll (hid : Nat) (l : List Pending) : Mv := .look fun s =>
  let h := s.half hid
  match l with
  | [] => .done
  | p :: _ =>
    if h.ctl.trapd then double h.tid h.frame p.cause
    else Mv.seq [
      countPerf (clusterOf (coreOf hid)) 0x0B (b2n (decide (p.cause = .rlock))),
      upHalf hid fun h => { h with traps := h.traps ++ l },
      deliver hid]

/-- Raising a trap (R271). -/
def raise (hid : Nat) (p : Pending) : Mv := raiseAll hid [p]

/-- A trap at issue of the instruction at the resume point (R18, R272). A re-injected entry that traps at its
reissue becomes an entry (R281). -/
def raiseIssue (hid : Nat) (cause : Cause) (faddr info : Word) : Mv := .look fun s =>
  let h := s.half hid
  match h.reissue with
  | some e => raise hid ⟨h.seq, cause, e.addr, faddr, info, some { e with seq := h.seq, nore := false, again := true }, true⟩
  | none => raise hid ⟨h.seq, cause, pcOf h, faddr, info, none, false⟩

/-- A trap at a header that could not be entered (R57, R184). -/
def raiseHeader (hid : Nat) (cause : Cause) (faddr hdr : Word) : Mv := .look fun s =>
  raise hid ⟨(s.half hid).seq, cause, hdr, faddr, 0, none, false⟩

/-- Entering a block on behalf of the task (R57). -/
def enterHeader (hid : Nat) (addr : Word) : Mv := enterWith hid addr (raiseHeader hid)

/-- The header at an address, once the comparison of R122 has been made, cannot be entered (R57, R184). -/
def State.headerDenied (s : State) (hid : Nat) (addr : Word) : Bool :=
  let h := s.half hid
  match fetchHeader s (coreOf hid) (reconverge (2 * h.stack.length) addr h.lanes h.stack).1 with
  | .ok w => hdrBlen w = 0 || decide (5 ≤ hdrKind w)
  | .fault _ => h.refusedAt.isSome
  | _ => true

/-- Entering a block after an instruction that itself raises traps: they come before that of a header which cannot be
entered (R271, R279). -/
def enterAfter (hid : Nat) (addr : Word) (l : List Pending) : Mv := .look fun s =>
  if s.headerDenied hid addr then enterWith hid addr fun cause faddr hdr =>
    raiseAll hid (l ++ [⟨(s.half hid).seq, cause, hdr, faddr, 0, none, false⟩])
  else (enterHeader hid addr).andThen (raiseAll hid l)

/-! ### Issue -/

/-- The register that a value goes to. -/
def Value.reg : Value → Reg
  | .s r _ => .s r
  | .v r _ => .v r
  | .k r _ => .k r
  | .a r _ => .a r
  | .ready l _ => l.headD (.s 0)

/-- The registers that a value leaves full and not in flight. -/
def Value.regs : Value → List Reg
  | .ready l _ => l
  | x => [x.reg]

/-- The register that a shared request fills. -/
def Req.target (q : Req) : Option Reg :=
  match q.acc with
  | .load _ _ | .acquire _ _ | .atom _ _ _ _ | .cellRead => some (.s q.reg)
  | .vload => some (.v q.reg)
  | _ => none

/-- SYS instructions (R289). -/
def isSys : Instr → Bool
  | .gatew _ | .gater _ | .objw _ | .objr _ | .grpw _ | .qmap _ | .jbind _ | .jload _ | .ssav _ | .srst _ | .ipi _ => true
  | _ => false

/-- The operand formats that FMTA and FMTB select (R83). -/
def usesF6 (c : Ctl) : Bool := [13, 15].contains (wbits c.fmta 3 0) || [13, 15].contains (wbits c.fmtb 3 0)

/-- The format L fields of a matrix multiply (R158). -/
def mmulFields : Instr → Option FL
  | .mmaL f | .mmarL f | .mmagL f | .mmagrL f => some f
  | .mmaX f | .mmarX f | .mmagX f | .mmagrX f => some f.l
  | _ => none

/-- Whether the instruction needs a unit that CAP reports absent (R17). -/
def State.absent (s : State) (h : Half) (i : Instr) : Bool :=
  let cap := s.package.cap
  match i with
  | .mtree _ => !cap.getLsbD 0
  | .mmask f => !cap.getLsbD 0 && (f.m.extractLsb' 0 2).toNat == 2
  | .ecenc _ | .ecrec _ => !cap.getLsbD 1
  | _ =>
    match mmulFields i with
    | some f => (f.m.getLsbD 0 && !cap.getLsbD 2) || (usesF6 h.ctl && !cap.getLsbD 3)
    | none => false

/-- A code that FMTA and FMTB may hold (R68, R83). -/
def matrixType (t : Nat) : Bool := [1, 7, 8, 9, 10, 11, 12, 13, 14, 15].contains t

/-- The ILL checks of R75 that depend on the state: VBR without RECONV, MMUL formats, ratline minors outside a body. -/
def State.illNow (_s : State) (h : Half) (t : Task) (i : Instr) : Bool :=
  match i with
  | .vbr _ => hdrReconv h.hdrWord == 0
  | .rlrsv _ | .rlchk _ | .rlld _ | .rlst _ | .rlend _ | .rlstat _ => t.act.body.isNone
  | _ =>
    match mmulFields i with
    | some f => !matrixType (wbits h.ctl.fmta 3 0) || !matrixType (wbits h.ctl.fmtb 3 0)
        || wbits h.ctl.fmtc 1 0 == 3 || (f.t.toNat != 6 && f.t.toNat != wbits h.ctl.fmta 3 0)
    | none => false

/-- Instructions that reach memory, a message or an engine (R228): an acquire holds them (R202, R237). -/
def isAccess : Instr → Bool
  | .ld _ | .ldv _ | .ldr _ | .ldk _ | .st _ | .stv _ | .str _ | .stk _ | .lds _ | .lda _ | .ldsv _ | .sts _ | .strel _
  | .stsv _ | .stsm _ | .atom _ | .red _ | .atomr _ | .redr _ | .fence _ _ | .puthL _ | .puthX _ | .rot _ | .copy _
  | .ecenc _ | .ecrec _ | .send _ | .sendm _ | .reply _ | .spawnL _ | .spawnX _ | .launchL _ | .launchX _ | .abort _
  | .abortX _ | .reef _ | .reefx _ | .rlbegin _ | .rlrsv _ | .rlld _ | .rlst _ | .mload _ | .mdrain _ | .jibA _ _
  | .jibL _ _ => true
  | i => (mmulFields i).isSome

/-- An acquire of the task, issued before a number if one is given, has not returned its value (R82, R202, R237). -/
def State.acquiringBefore (s : State) (tid : Nat) (lim : Option Nat) : Bool :=
  let earlier (q : Nat) : Bool := match lim with | some n => decide (q < n) | none => true
  (s.net.reqs.any fun r => r.tid == tid && earlier r.seq && (match r.acc with
    | .acquire _ _ => true | .atom _ _ _ _ => true | _ => false))
  || (s.net.atoms.any fun a => a.dest.tid == tid && earlier a.dest.seq && a.value)
  || (s.net.replies.any fun a => a.dest.tid == tid && earlier a.dest.seq)
  || (s.net.fills.any fun f => f.tid == tid && earlier f.seq && f.ordst.isSome)

/-- An acquire of the task has not returned its value. -/
def State.acquiring (s : State) (tid : Nat) : Bool := s.acquiringBefore tid none

/-- An instruction of the task that can set a flag, issued before a number if one is given, has not completed (R82). -/
def State.flagsOut (s : State) (tid : Nat) (lim : Option Nat) : Bool :=
  let earlier (q : Nat) : Bool := match lim with | some n => decide (q < n) | none => true
  (s.net.fills.any fun f => f.tid == tid && earlier f.seq && (match f.value with | .a _ _ | .ready _ _ => true | _ => false))
  || s.net.heap.any fun x => x.dest.tid == tid && earlier x.dest.seq && x.alloc

/-- A floating vector instruction of the task has not completed (R127). -/
def State.floating (s : State) (tid : Nat) : Bool :=
  s.net.fills.any fun f => f.tid == tid && (match f.value with | .ready _ fp => fp | _ => false)

/-- The wait of R82 before FFLAGS or ORDST is read. -/
def State.ctlWait (s : State) (tid n : Nat) (lim : Option Nat) : Bool :=
  (n = 6 && s.flagsOut tid lim) || (n = 17 && s.acquiringBefore tid lim)

/-- Instructions that always continue at the next parcel when they retire; hints never trap (R73; log 12). -/
def fallsThrough : Instr → Bool
  | .br _ | .jmp _ | .call _ | .loop _ | .vbr _ | .callr _ | .jr _ | .ret _ | .endT _ | .yield _ | .tret _ | .rlend _ => false
  | .nop | .pfh _ | .prio _ | .alignh _ | .hint1 _ | .hint2 _ _ | .hint3 _ _ _ => false
  | _ => true

/-- What issue decides (R76). -/
inductive Verdict where
  /-- The half issues nothing: no task is live in it, a trap is pending, its queue is full or its quantum ended. -/
  | idle
  | wait (b : Block)
  | trap (cause : Cause) (faddr info : Word)
  /-- The fetch of the parcel after the block faults. -/
  | fetch (va : Nat)
  /-- The instruction retires with no effect under its predicate (R64). -/
  | skip
  | go
  deriving DecidableEq, Repr

/-- The first source field that is not ready, if any: empty with its W bit, or to be waited for (R63, R76). -/
def sourceCheck (h : Half) : List Src → Option Verdict
  | [] => none
  | x :: t =>
    if !isFull h x.reg then
      if x.w then
        let r := match x.reg with | .s r => r | .v r => r | .k r => r | .a r => r
        some (.trap .empty 0 (word (x.fld * 32 + r)))
      else some (.wait .register)
    else if isBusy h x.reg then some (.wait .register)
    else sourceCheck h t

/-- Every destination is full and not in flight (R78). -/
def destsReady (h : Half) (l : List Reg) : Bool := l.all fun r => isFull h r && !isBusy h r

/-- Values of instructions before this issue number are no longer wanted by a task (R81). -/
def State.floorOf (s : State) (tid : Nat) : Nat := match s.task? tid with | some t => t.floor | none => 0

/-- The half of a task. -/
def State.taskHid (s : State) (tid : Nat) : Nat := match s.task? tid with | some t => 2 * t.core + t.half | none => 0

/-- Some producer of the task still owes the register a value, issued at a number that a predicate takes. -/
def State.owedBy (s : State) (tid : Nat) (p : Nat → Bool) (r : Reg) : Bool :=
  let of (d : Dest) : Bool := d.tid == tid && p d.seq && r == .s d.reg
  (s.net.fills.any fun f => f.tid == tid && p f.seq && f.value.regs.contains r)
  || (s.net.reqs.any fun q => q.tid == tid && p q.seq && q.target == some r)
  || (s.net.remotes.any fun q => q.tid == tid && p q.seq && (match q.op with | .ldr _ x => r == .s x | _ => false))
  || s.net.atoms.any (fun q => of q.dest && (q.value || q.owed)) || s.net.replies.any (fun q => of q.dest)
  || s.net.cmds.any (fun q => of q.dest) || s.net.mcasts.any (fun q => of q.dest)
  || s.net.spawns.any (fun q => of q.dest) || s.net.heap.any (fun q => of q.dest && q.alloc)
  || s.net.launches.any (fun q => match q.dest with | some d => of d | none => false)
  || s.net.aborts.any (fun q => match q.dest with | some d => of d | none => false)
  || s.net.msgs.any (fun q => match q.status with | some d => of d | none => false)
  || s.cores.any (fun c => c.2.ingress.any fun q => match q.status with | some d => of d | none => false)
  || s.net.stCmds.any (fun q => match q.2.2 with | some d => of d | none => false)
  || s.net.loops.any (fun q => of q.dest)
  || s.parts.any (fun p => match p.2.loop with | some l => of ⟨l.hid, l.tid, l.seq, l.reg⟩ | none => false)
  || ((s.core (coreOf (s.taskHid tid))).mops.any fun m => m.tid == tid && p m.seq && r == .a m.acc && (m.loaded || !m.jib))

/-- Some producer of the task, other than an abandoned load, still owes the register a value (R81, R281). -/
def State.owed (s : State) (tid : Nat) (r : Reg) : Bool :=
  s.owedBy tid (fun q => decide (s.floorOf tid ≤ q) && decide (q < abandoned)) r

/-- Bit 0 of a predicate. -/
def bit0 (m : Mask) : Bool := m.getLsbD 0

/-- The parcel after the block must begin a header when its last instruction falls through (R57; log 12). -/
def State.fallCheck (s : State) (hid : Nat) (h : Half) (len : Nat) : Verdict :=
  if h.roff + len = hdrBlen h.hdrWord then
    let next := pcOf h + word (4 * len)
    match fetchParcel s (coreOf hid) next with
    | .ok p => if isHeaderParcel p then .go else .trap .badtgt next 0
    | .fault => if h.refusedAt.isSome then .go else .fetch next.toNat
    | .refused => .go
  else .go

/-- The other half of a core. -/
def otherHalf (hid : Nat) : Nat := if hid % 2 = 0 then hid + 1 else hid - 1

/-- Instructions of a core that have issued and are still to retire (R333). -/
def State.unretired (s : State) (core : Nat) : Nat :=
  ([2 * core, 2 * core + 1].map fun hid => ((s.half hid).replay.filter fun e => !e.nore).length).sum

/-- A half issues no instruction whose retirement would take its core past the QUANT that it counts against (R82, R341;
log 113). -/
def State.quantumFull (s : State) (hid : Nat) (h : Half) : Bool :=
  s.detCore (coreOf hid) && decide (h.ctl.quant.toNat ≤ (s.core (coreOf hid)).qpos.toNat + s.unretired (coreOf hid))

/-- The v registers among some destinations that an outstanding instruction has pinned: a write of each goes to a spare version
(R80). -/
def Half.newVersions (h : Half) (own : List Nat) (dsts : List Reg) : List Nat :=
  dsts.filterMap fun x => match x with
    | .v r => if own.contains r || h.replay.any (fun e => e.pins.contains r) then some r else none
    | _ => none

/-- The v registers that an instruction reads. -/
def Spec.vectors (sp : Spec) : List Nat := sp.srcs.filterMap fun x => match x.reg with | .v r => some r | _ => none

/-- The half after the instruction of an issue number has written registers: those that pinned the old version of a v
register keep it, and none but it produces their values (R79, R80). -/
def Half.supersede (h : Half) (seq : Nat) (dsts : List Reg) : Half :=
  let new := h.newVersions [] dsts
  { h with
    spares := h.spares ++ new.map fun r => (h.replay.filter fun e => e.pins.contains r).map (·.seq)
    replay := h.replay.map fun e => { e with
      pins := e.pins.filter fun r => !new.contains r
      dsts := if e.seq = seq then e.dsts else e.dsts.filter fun r => !dsts.contains r } }

/-- The half after an entry has left its replay queue: versions that nothing pins are free (R80). -/
def Half.leave (h : Half) (seq : Nat) : Half :=
  { h with
    replay := h.replay.filter fun e => e.seq != seq
    spares := (h.spares.map fun l => l.filter (· != seq)).filter fun l => !l.isEmpty }

/-- A core's position in a group by rising logical core id, if it is a member (R86). -/
def State.gangPos (s : State) (core group : Nat) : Option Nat :=
  match s.part? ((s.partOf core).getD 0) with
  | none => none
  | some p =>
    let m : BitVec 4096 := tgetD p.groups group 0
    if m.getLsbD core then some (popCount core m.toNat) else none

/-- Multiplies of a gang (R162). -/
def isGang : Instr → Bool
  | .mmagL _ | .mmagX _ | .mmagrL _ | .mmagrX _ => true
  | _ => false

/-- The source fields that an instruction reads: a member of a gang other than its leader ignores sB (R162). -/
def State.reads (s : State) (hid : Nat) (i : Instr) (sp : Spec) : List Src :=
  match isGang i, s.gangPos (coreOf hid) (s.half hid).ctl.gang.toNat with
  | true, some (_ + 1) => sp.srcs.filter fun x => x.fld != 2
  | _, _ => sp.srcs

/-- The issue checks of R76 in their order, for the half `hid` and the instruction `i` at its resume point. That a last
instruction whose block is followed by no header traps BADTGT comes before the checks of its own description (log 99). -/
def issueCheck (s : State) (hid : Nat) (i : Instr) (sp : Spec) : Verdict :=
  let h := s.half hid
  match s.task? h.tid with
  | none => .idle
  | some t =>
    if h.occ ≠ .live ∨ (h.traps ≠ [] ∧ ¬ h.ctl.trapd) ∨ h.entering ∨ h.hold.isSome then .idle
    else if 8 ≤ h.replay.length ∨ s.quantumFull hid h then .idle
    else if h.ctl.ftrap ≠ 0 && s.floating h.tid then .idle
    else if s.absent h i then .trap .absent 0 0
    else if isSys i && !isKernel (coreOf hid) then .trap .priv 0 0
    else if !i.wf || s.illNow h t i then .trap .ill 0 0
    else
      match h.reissue with
      | some e =>
        if sp.dsts.any fun r => s.owed h.tid r then .wait .register
        else if isAccess i && s.acquiring h.tid then .wait .register
        else if sp.scalar && !bit0 e.mask then .skip
        else .go
      | none =>
        let k := sp.k.getD 0
        if k ≠ 0 ∧ (isFull h (.k k.toNat) = false ∨ isBusy h (.k k.toNat) = true) then .wait .register
        else if sp.scalar ∧ bit0 (readK h k.toNat) = false then
          (match s.fallCheck hid h (parcelCount i) with | .go => .skip | v => v)
        else
          match sourceCheck h (s.reads hid i sp) with
          | some v => v
          | none =>
            if !destsReady h sp.dsts || decide (8 < h.spares.length + (h.newVersions sp.vectors sp.dsts).length) then .wait .register
            else if isAccess i && s.acquiring h.tid then .wait .register
            else if fallsThrough i then s.fallCheck hid h (parcelCount i) else .go

/-- The value of the scalar field `n` of an instruction, captured or read (R281). -/
def fieldValue (h : Half) (sp : Spec) (n : Nat) : Word :=
  match h.reissue with
  | some e => if n = 1 then e.a else if n = 2 then e.b else e.c
  | none =>
    match sp.srcs.find? fun x => x.fld == n with
    | some x => (match x.reg with | .s r => readS h r | _ => 0)
    | none => 0

/-- The first three parcels of an instruction, zeros beyond its length. -/
def parcelAt (i : Instr) (n : Nat) : Parcel := (encode i).getD n 0

/-- What a meaning sees of the instruction at issue. -/
def ctxOf (hid : Nat) (h : Half) (t : Task) (i : Instr) (sp : Spec) : Ctx :=
  let km := match h.reissue with | some e => e.mask | none => readK h (sp.k.getD 0).toNat
  let vm := match h.reissue with | some e => e.mask | none => km &&& h.lanes
  let a := fieldValue h sp 1
  let b := fieldValue h sp 2
  let c := fieldValue h sp 3
  let addr := match h.reissue with | some e => e.addr | none => pcOf h
  { hid := hid, core := coreOf hid, h := h, tid := h.tid, task := t, len := parcelCount i, addr := addr
    a := a, b := b, c := c, kmask := km, vmask := vm
    entry := { seq := h.seq, addr := addr, p0 := parcelAt i 0, p1 := parcelAt i 1, p2 := parcelAt i 2, nore := false
               a := a, b := b, c := c, mask := if sp.scalar then km &&& 1 else if (mmulFields i).isSome then km else vm
               pins := sp.vectors, dsts := sp.dsts, again := h.reissue.isSome }
    dsts := sp.dsts }

/-- The core has issued from a half (R23). -/
def markIssued (hid : Nat) : Mv := upCore (coreOf hid) fun c => { c with issued := hid % 2 }

/-- Counting a retirement (R333): RET and QPOS of the core, the cluster's counters. QPOS returns to 0 at QUANT
outside deterministic operation (R332). -/
def countRetired (hid : Nat) : Mv := .look fun s =>
  let core := coreOf hid
  let det := s.det ((s.partOf core).getD 0)
  let quant := (s.half hid).ctl.quant
  (upCore core fun c =>
    { c with ret := c.ret + 1, qpos := if !det && c.qpos + 1 == quant then 0 else c.qpos + 1 }).andThen
  (countPerf (clusterOf core) 2 1)

/-- An instruction that completes as it issues retires (R333). -/
def retireNow (hid : Nat) : Mv := (markIssued hid).andThen (countRetired hid)

/-- An outstanding instruction has completed: its entry leaves the replay queue, and it retires (R80, R333). -/
def complete (hid seq : Nat) (f : Half → Half) : Mv := .look fun s =>
  (upHalf hid fun h => f (h.leave seq)).andThen
    (Mv.when ((s.half hid).replay.any fun e => e.seq == seq && !e.nore) (countRetired hid))

/-- Continuing at the next parcel (R57); past the last one, the header that follows is entered when the half next
issues. A re-injected entry leaves the resume point where it is (R281). -/
def advance (hid len : Nat) : Mv := .look fun s =>
  match (s.half hid).reissue with
  | some _ => upHalf hid fun h => { h with reinj := h.reinj.drop 1, reissue := none, block := .none, seq := h.seq + 1 }
  | none => upHalf hid fun h => { h with roff := h.roff + len, block := .none, refusedAt := none, seq := h.seq + 1 }

/-- The BKPT that follows each retired instruction while SSW.SS is set, an entry issued again excepted (R279). -/
def stepTrap (c : Ctx) : List Pending :=
  if c.h.ctl.ss && c.h.reissue.isNone then [⟨c.h.seq, .bkpt, c.addr, 0, 1, none, false⟩] else []

/-- Retiring an instruction that continues at the next parcel. -/
def retire (c : Ctx) : Mv := Mv.seq [
  retireNow c.hid, advance c.hid c.len, raiseAll c.hid (stepTrap c)]

/-- An instruction has issued that is still to complete, and the half continues at the next parcel. -/
def issued (c : Ctx) : Mv := Mv.seq [
  markIssued c.hid, advance c.hid c.len, raiseAll c.hid (stepTrap c)]

/-- Running a meaning. -/
def perform (m : Mv) (s : State) : Host.Outcome State Fault Refusal := .next (m.run s)

/-- Doing something to the half, then retiring. -/
def finish (c : Ctx) (f : Half → Half) : Mv := (upHalf c.hid fun h => (f h).supersede c.h.seq c.dsts).andThen (retire c)

/-- Keeping the instruction in the replay queue until its value has arrived (R80). -/
def holdEntry (c : Ctx) (h : Half) : Half :=
  { h with replay := h.replay ++ [{ c.entry with seq := c.h.seq }] }

/-- Doing something to the half, and keeping the instruction in the replay queue until it completes (R80, R333). -/
def hold (c : Ctx) (f : Half → Half) : Mv :=
  (upHalf c.hid fun h => (holdEntry c (f h)).supersede c.h.seq c.dsts).andThen (issued c)

/-- The half's issue attempt ends waiting. -/
def stall (hid : Nat) (b : Block) : Mv := upHalf hid fun h => { h with block := b }

/-- TRET, after which single-stepping raises nothing (R279). -/
def isTret : Instr → Bool
  | .tret _ => true
  | _ => false

/-- Issuing an instruction: the checks of R76, then its meaning. -/
def issue (i : Instr) (sp : Spec) (body : Ctx → Mv) : Mv := .look fun s =>
  let hid := s.cur
  let h := s.half hid
  match s.task? h.tid with
  | none => .done
  | some t =>
    let c := ctxOf hid h t i sp
    match issueCheck s hid i sp with
    | .idle => .done
    | .wait b => stall hid b
    | .trap cause faddr info => raiseIssue hid cause faddr info
    | .fetch va => syncFault hid (s.party c.core) .fetch va
    | .skip => if isTret i then (retireNow c.hid).andThen (advance c.hid c.len) else retire c
    | .go => body c

/-- A direct operation: it takes the commit slot and is sent when the task is safe, and waits otherwise (R38, R229). -/
def direct (c : Ctx) (body : Mv) : Mv := .look fun s =>
  if s.directReady c.tid then Mv.seq [
    upTask c.tid fun t => { t with slot := !t.act.free, direct := true },
    Mv.when (s.detCore c.core && !s.deferred.contains ⟨c.hid, c.tid, c.h.seq, false⟩)
      (.one (.deferred (s.deferred ++ [⟨c.hid, c.tid, c.h.seq, false⟩]))),
    body]
  else stall c.hid .safe

/-- A transfer to a target (R58, R114): checked first, then the writes `pre`, retirement and entry. -/
def transfer (c : Ctx) (target : Word) (pre : Half → Half) : Mv := .look fun s =>
  let go : Mv := Mv.seq [
    upHalf c.hid fun h => { pre h with seq := h.seq + 1, refusedAt := none },
    retireNow c.hid,
    enterAfter c.hid target (stepTrap c)]
  if wbits target 1 0 ≠ 0 then raiseIssue c.hid .badtgt target 0
  else match fetchParcel s c.core target with
    | .ok p => if isHeaderParcel p then go else raiseIssue c.hid .badtgt target 0
    | .refused => go
    | .fault => if c.h.refusedAt.isSome then go else syncFault c.hid (s.party c.core) .fetch target.toNat

/-- A transfer instruction that is not taken: it falls through like any other (R57, R58). -/
def notTaken (c : Ctx) (pre : Half → Half) : Mv := .look fun s =>
  match s.fallCheck c.hid c.h c.len with
  | .trap cause faddr info => raiseIssue c.hid cause faddr info
  | .fetch va => syncFault c.hid (s.party c.core) .fetch va
  | _ => finish c pre

/-! ### The return from an exception -/

/-- An operation of the task has left the replay queue and still owes a register a value (R80). -/
def State.directsOut (s : State) (tid : Nat) : Bool :=
  let of (d : Dest) : Bool := d.tid == tid && decide (s.floorOf tid ≤ d.seq)
  s.net.atoms.any (fun x => of x.dest && (x.value || x.owed)) || s.net.replies.any (fun x => of x.dest)
  || s.net.cmds.any (fun x => of x.dest) || s.net.mcasts.any (fun x => of x.dest)
  || s.net.heap.any (fun x => of x.dest && x.alloc) || s.net.spawns.any (fun x => of x.dest)
  || s.net.launches.any (fun x => match x.dest with | some d => of d | none => false)
  || s.net.aborts.any (fun x => match x.dest with | some d => of d | none => false)
  || s.net.msgs.any (fun x => match x.status with | some d => of d | none => false)
  || s.cores.any (fun c => c.2.ingress.any fun x => match x.status with | some d => of d | none => false)
  || s.net.stCmds.any (fun x => match x.2.2 with | some d => of d | none => false)
  || s.net.loops.any (fun x => of x.dest)
  || s.parts.any (fun p => match p.2.loop with | some l => l.tid == tid | none => false)
  || s.net.reqs.any (fun r => r.tid == tid && (match r.acc with | .atom _ _ _ _ => true | _ => false))
  || s.net.rings.any (fun g => g.joined.any fun m => m.tid == tid)
  || s.deferred.any (fun d => d.tid == tid && d.held)

/-- Every earlier instruction of the task has completed, loads included (R280, R282). -/
def State.quiet (s : State) (hid : Nat) (h : Half) : Bool :=
  h.replay.isEmpty && h.busyS == 0 && !s.directsOut h.tid
    && !s.net.fills.any (fun f => f.tid == h.tid && decide (s.floorOf h.tid ≤ f.seq) && decide (f.seq < abandoned))
    && !(s.core (coreOf hid)).mops.any (fun m => m.tid == h.tid)
    && !s.net.remotes.any (fun r => r.tid == h.tid) && !s.net.atoms.any (fun a => a.dest.tid == h.tid && !a.widen)
    && !s.net.reqs.any (fun r => r.tid == h.tid && decide (r.acc ≠ .sync) && decide (r.seq < abandoned))

/-- A 64-bit word of a core's own scratchpad. -/
def State.localWord (s : State) (core a : Nat) : Word := memWord s.mem (scratchAt core a)

/-- An entry of the frame at a local address (R275). -/
def State.readEntry (s : State) (core a : Nat) : Entry where
  seq := 0
  addr := s.localWord core a
  p0 := BitVec.ofNat 32 (memNat s.mem (scratchAt core (a + 0x08)) 4)
  p1 := BitVec.ofNat 32 (memNat s.mem (scratchAt core (a + 0x0C)) 4)
  p2 := BitVec.ofNat 32 (memNat s.mem (scratchAt core (a + 0x10)) 4)
  nore := (memGet s.mem (scratchAt core (a + 0x14))).getLsbD 0
  a := s.localWord core (a + 0x18)
  b := s.localWord core (a + 0x20)
  c := s.localWord core (a + 0x28)
  mask := BitVec.ofNat 1024 (memNat s.mem (scratchAt core (a + 0x80)) 128)
  pins := []
  dsts := []
  again := false

/-- A reconvergence stack entry of the frame (R275). -/
def State.readStack (s : State) (core a : Nat) : RcEntry where
  rc := s.localWord core a
  tgt := s.localWord core (a + 8)
  phase := (memGet s.mem (scratchAt core (a + 16))).getLsbD 0
  outer := BitVec.ofNat 1024 (memNat s.mem (scratchAt core (a + 0x20)) 128)
  pend := BitVec.ofNat 1024 (memNat s.mem (scratchAt core (a + 0xA0)) 128)

/-- The jib extension of the frame at a local address (R275). -/
def State.readJib (s : State) (core fa : Nat) : JibRun :=
  let w := s.localWord core (fa + 0x1280)
  { upc := wbits w 12 0, slot := wbits w 18 13, used := wbits w 63 32
    h := Vector.ofFn fun i => s.localWord core (fa + 0x1288 + 8 * i.val)
    hv := Vector.ofFn fun i => BitVec.ofNat 4096 (memNat s.mem (scratchAt core (fa + 0x1300 + 512 * i.val)) 512)
    found := none
    loading := none }

/-- The jib slot of an instruction. -/
def jibSlot : Instr → Option Nat
  | .jibA slot _ => some slot.toNat
  | .jibL slot _ => some slot.toNat
  | _ => none

/-- What stands at an address of code. -/
inductive At where
  | jib (slot : Nat)
  | other
  | fault (va : Nat)
  deriving DecidableEq, Repr

/-- Whether the instruction at an address is a jib, and of which slot (R280). -/
def State.jibAt (s : State) (core : Nat) (addr : Word) : At :=
  match fetchParcel s core addr with
  | .fault => .fault addr.toNat
  | .refused => .other
  | .ok p0 =>
    match fetchParcel s core (addr + 4) with
    | .fault => if lenOf p0 = 1 then .fault (addr + 4).toNat else
        (match decode [p0] with
         | .ok (i, _) => (match jibSlot i with | some n => .jib n | none => .other)
         | .error _ => .other)
    | .refused =>
        (match decode [p0] with
         | .ok (i, _) => (match jibSlot i with | some n => .jib n | none => .other)
         | .error _ => .other)
    | .ok p1 =>
        (match decode [p0, p1] with
         | .ok (i, _) => (match jibSlot i with | some n => .jib n | none => .other)
         | .error _ => .other)

/-- The set that the ASID of a partition is bound to, with its number (R302, R303). -/
def State.jibSet (s : State) (part : Nat) : Option (Nat × JibSet) :=
  match s.part? part with
  | none => none
  | some p => match tget p.jibMap (s.asidOf part) with
    | none => none
    | some n => (tget p.jibSets n).map fun x => (n, x)

/-- The words of the sequence that is now bound to a slot, if any (R315). -/
def State.boundLength (s : State) (core slot : Nat) : Option Nat :=
  match s.jibSet ((s.partOf core).getD 0) with
  | some (_, x) => (tget x.slots slot).map (·.2)
  | none => none

/-- A frame's micro-PC lies outside the sequence that is bound to its slot (R315). -/
def State.badMicroPc (s : State) (core slot upc : Nat) : Bool :=
  match s.boundLength core slot with | some n => decide (n ≤ upc) | none => false

/-- The checks of TRET on the frame at `fa`, in the order of R280: a cause and fault address, a fetch to wait for,
or the header's image. -/
inductive TretCheck where
  | trap (cause : Cause) (faddr : Word)
  | fetch (va : Nat)
  | ok (hdrWord : Word)
  deriving DecidableEq, Repr

/-- The checks of R280 after the wait. -/
def State.tretCheck (s : State) (core : Nat) (stage : Word) (s30 : Word) : TretCheck :=
  let fa := s30.toNat
  if fa % 64 ≠ 0 || !frameFits stage (fa : Int) then .trap .bound s30
  else
    let w1 := s.localWord core (fa + 8)
    let ssw := s.localWord core fa
    let hdr := s.localWord core (fa + 0x20)
    let roff := wbits (s.localWord core (fa + 0x28)) 8 0
    let jst := wbits ssw 9 8
    if 8 < wbits w1 11 8 || 8 < wbits w1 15 12 || jst == 3 then .trap .badssw 0
    else
      let atJib := if jst == 1 then s.jibAt core (hdr + 8 + word (4 * roff))
        else .jib (s.readJib core fa).slot
      match atJib with
      | .fault va => .fetch va
      | .other => .trap .badssw 0
      | .jib n =>
        if n != (s.readJib core fa).slot || (jst == 1 && s.badMicroPc core n (s.readJib core fa).upc) then .trap .badssw 0
        else match fetchHeader s core hdr with
          | .fault a => .fetch a.toNat
          | .refused _ => .trap .badtgt hdr
          | .notHeader => .trap .badtgt hdr
          | .ok w =>
            if hdrBlen w = 0 || decide (5 ≤ hdrKind w) || decide (hdrBlen w < roff) then .trap .badtgt hdr else .ok w

/-- Returning from an exception (R280): the checks of TRET, then lanes, stack, s30 and the resume point as the
frame at s30 has them, and its entries queued for re-injection in order (R281). -/
def trapReturn (c : Ctx) : Mv := .look fun s =>
  let h := s.half c.hid
  let s30 := readS h 30
  let fa := s30.toNat
  if !h.ctl.trapd then raiseIssue c.hid .tretx 0 0
  else if !s.quiet c.hid h then stall c.hid .register
  else match s.tretCheck c.core h.ctl.stage s30 with
    | .trap cause faddr => raiseIssue c.hid cause faddr 0
    | .fetch va => if h.refusedAt.isSome then raiseIssue c.hid .badtgt (s.localWord c.core (fa + 0x20)) 0
        else syncFault c.hid (s.party c.core) .fetch va
    | .ok w =>
      let w0 := s.localWord c.core fa
      let w1 := s.localWord c.core (fa + 8)
      let ents := (List.range (wbits w1 11 8)).map fun i => s.readEntry c.core (fa + 0x180 + 0x100 * i)
      let stk := ((List.range (wbits w1 15 12)).map fun i => s.readStack c.core (fa + 0x980 + 0x120 * i)).reverse
      Mv.seq [
        retireNow c.hid,
        upHalf c.hid fun h =>
          let h := writeS h 30 (s.localWord c.core (fa + 0x38))
          { h with
            ctl := { h.ctl with ss := w0.getLsbD 7, jst := BitVec.ofNat 2 (wbits w0 9 8), trapd := false }
            lanes := BitVec.ofNat 1024 (memNat s.mem (scratchAt c.core (fa + 0x100)) 128)
            stack := stk
            hdr := s.localWord c.core (fa + 0x20)
            hdrWord := w
            roff := wbits (s.localWord c.core (fa + 0x28)) 8 0
            entering := false
            reinj := ents.filter fun e => !e.nore
            reissue := none
            jib := if wbits w0 9 8 == 1 then some (s.readJib c.core fa) else none
            block := .none
            frame := []
            refusedAt := none
            seq := h.seq + 1 },
        deliver c.hid]

/-! ### Values on their way to registers -/

/-- Sending a value towards a register of the task (R78). -/
def sendFill (f : Fill) : Mv := upNet fun n => { n with fills := n.fills ++ [f] }

/-- Answering a status destination: the value travels to the register. -/
def answer (d : Dest) (w : Word) : Mv := sendFill ⟨d.hid, d.tid, d.seq, .s d.reg w, 0, none, false, none, none⟩

/-- An entry issued again takes over what its abandoned first issue still owes a register (R281). -/
def claim (c : Ctx) (r : Reg) : Mv := Mv.when c.h.reissue.isSome (upNet fun n => { n with
  fills := n.fills.filter fun f => !(f.tid == c.tid && decide (abandoned ≤ f.seq) && f.value.regs.contains r)
  reqs := n.reqs.filter fun q => !(q.tid == c.tid && decide (abandoned ≤ q.seq) && q.target == some r) })

/-- The results stand in their registers and are in flight, with their flags, until the instruction completes; it holds a
replay entry until then (R80, R104, R124, R125). `fp` for a floating vector instruction. -/
def finishLater (c : Ctx) (fl : Flags) (fp : Bool) (f : Half → Half) : Mv := Mv.seq [
  sendFill ⟨c.hid, c.tid, c.h.seq, .ready c.dsts fp, fl, none, false, none, none⟩,
  hold c fun h => c.dsts.foldl markBusy (f h)]

/-- Where the status of the instruction goes. -/
def destOf (c : Ctx) (r : Nat) : Dest := ⟨c.hid, c.tid, c.h.seq, r⟩

end Sys2Proof.Machine
end

