-- ==== Sys2Proof/Machine/Fetch.lean ====
section
/-! DEFINITION. What a half runs next: headers to enter, parcels to fetch and decode, entries to issue again
(spec/04_encoding.md R56, R57, R75, R76; spec/10, R184; spec/15, R281), the passing of time, and the placing of one
instruction for the host (log 4). -/
namespace Sys2Proof.Machine

/-- What a half does at its turn. -/
inductive Turn where
  /-- Run this instruction. -/
  | instr (i : Instr)
  /-- Do this instead: a fetch waits or was refused, or the parcels are no instruction. -/
  | act (m : Mv)

/-- The cause that R76 and R75 give to parcels that are not an instruction: ABSENT and PRIV come first. -/
def State.badCode (s : State) (core : Nat) (h : Half) (ps : List Parcel) : Cause :=
  let p0 := ps.headD 0
  let cap := s.package.cap
  let maj := majOf p0
  let min := minOf p0
  if lenOf p0 = 3 then .ill
  else if maj = 0x1E ∧ !cap.getLsbD 0 ∧ (min = 3 ∨ (min = 2 ∧ (((ps.getD 1 0).extractLsb' 10 2).toNat = 2))) then .absent
  else if maj = 0x28 ∧ !cap.getLsbD 1 ∧ (min = 1 ∨ min = 2) then .absent
  else if maj = 0x1C ∧ min ≤ 3 ∧ ((!cap.getLsbD 2 ∧ (ps.getD 1 0).getLsbD 10) ∨ (!cap.getLsbD 3 ∧ usesF6 h.ctl)) then .absent
  else if maj = 0x13 ∧ ¬ isKernel core then .priv
  else .ill

/-- A parcel of the instruction at the resume point could not be fetched (R184). -/
def fetchRefused (hid : Nat) (addr : Word) : Mv := raiseIssue hid .access addr 0

/-- A parcel's fetch faults: the half waits, unless the request was failed by a RESUME (R190, R191). -/
def fetchFaulted (hid : Nat) (h : Half) (addr : Word) : Mv := .look fun s =>
  if h.refusedAt = some addr then fetchRefused hid addr else syncFault hid (s.party (coreOf hid)) .fetch addr.toNat

/-- The parcels from an address on, as many as the first one's LEN tells and the block holds; the rest of the
block has `room` parcels. -/
def fetchFrom (s : State) (core : Nat) (addr : Word) (room : Nat) : List Parcel × Option (Word × Bool) :=
  match fetchParcel s core addr with
  | .fault => ([], some (addr, true))
  | .refused => ([], some (addr, false))
  | .ok p0 =>
    if lenOf p0 = 0 ∨ lenOf p0 = 3 ∨ room ≤ 1 then ([p0], none)
    else match fetchParcel s core (addr + 4) with
      | .fault => ([p0], some (addr + 4, true))
      | .refused => ([p0], some (addr + 4, false))
      | .ok p1 =>
        if lenOf p0 = 1 ∨ room ≤ 2 then ([p0, p1], none)
        else match fetchParcel s core (addr + 8) with
          | .fault => ([p0, p1], some (addr + 8, true))
          | .refused => ([p0, p1], some (addr + 8, false))
          | .ok p2 => ([p0, p1, p2], none)

/-- The half may not issue at all now: as the first checks of `issueCheck`. -/
def State.idleHalf (s : State) (hid : Nat) (h : Half) : Bool :=
  (s.task? h.tid).isNone || decide (h.occ ≠ .live) || (!h.traps.isEmpty && !h.ctl.trapd) || h.entering || h.hold.isSome || (s.core (coreOf hid)).failed
    || decide (8 ≤ h.replay.length) || s.quantumFull hid h || (h.ctl.ftrap != 0 && s.floating h.tid)

/-- Entering the header at the resume point. A task's first header must be of the kind that its activation demands
(R21, R58), which comes before the checks of R57 (log 115); its BADTGT reports the header's address, with ROFF 0 (log 116). -/
def enterFirst (hid : Nat) : Mv := .look fun s =>
  let h := s.half hid
  let kind := match s.task? h.tid with | some t => t.act.kind | none => 1
  if h.toHandler then enterHandler hid h.frame
  else match fetchHeader s (coreOf hid) h.hdr with
  | .ok w =>
    if h.seq = 0 ∧ ¬ h.ctl.trapd ∧ hdrKind w ≠ kind then
      (upHalf hid fun h => { h with hdrWord := w, roff := 0, entering := false }).andThen (raiseHeader hid .badtgt h.hdr h.hdr)
    else enterHeader hid h.hdr
  | _ => enterHeader hid h.hdr

/-- A half tries its instruction again: the translations that it waited for, and that stand now, no longer hold back what the
same page faults have held behind them (R190). -/
def tryAgain (hid : Nat) : Mv := .look fun s =>
  let ready (q : Req) : Bool := q.hid == hid && decide (q.acc = .sync) && decide (q.phase = .home)
  Mv.when (s.net.reqs.any ready) (upNet fun n => { n with reqs := n.reqs.filter fun q => !ready q })

/-- Getting the half to its next instruction: the next entry of a TRET becomes the one being issued, or the header
that the resume point stands before is entered (R57, R281). -/
def prepare (hid : Nat) : Mv := (tryAgain hid).andThen <| .look fun s =>
  let h := s.half hid
  if (s.task? h.tid).isNone || decide (h.occ ≠ .live) || (!h.traps.isEmpty && !h.ctl.trapd) then .done
  else match h.reinj with
    | e :: _ => if h.reissue.isSome then .done else upHalf hid fun h => { h with reissue := some e }
    | [] =>
      if h.entering then enterFirst hid
      else if h.roff = hdrBlen h.hdrWord then enterHeader hid (pcOf h)
      else .done

/-- What the half runs next (R57, R75, R76, R184, R281). -/
def nextTurn (s : State) (hid : Nat) : Turn :=
  let h := s.half hid
  let core := coreOf hid
  if s.idleHalf hid h then .act .done
  else match h.reissue with
    | some e =>
      match decode [e.p0, e.p1, e.p2] with
      | .ok (i, _) => .instr i
      | .error _ => .act (raiseIssue hid (s.badCode core h [e.p0, e.p1, e.p2]) 0 0)
    | none =>
      match fetchFrom s core (pcOf h) (hdrBlen h.hdrWord - h.roff) with
      | (_, some (a, true)) => .act (fetchFaulted hid h a)
      | (_, some (a, false)) => .act (fetchRefused hid a)
      | (ps, none) =>
        match decode ps with
        | .ok (i, []) => .instr i
        | _ => .act (raiseIssue hid (s.badCode core h ps) 0 0)

/-- The performance counters that count clk, n clk later (R340). -/
def Cluster.pass (n : Nat) (c : Cluster) : Cluster :=
  { c with perf := tmap (fun _ p => if p.sel.getLsbD 15 && wbits p.sel 7 0 == 1
      then { p with count := p.count + BitVec.ofNat 64 n } else p) c.perf }

/-- Time passes at a step: by free amounts (log 3). -/
def tick (s : State) : State :=
  let clk := Config.clkAdvance s.free
  let time := (s.clock.ns * 2 ^ 16 + s.clock.frac) + Config.timeAdvance s.free
  { s with
    clock := { s.clock with clk := s.clock.clk + clk, ns := time / 2 ^ 16, frac := time % 2 ^ 16 }
    clusters := tmap (fun _ c => c.pass clk) s.clusters
    free := s.free + 1 }

/-! ### Placing one instruction (log 4) -/

/-- Where the placed block stands. -/
def placeAt : Nat := 0x10000

/-- The partition that the placed instruction's task belongs to: every image value 0, no ASID but 0. -/
def placeImage : Image where
  valid := true
  clusters := [0]
  channels := []
  port := 0
  ethernet := false
  nvme := 0
  nvmePort := 0
  world := false
  test := false
  det := false
  quant := 0x1000
  pdl := 0x4E20
  wdog := 0x1000000
  retain := 0
  quota := 2048
  heapBase := 0
  heapSize := 0
  mgmtCore := 0
  errBase := 0
  portTable := 0
  netRing := 0
  netBytes := 0
  netEndpoint := 0
  netHandler := 0
  netPri := 0
  mgmtPage := 0
  entry := 0
  asids := [0]
  vfs := []
  roots := []
  regions := []
  load := []
  measure := 0

/-- A reef record with nothing in it. -/
def Reef.blank : Reef := ⟨0, 0, 0, [], [], [], 0, none, none, false, false⟩

/-- The root reef of a partition: open, never freed (R33, R288). -/
def Reef.root : Reef := { Reef.blank with state := 1 }

/-- A partition as creation leaves it (R288, R332, R364). -/
def Part.created (img : Image) : Part where
  image := img
  running := true
  quant := img.quant
  pdl := img.pdl
  wdog := img.wdog
  objects := []
  groups := []
  reefs := [(0, Reef.root)]
  arbList := []
  errors := []
  spawnedCount := 0
  retained := []
  jibSets := []
  jibMap := []
  window := 0
  loop := none
  report := ⟨0, 0, 0, 0, 0⟩
  injector := Injector.reset
  quanta := 0
  since := 0
  rings := []
  polled := 0

/-- An activation that carries nothing. -/
def Act.blank : Act where
  msg := ⟨0, 0, 0, 0, []⟩
  index := 0xFFFFFFFF
  kind := 1
  launch := none
  free := false
  body := none
  miss := false
  counted := false
  packet := none
  vf := none
  queue := none
  pageReq := none
  again := none

/-- A task at its activation (R22, R36). -/
def Task.fresh (core half part : Nat) (a : Act) (pri : Nat) : Task where
  core := core
  half := half
  part := part
  reef := a.reef
  ts := a.ts
  tag := none
  pri := pri
  act := a
  life := .resident
  readSig := 0
  writeSig := 0
  took := 0
  lines := []
  slot := false
  direct := false
  overflow := false
  spawned := false
  wdBase := 0
  wdFrom := 0
  floor := 0
  allocs := []
  frees := []
  bars := []
  rsv := []
  rlFail := false
  saved := none
  savedFrame := []
  savedAt := 0

/-- Parcel 0 of a header of kind 0 with the given BLEN (R59). -/
def plainHeader (blen : Nat) : Nat := blen * 4 + 3

/-- The bytes of a block of n parcels, its parcels those of `w`, and of the header that follows it. -/
def placeBytes (n w : Nat) : List Byte :=
  toBytes 8 (plainHeader n) ++ toBytes (4 * n) w ++ toBytes 8 (plainHeader 1)

/-- The translation range that maps the placed block to itself with every right (R297). -/
def placeRange : Range := ⟨0, 0xFFFFFFFFFF, 0, 0x3D⟩

/-- A machine in which the half that can run the instruction of `nbits` bits `w` has it at its resume point, and
moves next: kernel core 0 for a SYS instruction, compute core 0 for any other (log 4). -/
def placeWord (nbits w : Nat) (s : State) : State :=
  let v := w % 2 ^ nbits
  let p0 : Parcel := BitVec.ofNat 32 v
  let n := if lenOf p0 = 3 then 1 else lenOf p0 + 1
  let hid := if majOf p0 = 0x13 ∧ lenOf p0 ≠ 3 then 8192 else 0
  let part := (s.partOf (coreOf hid)).getD 0
  let tid := (s.half hid).tid
  let h := s.half hid
  let t := (s.task? tid).getD (Task.fresh (coreOf hid) 0 part Act.blank 0)
  let s := { s with
    clusters := tput s.clusters 0 { s.cluster 0 with part := some part }
    parts := tput s.parts part ((s.part? part).getD (Part.created placeImage))
    tasks := tput s.tasks tid { t with life := .resident }
    stations := tput (tput s.stations 0 { s.station 0 with ranges := tput (s.station 0).ranges 0 placeRange })
      1 { s.station 1 with ranges := tput (s.station 1).ranges 0 placeRange }
    halves := tput s.halves hid { h with
      occ := .live, hdr := word placeAt, hdrWord := word (plainHeader n), roff := 0, entering := false
      traps := [], reinj := [], reissue := none, replay := [], block := .none, refusedAt := none }
    agenda := [.issue hid .clean] }
  (pokeBytes placeAt (placeBytes n v)).run s

end Sys2Proof.Machine
end

