-- ==== Sys2Proof/Machine/Recover.lean ====
section
/-! DEFINITION. What the memory, message and recovery meanings share: endpoints and messages (spec/13, R242 to R244),
the end of a launch (spec/02, R27; spec/14, R262), reefs and their re-execution (spec/02, R33 to R35), range locks,
guards and gate windows (spec/16, R294, R296; spec/11, R195, R196, R223), signatures, flushes and commits (spec/02,
R36, R37; spec/12, R234), and errors that reach a task after issue (spec/10, R191; spec/15, R277). -/
namespace Sys2Proof.Machine

/-! ### Endpoints and messages -/

/-- Package of an endpoint (R243). -/
def epPkg (e : Word) : Nat := wbits e 31 20

/-- Unit kind of an endpoint (R243). -/
def epKind (e : Word) : Nat := wbits e 19 17

/-- Unit number of an endpoint (R243). -/
def epUnit (e : Word) : Nat := wbits e 16 4

/-- An endpoint of this package (R243). -/
def State.endpoint (s : State) (kind unit : Nat) : Nat := s.package.id.toNat * 2 ^ 20 + kind * 2 ^ 17 + unit * 16

/-- The endpoint of a core (R243; log 5). -/
def State.coreEndpoint (s : State) (cid : Nat) : Nat :=
  if isKernel cid then s.endpoint 1 (cid - 4096) else s.endpoint 0 cid

/-- The core that an endpoint of unit kind 0 or 1 names. -/
def epCore (e : Word) : Nat := if epKind e = 1 then 4096 + epUnit e else epUnit e

/-- H0 of a message (R242). -/
def h0Of (npay pri : Nat) (tag : Option Nat) (engine : Bool) (haddr : Nat) : Word :=
  word (npay * 2 ^ 61 + pri * 2 ^ 59 + (tag.getD 0) * 2 ^ 56 + b2n tag.isSome * 2 ^ 55 + b2n engine * 2 ^ 54
    + haddr % 2 ^ 54)

/-- H1 of a message (R243). -/
def h1Of (reef : BitVec 12) (ts : BitVec 48) : Word := word (reef.toNat * 2 ^ 52 + ts.toNat)

/-- H2 of a message (R243). -/
def h2Of (reply sender : Nat) : Word := word (reply * 2 ^ 32 + sender)

/-- No reply endpoint (R243). -/
def noReply : Nat := 0xFFFFFFFF

/-- The handler address that H0 names (R242). -/
def Act.handler (a : Act) : Word := word (wbits a.msg.h0 53 0 * 4)

/-- The launch tag that H0 carries (R242). -/
def Act.tag (a : Act) : Option Nat := if a.msg.h0.getLsbD 55 then some (wbits a.msg.h0 58 56) else none

/-- The sender of a message that the device itself sends: no core. -/
def deviceSrc : Nat := 8192

/-- Sending an activation to a core's inbox (R24, R230). -/
def sendAct (src core pri : Nat) (a : Act) : Mv := upNet fun n =>
  { n with msgs := n.msgs ++ [⟨src, core, pri, a, none, none⟩] }

/-- An activation that the device itself starts in the root reef, under no tag (R235, R252, R295). -/
def deviceAct (pri : Nat) (handler : Word) (pay : List Word) : Act :=
  { Act.blank with msg := ⟨h0Of pay.length pri none false (handler.toNat / 4), 0, h2Of noReply 0, 0, pay⟩ }

/-- Sending a message to an endpoint of this package: to an inbox, or to a station's command queue (R243, R246).
Endpoints of other packages lie outside this machine (log 6). -/
def sendEndpoint (src : Nat) (ep : Word) (pri : Nat) (a : Act) : Mv := .look fun s =>
  if epPkg ep ≠ s.package.id.toNat then .done
  else if epKind ep ≤ 1 then sendAct src (epCore ep) pri a
  else if epKind ep = 5 then upNet fun n => { n with stCmds := n.stCmds ++ [(epUnit ep,
    ⟨wbits a.msg.h0 15 0, a.msg.pay, src, a.msg.h2, a.msg.h3, 0⟩, none)] }
  else .done

/-- The words of a gate table (R294). -/
def gateWord (c : Core) (sel : Nat) : Word := tgetD c.gate sel 0

/-- A gate entry grants an endpoint: V, the given right bit, and a span that covers it (R294). -/
def entryCovers (w : Word) (right : Nat) (ep : Nat) : Bool :=
  let span := if wbits w 47 32 = 0 then 1 else wbits w 47 32
  let base := wbits w 31 0
  w.getLsbD 63 && w.getLsbD right && base / 2 ^ 17 == ep / 2 ^ 17
    && decide (bits base 16 4 ≤ bits ep 16 4) && decide (bits ep 16 4 < bits base 16 4 + span)

/-- The gate of a core holds an endpoint entry with the right (62 OUT, 61 IN) for an endpoint (R294). -/
def gateAllows (c : Core) (right ep : Nat) : Bool :=
  (List.range 32).any fun i => entryCovers (gateWord c i) right ep

/-- A memory window of the gate grants an access to a range of offsets: bit 62 RD, 61 W, and 60 ENG for engines
(R196, R294). -/
def windowGrants (c : Core) (first last : Nat) (write engine : Bool) : Bool :=
  (List.range 16).any fun i =>
    let w := gateWord c (32 + i)
    w.getLsbD 63 && w.getLsbD (if write then 61 else 62) && (!engine || w.getLsbD 60)
      && decide (wbits w 17 0 ≤ first) && decide (last ≤ wbits w 35 18)

/-- Whether a core exists on the part and belongs to a partition. -/
def State.ownsCore (s : State) (part cid : Nat) : Bool :=
  (if isKernel cid then decide (cid - 4096 < 2 * clusterCount s.extent)
   else decide (cid < computeCores s.extent)) && s.partOf cid == some part

/-! ### Reefs -/

/-- A reef is open or re-executing. -/
def State.reefOpen (s : State) (part id : Nat) : Bool :=
  match s.reef? part id with | some r => r.state != 0 | none => false

/-- The reef and its ancestors up to the root, nearest first; the depth of nesting is the fuel (R33). -/
def State.reefChain (s : State) (part : Nat) : Nat → Nat → List Nat
  | 0, id => [id]
  | n + 1, id =>
    if id = 0 then [0]
    else match s.reef? part id with
      | some r => id :: s.reefChain part n r.parent
      | none => [id]

/-- Whether a reef is another, or an inner reef of it. -/
def State.inReef (s : State) (part id outer : Nat) : Bool := (s.reefChain part 9 id).contains outer

/-- Changing a reef record that exists. -/
def upReef (part id : Nat) (f : Reef → Reef) : Mv := upPart part fun p =>
  match tget p.reefs id with
  | some r => { p with reefs := tput p.reefs id (f r) }
  | none => p

/-- The nearest reef from `reef` outwards whose preserved inputs are intact; none when that is the root (R35, R344). -/
def State.selectReef (s : State) (part reef : Nat) : Option Nat :=
  (s.reefChain part 9 reef).find? fun id =>
    id != 0 && (match s.reef? part id with | some r => r.pres.all (·.intact) | none => false)

/-- An event that voids the promise of R343 counts in DETX (R339, R343). -/
def countDetx (part : Nat) (u : Source) : Mv := .look fun s => Mv.when (s.det part) (countError part 7 u)

/-- A reef is being re-executed: its arbiter has stopped, or launches that its re-execution relaunched still run (R346; log 134). -/
def Reef.reexecuting (r : Reef) : Bool :=
  r.state == 2 || (r.rerun && r.launches.any fun l => !l.desc.inside && (l.running || l.again))

/-- The reef that a re-execution of a reef starts with: while an outer one is being re-executed, that one starts again
(R346). -/
def State.reexecTarget (s : State) (part id : Nat) : Nat :=
  ((s.reefChain part 9 id).filter fun r => match s.reef? part r with | some x => x.reexecuting | none => false).getLastD id

/-- Starting the re-execution of a reef, or of an outer one that is being re-executed (R346): its arbiter grants no commit
(R35, step 1), it replaces those of its inner reefs, and REEFX and DETX count. -/
def startReexec (part id : Nat) : Mv := .look fun s =>
  let f := s.reexecTarget part id
  match s.reef? part f with
  | some r => Mv.seq [
      upPart part fun p => { p with reefs := tmap (fun i x =>
        if i != f && x.state == 2 && s.inReef part i f then { x with state := 1 } else x) p.reefs },
      upReef part f fun r => { r with state := 2 },
      countError part 4 (.arbiter r.arbiter),
      countDetx part (.arbiter r.arbiter)]
  | none => .done

/-- The entries that a frame of a half would hold (R272): its outstanding loads and matrix multiplies, and what an interrupted
re-injection has left. -/
def State.entriesOf (s : State) (core : Nat) (h : Half) : Nat :=
  min 8 (h.reinj.length + (h.replay.filter fun e => decide (s.sortEntry core h.tid e = .becomesEntry)).length)

/-- Words 0x000 to 0x04F of the frame that a task would have had (R277); a task that is in no half has none of the
half's values, and one that is saved those of its image (log 25). -/
def State.taskWords (s : State) (tid cause : Nat) (iaddr faddr info : Word) : List Word :=
  match s.task? tid with
  | some t =>
    let hid := 2 * t.core + t.half
    let h := s.half hid
    if h.tid = tid ∧ h.occ = .live then s.frameWords hid h false (s.entriesOf t.core h) cause iaddr faddr info
    else match t.saved with
      | some x => s.frameWords hid x false x.reinj.length cause iaddr faddr info
      | none => [0, word cause, iaddr, faddr, 0, 0, info, 0, 0, 0]
  | none => [0, word cause, iaddr, faddr, 0, 0, info, 0, 0, 0]

/-- Step 2 of R79 for a task, else its termination: what R35 gives where the root would be re-executed. -/
def rerunOrTerminate (tid : Nat) (words : List Word) : Mv := .look fun s =>
  match s.task? tid with
  | none => .done
  | some t =>
    if !s.safe tid || !t.direct then (countDetx t.part (.core t.core)).andThen (abortTask tid) else terminate tid words

/-- A half that holds the task issues nothing more for it: it is to be discarded (R35, R166). -/
def haltTask (tid : Nat) : Mv := .look fun s =>
  let hid := s.taskHid tid
  Mv.when (decide ((s.half hid).tid = tid ∧ (s.half hid).occ ≠ .free)) (upHalf hid fun h => { h with hold := some abandoned })

/-- The re-execution that an error of a task asks for (R35); of a task that is gone, in the reef that it ran in, or an entry
in the record of the root (R191). -/
def recoverReef (tid : Nat) (words : List Word) : Mv := .look fun s =>
  match s.task? tid with
  | none => (match tget s.net.ghosts tid with
    | none => .done
    | some g => match s.selectReef g.identity.part g.identity.reef with
      | some id => startReexec g.identity.part id
      | none => recordError { g.identity with frame := words })
  | some t =>
    match s.selectReef t.part t.reef.toNat with
    | some id => (startReexec t.part id).andThen (haltTask tid)
    | none => rerunOrTerminate tid words

/-- Steps 2 and 3 of R79. -/
def rerunOrRecover (tid : Nat) (words : List Word) : Mv := .look fun s =>
  match s.task? tid with
  | none => .done
  | some t =>
    if !s.safe tid || !t.direct then (countDetx t.part (.core t.core)).andThen (abortTask tid) else recoverReef tid words

/-- Preserved ranges that hold a byte are not intact any more (R344). -/
def spoil (part : Nat) (scratch : Bool) (core a n : Nat) : Mv := upPart part fun p =>
  { p with reefs := tmap (fun _ r => { r with pres := r.pres.map fun x =>
      if x.scratch == scratch && (!scratch || x.core == core) && decide (a < x.base + x.len) && decide (x.base < a + n)
      then { x with intact := false } else x }) p.reefs }

/-! ### Errors that reach a task after issue -/

/-- An error of a task that has ended or is gone: its reef's record, and its launch (R191, R277). -/
def lateError (tid : Nat) (cause : Cause) (faddr : Word) : Mv := .look fun s =>
  let words := s.taskWords tid (causeCode cause) 0 faddr 0
  match s.task? tid with
  | some _ => terminate tid words
  | none =>
    match tget s.net.ghosts tid with
    | some g => Mv.seq [
        recordError { g.identity with frame := words },
        (match g.launch with | some lid => upLaunch lid fun l => { l with error := true } | none => .done)]
    | none => .done

/-- Entry `seq` of a half's replay queue. -/
def entryOf (h : Half) (seq : Nat) : Option Entry := h.replay.find? fun e => e.seq == seq

/-- A trap that an issued instruction raises: a live task traps, with the instruction's entry; otherwise the error
is recorded (R191, R196, R272). `lost` is the entry of an instruction that has left the replay queue. -/
def raiseAfter (hid tid seq : Nat) (cause : Cause) (faddr : Word) (lost : Entry) : Mv := .look fun s =>
  let h := s.half hid
  if h.tid = tid ∧ h.occ = .live then
    let e := (entryOf h seq).getD { lost with seq := seq }
    Mv.seq [
      upHalf hid fun h => { h.leave seq with traps := h.traps.filter fun p => !(decide (p.cause = .bkpt) && p.seq == seq && !e.nore) },
      raise hid ⟨seq, cause, e.addr, faddr, 0, some e, false⟩]
  else match s.task? tid with
    | some t =>
      match t.saved with
      | some x =>
        if x.ctl.trapd then double tid x.frame cause
        else Mv.seq [
          countPerf (clusterOf t.core) 0x0B (b2n (decide (cause = .rlock))),
          upTask tid fun t => { t with
            saved := some { x with traps := x.traps ++ [⟨seq, cause, lost.addr, faddr, 0, some { lost with seq := seq }, false⟩] } }]
      | none => lateError tid cause faddr
    | none => lateError tid cause faddr

/-! ### What the code of a memory reports (R185) -/

/-- A frame with a detected-uncorrectable error is retired until the channel's spare rows are written (R348). -/
def retireFrame (frame : Nat) (f : Fabric) : Fabric :=
  let r := if f.retired.contains frame then f.retired else frame :: f.retired
  { f with retired := r }

/-- A station loses its cached translations that reach a retired frame (R348). -/
def loseFrame (pa : Nat) (t : Station) : Station :=
  let c := t.cache.filter fun g => pa / 2 ^ g.bits != bits g.pa 39 0 / 2 ^ g.bits
  { t with cache := c }

/-- A detected-uncorrectable error in a line read for a partition: preserved ranges that hold it are not intact, the reef of the
consuming task is notified, a line of HBM loses its frame, and a word of a scratchpad or bank stays uncorrectable (R185,
R344, R347, R348). -/
def reportDue (tid part va pa : Nat) : Mv := .look fun s =>
  let frame := pa / 4096 * 4096
  let scratchOf := match homeOf s.extent pa with | .scratch c => some c | _ => none
  Mv.seq [
    (match scratchOf with
     | some c => spoil part true c (pa % 0x40000) 8
     | none => spoil part false 0 (va / 64 * 64) 64),
    (match homeOf s.extent pa with
     | .hbm chan => Mv.seq [
         upFabric (retireFrame frame),
         Mv.each s.stations fun t => upStation t.1 (loseFrame pa),
         Mv.each s.parts fun p => Mv.when (p.2.image.channels.contains chan)
           (sendAct deviceSrc (4096 + p.2.image.mgmtCore) 3
             (deviceAct 3 (gateWord (s.core (4096 + p.2.image.mgmtCore)) 50) [2, 0xFFFFFFFF, word frame]))]
     | _ => Mv.when (!s.spoilt.contains (pa / 8 * 8)) (.one (.spoilt (pa / 8 * 8 :: s.spoilt)))),
    recoverReef tid (s.taskWords tid 0 0 (word va) 0)]

/-- One more corrected error of a pin group (R185). -/
def countCorrection (i : Nat) (f : Fabric) : Fabric :=
  let n := tgetD f.corrections i 0 + 1
  { f with corrections := tput f.corrections i n }

/-- A corrected error: counted, and counted against its pin group in HBM (R185, R347). -/
def correctedAt (part pa group : Nat) : Mv := .look fun s => Mv.seq [
  countError part 0 (.memory (homeOf s.extent pa)),
  match homeOf s.extent pa with
  | .hbm chan => upFabric (countCorrection (64 * chan + group % 64))
  | _ => .done]

/-- A read for a task, after the code of the memory has been heard for the word at a package address (R185, R201). -/
def heardFor (tid part va pa : Nat) (k : Mv) : Mv := .look fun s =>
  match s.eccAt pa 8 with
  | .clean => k
  | .corrected g => (correctedAt part pa g).andThen k
  | .uncorrectable => reportDue tid part va pa

/-- The consumer of what the device reads for itself: no task. -/
def nobody : Nat := 2 ^ 64

/-- A read of the device for itself, of words by virtual and package address, after the code of the memory has been heard: from
words that cannot be corrected nothing is taken (R185, R344; log 130). -/
def heardDevice (part : Nat) (words : List (Nat × Nat)) (k : Mv) : Mv := .look fun s =>
  match words.find? fun x => decide (s.eccAt (x.2 / 8 * 8) 8 = .uncorrectable) with
  | some x => reportDue nobody part x.1 x.2
  | none => match words.find? fun x => decide (s.eccAt (x.2 / 8 * 8) 8 ≠ .clean) with
    | some x => (match s.eccAt (x.2 / 8 * 8) 8 with | .corrected g => correctedAt part x.2 g | _ => .done).andThen k
    | none => k

/-- A read of the instruction at issue of one word. -/
def heard (c : Ctx) (va pa : Nat) (k : Mv) : Mv := heardFor c.tid c.task.part va pa k

/-- Whether a range of bytes at a package address has a word that stays uncorrectable: the first (R347). -/
def State.spoiltIn (s : State) (pa n : Nat) : Option Nat :=
  if n = 0 then none else s.spoilt.find? fun w => decide (w < pa + n) && decide (pa < w + 8)

/-- A read of ranges of a scratchpad, given by offset and length, for a task. A word that stays uncorrectable is found; which
word of them another error is in is a free value. -/
def heardRanges (tid part core : Nat) (ranges : List (Nat × Nat)) (k : Mv) : Mv := .look fun s =>
  match ranges.findSome? fun r => s.spoiltIn (scratchAt core r.1) r.2 with
  | some pa => reportDue tid part (pa % 0x40000) pa
  | none =>
    if s.data.ecc = .clean then k else withFree fun w =>
      let r := ranges.getD (w.toNat % ranges.length) (0, 1)
      let a := (r.1 + w.toNat / ranges.length % r.2) / 8 * 8
      heardFor tid part a (scratchAt core a) k

/-- Such a read of the instruction at issue. -/
def heardIn (c : Ctx) (core : Nat) (ranges : List (Nat × Nat)) (k : Mv) : Mv := heardRanges c.tid c.task.part core ranges k

/-- What the code reports for the entries of the page tables that translations of addresses made at once read (R185, R188).
What the code reports at an issue is in one of them or in what the instruction reads, as a free value says; none is read
where a range entry or the page cache translates. -/
def heardWalk (tid : Nat) (p : Party) (vas : List Nat) (k : Mv) : Mv := .look fun s =>
  let walks := vas.filter fun va => (lookup s p .read va).isNone
  if s.data.ecc = .clean || walks.isEmpty then k else withFree fun w =>
    let va := walks.getD (w.toNat / 16 % walks.length) 0
    let pa := s.walkEntry p.asid va (w.toNat / 2 % 8)
    if w.getLsbD 0 then k
    else match s.eccAt pa 8 with
      | .uncorrectable => reportDue tid p.part va pa
      | .corrected g => (correctedAt p.part pa g).andThen (.eff (.ecc .clean) k)
      | .clean => k

/-! ### Range locks and guards -/

/-- Who makes an access: its task and the task's reef. -/
structure Who where
  tid : Nat
  part : Nat
  reef : Nat
  deriving DecidableEq, Repr

/-- The party of an issuing task. -/
def whoOf (c : Ctx) : Who := ⟨c.tid, c.task.part, c.task.reef.toNat⟩

/-- A range-lock entry of a core has a byte of a range of its scratchpad: the entry of a tile has the bytes of its rows
(R213, R296). -/
def Lock.covers (l : Lock) (core first last : Nat) : Bool :=
  l.core == core && decide (l.first ≤ last) && decide (first ≤ l.last) &&
  (match l.owner with
   | .tile _ rows stride bytes => (List.range rows).any fun r =>
       decide (l.first + r * stride ≤ last) && decide (first < l.first + r * stride + bytes)
   | _ => true)

/-- Whether a range-lock entry holds a range of a core's scratchpad against an access of a task (R195, R223, R296). -/
def State.lockHolds (s : State) (l : Lock) (core first last : Nat) (write : Bool) (w : Who) : Bool :=
  l.covers core first last &&
  (match l.kind with
   | 0 => write
   | 1 => true
   | 2 => l.owner != .task w.tid
   | 3 => write
   | _ => !write && (match l.owner with | .reef p id => !s.inReef p w.reef id | _ => true))

/-- The cause of the lowest KIND among some entries that hold a scratchpad range against a task's access (R296). -/
def State.lockCauseOf (s : State) (sel : Lock → Bool) (core first last : Nat) (write : Bool) (w : Who) : Option Cause :=
  let l := (s.cluster (clusterOf core)).locks.filter fun x => sel x && s.lockHolds x core first last write w
  if l.isEmpty then none else if l.all (fun x => x.kind == 4) then some .held else some .rlock

/-- The cause among all entries (R195). -/
def State.lockCause (s : State) (core first last : Nat) (write : Bool) (w : Who) : Option Cause :=
  s.lockCauseOf (fun _ => true) core first last write w

/-- One line of a shared access: the address that a refusal reports, the line, and the bytes accessed of it. -/
structure Touch where
  va : Nat
  line : Nat
  bytes : BitVec 64
  deriving DecidableEq, Repr

/-- The bytes first to last − 1 of a line. -/
def byteRange (first last : Nat) : BitVec 64 := BitVec.ofNat 64 (2 ^ last - 2 ^ first)

/-- An access within one line. -/
def touchOf (va n : Nat) : Touch := ⟨va, va / 64 * 64, byteRange (va % 64) (va % 64 + n)⟩

/-- The lines of an access of n bytes (R187). -/
def touchesOf (va n : Nat) : List Touch := (List.range ((va % 64 + n + 63) / 64)).map fun i =>
  let line := (va / 64 + i) * 64
  ⟨max va line, line, byteRange (va - line) (min 64 (va + n - line))⟩

/-- The bytes with a marked nibble of a staged line (R181). -/
def nibbleBytes (m : BitVec 128) : BitVec 64 :=
  BitVec.ofNat 64 (ofElems 1 ((List.range 64).map fun i => b2n (m.getLsbD (2 * i) || m.getLsbD (2 * i + 1))))

/-- The staged lines of a task as a write; a refusal reports the first marked byte of the line. -/
def Task.touches (t : Task) : List Touch := t.lines.map fun x =>
  let m := nibbleBytes x.2.mask
  ⟨x.1 + ((List.range 64).find? fun i => m.getLsbD i).getD 0, x.1, m⟩

/-- The party of a task. -/
def Task.whoAs (t : Task) (tid : Nat) : Who := ⟨tid, t.part, t.reef.toNat⟩

/-- The cause of the reef guards of a station for a shared access of a task, by the bytes it touches (R34, R296). -/
def State.guardCause (s : State) (cluster asid : Nat) (x : Touch) (read write : Bool) (w : Who) : Option Cause :=
  let st := s.station (stationOf cluster x.line)
  let hits := st.guards.filter fun g =>
    g.core == asid && ((List.range 64).any fun i => x.bytes.getLsbD i && decide (g.first ≤ x.line + i) && decide (x.line + i ≤ g.last)) &&
    (if g.kind == 3 then write else read && (match g.owner with | .reef p id => !s.inReef p w.reef id | _ => true))
  if hits.isEmpty then none else if hits.all (fun x => x.kind == 4) then some .held else some .rlock

/-- Adding a range-lock entry when one is free: 64 per cluster (R288). -/
def lockCapacity : Nat := 64

/-! ### Objects and scratchpads -/

/-- The live object of a kind at an index (R286, R291). -/
def State.liveObj (s : State) (part idx kind : Nat) : Option Obj :=
  match s.part? part with
  | none => none
  | some p =>
    match tget p.objects idx with
    | some o => if o.state = 1 ∧ o.kind = kind then some o else none
    | none => none

/-- Bytes of a core's scratchpad. -/
def State.scratch (s : State) (core off n : Nat) : List Byte := memBytes s.mem (scratchAt core off) n

/-- The STAGE values in force on a core: those of the halves that hold a task, else that of half 0 (R86, R181; log 26). -/
def State.stages (s : State) (core : Nat) : List Word :=
  let l := [s.half (2 * core), s.half (2 * core + 1)]
  match l.filter fun h => decide (h.occ ≠ .free) with
  | [] => [(s.half (2 * core)).ctl.stage]
  | x => x.map (·.ctl.stage)

/-- A range of a core's scratchpad has a byte in the staging area that its halves share (R181). -/
def State.stagingHits (s : State) (core a n : Nat) : Bool := (s.stages core).any fun x => stageHits x a n

/-- The core that a cluster address names, and its offset (R158). -/
def clusterAddr (core : Nat) (ea : Word) : Nat × Nat := (clusterOf core * 128 + wbits ea 24 18, wbits ea 17 0)

/-! ### Signatures (R36) -/

/-- The multipliers M_0 to M_3. -/
def sigMults : List Nat := [0x9E3779B97F4A7C15, 0xC2B2AE3D27D4EB4F, 0x165667B19E3779F9, 0xD6E8FEB86659FD93]

/-- The signature bits of the line that holds a byte. -/
def sigOf (va : Nat) : BitVec 2048 :=
  let l := va % 2 ^ 56 / 64
  sigMults.foldl (fun acc m => acc ||| BitVec.twoPow 2048 (l * m % 2 ^ 64 / 2 ^ 53)) 0

/-- The line addresses that a range of bytes touches. -/
def linesOf (va n : Nat) : List Nat := (List.range ((va % 64 + n + 63) / 64)).map fun i => (va / 64 + i) * 64

/-- Aborting every later or equal-timestamp uncommitted task of the reef whose read signature meets a write
signature (R37), but for one that holds its timestamp's commit slot: no conflict can abort it (R38). -/
def broadcastFrom (tid part : Nat) (reef : BitVec 12) (ts : BitVec 48) (sig : BitVec 2048) (read : Task → BitVec 2048) : Mv := .look fun s =>
  Mv.each (s.tasks.filter fun u => u.1 != tid && u.2.part == part && u.2.reef == reef && !u.2.act.free
      && ts.ule u.2.ts && !u.2.slot && (read u.2 &&& sig) != 0) fun u =>
    (countPerf (clusterOf u.2.core) 7 1).andThen (abortTask u.1)

/-- The broadcast of a task's writes; a task outside arbitration broadcasts nothing (R235). -/
def broadcast (tid : Nat) (t : Task) (sig : BitVec 2048) : Mv :=
  Mv.when (!t.act.free) (broadcastFrom tid t.part t.reef t.ts sig (·.readSig))

/-! ### Homes -/

/-- The bytes of a staged line over the home's own (R181): only marked nibbles are taken. -/
def overlayLine (home : List Byte) (l : Line) : List Byte :=
  home.zipIdx.map fun x =>
    let d := l.data.extractLsb' (8 * x.2) 8
    let lo := if l.mask.getLsbD (2 * x.2) then d &&& 0x0F else x.1 &&& 0x0F
    let hi := if l.mask.getLsbD (2 * x.2 + 1) then d &&& 0xF0 else x.1 &&& 0xF0
    lo ||| hi

/-- Writing a staged line at its home: only marked nibbles are written, and only the words that they lie in lose
their release records (R181, R202). -/
def writeLine (pa : Nat) (l : Line) : Mv := .look fun s =>
  let m := nibbleBytes l.mask
  (pokeBytes pa (overlayLine (memBytes s.mem pa 64) l)).andThen
    (Mv.each (List.range 8) fun i => Mv.when (m.extractLsb' (8 * i) 8 != 0) (.one (.release (pa + 8 * i) none)))

/-- Bytes at a shared virtual address as the task sees them, the home's being given (R181, own order). -/
def ownBytes (t : Task) (va : Nat) (home : List Byte) : List Byte :=
  home.zipIdx.map fun x =>
    let a := va + x.2
    match tget t.lines (a / 64 * 64) with
    | some l =>
      let i := a % 64
      let d := l.data.extractLsb' (8 * i) 8
      (if l.mask.getLsbD (2 * i) then d &&& 0x0F else x.1 &&& 0x0F)
        ||| (if l.mask.getLsbD (2 * i + 1) then d &&& 0xF0 else x.1 &&& 0xF0)
    | none => x.1

/-- What translating the lines of a write says. -/
inductive Reached where
  | ok (pas : List Nat)
  | fault (va : Nat)
  | refused (cause : Cause) (va : Nat)
  deriving DecidableEq, Repr

/-- Whether a kind of access changes memory. -/
def AKind.writes (k : AKind) : Bool := k == .write || k == .atomic

/-- The package address of one line for a core's access (R187, R192): a reef guard refuses it first (R34); a core
reaches no scratchpad through the aperture, and writes no bank in ratline mode (R183, R186). -/
def State.reachLine (s : State) (p : Party) (w : Who) (kind : AKind) (x : Touch) : Reached :=
  match s.guardCause p.cluster p.asid x (!kind.writes) kind.writes w with
  | some cause => .refused cause x.va
  | none =>
    let r := translate s p kind x.line
    match r with
    | .fault => .fault x.va
    | .refused => .refused .access x.va
    | .ok _ =>
      match s.reach r with
      | none => .refused .access x.va
      | some pa =>
        if !s.readable pa then .refused .access x.va
        else if kind.writes && s.inRatBank pa then .refused .access x.va
        else .ok [pa]

/-- The package addresses of the lines of a core's access, in order; the first that cannot be reached decides. -/
def State.reachLines (s : State) (p : Party) (w : Who) (kind : AKind) : List Touch → Reached
  | [] => .ok []
  | x :: rest =>
    match s.reachLine p w kind x with
    | .ok pa =>
      match s.reachLines p w kind rest with
      | .ok pas => .ok (pa ++ pas)
      | e => e
    | e => e

/-- Writing a task's staged lines to their homes as one set, setting D, and broadcasting the signature of the lines
(R37, R181, R189, R234). -/
def writeSet (tid : Nat) (t : Task) (p : Party) (pas : List Nat) : Mv := Mv.seq [
  Mv.each (t.lines.zip pas) (fun x => Mv.seq [writeLine x.2 x.1.2, install p x.1.1, setDirty p x.1.1]),
  upTask tid fun u => { u with lines := [], writeSig := 0 },
  broadcast tid t t.writeSig]

/-- Sending lines to their homes, each translated (R181, R204, R231): they are on their way until their homes take them. -/
def sendLines (c : Ctx) (p : Party) (l : List (Nat × Line)) (pas : List Nat) : Mv :=
  Mv.each (l.zip pas) fun x => Mv.seq [
    install p x.1.1,
    setDirty p x.1.1,
    withId fun id => upNet fun n => { n with reqs := n.reqs ++ [
      { faultReq id c.hid c.tid c.h.seq c.core p (.line x.1.2 c.task.reef c.task.ts c.task.act.free) 0 x.1.1 with
        pas := [x.2], phase := .home }] }]

/-- A request of a deterministic partition that waits for the quantum's end (R44, R103, R208, R341). -/
def deferIf (c : Ctx) (held : Bool) : Mv := .look fun s =>
  Mv.when (held && s.detCore c.core && !s.deferred.contains ⟨c.hid, c.tid, c.h.seq, true⟩)
    (.one (.deferred (s.deferred ++ [⟨c.hid, c.tid, c.h.seq, true⟩])))

/-- Probes of a task's stores that have not returned (R192). -/
def State.probing (s : State) (tid : Nat) : Bool := s.net.reqs.any fun q => q.tid == tid && decide (q.acc = .probe)

/-- Flushing the staged lines before something (R204, R211): they are sent, and the write signature starts again from empty
(R234). The probes of their stores come first (log 68). A line that faults holds the instruction, a line that is refused
traps ACCESS (R191). -/
def flush (c : Ctx) (k : Mv) : Mv := .look fun s =>
  match s.task? c.tid with
  | none => .done
  | some t =>
    if !t.lines.isEmpty && s.probing c.tid then stall c.hid .fence else
    let p := s.party c.core
    match s.reachLines p (t.whoAs c.tid) .write t.touches with
    | .fault va =>
      if c.h.refusedAt.isSome then raiseIssue c.hid .access (word va) 0 else syncFault c.hid p .write va
    | .refused cause va => raiseIssue c.hid cause (word va) 0
    | .ok pas => heardWalk c.tid p (t.lines.map (·.1)) (Mv.seq [
        sendLines c p t.lines pas,
        Mv.when (!t.lines.isEmpty) (deferIf c true),
        upTask c.tid fun u => { u with lines := [], writeSig := 0 },
        k])

/-! ### The end of a launch -/

/-- The word s3 of a completion: the address of the reef's error record when it holds an entry (R27, R386). -/
def State.errorAddr (s : State) (part reef : Nat) : Word :=
  if s.errorCount part reef = 0 then 0
  else match s.part? part with
    | some p => p.image.errBase + word (128 * reef)
    | none => 0

/-- The completion message of a launch (R27). -/
def sendCompletion (d : LDesc) (tag : Option Nat) (status count : Nat) : Mv := .look fun s =>
  let s1 := word ((tag.getD 0) + b2n tag.isNone * 2 ^ 7 + status * 2 ^ 8 + d.cluster * 2 ^ 16)
  let a : Act := { Act.blank with
    msg := ⟨h0Of 3 d.pri none d.rkind d.rhaddr.toNat, 0, h2Of noReply 0, 0,
      [s1, word count, s.errorAddr d.part d.reef.toNat]⟩ }
  sendEndpoint deviceSrc (zx d.reply) d.pri a

/-- A launch record as a dispatcher first holds it (R25, R250). -/
def Launch.fresh (d : LDesc) : Launch where
  desc := d
  next := 0
  children := []
  spawnCount := 0
  committed := 0
  sweep := none
  error := false
  withdrawn := false
  outs := []
  cores := []

/-- A tag of a cluster that no launch holds (R25): the lowest, by the model's choice (log 108). -/
def freeTagOf (c : Cluster) : Option Nat := (List.range 8).find? fun t => (tget c.launches t).isNone

/-- Giving waiting relaunches of a cluster their tags: the original one when it is free (R35, step 4). -/
def relaunchWaiting (cluster : Nat) : Mv := .look fun s =>
  let waits := s.parts.flatMap fun p => p.2.reefs.flatMap fun r =>
    (r.2.launches.zipIdx.filter fun x => x.1.again && x.1.desc.cluster == cluster).map fun x => (p.1, r.1, x)
  match waits with
  | [] => .done
  | (part, reef, x, idx) :: _ =>
    let c := s.cluster cluster
    let tag := if (tget c.launches (x.lid % 8)).isNone then some (x.lid % 8) else freeTagOf c
    match tag with
    | none => .done
    | some g => Mv.seq [
        upCluster cluster fun c => { c with launches := tput c.launches g (Launch.fresh x.desc) },
        upReef part reef fun r => { r with
          launches := lset r.launches idx { x with lid := 8 * cluster + g, running := true, again := false } }]

/-- A status that reports no message under a launch's tag any more. -/
def silence (lid : Nat) (f : Fill) : Fill :=
  if clusterOf (coreOf f.hid) == lid / 8 && f.sent.any (fun x => x.1 == lid % 8) then { f with sent := none } else f

/-- The message counts of a launch's tag back to 0 on the cluster's cores; a status still on its way counts no more
(R27, R332). -/
def clearCounts (lid : Nat) : Mv := .look fun s => Mv.seq [
  Mv.each (s.cores.filter fun c => clusterOf c.1 == lid / 8 && !isKernel c.1) (fun c =>
    upCore c.1 fun c => { c with sent := tdel c.sent (lid % 8), recv := tdel c.recv (lid % 8) }),
  upNet fun n => { n with
    fills := n.fills.map (silence lid)
    mcasts := n.mcasts.map fun m => if clusterOf m.core == lid / 8 && m.tag == some (lid % 8) then { m with tag := none } else m }]

/-- Freeing a launch's tag: message counts of the tag back to 0 on the cluster's cores, its barriers gone (R27,
R332); the launch leaves the root's record, and any record when it was aborted (R262). -/
def freeTag (lid : Nat) (d : LDesc) (aborted : Bool) : Mv :=
  Mv.seq [
    upCluster (lid / 8) fun c => { c with launches := tdel c.launches (lid % 8) },
    clearCounts lid,
    upNet fun n => { n with barriers := n.barriers.filter fun b => b.lid != lid },
    upReef d.part d.reef.toNat fun r => { r with
      launches := if aborted || d.reef == 0 then r.launches.filter fun x => !(x.running && x.lid == lid)
      else r.launches.map fun x => if x.running && x.lid == lid then { x with running := false } else x },
    relaunchWaiting (lid / 8)]

/-- An inbox that keeps only some of its activations. -/
def Inbox.keep (b : Inbox) (p : Act → Bool) : Inbox := ⟨b.ret.filter p, b.q.filter p⟩

/-- A core that keeps only some of its queued activations. -/
def Core.keep (c : Core) (p : Act → Bool) : Core :=
  { c with
    inbox0 := c.inbox0.keep p
    inbox1 := c.inbox1.keep p
    inbox2 := c.inbox2.keep p
    inbox3 := c.inbox3.keep p
    aside := tmap (fun _ l => l.filter p) c.aside
    ingress := c.ingress.filter fun x => p x.act }

/-- Removing queued activations from the inboxes and the network: those that a predicate of core and activation does
not keep. A removed spawned child that counted against its partition's quota counts no more (R29), and a packet makes room in its
ring. -/
def removeActs (keep : Nat → Act → Bool) : Mv := .look fun s =>
  let out := s.placedActs.filter fun a => !keep a.1 a.2
  let gone := out.filter fun a => a.2.counted
  Mv.seq [
    Mv.each s.cores (fun c => Mv.when (c.2.queued.any fun a => !keep c.1 a) (upCore c.1 fun x => x.keep (keep c.1))),
    upNet (fun n => { n with msgs := n.msgs.filter fun m => keep m.core m.act }),
    Mv.each out (fun a => releasePacket a.2),
    Mv.each gone fun a => match s.partOf a.1 with
      | some part => upPart part fun p => { p with spawnedCount := p.spawnedCount - 1 }
      | none => .done]

/-- Removing a launch's queued activations (R262). -/
def removeQueued (lid : Nat) : Mv := removeActs fun _ a => a.launch != some lid

/-- The SPAWNs of a launch that are on their way find it gone: their children join no other launch (R28). -/
def refuseSpawns (lid : Nat) : Mv := .look fun s => Mv.seq [
  upNet fun n => { n with spawns := n.spawns.filter fun q => q.launch != some lid },
  Mv.each (s.net.spawns.filter fun q => q.launch == some lid) fun q => answer q.dest 0x33]

/-- Ending a launch that an ABORT, a re-execution or a reset ends: indices dropped, uncommitted tasks discarded, queued
activations removed, the completion sent with the status given, the tag freed (R249, R262). -/
def killLaunch (lid : Nat) (l : Launch) (status : Nat) : Mv := .look fun s =>
  let tasks := s.tasks.filter fun t => t.2.act.launch == some lid
  Mv.seq [
    Mv.each tasks (fun t => (discardTask t.1).andThen (unspawn t.2)),
    upPart l.desc.part fun p => { p with spawnedCount := p.spawnedCount - (l.children.filter (·.counted)).length },
    removeQueued lid,
    refuseSpawns lid,
    sendCompletion l.desc (some (lid % 8)) status l.committed,
    freeTag lid l.desc true,
    Mv.each tasks (fun t => closeAfter t.1 t.2),
    closeReefs l.desc.part 9 l.desc.reef.toNat]

/-- Putting a running launch back to its beginning (R35, step 4; R250). -/
def restartLaunch (lid : Nat) : Mv := .look fun s =>
  match s.launch? lid with
  | none => .done
  | some l => Mv.seq [
      removeQueued lid,
      refuseSpawns lid,
      upPart l.desc.part fun p => { p with spawnedCount := p.spawnedCount - (l.children.filter (·.counted)).length },
      upNet fun n => { n with barriers := n.barriers.filter fun b => b.lid != lid },
      clearCounts lid,
      upLaunch lid fun x => { Launch.fresh l.desc with cores := x.cores }]

/-- Steps 2 to 5 of R35: the uncommitted tasks of a reef and its inner reefs are discarded, inner records freed
with their launches ended, and the reef's recorded launches from outside launched again. -/
def reexecute (part id : Nat) : Mv := .look fun s =>
  match s.part? part with
  | none => .done
  | some p =>
    let inner := (p.reefs.filter fun r => r.1 != id && r.1 != 0 && s.inReef part r.1 id).map (·.1)
    let all := id :: inner
    let tasks := s.tasks.filter fun t => t.2.part == part && all.contains t.2.reef.toNat
    let own := match tget p.reefs id with | some r => r.launches | none => []
    let innerRuns := (p.reefs.filter fun r => inner.contains r.1).flatMap fun r => r.2.launches.filter (·.running)
    let kill (l : LRec) : Mv := .look fun s =>
      match s.launch? l.lid with | some x => killLaunch l.lid x 4 | none => .done
    Mv.seq [
      Mv.each tasks (fun t => (discardTask t.1).andThen (unspawn t.2)),
      upNet (fun n => { n with
        spawns := n.spawns.filter fun q => !tasks.any fun t => t.1 == q.dest.tid
        launches := n.launches.filter fun q => !(q.desc.part == part && q.desc.inside && all.contains q.desc.reef.toNat)
        loops := n.loops.filter fun q => !(q.part == part && all.contains q.loop.reef.toNat) }),
      (match p.loop with
       | some l => Mv.when (all.contains l.reef.toNat) ((upPart part fun p => { p with loop := none }).andThen
           (removeActs fun _ a => match a.body with | some b => b.part != part | none => true))
       | none => .done),
      removeActs (fun core a => !(a.again.isSome && !a.free && !a.placed && all.contains a.reef.toNat && s.partOf core == some part)),
      Mv.each innerRuns kill,
      Mv.each inner (fun i => (releaseReef part i).andThen (upPart part fun p => { p with reefs := tdel p.reefs i })),
      Mv.each (own.filter fun l => l.desc.inside && l.running) kill,
      upReef part id (fun r => { r with
        state := 1
        wrote := none
        rerun := true
        taken := false
        launches := (r.launches.filter fun l => !l.desc.inside).map fun l => { l with again := !l.running && l.desc.n != 0 } }),
      Mv.each (own.filter fun l => !l.desc.inside && l.desc.n == 0) (fun l => sendCompletion l.desc none 0 0),
      Mv.each (own.filter fun l => !l.desc.inside && l.running) (fun l => restartLaunch l.lid),
      Mv.each (own.filter fun l => !l.desc.inside && !l.running) (fun l => relaunchWaiting l.desc.cluster),
      closeReefs part 9 id]

end Sys2Proof.Machine
end

