-- ==== Sys2Proof/Machine/Votes.lean ====
section
/-! DEFINITION. Advisories, votes of the Stays and hard faults of cores (spec/20, R347, R350, R351, R355). -/
namespace Sys2Proof.Machine

/-- The advisory of a fault class to the management kernel core of each partition that a predicate selects (R347). -/
def advise (sel : Part → Bool) (code detail : Nat) : Mv := .look fun s =>
  Mv.each (s.parts.filter fun p => sel p.2) fun p =>
    let core := 4096 + p.2.image.mgmtCore
    sendAct deviceSrc core 3 (deviceAct 3 (gateWord (s.core core) 50) [word code, 0xFFFFFFFF, word detail])

/-! ### Votes -/

/-- The members of an erasure group: logical package id and tray (R354). -/
def Group.members (g : Group) : List (Nat × Nat) := g.data ++ g.parity

/-- A group as R354 allows it: up to 14 data and 2 parity members, no two packages in one tray, and none twice. -/
def Group.ok (g : Group) : Bool :=
  decide (g.data.length ≤ 14) && decide (g.parity.length ≤ 2) && decide (g.members.map (·.2)).Nodup
    && decide (g.members.map (·.1)).Nodup

/-- A package is a member of the group. -/
def Group.has (g : Group) (pkg : Nat) : Bool := g.members.any fun m => m.1 == pkg

/-- Stays of the erasure group, lost ones included (R355). -/
def State.groupStays (s : State) : Nat := 2 * s.fabric.group.members.length

/-- A Stay of this package has been lost (R352). -/
def State.ownStayLost (s : State) : Bool := s.fabric.lostStays.any fun x => x.1 == s.package.id.toNat

/-- More than half of the group's Stays are among some voters (R355). -/
def State.majority (s : State) (voters : List (Nat × Bool)) : Bool :=
  decide (s.groupStays < 2 * (voters.filter fun x => s.fabric.group.has x.1).length)

/-- Both Stays of the package agree; in place of one that is lost stands the group's majority (R352, R355). -/
def State.bothAgree (s : State) (voters : List (Nat × Bool)) : Bool :=
  let own := voters.filter fun x => x.1 == s.package.id.toNat
  if s.ownStayLost then !own.isEmpty && s.majority voters else decide (own.length = 2)

/-- A Stay is a voter (R355): of this package up to class 9, of the group for an action across packages, and in place of a Stay
of this package that is lost. -/
def State.isVoter (s : State) (d : Diagnosis) : Bool :=
  (d.package == s.package.id.toNat && decide (d.cls ≤ 9)) || (s.fabric.group.has d.package
    && decide (10 ≤ d.cls ∨ (d.cls = 8 ∧ s.fabric.spareDie = none) ∨ (8 ≤ d.cls ∧ s.ownStayLost = true)))

/-- A vote has reached its threshold (R355): the loss of a die asks for both Stays, a spare die of a peer package for the
majority of the group besides (R351; log 135). -/
def State.reached (s : State) (v : Vote) : Bool :=
  if v.cls ≤ 7 then v.voters.any fun x => x.1 == s.package.id.toNat
  else if v.cls = 8 then s.bothAgree v.voters && (s.fabric.spareDie.isSome || s.majority v.voters)
  else if v.cls = 9 then s.bothAgree v.voters
  else s.majority v.voters

/-- A vote is not decided within 10 ms after its first diagnosis (R355). -/
def State.expired (s : State) (v : Vote) : Bool := decide (v.since + 10000000 ≤ s.clock.ns)

/-- A vote declines, with advisory 0x07 (R347, R355). -/
def decline (rest : List Vote) (v : Vote) : Mv :=
  (upFabric fun f => { f with votes := rest }).andThen (advise (·.running) 7 v.cls)

/-- Diagnoses of one class, unit and epoch are counted, one for each Stay; a vote that reaches its threshold goes to `k`, and
one whose time is over declines (R355). -/
def countVote (d : Diagnosis) (k : Vote → Mv) : Mv := .look fun s =>
  let same (v : Vote) : Bool := v.cls == d.cls && v.unit == d.unit && v.epoch == d.epoch
  let old : Vote := (s.fabric.votes.find? same).getD ⟨d.cls, d.unit, d.epoch, [], s.clock.ns⟩
  let who := (d.package, d.backstay)
  if !s.isVoter d || s.fabric.lostStays.contains who || old.voters.contains who then .done
  else
    let v : Vote := { old with voters := old.voters ++ [who] }
    let rest := s.fabric.votes.filter fun x => !same x
    if s.expired old then decline rest v
    else if s.reached v then (upFabric fun f => { f with votes := rest }).andThen (k v)
    else upFabric fun f => { f with votes := rest ++ [v] }

/-- A decided action beyond a die waits its turn (R346). -/
def queueAction (cls unit : Nat) : Mv := upFabric fun f => { f with decided := f.decided ++ [(cls, unit)] }

/-! ### Hard faults of cores -/

/-- The loss of a compute die, as both Stays of the package diagnose it; in an epoch of its own (R350, R351; log 91). -/
def diagnoseDie (die : Nat) : Mv := .look fun s => Mv.when (!s.fabric.decided.contains (8, die)) <|
  let vote (backstay : Bool) : Mv := countVote ⟨8, die, s.clock.clk, s.package.id.toNat, backstay⟩ fun v => queueAction 8 v.unit
  (vote false).andThen (vote true)

/-- A hard fault of a core (R350): its tasks are handled as R79 has it, and a core spare takes its place with
scratchpad, inboxes, counters and gate; words that cannot be read are 0 in it. Without a spare, and for a kernel core, the
loss of the compute die is put to the vote (R8, R351). -/
def hardFault (core : Nat) (words : List Nat) (lost : Bool) : Mv := .look fun s =>
  let tasks := s.tasks.filter fun t => t.2.core == core && decide (t.2.life = .resident)
    && decide ((s.half (s.taskHid t.1)).hold ≠ some abandoned)
  let part := (s.partOf core).getD 0
  let cluster := clusterOf core
  let copy (w : Nat) : Mv := (pokeBytes (scratchAt core (8 * w)) (List.replicate 8 0)).andThen (spoil part true core (8 * w) 8)
  Mv.seq [
    Mv.each tasks fun t => rerunOrRecover t.1 (s.taskWords t.1 0 0 0 0),
    (if isKernel core || lost || (s.cluster cluster).spares = 0 then
       (upCore core fun c => { c with failed := true }).andThen (diagnoseDie (s.dieOf core))
     else Mv.seq [
       upCluster cluster fun c => { c with spares := c.spares - 1 },
       Mv.each (words.filter fun w => decide (w < 0x8000)) copy,
       upCore core fun c => { c with replayed := none }]),
    advise (fun p => p.image.shape.contains cluster) 4 (core % 4096)]

/-- A hard fault of the physical core that runs a logical one (R20, R350). -/
def hardFaultOf (core : Nat) (words : List Nat) (lost : Bool) : Mv := .look fun s =>
  Mv.each (s.twins core) fun c => hardFault c words lost

end Sys2Proof.Machine
end

