-- ==== Sys2Proof/Machine/Accum.lean ====
section
/-! DEFINITION. What the matrix unit computes: accumulator elements and checksums, rebase and ABFT compare
(spec/06_number_formats.md R90 to R97; spec/09_matrix_instructions.md R155 to R177), as functions of values. -/
namespace Sys2Proof.Machine

/-! ### Accumulator elements -/

/-- The pattern NF (R96). -/
def nfPattern : BitVec 48 := 0x800000000000

/-- Element i of an accumulator; none is NF (R96). -/
def Acc.get (a : Acc) (i : Nat) : Option Int :=
  let x := tgetD a.elems i 0
  if x = nfPattern then none else some x.toInt

/-- The stored pattern of an element. -/
def accPat : Option Int → BitVec 48
  | some n => BitVec.ofInt 48 n
  | none => nfPattern

/-- A table that lists the entries of a function that differ from a value. -/
def tableOf {α : Type} [DecidableEq α] (n : Nat) (d : α) (f : Nat → α) : Table α :=
  (List.range n).filterMap fun i => let x := f i; if x = d then none else some (i, x)

/-- The parity bits of the MB rows (R164). -/
def mbParity (mb : Mask) : BitVec 32 :=
  BitVec.ofNat 32 (ofElems 1 ((List.range 32).map fun r => popCount 32 (mb.toNat / 2 ^ (32 * r) % 2 ^ 32) % 2))

/-- An accumulator with its MB bits written. -/
def Acc.withMb (a : Acc) (mb : Mask) : Acc := { a with mb := mb, mbPar := mbParity mb }

/-- Exact sums in which NF absorbs (R96). -/
def nfAdd : Option Int → Option Int → Option Int
  | some x, some y => some (x + y)
  | _, _ => none

/-- The sum of elements. -/
def nfSum (l : List (Option Int)) : Option Int := l.foldl nfAdd (some 0)

/-- Element (line, j) of row `line` of block b, for a checksum column; (j, line) for a checksum row (R164). -/
def blockElem (col : Bool) (b line j : Nat) : Nat :=
  let r := if col then j else line
  let c := if col then line else j
  32 * (b / 4 * 8 + r) + (b % 4 * 8 + c)

/-- The sum that a checksum stands for: of row `line` of block b, or of its column (R164). -/
def lineSum (a : Acc) (col : Bool) (b line : Nat) : Option Int :=
  nfSum ((List.range 8).map fun j => a.get (blockElem col b line j))

/-- Rebuilding every checksum from the elements (R164). -/
def rebuild (a : Acc) : Acc := { a with
  cc := tableOf 128 (some 0) fun i => lineSum a false (i / 8) (i % 8)
  cr := tableOf 128 (some 0) fun i => lineSum a true (i / 8) (i % 8) }

/-- The accumulator's elements and E replaced, checksums rebuilt. -/
def Acc.withElems (a : Acc) (e : Int) (f : Nat → Option Int) : Acc :=
  rebuild { a with elems := tableOf 1024 0 (fun i => accPat (f i)), e := BitVec.ofInt 16 e }

/-- The value of an integer on a grid. -/
def gridDy (n : Int) (e : Int) : Dy := ⟨decide (n < 0), n.natAbs, e, false⟩

/-- rebase(a, Enew) (R95). -/
def rebase (a : Acc) (enew : Int) : Acc :=
  a.withElems enew fun i => match a.get i with
    | some n => some (alignTo (gridDy n a.e.toInt) enew)
    | none => none

/-- An accumulator that holds nothing (R77, R94). -/
def Acc.isEmpty (a : Acc) : Bool := a.e.toInt == -32768

/-- Some element other than NF has magnitude 2^46 or more (R94). -/
def Acc.isLarge (a : Acc) : Bool := a.elems.any fun x => x.2 != nfPattern && decide (2 ^ 46 ≤ x.2.toInt.natAbs)

/-- What abft_compare leaves (R165): the accumulator, the events it corrected, and whether one was uncorrectable. -/
structure Abft where
  acc : Acc
  fixed : Nat
  bad : Bool
  deriving DecidableEq, Repr

/-- A checksum of a table. -/
def csum (t : Table (Option Int)) (i : Nat) : Option Int := tgetD t i (some 0)

/-- The lines of block b whose checksum disagrees. -/
def wrongLines (a : Acc) (col : Bool) (b : Nat) : List Nat :=
  (List.range 8).filter fun l => lineSum a col b l != csum (if col then a.cr else a.cc) (8 * b + l)

/-- By how much a line exceeds its checksum. -/
def lineDelta (a : Acc) (col : Bool) (b l : Nat) : Option Int :=
  match lineSum a col b l, csum (if col then a.cr else a.cc) (8 * b + l) with
  | some x, some y => some (x - y)
  | _, _ => none

/-- The compare of one block. -/
def abftBlock (strict : Bool) (r : Abft) (b : Nat) : Abft :=
  if r.bad then r
  else
    let a := r.acc
    let fix (x : Acc) : Abft := if strict then { r with bad := true } else ⟨x, r.fixed + 1, false⟩
    match wrongLines a false b, wrongLines a true b with
    | [], [] => r
    | [x], [y] =>
      match lineDelta a false b x, lineDelta a true b y with
      | some d, some d' =>
        if d = d' then
          let i := blockElem false b x y
          let v := accPat (nfAdd (a.get i) (some (-d)))
          fix { a with elems := tset a.elems i (if v = 0 then none else some v) }
        else { r with bad := true }
      | _, _ => { r with bad := true }
    | [x], [] => fix { a with cc := tput a.cc (8 * b + x) (lineSum a false b x) }
    | [], [y] => fix { a with cr := tput a.cr (8 * b + y) (lineSum a true b y) }
    | _, _ => { r with bad := true }

/-- abft_compare(a) (R165). -/
def abftCompare (strict : Bool) (a : Acc) : Abft :=
  (List.range 16).foldl (abftBlock strict) ⟨a, 0, decide (mbParity a.mb ≠ a.mbPar)⟩

/-! ### Operands -/

/-- A scaled operand element: a finite value, an lg6 code with a scale exponent, or none of them (R90 to R96). -/
inductive Opnd where
  | fin (x : Dy)
  | lg (p : Nat) (e : Int)
  | bad
  deriving DecidableEq, Repr

/-- The scale exponent of a byte; none is the NaN scale (R90). -/
def scaleExp (b : Byte) : Option Int := if b = 0xFF then none else some ((b.toNat : Int) - 127)

/-- An operand element with its scale (R90, R159). -/
def operandOf (t : BitVec 4) (pat : Nat) (scale : Option Int) : Opnd :=
  match scale with
  | none => .bad
  | some e =>
    match kindOf t with
    | .lg6 => .lg pat e
    | _ => match valueOf t pat with
      | .fin x => .fin (x.scale e)
      | _ => .bad

/-- The finite value of an operand. -/
def Opnd.value : Opnd → Option Dy
  | .fin x => some x
  | .lg p e => some ((lgValue p).scale e)
  | .bad => none

/-- An exact product; none is non-finite (R92, R93, R96). -/
def Opnd.mul : Opnd → Opnd → Option Dy
  | .lg p e, .lg q f => some ((lgProduct p q).scale (e + f))
  | x, y => match x.value, y.value with
    | some a, some b => some (a.mul b)
    | _, _ => none

/-- The largest exponent of the nonzero finite elements of a tile (R94). -/
def maxExp (l : List Opnd) : Option Int := l.foldl (fun acc o =>
  match o.value with
  | some x => if x.isZero then acc else match acc with | some m => some (max m x.log) | none => some x.log
  | none => acc) none

/-- ceil(log2 n). -/
def clog2 (n : Nat) : Nat := if n ≤ 1 then 0 else (n - 1).log2 + 1

/-- ep of the prescan (R94). -/
def prescan (as bs : List Opnd) (k : Nat) : Option Int :=
  match maxExp as, maxExp bs with
  | some x, some y => some (x + y + clog2 k - 45)
  | _, _ => none

/-- new_exponent (R94). -/
def newExponent (a : Acc) (ep : Option Int) : Int :=
  let e := a.e.toInt
  if a.isEmpty then ep.getD e
  else
    let h := if a.isLarge then e + 1 else e
    match ep with | some p => max (p + 1) h | none => h

/-- A row of elements of type t in bytes, packed by R89. -/
def elemPat (t : BitVec 4) (row : List Byte) (j : Nat) : Nat :=
  let w := typeWidth t
  if w = 4 then
    let b := (row.getD (j / 2) 0).toNat
    if j % 2 = 0 then b % 16 else b / 16
  else
    let n := w / 8
    let p := ofBytes ((List.range n).map fun i => row.getD (j * n + i) 0)
    match kindOf t with
    | .int _ v => p % 2 ^ v
    | .float f => p % 2 ^ (1 + f.ebits + f.mbits)
    | .lg6 => p % 64

/-- Bytes of a row of n elements of type t. -/
def rowBytes (t : BitVec 4) (n : Nat) : Nat := (n * typeWidth t + 7) / 8

/-- Bytes of a packed 2:4 row of A (R157). -/
def sparseRowBytes (t : BitVec 4) (k : Nat) : Nat := k * typeWidth t / 16 + k / 8

/-- The dense patterns of a packed 2:4 row (R148, R157): pair g's two values go to the positions that nibble g names;
with equal indices the second one stands. -/
def expandRow (t : BitVec 4) (row : List Byte) (k : Nat) : List Nat :=
  let metaAt := k * typeWidth t / 16
  (List.range k).map fun j =>
    let g := j / 4
    let b := (row.getD (metaAt + g / 2) 0).toNat
    let nib := if g % 2 = 0 then b % 16 else b / 16
    if nib / 4 = j % 4 then elemPat t row (2 * g + 1)
    else if nib % 4 = j % 4 then elemPat t row (2 * g)
    else 0

/-- The format that a value of FMTA or FMTB selects (R83). -/
def fmtOf (w : Word) : BitVec 4 := BitVec.ofNat 4 (wbits w 3 0)

/-- The scale exponents of the blocks of 32, from their bytes; 1 when SCL is 0 (R90). -/
def scaleAt (fmt : Word) (bytes : List Byte) (k : Nat) : Option Int :=
  if fmt.getLsbD 4 then scaleExp (bytes.getD (k / 32) 0xFF) else some 0

/-- The scaled rows of A. -/
def rowsA (o : MOp) : List (List Opnd) :=
  let t := fmtOf o.fmta
  let rb := if o.sp then sparseRowBytes t o.kk else rowBytes t o.kk
  (List.range o.m).map fun r =>
    let row := (o.aBytes.drop (r * rb)).take rb
    let pats := if o.sp then expandRow t row o.kk else (List.range o.kk).map (elemPat t row)
    pats.zipIdx.map fun x => operandOf t x.1 (scaleAt o.fmta o.aScale x.2)

/-- The scaled columns of B. -/
def colsB (o : MOp) : List (List Opnd) :=
  let t := fmtOf o.fmtb
  let rb := rowBytes t o.n
  let rows := (List.range o.kk).map fun k => (o.bBytes.drop (k * rb)).take rb
  (List.range o.n).map fun c =>
    rows.zipIdx.map fun x => operandOf t (elemPat t x.1 c) (scaleAt o.fmtb o.bScale x.2)

/-- The products of a row and a column, in the order of k. -/
def products (row col : List Opnd) : List (Option Dy) := List.zipWith Opnd.mul row col

/-- Lane sums are used for this pair of formats (R97). -/
def narrowPair (o : MOp) : Bool := [7, 13, 14, 15].contains (wbits o.fmta 3 0) && [7, 13, 14, 15].contains (wbits o.fmtb 3 0)

/-- P of FMTC.PROMO (R83, R97). -/
def promoOf (fmtc : Word) : Nat := match wbits fmtc 1 0 with | 0 => 8 | 1 => 16 | _ => 32

/-- The lowest bit exponent of an element of a format (R97). -/
def lowBit (t : Nat) : Int := match t with | 7 => 0 | 14 => -1 | 13 => -3 | _ => -15

/-- The lane shift of the group that begins at k (R97). -/
def laneShift (o : MOp) (e : Int) (k : Nat) : Nat :=
  let a := wbits o.fmta 3 0
  let b := wbits o.fmtb 3 0
  let low := if a = 15 ∧ b = 15 then -18 else lowBit a + lowBit b
  let sg := (scaleAt o.fmta o.aScale k).getD 0 + (scaleAt o.fmtb o.bScale k).getD 0
  (low + sg - e).toNat

/-- A lane's sum reaches 2^23 within a group (R97). -/
def laneOverflows (sh : Nat) (l : List Int) : Bool :=
  (l.foldl (fun acc p => let x := acc.1 + p / 2 ^ sh; (x, acc.2 || decide (2 ^ 23 ≤ x.natAbs))) ((0 : Int), false)).2

/-- The aligned products of a group, non-finite ones left out. -/
def groupOf (ps : List (Option Dy)) (e : Int) (k p : Nat) : List Int :=
  ((ps.drop k).take p).filterMap fun x => x.map fun d => alignTo d e

/-- What the compute phase leaves (R159): the compare before a rebase, the new accumulator, and the groups that were
replayed (R97). -/
structure Computed where
  acc : Acc
  fixed : Nat
  bad : Bool
  narrow : Nat
  deriving DecidableEq, Repr

/-- The compute phase on an accumulator (R159). -/
def computeMmul (o : MOp) (a : Acc) : Computed :=
  let as := rowsA o
  let bs := colsB o
  let e := newExponent a (prescan as.flatten bs.flatten o.kk)
  let cmp := if decide (a.e.toInt < e) then abftCompare (o.abftp.getLsbD 0) a else ⟨a, 0, false⟩
  if cmp.bad then ⟨cmp.acc, cmp.fixed, true, 0⟩
  else
    let base := if decide (a.e.toInt < e) then rebase cmp.acc e else cmp.acc
    let inside (i : Nat) : Bool := decide (i / 32 < o.m) && decide (i % 32 < o.n) && o.mask.getLsbD i
    let ps (i : Nat) : List (Option Dy) := products (as.getD (i / 32) []) (bs.getD (i % 32) [])
    let delta (i : Nat) : Option Int :=
      if !inside i then some 0
      else nfSum ((ps i).map fun x => x.map fun d => alignTo d e)
    let deltas := (List.range 1024).map delta
    let dAt (i : Nat) : Option Int := deltas.getD i (some 0)
    let lineD (col : Bool) (b l : Nat) : Option Int := nfSum ((List.range 8).map fun j => dAt (blockElem col b l j))
    let p := promoOf o.fmtc
    let narrow := if !narrowPair o then 0 else
      ((List.range ((o.kk + p - 1) / p)).filter fun g => (List.range 1024).any fun i =>
        inside i && laneOverflows (laneShift o e (g * p)) (groupOf (ps i) e (g * p) p)).length
    let acc := { base with
      elems := tableOf 1024 0 fun i => accPat (nfAdd (base.get i) (dAt i))
      cc := tableOf 128 (some 0) fun i => nfAdd (csum base.cc i) (lineD false (i / 8) (i % 8))
      cr := tableOf 128 (some 0) fun i => nfAdd (csum base.cr i) (lineD true (i / 8) (i % 8)) }
    ⟨acc, cmp.fixed, false, narrow⟩

/-! ### The injector (R356, R371) -/

/-- One step of the generator (R356). -/
def xorshift (x : Word) : Word :=
  let x := x ^^^ (x <<< 13)
  let x := x ^^^ (x >>> 7)
  x ^^^ (x <<< 17)

/-- Whether an accumulator element of a core is an opportunity (R356). -/
def injectsAt (j : Injector) (core gran : Nat) : Bool :=
  j.sel.getLsbD 63 && j.mask.getLsbD 1 && (wbits j.sel 47 32 == 0xFFFF || wbits j.sel 47 32 == core)
    && (wbits j.sel 31 16 == 0xFFFF || wbits j.sel 31 16 == gran)

/-- An opportunity on a granule of `width` bits: the injector afterwards, and the bit that it flips. -/
def injectOnce (j : Injector) (width : Nat) : Injector × Option Nat :=
  let x := xorshift j.seed
  if wbits x 31 0 < j.rate.toNat then
    let bitNo := if wbits j.sel 6 0 = 0x7F then wbits x 63 58 % width else wbits j.sel 6 0
    let n := j.n + 1
    let done := decide (wbits j.sel 15 8 ≠ 0) && n == wbits j.sel 15 8
    ({ j with seed := x, n := n, sel := if done then putBits j.sel 63 63 0 else j.sel }, some bitNo)
  else ({ j with seed := x }, none)

/-- The injector after so many opportunities at other units (R356; log 49). -/
def injectMany : Nat → Injector → Injector
  | 0, j => j
  | n + 1, j => injectMany n (if j.sel.getLsbD 63 then (injectOnce j 64).1 else j)

/-- INJMASK names a unit other than the accumulators (R356). -/
def Injector.elsewhere (j : Injector) : Bool := (j.mask &&& 0x3D) != 0

/-- The opportunities of the elements that a compute phase writes, in their order (R356). -/
def injectAll (j : Injector) (o : MOp) (core : Nat) (a : Acc) : Injector × Acc :=
  (List.range 1024).foldl (fun st i =>
    if decide (i / 32 < o.m) && decide (i % 32 < o.n) && o.mask.getLsbD i && injectsAt st.1 core (o.acc * 1024 + i) then
      match injectOnce st.1 48 with
      | (j', some b) =>
        let v := tgetD st.2.elems i 0 ^^^ (if b < 48 then BitVec.twoPow 48 b else 0)
        (j', { st.2 with elems := tset st.2.elems i (if v = 0 then none else some v) })
      | (j', none) => (j', st.2)
    else st) (j, a)

/-! ### Loading, draining, softmax and masks -/

/-- The exact value of an element, or a NaN for NF (R98, R100). -/
def elemNum (x : Option Int) (e : Int) : Num :=
  match x with
  | some n => .fin (gridDy n e)
  | none => defaultNaN

/-- The pattern that a masked element drains as (R170). -/
def maskedPattern (t : BitVec 4) : Nat :=
  match kindOf t with
  | .float f => infPattern f true
  | .lg6 => 0x3F
  | .int sgn w => if sgn then 2 ^ (w - 1) else 0

/-- What MLOAD makes of a tile (R169): the values of the elements that it acts on. -/
structure Loaded where
  acc : Acc
  fixed : Nat
  bad : Bool
  inexact : Bool
  deriving DecidableEq, Repr

/-- MLOAD on an accumulator: `pat i` is the tile element at i, or none where MLOAD does not act (R169). -/
def mloadAcc (t : BitVec 4) (strict : Bool) (a : Acc) (pat : Nat → Option Nat) : Loaded :=
  let vals := (List.range 1024).map fun i => (pat i).map (valueOf t)
  let vAt (i : Nat) : Option Num := vals.getD i none
  let fins := vals.filterMap fun v => match v with | some (.fin x) => if x.isZero then none else some x.log | _ => none
  let p : Option Int := fins.foldl (fun acc e => match acc with | some m => some (max m e) | none => some e) none
  let p := p.map fun e => e - 45
  let e := a.e.toInt
  let enew := if a.isEmpty then p.getD e
    else let h := if a.isLarge then e + 1 else e
         match p with | some q => max q h | none => h
  let cmp := if decide (e < enew) then abftCompare strict a else ⟨a, 0, false⟩
  if cmp.bad then ⟨cmp.acc, cmp.fixed, true, false⟩
  else
    let base := if decide (e < enew) then rebase cmp.acc enew else cmp.acc
    let isNegInf (v : Num) : Bool := match v with | .inf true => true | _ => false
    let mb := maskOf fun i => match vAt i with | some v => isNegInf v | none => base.mb.getLsbD i
    let acc := (base.withMb mb).withElems enew fun i => match vAt i with
      | some (.fin x) => some (alignTo x enew)
      | some v => if isNegInf v then some 0 else none
      | none => base.get i
    let inexact := vals.any fun v => match v with
      | some (.fin x) => (roundUnits .rne x enew).2
      | _ => false
    ⟨acc, cmp.fixed, false, inexact⟩

/-- MTRANS (R171). -/
def mtransAcc (a : Acc) : Acc :=
  let sw (i : Nat) : Nat := 32 * (i % 32) + i / 32
  (a.withMb (maskOf fun i => a.mb.getLsbD (sw i))).withElems a.e.toInt fun i => a.get (sw i)

/-- round_rne(x, f32) as a value (R173: no flag, no FTZ). -/
def r32 (x : Num) : Num := valueOf tF32 (roundTo tF32 false .rne x).1

/-- 2^x. -/
def exp2Num : Num → Num
  | .fin x => .fin (exp2Dy x)
  | .inf neg => if neg then zeroNum false else .inf false
  | x => x

/-- -∞. -/
def negInf : Num := .inf true

/-- One row of MSMAX (R174): new m, l and c patterns, and p by column; none is NF. -/
structure MsRow where
  m : BitVec 32
  l : BitVec 32
  c : BitVec 32
  p : List Num
  deriving DecidableEq, Repr

/-- The pattern of an f32 value. -/
def f32Pat (x : Num) : BitVec 32 := BitVec.ofNat 32 (roundTo tF32 false .rne x).1

/-- One row of MSMAX (R174); a NaN that m[r] already holds takes no part in the maximum (log 118). -/
def msmaxRow (a : Acc) (mask : Mask) (r : Nat) : MsRow :=
  let takes (c : Nat) : Bool := mask.getLsbD (32 * r + c) && !a.mb.getLsbD (32 * r + c)
  let s (c : Nat) : Num := r32 (elemNum (a.get (32 * r + c)) a.e.toInt)
  let part := (List.range 32).filter takes
  let m := valueOf tF32 (vget a.m r 0).toNat
  let l := valueOf tF32 (vget a.l r 0).toNat
  if part.any fun c => isNaN (s c) then
    ⟨0x7FC00000, 0x7FC00000, 0x7FC00000, (List.range 32).map fun _ => defaultNaN⟩
  else
    let mn := part.foldl (fun acc c => (minMaxNum true acc (s c)).1) m
    let flat := decide (mn = negInf)
    let crow := if flat then r32 (intNum 1) else r32 (exp2Num (subNum m mn).1)
    let p (c : Nat) : Num :=
      if flat || !takes c then zeroNum false else r32 (exp2Num (r32 (subNum (s c) mn).1))
    let ps := (List.range 32).map p
    let sum := valueOf tF32 (treeSum tF32 false 32 (ps.map fun x => (f32Pat x).toNat)).1
    ⟨f32Pat mn, f32Pat (addNum (r32 (mulNum l crow).1) sum).1, f32Pat crow, ps⟩

/-- MSMAX (R174): the elements that take no part keep their integers, on the new grid's E. A row with a NaN score
makes its active, unmasked elements NF. -/
def msmaxAcc (a : Acc) (mask : Mask) : Acc :=
  let rows := (List.range 32).map fun r => msmaxRow a mask r
  let row (r : Nat) : MsRow := rows.getD r ⟨0, 0, 0, []⟩
  let b := a.withElems (-45) fun i =>
    if mask.getLsbD i then
      match (row (i / 32)).p.getD (i % 32) (zeroNum false) with
      | .fin x => some (alignTo x (-45))
      | _ => if a.mb.getLsbD i then a.get i else none
    else a.get i
  { b with m := Vector.ofFn fun r => (row r.val).m
           l := Vector.ofFn fun r => (row r.val).l
           c := Vector.ofFn fun r => (row r.val).c }

/-- The smallest exponent from e up that keeps every value below 2^46 units (R175). -/
def fitExp : Nat → Int → List Dy → Int
  | 0, e, _ => e
  | n + 1, e, l => if l.all fun x => decide ((alignTo x e).natAbs < 2 ^ 46) then e else fitExp n (e + 1) l

/-- MSCALE of d by the c row of a (R175). -/
def mscaleAcc (d : Acc) (crow : Nat → BitVec 32) (mask : Mask) : Acc :=
  let e := d.e.toInt
  let res (i : Nat) : Option Dy :=
    match d.get i, valueOf tF32 (crow (i / 32)).toNat with
    | some n, .fin x => some ((gridDy n e).mul x)
    | _, _ => none
  let active := (List.range 1024).filter fun i => mask.getLsbD i
  let e' := fitExp 600 e (active.filterMap res)
  d.withElems e' fun i =>
    if mask.getLsbD i then (res i).map fun x => alignTo x e'
    else (d.get i).map fun n => alignTo (gridDy n e) e'

/-- The fields of a tree-mask descriptor (R176, R291). -/
structure MaskDesc where
  row0 : Nat
  col0 : Nat
  mv : Nat
  nv : Nat
  width : Nat
  prefixLen : Nat
  nodes : Nat
  addr : Nat
  deriving DecidableEq, Repr

/-- Reading a tree-mask descriptor (R291). -/
def maskDesc (body : List Word) : MaskDesc :=
  let w1 := nth body 0
  let w2 := nth body 1
  ⟨wbits w1 15 0, wbits w1 31 16, wbits w1 39 32, wbits w1 47 40, wbits w1 63 48, wbits w2 15 0, wbits w2 31 16,
    wbits (nth body 2) 17 0⟩

/-- Whether `y` is `q` or an ancestor of it; parents lie below their nodes, which bounds the fuel (R176). -/
def isAncestor (parent : Nat → Nat) : Nat → Nat → Nat → Bool
  | 0, _, _ => false
  | n + 1, y, q => if y = q then true else if parent q = 0xFFFF then false else isAncestor parent n y (parent q)

/-- masked(r, c) (R176): mode 0 causal, 1 band, 2 tree, 3 explicit. In mode 2 a node of q at or above NODES masks no column of
the prefix (log 119). -/
def maskedAt (d : MaskDesc) (mode : Nat) (parent : Nat → Nat) (expl : Nat → Nat) (r c : Nat) : Bool :=
  let q := d.row0 + r
  let y := d.col0 + c
  if d.mv ≤ r ∨ d.nv ≤ c then true
  else match mode with
    | 0 => decide (q < y)
    | 1 => decide (q < y) || decide (d.width ≤ q - y)
    | 2 =>
      if q < d.prefixLen then decide (q < y)
      else if y < d.prefixLen then false
      else
        let yn := y - d.prefixLen
        let qn := q - d.prefixLen
        decide (d.nodes ≤ yn) || decide (d.nodes ≤ qn) || !isAncestor parent (qn + 1) yn qn
    | _ => bit (expl r) c

/-- Setting mask bits on the elements that a predicate selects (R176). -/
def maskAcc (a : Acc) (mask : Mask) (f : Nat → Bool) : Acc :=
  a.withMb (a.mb ||| maskOf fun i => mask.getLsbD i && f i)

/-- MZERO of the active elements alone (R168). -/
def mzeroSome (a : Acc) (mask : Mask) : Acc :=
  (a.withMb (a.mb &&& ~~~ mask)).withElems a.e.toInt fun i => if mask.getLsbD i then some 0 else a.get i

end Sys2Proof.Machine
end

