-- ==== Sys2Proof/Machine/Matrix.lean ====
section
/-! DEFINITION. Matrix instructions and the phases of an MMUL (spec/09_matrix_instructions.md R153 to R177;
spec/02, R35; spec/20, R356). -/
namespace Sys2Proof.Machine

/-! ### Order of the accesses of a task to a scratchpad -/

/-- Whether two ranges of bytes share one. -/
def rangesMeet (a n b m : Nat) : Bool := decide (a < b + m) && decide (b < a + n)

/-- Bytes of a remote access. -/
def RemOp.size : RemOp → Nat
  | .ldr n _ => n
  | .str n _ => n
  | .puth n _ _ => n

/-- A remote access writes. -/
def RemOp.writes : RemOp → Bool
  | .ldr _ _ => false
  | _ => true

/-- The scale bytes of B that an MMUL reads itself (R83, R162). -/
def MOp.scalesB (o : MOp) : List (Nat × Nat × Nat) :=
  if o.fmtb.getLsbD 4 && decide (0 < o.bRows) then [(o.sCore, wbits o.sclb 17 0, (o.kk + 31) / 32)] else []

/-- The rows of B that an MMUL reads itself (R156). -/
def MOp.rowsB (o : MOp) : List (Nat × Nat × Nat) :=
  (List.range o.bRows).map fun r => (o.bCore, o.bAddr + r * o.bStride, rowBytes (fmtOf o.fmtb) o.n)

/-- The ranges of scratchpad that an MMUL of a core reads, in its order: core, first byte, bytes (R155, R156, R162, R377). -/
def MOp.ranges (o : MOp) (core : Nat) : List (Nat × Nat × Nat) :=
  let ta := fmtOf o.fmta
  let rowA := if o.sp then sparseRowBytes ta o.kk else rowBytes ta o.kk
  (List.range o.m).map (fun r => (o.aCore, o.aAddr + r * o.aStride, rowA))
  ++ (if o.fmta.getLsbD 4 then [(core, wbits o.scla 17 0, (o.kk + 31) / 32)] else [])
  ++ o.scalesB ++ o.rowsB

/-- A store of the task, issued before a number if one is given, is on its way to these bytes of a scratchpad (R163,
R197). -/
def State.storesTo (s : State) (tid : Nat) (lim : Option Nat) (target first n : Nat) : Bool :=
  let earlier (q : Nat) : Bool := match lim with | some x => decide (q < x) | none => true
  (s.net.remotes.any fun r => r.tid == tid && earlier r.seq && r.target == target && r.op.writes
    && rangesMeet r.off r.op.size first n)
  || s.net.mcasts.any fun m => m.dest.tid == tid && earlier m.dest.seq && m.waiting.contains target &&
      (match m.data with | some d => rangesMeet d.2 256 first n | none => false)

/-- An earlier access of the task to these bytes of a scratchpad has not read or written them (R197, R163). -/
def State.pendingScratch (s : State) (tid core target first n : Nat) (write : Bool) : Bool :=
  s.storesTo tid none target first n
  || (write && s.net.remotes.any fun r => r.tid == tid && r.target == target && rangesMeet r.off r.op.size first n)
  || (write && (s.core core).mops.any fun o => o.tid == tid && !o.loaded
      && (o.ranges core).any fun x => x.1 == target && rangesMeet x.2.1 x.2.2 first n)

/-! ### Operands of an MMUL -/

/-- What the objects of an MMUL give: sizes, strides, and displacements of the two bases (R155). -/
structure Shape where
  m : Nat
  n : Nat
  kk : Nat
  bRows : Nat
  aStride : Nat
  bStride : Nat
  aBase : Nat
  bBase : Nat
  deriving DecidableEq, Repr

/-- Form L (R155, R291). -/
def State.shapeL (s : State) (part : Nat) (f : FL) : Option Shape :=
  match s.liveObj part f.obj.toNat 1 with
  | some o =>
    let w1 := nth o.body 0
    let w2 := nth o.body 1
    let k := wbits w1 47 32
    some ⟨wbits w1 15 0, wbits w1 31 16, k, k, wbits w2 17 0, wbits w2 49 32, 0, 0⟩
  | none => none

/-- A tile object's fields (R155, R291). -/
structure TileObj where
  base : Nat
  rows : Nat
  cols : Nat
  stride : Nat
  type : BitVec 4
  deriving DecidableEq, Repr

/-- The tile object at an index. -/
def State.tileAt (s : State) (part idx : Nat) : Option TileObj :=
  match s.liveObj part idx 2 with
  | some o =>
    let w1 := nth o.body 0
    let w2 := nth o.body 1
    some ⟨wbits w1 17 0, wbits w1 47 32, wbits w1 63 48, wbits w2 17 0, BitVec.ofNat 4 (wbits w2 35 32)⟩
  | none => none

/-- Form X (R155). -/
def State.shapeX (s : State) (part : Nat) (f : FX) : Option Shape :=
  match s.tileAt part f.l.obj.toNat, s.tileAt part (f.lit.toNat % 2 ^ 16) with
  | some a, some b => some ⟨a.rows, b.cols, a.cols, b.rows, a.stride, b.stride, a.base, b.base⟩
  | _, _ => none

/-- A way that an instruction ends at issue. -/
inductive Check where
  | ok
  | trap (cause : Cause) (faddr : Word)
  deriving DecidableEq, Repr

/-- The first check that fails. -/
def firstCheck : List (Bool × Cause × Word) → Check
  | [] => .ok
  | (bad, cause, a) :: t => if bad then .trap cause a else firstCheck t

/-- Bytes from the first to the last of a tile. -/
def tileExtent (rows stride rowLen : Nat) : Nat := if rows = 0 then 0 else (rows - 1) * stride + rowLen

/-- Some row of a tile has a byte in a core's staging area (R181). -/
def State.tileStaged (s : State) (core a rows stride rowLen : Nat) : Bool :=
  (List.range rows).any fun r => s.stagingHits core (a + r * stride) rowLen

/-- The checks of R156 after the objects, of R158, of R162 and of R181, in order. `remA` and `remB` say which bases are
cluster addresses; `useB` is false for a member of a gang that is not its leader, whose sB and SCLB are ignored. -/
def mmulChecks (s : State) (c : Ctx) (sh : Shape) (sp remA remB useB : Bool) : Check :=
  let ctl := c.h.ctl
  let ta := fmtOf ctl.fmta
  let tb := fmtOf ctl.fmtb
  let a := c.a + word sh.aBase
  let b := c.b + word sh.bBase
  let w := max (typeWidth ta) (typeWidth tb)
  let rowA := if sp then sparseRowBytes ta sh.kk else rowBytes ta sh.kk
  let rowB := rowBytes tb sh.n
  let scales := (sh.kk + 31) / 32
  let sclA := ctl.fmta.getLsbD 4
  let sclB := ctl.fmtb.getLsbD 4 && useB
  let sa := wbits ctl.scla 17 0
  let sb := wbits ctl.sclb 17 0
  let extA := tileExtent sh.m sh.aStride rowA
  let extB := tileExtent sh.kk sh.bStride rowB
  let outside (rem : Bool) (x : Word) (ext : Nat) : Bool :=
    if rem then decide (wbits x 63 25 ≠ 0) || decide (0x40000 < wbits x 17 0 + ext) else decide (0x40000 < x.toNat + ext)
  let own (rem : Bool) (x : Word) : Bool := !rem || (clusterAddr c.core x).1 == c.core
  let staged (rem : Bool) (x : Word) (rows stride len : Nat) : Bool :=
    own rem x && s.tileStaged c.core (if rem then wbits x 17 0 else x.toNat) rows stride len
  firstCheck [
    (decide (sh.m = 0) || decide (32 < sh.m) || decide (sh.n = 0) || decide (32 < sh.n) || decide (sh.kk = 0)
      || decide (16384 < sh.kk * w) || decide (sh.bRows ≠ sh.kk), .bound, 0),
    (decide (a.toNat % 4 ≠ 0) || decide (sh.aStride % 4 ≠ 0), .align, a),
    ((useB && decide (b.toNat % 4 ≠ 0)) || decide (sh.bStride % 4 ≠ 0), .align, b),
    (sclA && decide (sa % 4 ≠ 0), .align, word sa),
    (sclB && decide (sb % 4 ≠ 0), .align, word sb),
    (decide (sh.aStride < rowA) || outside remA a extA, .bound, a),
    (decide (sh.bStride < rowB) || (useB && outside remB b extB), .bound, b),
    (sclA && decide (0x40000 < sa + scales), .bound, word sa),
    (sclB && decide (0x40000 < sb + scales), .bound, word sb),
    (sp && decide (sh.kk % 8 ≠ 0), .bound, 0),
    (staged remA a sh.m sh.aStride rowA, .bound, a),
    (useB && staged remB b sh.kk sh.bStride rowB, .bound, b),
    (sclA && s.stagingHits c.core sa scales, .bound, word sa),
    (sclB && s.stagingHits c.core sb scales, .bound, word sb)]

/-- The gang of a group that a portion joins: for a portion that runs again, the one that it has left unfinished; else one
that has not started and that the core has neither joined nor withdrawn from (R162, R281). -/
def State.gangFor (s : State) (c : Ctx) (group : Nat) : Option Gang :=
  let ours (g : Gang) : Bool := g.part == c.task.part && g.group == group && g.members.contains c.core
  let again (g : Gang) : Bool := c.h.reissue.isSome && g.joined.any (fun m => m.core == c.core && m.tid == c.tid && !m.done)
    && !(s.core c.core).mops.any fun o => o.gang == some g.id
  (s.net.gangs.find? fun g => ours g && again g).orElse fun _ => s.net.gangs.find? fun g =>
    ours g && !g.started && !g.withdrawn.contains c.core && !g.joined.any fun m => m.core == c.core

/-- The members of a group, by rising core. -/
def membersOf (m : BitVec 4096) : List Nat := (List.range 4096).filter fun i => m.getLsbD i

/-- A group's mask. -/
def State.groupMask (s : State) (part group : Nat) : BitVec 4096 :=
  match s.part? part with
  | some p => tgetD p.groups group 0
  | none => 0

/-- Joining a gang at issue: the portion's record, and the leader's operands. A portion that runs again after the start reads
B and its scales from the leader's addresses; its FMTB must be the leader's (R162). -/
def joinGang (c : Ctx) (o : MOp) (leader : Bool) (k : MOp → Mv) : Mv := .look fun s =>
  let group := c.h.ctl.gang.toNat
  let mem : Member := ⟨c.core, c.hid, c.tid, c.h.seq, 0, 0, 0, 0, 0, 0, 0, false, c.entry⟩
  let lead := if leader then some o else none
  match s.gangFor c group with
  | some g =>
    let rejoin := g.started
    let o := match rejoin, g.lead with
      | true, some l => { o with gang := some g.id, bAddr := l.bAddr, bCore := l.bCore, sCore := l.sCore, bStride := l.bStride
                                 bRows := l.kk, sclb := l.sclb }
      | _, _ => { o with gang := some g.id }
    (upNet fun n => { n with gangs := n.gangs.map fun x => if x.id = g.id then { x with
        joined := (x.joined.filter fun m => m.core != c.core) ++ [mem]
        lead := if rejoin then x.lead else (lead.map fun l => { l with gang := some g.id }).orElse fun _ => x.lead } else x }).andThen (k o)
  | none => withId fun id =>
    (upNet fun n => { n with gangs := n.gangs ++ [⟨id, c.task.part, group,
        membersOf (s.groupMask c.task.part group), [mem], [], false, lead.map fun l => { l with gang := some id }⟩] }).andThen
      (k { o with gang := some id })

/-- The minor of an MMUL: whether A and B are cluster addresses, and whether it is ganged (R158). -/
structure MKind where
  remA : Bool
  remB : Bool
  ganged : Bool
  deriving DecidableEq, Repr

/-- Where a base lies: core and offset (R158). -/
def baseAt (c : Ctx) (rem : Bool) (x : Word) : Nat × Nat := if rem then clusterAddr c.core x else (c.core, x.toNat)

/-- The matrix operation that an MMUL sends to the unit, its parameters sampled (R82). -/
def mopOf (c : Ctx) (f : FL) (objs : List Nat) (sh : Shape) (k : MKind) (useB : Bool) (id : Nat) (jib : Bool) : MOp :=
  let a := baseAt c k.remA (c.a + word sh.aBase)
  let b := baseAt c k.remB (c.b + word sh.bBase)
  { id := id, hid := c.hid, tid := c.tid, seq := c.h.seq, acc := f.r.d.toNat % 4, mask := c.kmask
    m := sh.m, n := sh.n, kk := sh.kk, aAddr := a.2, bAddr := b.2, aStride := sh.aStride, bStride := sh.bStride
    aCore := a.1, bCore := b.1, sCore := c.core, bRows := if useB then sh.kk else 0, sp := f.m.getLsbD 0, fmta := c.h.ctl.fmta, fmtb := c.h.ctl.fmtb
    fmtc := c.h.ctl.fmtc, scla := c.h.ctl.scla, sclb := c.h.ctl.sclb, abftp := c.h.ctl.abftp, gang := none
    jib := jib, objs := objs, loaded := false, done := false, repeated := false
    aBytes := [], bBytes := [], aScale := [], bScale := [] }

/-- Sending a matrix operation to the core's unit: its accumulator is empty until it completes (R153). -/
def sendMop (c : Ctx) (o : MOp) : Mv := Mv.seq [
  upCore c.core fun x => { x with mops := x.mops ++ [o] },
  hold c fun h => markEmpty h (.a o.acc)]

/-- MMUL: checks at issue, those of R162 after those of R156 (log 121), then the load and compute phases by events (R153 to
R162). -/
def mmul (i : Instr) (f : FL) (objs : List Nat) (shape : State → Nat → Option Shape) (k : MKind) : Mv :=
  issue i ⟨some f.r.k, false, [⟨1, .s f.r.a.toNat, f.r.wa⟩, ⟨2, .s f.r.b.toNat, f.r.wb⟩], [.a (f.r.d.toNat % 4)]⟩
    fun c => .look fun s =>
      match shape s c.task.part with
      | none => raiseIssue c.hid .bound 0 0
      | some sh =>
        let mask := s.groupMask c.task.part c.h.ctl.gang.toNat
        let leader := !k.ganged || popCount c.core mask.toNat == 0
        match mmulChecks s c sh (f.m.getLsbD 0) k.remA k.remB leader with
        | .trap cause a => raiseIssue c.hid cause a 0
        | .ok =>
          if k.ganged && (!mask.getLsbD c.core || (membersOf mask).any fun m => clusterOf m != clusterOf c.core)
          then raiseIssue c.hid .bound 0 0
          else withId fun id =>
            let o := mopOf c f objs sh k leader id false
            if k.ganged then joinGang c o leader (sendMop c) else sendMop c o

/-- R159. MMA, form L. -/
def execMmaL (f : FL) (s : State) : Host.Outcome State Fault Refusal :=
  perform (mmul (.mmaL f) f [f.obj.toNat] (fun s p => s.shapeL p f) ⟨false, false, false⟩) s

/-- R159. MMA, form X. -/
def execMmaX (f : FX) (s : State) : Host.Outcome State Fault Refusal :=
  perform (mmul (.mmaX f) f.l [f.l.obj.toNat, f.lit.toNat % 2 ^ 16] (fun s p => s.shapeX p f) ⟨false, false, false⟩) s

/-- R159. MMAR, form L. -/
def execMmarL (f : FL) (s : State) : Host.Outcome State Fault Refusal :=
  perform (mmul (.mmarL f) f [f.obj.toNat] (fun s p => s.shapeL p f) ⟨true, true, false⟩) s

/-- R159. MMAR, form X. -/
def execMmarX (f : FX) (s : State) : Host.Outcome State Fault Refusal :=
  perform (mmul (.mmarX f) f.l [f.l.obj.toNat, f.lit.toNat % 2 ^ 16] (fun s p => s.shapeX p f) ⟨true, true, false⟩) s

/-- R162. MMAG, form L. -/
def execMmagL (f : FL) (s : State) : Host.Outcome State Fault Refusal :=
  perform (mmul (.mmagL f) f [f.obj.toNat] (fun s p => s.shapeL p f) ⟨false, true, true⟩) s

/-- R162. MMAG, form X. -/
def execMmagX (f : FX) (s : State) : Host.Outcome State Fault Refusal :=
  perform (mmul (.mmagX f) f.l [f.l.obj.toNat, f.lit.toNat % 2 ^ 16] (fun s p => s.shapeX p f) ⟨false, true, true⟩) s

/-- R162. MMAGR, form L. -/
def execMmagrL (f : FL) (s : State) : Host.Outcome State Fault Refusal :=
  perform (mmul (.mmagrL f) f [f.obj.toNat] (fun s p => s.shapeL p f) ⟨true, true, true⟩) s

/-- R162. MMAGR, form X. -/
def execMmagrX (f : FX) (s : State) : Host.Outcome State Fault Refusal :=
  perform (mmul (.mmagrX f) f.l [f.l.obj.toNat, f.lit.toNat % 2 ^ 16] (fun s p => s.shapeX p f) ⟨true, true, true⟩) s

/-! ### Phases -/

/-- The bytes of a tile's rows, one after the other. -/
def State.tileBytes (s : State) (core a rows stride rowLen : Nat) : List Byte :=
  (List.range rows).flatMap fun r => s.scratch core (a + r * stride) rowLen

/-- The cause that refuses the bytes of one row of a matrix operand to the unit: a remote core's gate, of which one window has
to cover the row (log 120), its staging area, range locks (R160, R181, R196). -/
def State.operandCause (s : State) (o : MOp) (own core a n : Nat) : Option Cause :=
  let who : Who := match s.task? o.tid with | some t => ⟨o.tid, t.part, t.reef.toNat⟩ | none => ⟨o.tid, 0, 0⟩
  if core ≠ own && !windowGrants (s.core core) a (a + n - 1) false false then some .gate
  else if core ≠ own && s.stagingHits core a n then some .bound
  else s.lockCause core a (a + n - 1) false who

/-- The first byte of a range that is refused to an MMUL (R377). -/
def State.firstRefused (s : State) (o : MOp) (own core a n : Nat) : Nat :=
  ((List.range n).find? fun i => (s.operandCause o own core (a + i) 1).isSome).getD 0 + a

/-- The first range of an MMUL that is refused: the cause, and its first refused byte (R276, R377). -/
def State.operandRefusal (s : State) (o : MOp) (own : Nat) (l : List (Nat × Nat × Nat)) : Option (Cause × Word) :=
  l.findSome? fun x => (s.operandCause o own x.1 x.2.1 x.2.2).map fun z =>
    let a := s.firstRefused o own x.1 x.2.1 x.2.2
    (z, if x.1 = own then word a else word (x.1 % 128 * 2 ^ 18 + a))

/-- The load of an MMUL, after the code of the memories has been heard for the word that event data `m` and `k` name: range,
and byte of it (R185). -/
def State.heardLoad (s : State) (o : MOp) (own : Nat) (l : List (Nat × Nat × Nat)) (k : Mv) : Mv :=
  let part := (s.partOf own).getD 0
  match l.findSome? fun x => s.spoiltIn (scratchAt x.1 x.2.1) x.2.2 with
  | some pa => reportDue o.tid part (pa % 0x40000) pa
  | none =>
    let x := l.getD (s.data.m % l.length) (own, 0, 1)
    let a := (x.2.1 + s.data.k % x.2.2) / 8 * 8
    heardFor o.tid part a (scratchAt x.1 a) k

/-- The matrix operation with an id, and its core. -/
def State.mop? (s : State) (id : Nat) : Option (Nat × MOp) :=
  s.cores.findSome? fun c => (c.2.mops.find? fun o => o.id == id).map fun o => (c.1, o)

/-- Changing a matrix operation. -/
def upMop (core id : Nat) (f : MOp → MOp) : Mv := upCore core fun c =>
  { c with mops := c.mops.map fun o => if o.id = id then f o else o }

/-- Removing a matrix operation. -/
def dropMop (core id : Nat) : Mv := upCore core fun c => { c with mops := c.mops.filter fun o => o.id != id }

/-- An operation may load: the unit takes operations in order and has two operand buffer sets, a gang has started, and
every earlier store of the task to its operands has been made (R153, R162, R163). -/
def State.mayLoad (s : State) (core : Nat) (o : MOp) : Bool :=
  let before := (s.core core).mops.takeWhile fun x => x.id != o.id
  !o.loaded && before.all (·.loaded) && decide (((s.core core).mops.filter fun x => x.loaded && !x.done).length < 2)
    && (match o.gang with
        | some g => (s.net.gangs.find? fun x => x.id == g).any (·.started)
        | none => true)
    && !(o.ranges core).any fun x => s.storesTo o.tid (some o.seq) x.1 x.2.1 x.2.2

/-- A portion differs from the gang's leader in shape or in FMTB (R162). -/
def MOp.differs (o l : MOp) : Bool := o.m != l.m || o.n != l.n || o.kk != l.kk || wbits o.fmtb 4 0 != wbits l.fmtb 4 0

/-- A portion that has joined its gang again still differs from the leader (R162). -/
def State.misfits (s : State) (o : MOp) : Bool :=
  match o.gang.bind fun g => (s.net.gangs.find? fun x => x.id == g).bind (·.lead) with
  | some l => o.differs l
  | none => false

/-- A load phase that traps: the accumulator is unchanged, and a jib stands at its JMMA (R160, R308). -/
def loadTrap (core : Nat) (o : MOp) (cause : Cause) (fa : Word) : Mv :=
  if o.jib then Mv.seq [
    dropMop core o.id,
    upHalf o.hid settleJib,
    .look fun s => let h := s.half o.hid; raise o.hid ⟨h.seq, cause, pcOf h, fa, 0, none, false⟩]
  else (dropMop core o.id).andThen (raiseAfter o.hid o.tid o.seq cause fa Entry.blank)

/-- The jib of a JMMA whose load phase has ended: it goes on after it, its cost of R306 counted, while a replay entry that is
never re-injected stands for the MMA (R272, R303, R308). -/
def jibLoaded (o : MOp) (h : Half) : Half :=
  match h.jib with
  | some j => if j.loading.isNone then h else { h with
      jib := some { j with upc := j.upc + 1, used := j.used + 4, loading := none }
      block := .none
      refusedAt := none
      replay := h.replay ++ [{ Entry.blank with seq := o.seq, addr := pcOf h, nore := true }] }
  | none => h

/-- R153, R160. MMUL_LOAD_PHASE: the operands are read, or the load traps. -/
def execMmulLoadPhase (s : State) : Host.Outcome State Fault Refusal :=
  perform (.look fun s => match s.mop? s.data.n with
    | none => .done
    | some (core, o) =>
      if !s.mayLoad core o then .done
      else
        let ta := fmtOf o.fmta
        let rowA := if o.sp then sparseRowBytes ta o.kk else rowBytes ta o.kk
        let rowB := rowBytes (fmtOf o.fmtb) o.n
        let scales := (o.kk + 31) / 32
        let ownB := decide (0 < o.bRows)
        let l := o.ranges core
        match (if s.misfits o then some (.bound, 0) else s.operandRefusal o core l) with
        | some (cause, fa) => loadTrap core o cause fa
        | none =>
          Mv.seq [
            Mv.when (decide (s.data.ecc = .uncorrectable)) (dropMop core o.id),
            s.heardLoad o core l ((upMop core o.id fun o => { o with
              loaded := true
              aBytes := s.tileBytes o.aCore o.aAddr o.m o.aStride rowA
              bBytes := if ownB then s.tileBytes o.bCore o.bAddr o.kk o.bStride rowB else o.bBytes
              aScale := if o.fmta.getLsbD 4 then s.scratch core (wbits o.scla 17 0) scales else []
              bScale := if ownB && o.fmtb.getLsbD 4 then s.scratch o.sCore (wbits o.sclb 17 0) scales else o.bScale }).andThen
              (Mv.when o.jib (upHalf o.hid (jibLoaded o))))]) s

/-- What an uncorrectable ABFT event does to the task, by ABFTP.UNC (R166). The CAUSE of its record is a free value:
no cause code names it (log 27). -/
def escalate (core tid part : Nat) (abftp : Word) : Mv :=
  (countError part 2 (.core core)).andThen <| withFree fun w => .look fun s =>
    let words := s.taskWords tid (wbits w 7 0) 0 0 0
    match wbits abftp 2 1 with
    | 0 => recoverReef tid words
    | 1 => rerunOrRecover tid words
    | _ => terminate tid words

/-- Counting corrected ABFT events (R165, R339). -/
def countAbft (core part n : Nat) : Mv := Mv.each (List.range n) fun _ => countError part 1 (.core core)

/-- A matrix operation of the half's task is complete: its accumulator is full, and its replay entry leaves. -/
def fillAcc (o : MOp) : Mv := complete o.hid o.seq fun h => markFull { h with block := h.block.woken } (.a o.acc)

/-- An accumulator that a compute phase writes, with the errors that the injector of a TEST partition puts in (R356). How many
opportunities at other units have passed is a free value (log 49). -/
def injected (part : Nat) (o : MOp) (core : Nat) (a : Acc) (k : Acc → Mv) : Mv := .look fun s =>
  match s.part? part with
  | none => k a
  | some p =>
    let put (j : Injector) : Mv :=
      let x := injectAll j o core a
      (upPart part fun p => { p with injector := x.1 }).andThen (k x.2)
    if !p.image.test then k a
    else if p.injector.elsewhere then withFree fun n => put (injectMany n.toNat p.injector)
    else put p.injector

/-- R159. MMUL_COMPUTE_DONE: the products are added; the residue check may fail (R166), and a second time is a
hard fault of the core besides (R350; log 136). -/
def execMmulComputeDone (s : State) : Host.Outcome State Fault Refusal :=
  perform (.look fun s => match s.mop? s.data.n with
    | none => .done
    | some (core, o) =>
      let part := (s.partOf core).getD 0
      if !o.loaded || o.done || ((s.core core).mops.takeWhile fun x => x.id != o.id).any (fun x => !x.done) then .done
      else if s.data.yes then
        if o.repeated then Mv.seq [dropMop core o.id, escalate core o.tid part o.abftp, hardFaultOf core [] false]
        else (countError part 1 (.core core)).andThen (upMop core o.id fun o => { o with repeated := true })
      else
        let r := computeMmul o (readA (s.half o.hid) o.acc)
        Mv.seq [
          countAbft core part r.fixed,
          countPerf (clusterOf core) 3 o.kk,
          Mv.each (List.range r.narrow) fun _ => countError part 3 (.core core),
          if r.bad then (dropMop core o.id).andThen (escalate core o.tid part o.abftp)
          else injected part o core r.acc fun acc => Mv.seq [
            upHalf o.hid fun h => { h with a := vset h.a o.acc acc },
            match o.gang with
            | none => (dropMop core o.id).andThen (fillAcc o)
            | some g => (upMop core o.id fun o => { o with done := true }).andThen
                (upNet fun n => { n with gangs := n.gangs.map fun x => if x.id = g then { x with
                  joined := x.joined.map fun m => if m.core = core then { m with done := true } else m } else x })]]) s

/-- The gang has read B: every portion has it, and one whose shape or FMTB differs from the leader's traps BOUND (R162). -/
def gangRun (g : Gang) (l : MOp) (b bs : List Byte) : Mv := .look fun s =>
  let mops := g.joined.filterMap fun m => ((s.core m.core).mops.find? fun o => o.gang == some g.id).map fun o => (m.core, o)
  Mv.seq [
    upNet fun n => { n with gangs := n.gangs.map fun x => if x.id = g.id then { x with started := true } else x },
    Mv.each mops fun x =>
      if x.2.differs l then loadTrap x.1 x.2 .bound 0
      else upMop x.1 x.2.id fun o => { o with bBytes := b, bScale := bs, bRows := 0 }]

/-- The start of a gang (R162, R377): when every member has issued, B and its scales are read once, by the leader's portion,
which traps where they are refused; the others then wait for the read of the leader's portion that runs again. Where the
leader has withdrawn, its addresses are still those of B. -/
def startGang (id : Nat) : Mv := .look fun s =>
  match s.net.gangs.find? fun g => g.id == id with
  | none => .done
  | some g =>
    let missing := g.members.any fun m => !(g.joined.any fun j => j.core == m) && !g.withdrawn.contains m
    match g.lead with
    | none => .done
    | some l =>
      let core := coreOf l.hid
      let reads := l.scalesB ++ l.rowsB
      if g.started || missing || g.joined.isEmpty || reads.any (fun x => s.storesTo l.tid (some l.seq) x.1 x.2.1 x.2.2) then .done
      else match s.operandRefusal l core reads, (s.core core).mops.find? (fun o => o.gang == some g.id) with
        | some (cause, fa), some o => loadTrap core o cause fa
        | some _, none => .done
        | none, o =>
          if o.isNone && !g.withdrawn.contains core then .done else
          let b := s.tileBytes l.bCore l.bAddr l.kk l.bStride (rowBytes (fmtOf l.fmtb) l.n)
          let bs := if l.fmtb.getLsbD 4 then s.scratch l.sCore (wbits l.sclb 17 0) ((l.kk + 31) / 32) else []
          s.heardLoad l core reads (gangRun g l b bs)

/-- R162. GANG_START; in a deterministic partition at a quantum's end (R342). -/
def execGangStart (s : State) : Host.Outcome State Fault Refusal :=
  perform (.look fun s => match s.net.gangs.find? fun g => g.id == s.data.n with
    | some g => if s.det g.part then .done else startGang g.id
    | none => .done) s

/-- R162. GANG_COMPLETE: one completion sets every member's accumulator full. -/
def execGangComplete (s : State) : Host.Outcome State Fault Refusal :=
  perform (.look fun s => match s.net.gangs.find? fun g => g.id == s.data.n with
    | none => .done
    | some g =>
      if !g.started || g.joined.any (fun m => !m.done) then .done
      else Mv.seq [
        Mv.each g.joined fun m => .look fun s =>
          match (s.core m.core).mops.find? fun o => o.gang == some g.id with
          | some o => (dropMop m.core o.id).andThen (fillAcc o)
          | none => .done,
        upNet fun n => { n with gangs := n.gangs.filter fun x => x.id != g.id }]) s

/-! ### MACC -/

/-- A MACC or MSOFT instruction that waits for its accumulator (R167). -/
def specAcc (f : FL) (srcs : List Src) : Spec := ⟨some f.r.k, false, srcs, [.a (f.r.d.toNat % 4)]⟩

/-- The accumulator that D names. -/
def accD (f : FL) : Nat := f.r.d.toNat % 4

/-- An instruction over the whole accumulator, run only for its effect on it. -/
def onAcc (i : Instr) (f : FL) (srcs : List Src) (g : Ctx → Acc → Acc) : Mv :=
  issue i (specAcc f srcs) fun c => finishLater c 0 false fun h => writeA h (accD f) (g c (readA h (accD f)))

/-- A compare, then the rest with the accumulator that it leaves, or the escalation (R165, R166). -/
def afterCompare (c : Ctx) (f : FL) (cmp : Abft) (k : Acc → Mv) : Mv :=
  (countAbft c.core c.task.part cmp.fixed).andThen
    (if cmp.bad then (upHalf c.hid fun h => { h with a := vset h.a (accD f) cmp.acc }).andThen
        (escalate c.core c.tid c.task.part c.h.ctl.abftp)
     else k cmp.acc)

/-- R168. MZERO, which reads neither sA nor a tile (log 117). -/
def execMzero (f : FL) (s : State) : Host.Outcome State Fault Refusal :=
  perform (onAcc (.mzero f) f [] fun c a => if f.r.k = 0 then Acc.reset else mzeroSome a c.kmask) s

/-- The rows of a tile: offset and bytes. -/
def tileRows (base rows stride rowLen : Nat) : List (Nat × Nat) := (List.range rows).map fun r => (base + r * stride, rowLen)

/-- The tile of MLOAD and MDRAIN, or the cause that refuses it (R167, R169, R170, R181). -/
def State.accTile (s : State) (c : Ctx) (f : FL) (write : Bool) : Except (Cause × Word) (TileObj × Nat × Nat) :=
  match s.tileAt c.task.part f.obj.toNat with
  | none => .error (.bound, 0)
  | some t =>
    if 32 < t.rows ∨ 32 < t.cols then .error (.bound, 0)
    else
      let base := c.a + word t.base
      let rl := rowBytes f.t t.cols
      let ext := tileExtent t.rows t.stride rl
      if 0x40000 < base.toNat + ext then .error (.bound, base)
      else if s.tileStaged c.core base.toNat t.rows t.stride rl then .error (.bound, base)
      else match (tileRows base.toNat t.rows t.stride rl).findSome? fun x =>
          if rl = 0 then none else s.lockCause c.core x.1 (x.1 + rl - 1) write (whoOf c) with
        | some cause => .error (cause, base)
        | none => .ok (t, base.toNat, rl)

/-- An earlier access of the task to the rows of a tile is still to be made (R163, R197). -/
def State.tilePending (s : State) (c : Ctx) (rows : List (Nat × Nat)) (write : Bool) : Bool :=
  rows.any fun x => s.pendingScratch c.tid c.core c.core x.1 x.2 write

/-- Sending a finished accumulator to D, which is empty until it arrives (R167). -/
def sendAcc (c : Ctx) (f : FL) (a : Acc) (fl : Flags) : Mv := Mv.seq [
  sendFill ⟨c.hid, c.tid, c.h.seq, .a (accD f) a, fl, none, false, none, none⟩,
  hold c fun h => markEmpty h (.a (accD f))]

/-- R169. MLOAD. Conversion sets NX alone: a signalling NaN, which becomes NF, raises no NV (log 101). -/
def execMload (f : FL) (s : State) : Host.Outcome State Fault Refusal :=
  perform (issue (.mload f) (specAcc f [⟨1, .s f.r.a.toNat, f.r.wa⟩]) fun c => .look fun s =>
    match s.accTile c f false with
    | .error (cause, a) => raiseIssue c.hid cause a 0
    | .ok (t, base, rl) => if s.tilePending c (tileRows base t.rows t.stride rl) false then stall c.hid .register else
      heardIn c c.core (tileRows base t.rows t.stride rl) <|
      let rows := (List.range t.rows).map fun r => s.scratch c.core (base + r * t.stride) rl
      let pat (i : Nat) : Option Nat :=
        if c.kmask.getLsbD i && decide (i / 32 < t.rows) && decide (i % 32 < t.cols)
        then some (elemPat f.t (rows.getD (i / 32) []) (i % 32)) else none
      let r := mloadAcc f.t (c.h.ctl.abftp.getLsbD 0) (readA c.h (accD f)) pat
      afterCompare c f ⟨r.acc, r.fixed, r.bad⟩ fun acc =>
        let fl := flIf r.inexact flNX
        if trapping c.h.ctl fl ≠ 0 then raiseIssue c.hid .fpx 0 (zx fl) else sendAcc c f acc fl) s

/-- What one element drains as, with its flags (R170). -/
def drainElem (c : Ctx) (f : FL) (a : Acc) (i : Nat) : Nat × Flags :=
  if a.mb.getLsbD i then (maskedPattern f.t, 0)
  else roundTo f.t (ftzOf c.h.ctl) (rndOf f.sc (ditherAt c.h.ctl.dito (i / 32) (i % 32))) (elemNum (a.get i) a.e.toInt)

/-- Writing one element of a tile row; a 4-bit element rewrites only its nibble (R170). -/
def pokeElem (at_ : Nat) (w j pat : Nat) : Mv :=
  if w = 4 then .look fun s =>
    let a := at_ + j / 2
    let b := (memGet s.mem a).toNat
    pokeBytes a (toBytes 1 (if j % 2 = 0 then b / 16 * 16 + pat % 16 else pat % 16 * 16 + b % 16))
  else pokeBytes (at_ + j * (w / 8)) (toBytes (w / 8) pat)

/-- R170. MDRAIN. -/
def execMdrain (f : FL) (s : State) : Host.Outcome State Fault Refusal :=
  perform (issue (.mdrain f) (specAcc f [⟨1, .s f.r.a.toNat, f.r.wa⟩]) fun c => .look fun s =>
    match s.accTile c f true with
    | .error (cause, a) => raiseIssue c.hid cause a 0
    | .ok (t, base, rl) => if s.tilePending c (tileRows base t.rows t.stride rl) true then stall c.hid .register else
      afterCompare c f (abftCompare (c.h.ctl.abftp.getLsbD 0) (readA c.h (accD f))) fun acc =>
        let active := (List.range 1024).filter fun i =>
          c.kmask.getLsbD i && decide (i / 32 < t.rows) && decide (i % 32 < t.cols)
        let outs := active.map fun i => (i, drainElem c f acc i)
        let fl : Flags := outs.foldl (fun x o => x ||| o.2.2) 0
        if trapping c.h.ctl fl ≠ 0 then
          (upHalf c.hid fun h => { h with a := vset h.a (accD f) acc }).andThen (raiseIssue c.hid .fpx 0 (zx fl))
        else (Mv.each outs fun o =>
            pokeElem (scratchAt c.core (base + o.1 / 32 * t.stride)) (typeWidth f.t) (o.1 % 32) o.2.1).andThen
          (finishLater c fl false fun h => writeA h (accD f) acc)) s

/-- R171. MEXP. -/
def execMexp (f : FL) (s : State) : Host.Outcome State Fault Refusal :=
  perform (issue (.mexp f) (specAcc f [⟨1, .s f.r.a.toNat, f.r.wa⟩]) fun c =>
    let a := readA c.h (accD f)
    let v := sval 16 (wbits c.a 15 0)
    if a.isEmpty then finishLater c 0 false fun h => writeA h (accD f) { a with e := BitVec.ofInt 16 v }
    else if decide (a.e.toInt < v) then
      afterCompare c f (abftCompare (c.h.ctl.abftp.getLsbD 0) a) fun acc =>
        finishLater c 0 false fun h => writeA h (accD f) (rebase acc v)
    else finishLater c 0 false id) s

/-- R171. MCHK. -/
def execMchk (f : FL) (s : State) : Host.Outcome State Fault Refusal :=
  perform (issue (.mchk f) (specAcc f []) fun c =>
    afterCompare c f (abftCompare (c.h.ctl.abftp.getLsbD 0) (readA c.h (accD f))) fun acc =>
      finishLater c 0 false fun h => writeA h (accD f) acc) s

/-- The side register that M[1:0] names (R172). -/
def sideOf (f : FL) (a : Acc) : Vector (BitVec 32) 32 :=
  match wbits (zx f.m) 1 0 with | 0 => a.m | 1 => a.l | _ => a.c

/-- An accumulator with that side register written. -/
def setSide (f : FL) (a : Acc) (v : Vector (BitVec 32) 32) : Acc :=
  match wbits (zx f.m) 1 0 with | 0 => { a with m := v } | 1 => { a with l := v } | _ => { a with c := v }

/-- R172. MSIDE. -/
def execMside (f : FL) (s : State) : Host.Outcome State Fault Refusal :=
  let b := f.r.b.toNat
  perform (
    if f.sc = 0 then
      issue (.mside f) ⟨some f.r.k, false, [], [.a (accD f), .v b]⟩ fun c =>
        let side := sideOf f (readA c.h (accD f))
        let old := readV c.h b
        finishLater c 0 false fun h => writeV h b (vecOf 32 fun i => if i < 32 then (vget side i 0).toNat else elem old 32 i)
    else
      issue (.mside f) (specAcc f [⟨2, .v b, f.r.wb⟩]) fun c =>
        let v := readV c.h b
        finishLater c 0 false fun h => writeA h (accD f) (setSide f (readA h (accD f)) (Vector.ofFn fun i => BitVec.ofNat 32 (elem v 32 i.val)))) s

/-- R171. MTRANS. -/
def execMtrans (f : FL) (s : State) : Host.Outcome State Fault Refusal :=
  perform (issue (.mtrans f) (specAcc f []) fun c => sendAcc c f (mtransAcc (readA c.h (accD f))) 0) s

/-! ### MSOFT -/

/-- R174. MSMAX. -/
def execMsmax (f : FL) (s : State) : Host.Outcome State Fault Refusal :=
  perform (issue (.msmax f) (specAcc f []) fun c => sendAcc c f (msmaxAcc (readA c.h (accD f)) c.kmask) 0) s

/-- R175. MSCALE. -/
def execMscale (f : FL) (s : State) : Host.Outcome State Fault Refusal :=
  let a := f.r.a.toNat % 4
  perform (issue (.mscale f) (specAcc f [⟨1, .a a, f.r.wa⟩]) fun c =>
    let src := readA c.h a
    sendAcc c f (mscaleAcc (readA c.h (accD f)) (fun r => vget src.c r 0) c.kmask) 0) s

/-- The tables that MMASK and MTREE read: parents and explicit rows, and whether they are sound (R176). -/
def State.maskTables (s : State) (core : Nat) (d : MaskDesc) (mode : Nat) : (Nat → Nat) × (Nat → Nat) :=
  (fun x => if mode = 2 then memNat s.mem (scratchAt core (d.addr + 2 * x)) 2 else 0,
   fun r => if mode = 3 then memNat s.mem (scratchAt core (d.addr + 4 * r)) 4 else 0)

/-- The scratchpad bytes that a mask descriptor reads (R176). -/
def maskBytes (d : MaskDesc) (mode : Nat) : Nat := match mode with | 2 => 2 * d.nodes | 3 => 4 * min d.mv 32 | _ => 0

/-- The checks of MMASK and MTREE, then their effect with the mask of the descriptor (R176, R177). -/
def withMask (c : Ctx) (f : FL) (mode : Nat) (k : (Nat → Bool) → Mv) : Mv := .look fun s =>
  match s.liveObj c.task.part f.obj.toNat 5 with
  | none => raiseIssue c.hid .bound 0 0
  | some o =>
    let d := maskDesc o.body
    let n := maskBytes d mode
    let (parent, expl) := s.maskTables c.core d mode
    if 0 < n ∧ 0x40000 < d.addr + n then raiseIssue c.hid .bound (word d.addr) 0
    else match (if n = 0 then none else s.lockCause c.core d.addr (d.addr + n - 1) false (whoOf c)) with
      | some cause => raiseIssue c.hid cause (word d.addr) 0
      | none =>
        let masked : Mv :=
          if mode = 2 && (List.range d.nodes).any fun x => parent x != 0xFFFF && decide (x ≤ parent x)
          then raiseIssue c.hid .bound 0 0
          else k fun i => maskedAt d mode parent expl (i / 32) (i % 32)
        if n = 0 then masked
        else if s.pendingScratch c.tid c.core c.core d.addr n false then stall c.hid .register
        else heardIn c c.core [(d.addr, n)] masked

/-- R176. MMASK. -/
def execMmask (f : FL) (s : State) : Host.Outcome State Fault Refusal :=
  perform (issue (.mmask f) (specAcc f []) fun c => withMask c f (wbits (zx f.m) 1 0) fun m =>
    finishLater c 0 false fun h => writeA h (accD f) (maskAcc (readA h (accD f)) c.kmask m)) s

/-- R177. MTREE: both effects whatever its K. -/
def execMtree (f : FL) (s : State) : Host.Outcome State Fault Refusal :=
  perform (issue (.mtree f) (specAcc f []) fun c => withMask c f 2 fun m =>
    finishLater c 0 false fun h => writeA h (accD f) (maskAcc Acc.reset (BitVec.allOnes 1024) m)) s

end Sys2Proof.Machine
end

