-- ==== Sys2Proof/Machine/Memory.lean ====
section
/-! DEFINITION. Local, cluster and shared accesses, atomics, fences, placement and range locks at their issue
(spec/11_memory_instructions.md R195 to R214, R223, R224; spec/12, R229 to R237). What happens at a home or at another
core is in Machine/Homes.lean. -/
namespace Sys2Proof.Machine

/-! ### Checks and order -/

/-- The sources of an effective address (R195). -/
def addrSrcs (f : FL) : List Src :=
  ⟨1, .s f.r.a.toNat, f.r.wa⟩ :: (if f.m.getLsbD 0 then [⟨2, .s f.r.b.toNat, f.r.wb⟩] else [])

/-- The C field in s (R198). -/
def srcC (f : FL) : Src := ⟨3, .s f.c.toNat, f.wc⟩

/-- The checks of R195 on an access of the core's own scratchpad. -/
def State.localCheck (s : State) (c : Ctx) (ea : Word) (size align : Nat) (write : Bool) : Check :=
  let a := ea.toNat
  if a % align ≠ 0 then .trap .align ea
  else if 0x40000 < a + size then .trap .bound ea
  else if s.stagingHits c.core a size then .trap .bound ea
  else match s.lockCause c.core a (a + size - 1) write (whoOf c) with
    | some cause => .trap cause ea
    | none => .ok

/-- Those checks on ranges of an access at an address: the first that fails decides. -/
def State.rangesCheck (s : State) (c : Ctx) (ea : Word) (ranges : List (Nat × Nat)) (write : Bool) : Check :=
  match ranges.findSome? fun r => (match s.localCheck c (word r.1) r.2 1 write with
      | .trap cause _ => some cause
      | .ok => none) with
  | some cause => .trap cause ea
  | none => .ok

/-- The checks of R195 on a cluster address. -/
def clusterCheck (ea : Word) (size : Nat) : Check :=
  if ea.toNat % size ≠ 0 then .trap .align ea
  else if wbits ea 63 25 ≠ 0 then .trap .bound ea
  else .ok

/-- The checks of R195 on a shared virtual address. -/
def sharedCheck (ea : Word) (align : Nat) : Check :=
  if ea.toNat % align ≠ 0 then .trap .align ea
  else if wbits ea 63 56 ≠ 0 then .trap .access ea
  else .ok

/-- A shared request writes. -/
def Access.writes : Access → Bool
  | .atom _ _ _ _ | .red _ _ _ | .cellWrite _ | .line _ _ _ _ | .release _ _ _ => true
  | _ => false

/-- A shared request reads or writes its bytes at the home (R197). -/
def Access.touches : Access → Bool
  | .probe | .sync | .commit | .engine _ _ | .record | .cellReserve _ _ => false
  | _ => true

/-- A request that stands for an instruction, a commit, an engine command or an access of the device, which tries again by
itself once its page can be reached (R190). -/
def Access.waits : Access → Bool
  | .sync | .commit | .engine _ _ | .record => true
  | _ => false

/-- Bytes that a shared request touches from its address up. -/
def Access.bytes : Access → Nat
  | .load n _ => n
  | .acquire n _ => n
  | .vload => 512
  | .atom _ d _ _ => if d then 8 else 4
  | .red _ d _ => if d then 8 else 4
  | .line _ _ _ _ => 64
  | .release n _ _ => n
  | _ => 8

/-- An earlier shared access of the task to these bytes has not read or written them (R197). -/
def State.pendingShared (s : State) (tid va n : Nat) (write : Bool) : Bool :=
  (s.net.reqs.any fun q => q.tid == tid && q.acc.touches && (write || q.acc.writes)
    && rangesMeet q.va q.acc.bytes va n)
  || (s.net.atoms.any fun q => q.dest.tid == tid && !q.widen && rangesMeet q.va (if q.dbl then 8 else 4) va n)

/-- A check, then the rest. -/
def checked (c : Ctx) (k : Check) (m : Mv) : Mv :=
  match k with
  | .trap cause a => raiseIssue c.hid cause a 0
  | .ok => m

/-! ### LDLOC and STLOC -/

/-- A local load: the value is read, D is empty until it arrives (R199), the whole register and whatever bits govern it (R78;
log 104). -/
def localLoad (c : Ctx) (ea : Word) (size align : Nat) (r : Reg) (value : State → Value) : Mv :=
  .look fun s => checked c (s.localCheck c ea size align false)
    (if s.pendingScratch c.tid c.core c.core ea.toNat size false then stall c.hid .register
     else heardIn c c.core [(ea.toNat, size)] (Mv.seq [
       claim c r,
       sendFill ⟨c.hid, c.tid, c.h.seq, value s, 0, none, false, none, none⟩,
       hold c fun h => markEmpty h r]))

/-- A local store (R199). -/
def localStore (c : Ctx) (ea : Word) (size align : Nat) (bytes : State → List Byte) : Mv :=
  .look fun s => checked c (s.localCheck c ea size align true)
    (if s.pendingScratch c.tid c.core c.core ea.toNat size true then stall c.hid .register
     else (pokeBytes (scratchAt c.core ea.toNat) (bytes s)).andThen (finishLater c 0 false id))

/-- R198, R199. LD. -/
def execLd (f : FL) (s : State) : Host.Outcome State Fault Refusal :=
  let d := f.r.d.toNat
  perform (issue (.ld f) ⟨some f.r.k, true, addrSrcs f, [.s d]⟩ fun c =>
    let ea := effAddr f c.a c.b
    let n := sizeOf f.sc
    localLoad c ea n n (.s d)
      (fun s => .s d (extendFrom n (f.m.getLsbD 1) (memNat s.mem (scratchAt c.core ea.toNat) n)))) s

/-- The elements of a vector register replaced where a mask has them (R125). -/
def mergeV (w : Nat) (mask : Mask) (old new : VReg) : VReg :=
  vecOf w fun i => if mask.getLsbD i then elem new w i else elem old w i

/-- A vector register of 512 bytes. -/
def vecBytes (v : VReg) : List Byte := toBytes 512 v.toNat

/-- The vector register that 512 bytes hold. -/
def bytesVec (l : List Byte) : VReg := BitVec.ofNat 4096 (ofBytes l)

/-- R198, R199. LDV. -/
def execLdv (f : FL) (s : State) : Host.Outcome State Fault Refusal :=
  let d := f.r.d.toNat
  perform (issue (.ldv f) ⟨some f.r.k, false, addrSrcs f, [.v d]⟩ fun c =>
    let ea := effAddr f c.a c.b
    localLoad c ea 512 64 (.v d)
      (fun s => .v d (mergeV (typeWidth f.t) c.vmask (readV c.h d) (bytesVec (s.scratch c.core ea.toNat 512))))) s

/-- R198, R199. LDK. -/
def execLdk (f : FL) (s : State) : Host.Outcome State Fault Refusal :=
  let d := f.r.d.toNat % 8
  perform (issue (.ldk f) ⟨some f.r.k, true, addrSrcs f, [.k d]⟩ fun c =>
    let ea := effAddr f c.a c.b
    localLoad c ea 128 8 (.k d) (fun s => .k d (BitVec.ofNat 1024 (ofBytes (s.scratch c.core ea.toNat 128))))) s

/-- R198, R199. ST. -/
def execSt (f : FL) (s : State) : Host.Outcome State Fault Refusal :=
  perform (issue (.st f) ⟨some f.r.k, true, addrSrcs f ++ [srcC f], []⟩ fun c =>
    let n := sizeOf f.sc
    localStore c (effAddr f c.a c.b) n n fun _ => toBytes n c.c.toNat) s

/-- R198, R199. STV. -/
def execStv (f : FL) (s : State) : Host.Outcome State Fault Refusal :=
  perform (issue (.stv f) ⟨some f.r.k, false, addrSrcs f ++ [⟨3, .v f.c.toNat, f.wc⟩], []⟩ fun c =>
    let ea := effAddr f c.a c.b
    localStore c ea 512 64 fun s => vecBytes
      (mergeV (typeWidth f.t) c.vmask (bytesVec (s.scratch c.core ea.toNat 512)) (readV c.h f.c.toNat))) s

/-- R198, R199. STK. -/
def execStk (f : FL) (s : State) : Host.Outcome State Fault Refusal :=
  perform (issue (.stk f) ⟨some f.r.k, true, addrSrcs f ++ [⟨3, .k (f.c.toNat % 8), f.wc⟩], []⟩ fun c =>
    localStore c (effAddr f c.a c.b) 128 8 fun _ => toBytes 128 (readK c.h (f.c.toNat % 8)).toNat) s

/-- Sending an access to another core's scratchpad (R196). -/
def sendRemote (c : Ctx) (ea : Word) (op : RemOp) (nore : Bool) : Mv :=
  let t := clusterAddr c.core ea
  withId fun id => upNet fun n => { n with remotes := n.remotes ++
    [⟨id, c.hid, c.tid, c.h.seq, c.core, t.1, t.2, ea, op, { c.entry with nore := nore }⟩] }

/-- R198, R199. LDR. -/
def execLdr (f : FL) (s : State) : Host.Outcome State Fault Refusal :=
  let d := f.r.d.toNat
  perform (issue (.ldr f) ⟨some f.r.k, true, addrSrcs f, [.s d]⟩ fun c => .look fun s =>
    let ea := effAddr f c.a c.b
    let n := sizeOf f.sc
    let t := clusterAddr c.core ea
    checked c (clusterCheck ea n)
      (if s.pendingScratch c.tid c.core t.1 t.2 n false then stall c.hid .register
       else (sendRemote c ea (.ldr n d) false).andThen (hold c fun h => markEmpty h (.s d)))) s

/-- A direct store to a cluster address: STR and PUTH (R199, R212). -/
def remoteStore (c : Ctx) (ea : Word) (n : Nat) (op : RemOp) : Mv := .look fun s =>
  let t := clusterAddr c.core ea
  checked c (clusterCheck ea n)
    (if s.pendingScratch c.tid c.core t.1 t.2 n true then stall c.hid .register
     else direct c ((sendRemote c ea op true).andThen (retire c)))

/-- R198, R199. STR. -/
def execStr (f : FL) (s : State) : Host.Outcome State Fault Refusal :=
  perform (issue (.str f) ⟨some f.r.k, true, addrSrcs f ++ [srcC f], []⟩ fun c =>
    let n := sizeOf f.sc
    remoteStore c (effAddr f c.a c.b) n (.str n c.c)) s

/-- R212. PUTH, form L. -/
def execPuthL (f : FL) (s : State) : Host.Outcome State Fault Refusal :=
  perform (issue (.puthL f) ⟨some f.r.k, true, addrSrcs f ++ [srcC f], []⟩ fun c =>
    let n := sizeOf f.sc
    remoteStore c (effAddr f c.a c.b) n (.puth n c.c (f.r.d.toNat % 16))) s

/-- R212. PUTH, form X. -/
def execPuthX (f : FX) (s : State) : Host.Outcome State Fault Refusal :=
  perform (issue (.puthX f) ⟨some f.l.r.k, true, addrSrcs f.l ++ [srcC f.l], []⟩ fun c =>
    let n := sizeOf f.l.sc
    remoteStore c (effAddrX f c.a c.b) n (.puth n c.c (f.l.r.d.toNat % 16))) s

/-! ### Shared loads -/

/-- A shared request as it leaves the core (R187). -/
def sharedReq (s : State) (c : Ctx) (id : Nat) (acc : Access) (reg va : Nat) (lines : List Nat)
    (touch : List (BitVec 64)) : Req where
  id := id
  hid := c.hid
  tid := c.tid
  seq := c.h.seq
  core := c.core
  part := c.task.part
  asid := s.asidOf c.task.part
  world := s.secure c.task.part
  acc := acc
  reg := reg
  va := va
  lines := lines
  touch := touch
  pas := []
  phase := .translate
  mask := c.vmask
  esize := 0
  data := 0
  got := 0
  waiting := false
  entry := c.entry
  stamp := 0
  page := none
  seen := []

/-- Sending a shared request. -/
def sendReq (r : Nat → Req) : Mv := withId fun id => upNet fun n => { n with reqs := n.reqs ++ [r id] }

/-- Adding lines to a task's signatures (R36). -/
def sign (tid : Nat) (read write : List Nat) : Mv := upTask tid fun t => { t with
  readSig := read.foldl (fun x l => x ||| sigOf l) t.readSig
  writeSig := write.foldl (fun x l => x ||| sigOf l) t.writeSig }

/-- A line has been read at its home for a task (R234). -/
def tookLine (tid va : Nat) : Mv := upTask tid fun t => { t with took := t.took ||| sigOf va }

/-- LDS and LDA (R201, R202). -/
def sharedLoad (i : Instr) (f : FL) (acc : Access) : Mv :=
  let d := f.r.d.toNat
  issue i ⟨some f.r.k, true, addrSrcs f, [.s d]⟩ fun c => .look fun s =>
    let ea := effAddr f c.a c.b
    let n := sizeOf f.sc
    checked c (sharedCheck ea n)
      (if s.pendingShared c.tid ea.toNat n false then stall c.hid .register
       else Mv.seq [
         claim c (.s d),
         sign c.tid [ea.toNat] [],
         countPerf (clusterOf c.core) 5 1,
         sendReq fun id => sharedReq s c id acc d ea.toNat [ea.toNat / 64 * 64] [(touchOf ea.toNat n).bytes],
         hold c fun h => markEmpty h (.s d)])

/-- R201. LDS. -/
def execLds (f : FL) (s : State) : Host.Outcome State Fault Refusal :=
  perform (sharedLoad (.lds f) f (.load (sizeOf f.sc) false)) s

/-- The scope code M[3:1] (R69, R200). -/
def scopeOf (f : FL) : Nat := wbits (zx f.m) 3 1

/-- R202. LDA. -/
def execLda (f : FL) (s : State) : Host.Outcome State Fault Refusal :=
  perform (sharedLoad (.lda f) f (.acquire (sizeOf f.sc) (scopeOf f))) s

/-- The lines of a 512-byte access that have an active element (R201, R203). -/
def activeLines (va w : Nat) (mask : Mask) : List Nat :=
  ((List.range 8).filter fun l => (List.range (512 / w)).any fun i => mask.getLsbD (512 / w * l + i)).map fun l => va + 64 * l

/-- The bytes of the active elements of one line of such an access. -/
def activeBytes (va w : Nat) (mask : Mask) (line : Nat) : BitVec 64 :=
  let k := (line - va) / 64
  nibbleBytes (BitVec.ofNat 128 (ofElems 1 ((List.range 128).map fun i => b2n (mask.getLsbD ((128 * k + i) * 4 / w)))))

/-- What a reef guard makes of the 512 bytes of a shared vector access, whether or not their elements are active, with the
address of the first line that it refuses (R375). -/
def State.wideCause (s : State) (c : Ctx) (ea : Word) (write : Bool) : Option (Cause × Nat) :=
  (touchesOf ea.toNat 512).findSome? fun x =>
    (s.guardCause (clusterOf c.core) (s.party c.core).asid x (!write) write (whoOf c)).map fun cause => (cause, x.va)

/-- The check of R375 on such an access, and then the rest. -/
def wideChecked (c : Ctx) (ea : Word) (write : Bool) (m : Mv) : Mv := .look fun s =>
  match s.wideCause c ea write with
  | some (cause, va) => raiseIssue c.hid cause (word va) 0
  | none => m

/-- R201. LDSV. -/
def execLdsv (f : FL) (s : State) : Host.Outcome State Fault Refusal :=
  let d := f.r.d.toNat
  perform (issue (.ldsv f) ⟨some f.r.k, false, addrSrcs f, [.v d]⟩ fun c => .look fun s =>
    let ea := effAddr f c.a c.b
    let w := typeWidth f.t
    let lines := activeLines ea.toNat w c.vmask
    checked c (sharedCheck ea 64) (wideChecked c ea false
      (if s.pendingShared c.tid ea.toNat 512 false then stall c.hid .register
       else Mv.seq [
         claim c (.v d),
         sign c.tid lines [],
         countPerf (clusterOf c.core) 5 1,
         if lines.isEmpty then sendFill ⟨c.hid, c.tid, c.h.seq, .v d (readV c.h d), 0, none, false, none, none⟩
         else sendReq fun id => { sharedReq s c id .vload d ea.toNat lines (lines.map (activeBytes ea.toNat w c.vmask)) with
             esize := w, data := readV c.h d },
         hold c fun h => markEmpty h (.v d)]))) s

/-! ### Shared stores -/

/-- Slots of the staging pool that both halves of a core share (R181; log 26). -/
def State.stageSlots (s : State) (core : Nat) : Nat := (s.stages core).foldl (fun n x => max n (wbits x 40 32 * 32)) 0

/-- Slots in use on a core, by tasks that have ended too (R36, R181). -/
def State.usedSlots (s : State) (core : Nat) : Nat :=
  (s.tasks.filter fun t => t.2.core == core).foldl (fun n t => n + t.2.lines.length) 0

/-- Pieces of a store by line: line address, data and nibble mask. -/
abbrev Piece := Nat × Line

/-- A line with a store merged into it (R181). -/
def mergeLine (old : Option Line) (new : Line) : Line :=
  let o := old.getD ⟨0, 0⟩
  let keep := (List.range 128).foldl (fun x i => if new.mask.getLsbD i then x ||| (0xF#512 <<< (4 * i)) else x) 0#512
  ⟨(o.data &&& ~~~ keep) ||| (new.data &&& keep), o.mask ||| new.mask⟩

/-- A scalar store as one piece. -/
def scalarPiece (va n : Nat) (w : Word) : Piece :=
  let off := va % 64
  (va / 64 * 64, ⟨BitVec.ofNat 512 (truncTo n w) <<< (8 * off), BitVec.ofNat 128 (2 ^ (2 * n) - 1) <<< (2 * off)⟩)

/-- A vector store as pieces by line: only the nibbles of active elements are marked (R203). -/
def vectorPieces (va w : Nat) (mask : Mask) (v : VReg) : List Piece :=
  (activeLines va w mask).map fun l =>
    let k := (l - va) / 64
    (l, ⟨v.extractLsb' (512 * k) 512,
      BitVec.ofNat 128 (ofElems 1 ((List.range 128).map fun i => b2n (mask.getLsbD ((128 * k + i) * 4 / w))))⟩)

/-- Putting pieces into the staging area, each with its probe (R192, R203). -/
def stagePieces (c : Ctx) (s : State) (va : Nat) (l : List Piece) : Mv := Mv.seq [
  upTask c.tid fun t => { t with lines := l.foldl (fun x p => tput x p.1 (mergeLine (tget x p.1) p.2)) t.lines },
  sign c.tid [] (l.map (·.1)),
  if l.isEmpty then .done
  else sendReq fun id => { sharedReq s c id .probe 0 va (l.map (·.1)) (l.map fun p => nibbleBytes p.2.mask) with
    entry := { c.entry with nore := true, mask := c.vmask } }]

/-- A staged line that was sent to its home. -/
def Access.isLine : Access → Bool
  | .line _ _ _ _ => true
  | _ => false

/-- The word of a STREL. -/
def Access.isRelease : Access → Bool
  | .release _ _ _ => true
  | _ => false

/-- The logical die of a core: four clusters each (R6). -/
def dieOfCore (core : Nat) : Nat := clusterOf core / 4

/-- The narrowest scope that includes one core from another, within a package (R69, R202). -/
def scopeBetween (a b : Nat) : Nat :=
  if a = b then 0 else if clusterOf a = clusterOf b then 1 else if dieOfCore a = dieOfCore b then 2 else 3

/-- A value-returning request of the task is deferred to its quantum's end (R44). -/
def State.isDeferred (s : State) (tid seq : Nat) : Bool := s.deferred.any fun d => d.tid == tid && d.seq == seq && d.held

/-- A home holds an atomic behind a narrow release record, and every later request but reductions behind it (R237). -/
def State.homeHeld (s : State) (pa : Nat) : Bool :=
  let home := homeOf s.extent pa
  (s.net.reqs.any fun q => q.waiting && decide (homeOf s.extent (q.pas.headD 0) = home))
  || (s.net.atoms.any fun q => q.waiting && decide (homeOf s.extent q.pa = home))

/-- The party of a request. -/
def Req.party (q : Req) : Party := ⟨clusterOf q.core, q.part, q.asid, q.world⟩

/-- The kind of access that a request is translated for (R187, R189, R326, R328). -/
def Access.kind : Access → AKind
  | .load _ _ | .acquire _ _ | .vload | .sync => .read
  | .engine _ write => if write then .write else .read
  | .probe | .commit | .record | .line _ _ _ _ | .release _ _ _ => .write
  | .atom _ _ _ _ | .red _ _ _ | .cellReserve _ _ | .cellWrite _ => .atomic
  | .cellRead => .cell

/-- The homes that a travelling request has still to reach (R230). -/
def State.homesOf (s : State) (q : Req) : List Home :=
  if q.phase = .home then (q.pas.drop q.got).map (homeOf s.extent)
  else q.lines.filterMap fun l => (s.reach (mapped s q.party q.acc.kind l)).map (homeOf s.extent)

/-- A request is on its way to its homes; one that a fault holds arrives only after the RESUME (R194). -/
def Req.travels (q : Req) : Bool := (q.acc.touches || (match q.acc with | .cellReserve _ _ => true | _ => false)) &&
  (match q.phase with
   | .translate | .missing | .walk | .home => true
   | _ => false)

/-- What is on its way to homes: a shared request, or one of an atomic engine (R210, R230). -/
structure Travel where
  core : Nat
  tid : Nat
  seq : Nat
  id : Nat
  stamp : Nat
  page : Option Nat
  seen : List (Nat × Nat)
  /-- It stands at its home. -/
  there : Bool
  homes : List Home

/-- Everything that is on its way to homes, but what waits for a quantum's end. -/
def State.travels (s : State) : List Travel :=
  ((s.net.reqs.filter Req.travels).map fun r =>
    (⟨r.core, r.tid, r.seq, r.id, r.stamp, r.page, r.seen, decide (r.phase = .home), s.homesOf r⟩ : Travel))
  ++ ((s.net.atoms.filter fun q => !q.widen && decide (q.pa < 2 ^ 40)).map fun q =>
    (⟨q.core, q.dest.tid, q.dest.seq, q.id, 0, none, q.seen, true, [homeOf s.extent q.pa]⟩ : Travel))
  |>.filter fun r => !s.isDeferred r.tid r.seq

/-- It was visible at a scope that includes a core when that core issued what has this identifier (R232). -/
def Travel.seenBy (r : Travel) (core id : Nat) : Bool :=
  r.seen.any fun x => decide (scopeBetween r.core core ≤ x.1) && decide (x.2 ≤ id)

/-- An access of a core with this identifier comes at a home behind something that is on its way there: the core sent that
before (R230), or it is a write that is visible to the core (R232). What an engine or a heap unit accesses comes behind the
visible writes alone: `sent` is unset. A reduction passes what is held there (R237). -/
def State.behind (s : State) (core id pa : Nat) (sent red : Bool) : Bool :=
  s.travels.any fun r => ((sent && r.core == core && decide (r.id < id)) || r.seenBy core id)
    && !(red && r.there && s.homeHeld pa) && r.homes.contains (homeOf s.extent pa)

/-- Request i comes next at its home but for what an atomic holds: nothing that precedes it is on its way there, by its core, by
visibility, or as held earlier by the same page fault; a reduction passes what is held there (R190, R194, R230, R232,
R237). -/
def State.arrived (s : State) (i : Nat) (q : Req) : Bool :=
  let pa := q.pas.getD q.got 0
  let home := homeOf s.extent pa
  let isRed := match q.acc with | .red _ _ _ => true | _ => false
  decide (q.phase = .home) && decide (i < s.net.reqs.length) && !s.travels.any fun r =>
    (if q.page.isSome && r.page == q.page && r.core != q.core then decide (r.stamp < q.stamp)
     else decide (r.id < q.id) && (r.core == q.core || r.seenBy q.core q.id || (q.page.isSome && r.page == q.page)))
      && !(isRed && r.there && s.homeHeld pa) && r.homes.contains home

/-- A request of an atomic engine comes next at its home but for what an atomic holds (R210, R230, R232): its home has accepted
it, when no earlier request of its core to its engine stands before it either. -/
def State.atomArrived (s : State) (i : Nat) (q : AtomReq) : Bool :=
  !(s.net.atoms.take i).any (fun r => r.mf == q.mf && r.core == q.core && !s.isDeferred r.dest.tid r.dest.seq
      && !(!q.value && !r.widen && s.homeHeld r.pa))
    && (q.widen || decide (2 ^ 40 ≤ q.pa) || !s.behind q.core q.id q.pa true (!q.value))

/-- Marking writes in flight as visible at a scope from now on (R231, R232). -/
def markSeen (scope : Nat) (sel : Req → Bool) (atoms : AtomReq → Bool) : Mv := withId fun id => upNet fun n => { n with
  reqs := n.reqs.map fun q => if q.acc.writes && sel q then { q with seen := (scope, id) :: q.seen } else q
  atoms := n.atoms.map fun q => if !q.widen && atoms q then { q with seen := (scope, id) :: q.seen } else q }

/-- A line that the task has flushed is not yet visible at a scope: below .pkg it is once it has left, at .pkg and .sys when
its home has accepted it (R204, R231). -/
def State.linesUnseen (s : State) (c : Ctx) (scope : Nat) : Bool :=
  decide (3 ≤ scope) && (s.net.reqs.zipIdx).any fun x => x.1.tid == c.tid && x.1.acc.isLine && !s.arrived x.2 x.1

/-- Sending pieces to their homes at once, each store behind the task's earlier ones (R181): lines that fault hold the
instruction (R190, R191). -/
def storeHome (c : Ctx) (va : Nat) (l : List Piece) (k : Mv) : Mv := .look fun s =>
  let p := s.party c.core
  match s.reachLines p (whoOf c) .write (l.map fun x => ⟨max va x.1, x.1, nibbleBytes x.2.mask⟩) with
  | .fault va => if c.h.refusedAt.isSome then raiseIssue c.hid .access (word va) 0 else syncFault c.hid p .write va
  | .refused cause va => raiseIssue c.hid cause (word va) 0
  | .ok pas =>
    if s.net.reqs.any fun q => q.tid == c.tid && q.acc.isLine then stall c.hid .fence
    else heardWalk c.tid p (l.map (·.1)) (Mv.seq [sendLines c p l pas, Mv.when (!l.isEmpty) (deferIf c true), k])

/-- A buffered store (R181, R203): staged where there are slots; without one, the task takes its commit slot, its
lines go home, and its stores go home at once from then on. -/
def bufferedStore (c : Ctx) (va n : Nat) (l : List Piece) : Mv := .look fun s =>
  let new := (l.filter fun p => (tget c.task.lines p.1).isNone).length
  if s.pendingShared c.tid va n true then stall c.hid .register
  else if c.task.overflow then storeHome c va l (retire c)
  else if s.usedSlots c.core + new ≤ s.stageSlots c.core then (stagePieces c s va l).andThen (retire c)
  else direct c (flush c (Mv.seq [
    upTask c.tid fun t => { t with overflow := true },
    countPerf (clusterOf c.core) 6 1,
    storeHome c va l (retire c)]))

/-- R203. STS. -/
def execSts (f : FL) (s : State) : Host.Outcome State Fault Refusal :=
  perform (issue (.sts f) ⟨some f.r.k, true, addrSrcs f ++ [srcC f], []⟩ fun c =>
    let ea := effAddr f c.a c.b
    let n := sizeOf f.sc
    checked c (sharedCheck ea n) (bufferedStore c ea.toNat n [scalarPiece ea.toNat n c.c])) s

/-- R203. STSV. -/
def execStsv (f : FL) (s : State) : Host.Outcome State Fault Refusal :=
  perform (issue (.stsv f) ⟨some f.r.k, false, addrSrcs f ++ [⟨3, .v f.c.toNat, f.wc⟩], []⟩ fun c =>
    let ea := effAddr f c.a c.b
    checked c (sharedCheck ea 64) (wideChecked c ea true
      (bufferedStore c ea.toNat 512 (vectorPieces ea.toNat (typeWidth f.t) c.vmask (readV c.h f.c.toNat))))) s

/-- The number of a home among those that record releases (R236). -/
def homeKey (x : Extent) (pa : Nat) : Nat :=
  match homeOf x pa with
  | .hbm ch => 2 ^ 20 + ch
  | .abm b => b
  | _ => 2 ^ 21

/-- Recording a release of a word (R204, R236). -/
def recordRelease (pa core scope : Nat) : Mv := .look fun s =>
  let key := homeKey s.extent pa
  let n := tgetD s.releases key 0 + 1
  (Mv.one (.releases key n)).andThen (.one (.release (pa / 8 * 8) (some ⟨core, scope, BitVec.ofNat 32 n, false⟩)))

/-- R204. STREL: the flushed lines are visible at the scope when the word leaves for its home. -/
def execStrel (f : FL) (s : State) : Host.Outcome State Fault Refusal :=
  perform (issue (.strel f) ⟨some f.r.k, true, addrSrcs f ++ [srcC f], []⟩ fun c =>
    let ea := effAddr f c.a c.b
    let n := sizeOf f.sc
    checked c (sharedCheck ea n) (.look fun s =>
      if s.pendingShared c.tid ea.toNat n true then stall c.hid .register
      else direct c (flush c (.look fun s =>
        let p := s.party c.core
        match s.reachLines p (whoOf c) .write [touchOf ea.toNat n] with
        | .fault va => if c.h.refusedAt.isSome then raiseIssue c.hid .access ea 0 else syncFault c.hid p .write va
        | .refused cause _ => raiseIssue c.hid cause ea 0
        | .ok pas =>
          if s.linesUnseen c (scopeOf f) then stall c.hid .fence
          else heardWalk c.tid p [ea.toNat] <| Mv.seq [
            markSeen (scopeOf f) (fun q => q.tid == c.tid && q.acc.isLine) fun _ => false,
            install p ea.toNat,
            setDirty p ea.toNat,
            withId fun id => upNet fun x => { x with reqs := x.reqs ++ [
              { faultReq id c.hid c.tid c.h.seq c.core p (.release n (scopeOf f) c.c) 0 ea.toNat with
                pas := pas, phase := .home }] },
            deferIf c true,
            retire c])))) s

/-- R205. STSM. -/
def execStsm (f : FL) (s : State) : Host.Outcome State Fault Refusal :=
  let d := f.r.d.toNat
  perform (issue (.stsm f) ⟨some f.r.k, true, [⟨1, .s f.r.a.toNat, f.r.wa⟩, ⟨2, .s f.r.b.toNat, f.r.wb⟩,
      ⟨3, .v f.c.toNat, f.wc⟩], [.s d]⟩ fun c => .look fun s =>
    let off := c.a + c.b
    let members := membersOf (s.groupMask c.task.part (f.obj.toNat % 256))
    if off.toNat % 256 ≠ 0 ∨ 0x40000 ≤ off.toNat then raiseIssue c.hid .bound off 0
    else if members.any fun m => s.pendingScratch c.tid c.core m off.toNat 256 true then stall c.hid .register
    else direct c (withId fun id => (upNet fun n => { n with mcasts := n.mcasts ++
        [⟨id, destOf c d, c.core, some ((readV c.h f.c.toNat).extractLsb' 0 2048, off.toNat), f.obj.toNat % 256, members, 0, 0, 0xFFFF, 0, none⟩] }).andThen
      (finish c fun h => markEmpty h (.s d)))) s

/-! ### Atomics and reductions -/

/-- The requests that wait: those that return a value, and the floating adds of a bank (R44, R103). -/
def heldAtomic (op : Nat) (value : Bool) : Bool := value || op == 10

/-- ATOM and RED: sent when the task is safe (R207, R209). M is the operation alone: no bit of it adds sB to the address
(log 107). -/
def atomic (i : Instr) (f : FL) (value : Bool) : Mv :=
  let d := f.r.d.toNat
  let dbl := f.sc.toNat = 3
  issue i ⟨some f.r.k, true, [⟨1, .s f.r.a.toNat, f.r.wa⟩, ⟨2, .s f.r.b.toNat, f.r.wb⟩]
      ++ (if value then [srcC f] else []), if value then [.s d] else []⟩ fun c => .look fun s =>
    let ea := c.a + sx f.obj
    let n := if dbl then 8 else 4
    let op := f.m.toNat
    let acc : Access := if value then .atom op dbl c.b c.c else .red op dbl c.b
    checked c (sharedCheck ea n)
      (if s.pendingShared c.tid ea.toNat n true then stall c.hid .register
       else direct c (withId fun id => Mv.seq [
         upNet fun x => { x with reqs := x.reqs ++ [sharedReq s c id acc d ea.toNat [ea.toNat / 64 * 64] [(touchOf ea.toNat n).bytes]] },
         deferIf c (heldAtomic op value),
         finish c fun h => if value then markEmpty h (.s d) else h]))

/-- R206, R207. ATOM. -/
def execAtom (f : FL) (s : State) : Host.Outcome State Fault Refusal := perform (atomic (.atom f) f true) s

/-- R209. RED. -/
def execRed (f : FL) (s : State) : Host.Outcome State Fault Refusal := perform (atomic (.red f) f false) s

/-- Completion queue entries of a core (R247). -/
def completionEntries : Nat := 32

/-- Where a request to another package goes, when an address translates to one: the address there, above every package
address. The other package is taken to be laid out like this one (R186, R210; log 6). -/
def State.awayPa (s : State) (p : Party) (ea : Nat) : Option Nat :=
  match translate s p .atomic (ea / 64 * 64) with
  | .ok spa => if (s.localPa spa).isNone then some (2 ^ 40 + spa + ea % 64) else none
  | _ => none

/-- ATOMR and REDR: the local station translates, the request goes to the atomic engine of the home's die, in whichever
package that is (R210). -/
def remoteAtomic (i : Instr) (f : FL) (value : Bool) : Mv :=
  let d := f.r.d.toNat
  let dbl := f.sc.toNat = 3
  issue i ⟨some f.r.k, true, [⟨1, .s f.r.a.toNat, f.r.wa⟩, ⟨2, .s f.r.b.toNat, f.r.wb⟩]
      ++ (if value then [srcC f] else []), if value then [.s d] else []⟩ fun c => .look fun s =>
    let ea := c.a + sx f.obj
    let n := if dbl then 8 else 4
    checked c (sharedCheck ea n)
      (if s.pendingShared c.tid ea.toNat n true then stall c.hid .register
       else if value && decide (completionEntries ≤ (s.core c.core).completions) then stall c.hid .register
       else direct c (.look fun s =>
         let p := s.party c.core
         let x := touchOf ea.toNat n
         match (if value then s.guardCause p.cluster p.asid x true true (whoOf c) else none) with
         | some cause => raiseIssue c.hid cause ea 0
         | none =>
         let send (home : Home) (pa : Nat) : Mv := heardWalk c.tid p [ea.toNat / 64 * 64] <| Mv.seq [
           install p ea.toNat,
           setDirty p ea.toNat,
           (withId fun id => upNet fun x => { x with atoms := x.atoms ++ [
             { id := id, mf := dieOfHome home, widen := false, dest := destOf c d, core := c.core, part := c.task.part
               pa := pa, op := f.m.toNat, dbl := dbl, b := c.b, c := c.c, value := value, waiting := false
               pay := [], va := ea.toNat, entry := c.entry, owed := false, seen := [] }] }).andThen
             (deferIf c (heldAtomic f.m.toNat value)),
           Mv.when value (upCore c.core fun x => { x with completions := x.completions + 1 }),
           finish c fun h => if value then markEmpty h (.s d) else h]
         let take (pa : Nat) : Mv := match homeOf s.extent (pa % 2 ^ 40) with
           | .scratch _ | .nowhere => raiseIssue c.hid .access ea 0
           | home => send home pa
         match s.awayPa p ea.toNat, s.guardCause p.cluster p.asid x false true (whoOf c) with
         | some pa, none => take pa
         | _, _ => match s.reachLines p (whoOf c) .atomic [x] with
         | .fault va => if c.h.refusedAt.isSome then raiseIssue c.hid .access ea 0 else syncFault c.hid p .atomic va
         | .refused cause _ => raiseIssue c.hid cause ea 0
         | .ok pas => take (pas.headD 0 + ea.toNat % 64)))

/-- R210. ATOMR. -/
def execAtomr (f : FL) (s : State) : Host.Outcome State Fault Refusal := perform (remoteAtomic (.atomr f) f true) s

/-- R210. REDR. -/
def execRedr (f : FL) (s : State) : Host.Outcome State Fault Refusal := perform (remoteAtomic (.redr f) f false) s

/-! ### Fences -/

/-- An earlier direct operation of the task is not yet visible at a scope (R211, R231): a shared write is once it has left
the core, and at .pkg and .sys when its home has accepted it, one for another package at .pkg when it has left; a store to a
scratchpad of the cluster counts from .clu on when it has been applied, one to the core's own scratchpad at every scope; a
ring is waited for (log 8). A scope-miss task waits for every shared write of its core (R235). -/
def State.unseen (s : State) (c : Ctx) (scope : Nat) : Bool :=
  let mine (tid core : Nat) : Bool := tid == c.tid || (c.task.act.miss && core == c.core)
  (decide (3 ≤ scope) && (s.net.reqs.zipIdx).any fun x => mine x.1.tid x.1.core && x.1.acc.writes && !s.arrived x.2 x.1)
  || (decide (3 ≤ scope) && (s.net.atoms.zipIdx).any fun x => mine x.1.dest.tid x.1.core && !x.1.widen
        && (if 2 ^ 40 ≤ x.1.pa then decide (4 ≤ scope) else !s.atomArrived x.2 x.1))
  || (s.net.remotes.any fun q => q.tid == c.tid && q.op.writes && (decide (1 ≤ scope) || q.target == q.core))
  || (s.net.mcasts.any fun q => q.dest.tid == c.tid && q.data.isSome && (decide (1 ≤ scope) || q.waiting.contains c.core)
        && !q.waiting.isEmpty)
  || (s.net.rings.any fun g => g.joined.any fun m => m.tid == c.tid)

/-- R211. FENCE. -/
def execFence (min : BitVec 4) (f : FA) (s : State) : Host.Outcome State Fault Refusal :=
  let scope := min.toNat % 8
  perform (issue (.fence min f) (specK f) fun c => direct c (.look fun s =>
    if s.unseen c scope then stall c.hid .fence
    else flush c (.look fun s =>
      if s.unseen c scope || (min.getLsbD 3 && s.net.cmds.any (fun q => q.dest.tid == c.tid)) then stall c.hid .fence
      else (markSeen scope (fun q => q.tid == c.tid || (c.task.act.miss && q.core == c.core)) fun q =>
        q.dest.tid == c.tid || (c.task.act.miss && q.core == c.core)).andThen (retire c)))) s

/-! ### ROT and PFT -/

/-- R213. ROT at issue: the bytes of the tile, which it reads and which its ring writes, are locked, and the issuer joins the ring
of the group. A tile above 64 KiB traps BOUND (log 125). -/
def execRot (f : FL) (s : State) : Host.Outcome State Fault Refusal :=
  perform (issue (.rot f) ⟨some f.r.k, true, [⟨1, .s f.r.a.toNat, f.r.wa⟩, ⟨2, .s f.r.b.toNat, f.r.wb⟩], []⟩
    fun c => .look fun s =>
      let group := c.b.toNat % 256
      let mask := s.groupMask c.task.part group
      match s.tileAt c.task.part f.obj.toNat with
      | none => raiseIssue c.hid .bound 0 0
      | some t =>
        let base := c.a + word t.base
        let rl := rowBytes t.type t.cols
        let ext := tileExtent t.rows t.stride rl
        let rows := if ext = 0 then [] else tileRows base.toNat t.rows t.stride rl
        if 256 ≤ c.b.toNat || !mask.getLsbD c.core || decide (0x10000 < t.rows * rl) then raiseIssue c.hid .bound 0 0
        else checked c (s.rangesCheck c base rows true) <| checked c (s.rangesCheck c base rows false)
          (if s.tilePending c rows true then stall c.hid .register
           else if lockCapacity ≤ (s.cluster (clusterOf c.core)).locks.length then stall c.hid .register
           else direct c (withId fun lock => withId fun id =>
             let mem : Member := ⟨c.core, c.hid, c.tid, c.h.seq, base.toNat, t.rows, rl, t.stride, f.r.d.toNat % 16,
               lock, f.obj.toNat, false, c.entry⟩
             Mv.seq [
               Mv.when (decide (ext ≠ 0)) (upCluster (clusterOf c.core) fun x =>
                 { x with locks := x.locks ++ [⟨1, c.core, base.toNat, base.toNat + ext - 1, .tile lock t.rows t.stride rl⟩] }),
               .look fun s =>
                 match s.net.rings.find? fun g => g.part == c.task.part && g.group == group && g.members.contains c.core
                     && !g.withdrawn.contains c.core && !g.joined.any (fun m => m.core == c.core) with
                 | some g => upNet fun n => { n with rings := n.rings.map fun x =>
                     if x.id = g.id then { x with joined := x.joined ++ [mem] } else x }
                 | none => upNet fun n => { n with rings := n.rings ++
                     [⟨id, c.task.part, group, membersOf mask, [mem], []⟩] },
               retire c]))) s

/-- R214. PFT. -/
def execPft (f : FL) (s : State) : Host.Outcome State Fault Refusal :=
  perform (issue (.pft f) ⟨some f.r.k, true, [⟨1, .s f.r.a.toNat, f.r.wa⟩, ⟨2, .s f.r.b.toNat, f.r.wb⟩], []⟩
    fun c => .look fun s =>
      match s.tileAt c.task.part f.obj.toNat with
      | none => raiseIssue c.hid .bound 0 0
      | some t =>
        if wbits c.a 63 56 ≠ 0 then raiseIssue c.hid .access c.a 0
        else
          let members := membersOf (s.groupMask c.task.part (c.b.toNat % 256))
          let clusters := (members.map clusterOf).eraseDups
          let rl := rowBytes t.type t.cols
          let pages := ((List.range t.rows).flatMap fun r =>
            let a := c.a.toNat + r * t.stride
            if rl = 0 then [] else (List.range ((a + rl - 1) / 4096 + 1 - a / 4096)).map fun i => (a / 4096 + i) * 4096).eraseDups
          let p := s.party c.core
          (Mv.each clusters fun n => Mv.each pages fun a => install { p with cluster := n } (a % 2 ^ 56)).andThen (retire c)) s

/-! ### Task range locks -/

/-- R223. RLOCK. -/
def execRlock (f : FL) (s : State) : Host.Outcome State Fault Refusal :=
  let d := f.r.d.toNat
  perform (issue (.rlock f) ⟨some f.r.k, true, [⟨1, .s f.r.a.toNat, f.r.wa⟩, ⟨2, .s f.r.b.toNat, f.r.wb⟩], [.s d]⟩
    fun c => .look fun s =>
      let a := c.a.toNat
      let n := c.b.toNat
      let locks := (s.cluster (clusterOf c.core)).locks
      let own := (locks.filter fun l => l.owner == .task c.tid).length
      if n = 0 ∨ 0x40000 < a + n then raiseIssue c.hid .bound c.a 0
      else if lockCapacity ≤ locks.length ∨ 8 ≤ own then finish c fun h => writeS h d 1
      else if locks.any fun l => l.core == c.core && rangesMeet l.first (l.last + 1 - l.first) a n
      then finish c fun h => writeS h d 2
      else (upCluster (clusterOf c.core) fun x =>
          { x with locks := x.locks ++ [⟨2, c.core, a, a + n - 1, .task c.tid⟩] }).andThen
        (finish c fun h => writeS h d 0)) s

/-- R223. RUNLOCK. -/
def execRunlock (f : FL) (s : State) : Host.Outcome State Fault Refusal :=
  let d := f.r.d.toNat
  perform (issue (.runlock f) ⟨some f.r.k, true, [⟨1, .s f.r.a.toNat, f.r.wa⟩, ⟨2, .s f.r.b.toNat, f.r.wb⟩], [.s d]⟩
    fun c => .look fun s =>
      let a := c.a.toNat
      let n := c.b.toNat
      let hit (l : Lock) : Bool := l.core == c.core && l.first == a && l.last + 1 == a + n && l.owner == .task c.tid
      if n = 0 ∨ 0x40000 < a + n then raiseIssue c.hid .bound c.a 0
      else if (s.cluster (clusterOf c.core)).locks.any hit then
        (upCluster (clusterOf c.core) fun x => { x with locks := x.locks.filter fun l => !hit l }).andThen
          (finish c fun h => writeS h d 0)
      else finish c fun h => writeS h d 3) s

/-! ### The heap -/

/-- R224. ALLOC: sD is in flight until the heap unit answers, and in deterministic operation empty until the quantum's end
(R44). -/
def execAlloc (f : FA) (s : State) : Host.Outcome State Fault Refusal :=
  let d := f.d.toNat
  perform (issue (.alloc f) (specA f) fun c =>
    if c.a = 0 then finish c fun h => writeS h d 0
    else Mv.seq [
      (upNet fun n => { n with heap := n.heap ++ [⟨destOf c d, c.task.part, true, c.a⟩] }).andThen
        (deferIf c true),
      .look fun s => hold c fun h => if s.detCore c.core then markEmpty h (.s d) else markBusy h (.s d)]) s

/-- R224. FREE. -/
def execFree (f : FA) (s : State) : Host.Outcome State Fault Refusal :=
  perform (issue (.free f) ⟨some f.k, true, [⟨1, .s f.a.toNat, f.wa⟩], []⟩ fun c =>
    Mv.seq [
      upNet fun n => { n with heap := n.heap ++ [⟨destOf c 0, c.task.part, false, c.a⟩] },
      deferIf c true,
      retire c]) s

end Sys2Proof.Machine
end

