-- ==== Sys2Proof/Machine/Homes.lean ====
section
/-! DEFINITION. What happens after issue: values that arrive, translation stations and page faults, homes and their
atomic engines, remote scratchpads, multicast stores, rings and the heap unit (spec/10_memories.md R185 to R194;
spec/11, R196 to R225; spec/12, R235 to R237; spec/13, R251, R252; spec/18, R326, R328; spec/20, R344 to R348). -/
namespace Sys2Proof.Machine

/-- The n-th of what is in flight. -/
def ith {α : Type} (l : List α) (n : Nat) : Option α := l[n]?

/-! ### Values that arrive -/

/-- Writing a value to its register, which is then full (R78). -/
def writeValue (h : Half) : Value → Half
  | .s r w => writeS h r w
  | .v r w => writeV h r w
  | .k r m => writeK h r m
  | .a r x => writeA h r x
  | .ready l _ => l.foldl markReady h

/-- The half after a value has arrived, with its flags and ORDST (R78, R82, R237). -/
def arrive (f : Fill) (h : Half) : Half :=
  let h := writeValue h f.value
  { h with
    block := h.block.woken
    ctl := match f.ordst with
      | some o => { orFlags h.ctl f.flags with ordst := o }
      | none => orFlags h.ctl f.flags
    hold := if h.hold = some f.seq then none else h.hold }

/-- So many more messages sent under a tag of the core's cluster (R255, R332). -/
def countSent (core tag n : Nat) : Mv :=
  upCore core fun c => { c with sent := tput c.sent tag (tgetD c.sent tag 0 + BitVec.ofNat 32 n) }

/-- A read of FFLAGS or ORDST that waits takes in what an earlier instruction of its task sets, and nothing of a later one
(R82). -/
def Fill.sees (f : Fill) (tid seq : Nat) (flags : Word) (ordst : Option Word) : Fill :=
  match f.value, f.ctl with
  | .s r w, some n => if f.tid = tid ∧ seq < f.seq then { f with value := .s r (if n = 6 then w ||| flags else ordst.getD w) } else f
  | _, _ => f

/-- The reads that wait, after an instruction of their task has set flags or ORDST. -/
def Net.sees (n : Net) (tid seq : Nat) (flags : Word) (ordst : Option Word) : Net :=
  { n with fills := n.fills.map fun f => f.sees tid seq flags ordst }

/-- A value arrives in its register now, and with its last value its instruction completes (R80, R333); one of a task that is not in the half, or that a save has come before, is discarded
(R78, R81, R118). -/
def fillNow (f : Fill) : Mv := .look fun s =>
  Mv.when (decide ((s.half f.hid).tid = f.tid ∧ (s.half f.hid).occ = .live ∧ s.floorOf f.tid ≤ f.seq))
    ((upNet fun n => n.sees f.tid f.seq (f.flags.setWidth 64) f.ordst).andThen
      (if s.net.fills.any fun x => x.tid == f.tid && x.seq == f.seq then upHalf f.hid (arrive f)
       else complete f.hid f.seq (arrive f)))

/-- R78. REGISTER_FILL: a value of a task that is not in the half, or that a save has come before, is discarded
(R81, R118, R247); a message that it reports as sent is counted (R255); a read of FFLAGS or ORDST waits for what may
change it (R82). -/
def execRegisterFill (s : State) : Host.Outcome State Fault Refusal :=
  perform (.look fun s => match ith s.net.fills s.data.n with
    | none => .done
    | some f => if (f.ctl.any fun n => s.ctlWait f.tid n (some f.seq)) then .done else Mv.seq [
        upNet fun n => { n with fills := ldel n.fills s.data.n },
        Mv.when f.completion (upCore (coreOf f.hid) fun c => { c with completions := c.completions - 1 }),
        (match f.sent with | some (g, n) => countSent (coreOf f.hid) g n | none => .done),
        fillNow f]) s

/-! ### Stations -/

/-- Whether an access reads: what returns a value or takes one from memory to a register (R34). -/
def Access.reads : Access → Bool
  | .load _ _ | .acquire _ _ | .vload | .sync | .atom _ _ _ _ | .cellRead => true
  | _ => false

/-- The access to that line; a refusal reports the address of the access, or of the line where it begins before it
(R191, R276). -/
def Req.touching (q : Req) : Touch := ⟨max q.va q.line, q.line, q.touch.getD q.pas.length 0⟩

/-- Changing the n-th request. -/
def upReq (i : Nat) (f : Req → Req) : Mv := upNet fun n =>
  match ith n.reqs i with
  | some q => { n with reqs := lset n.reqs i (f q) }
  | none => n

/-- Dropping the n-th request. -/
def dropReq (i : Nat) : Mv := upNet fun n => { n with reqs := ldel n.reqs i }

/-- A cell access of a ratline body. -/
def Access.isCell : Access → Bool
  | .cellRead | .cellReserve _ _ | .cellWrite _ => true
  | _ => false

/-- What the home of an address makes of an access (R183, R186, R207, R326): cells need a bank in ratline mode, at an
offset below 0x8000; other writes need one in ordinary mode. -/
def State.homeTakes (s : State) (acc : Access) (pa : Nat) : Bool :=
  match homeOf s.extent pa with
  | .hbm _ => !acc.isCell
  | .abm b =>
    let rat := s.ratBanks.contains b
    let cell := decide (pa % 0x10000 < 0x8000)
    if acc.isCell then rat && cell
    else match acc with
      | .load _ _ | .acquire _ _ | .vload => !rat || cell
      | _ => !rat
  | _ => false

/-- Whether a request of a half is still wanted: an abandoned one that fails is dropped (R272). -/
def Req.wanted (q : Req) : Bool := decide (q.seq < abandoned)

/-- The iteration of a partition's loop that an order key names. -/
def State.iterOf (s : State) (part key : Nat) : Option Iter :=
  ((s.part? part).bind (·.loop)).bind fun l => l.iters.find? fun i => i.key == key

/-- A reservation that its bank has applied is in its iteration's record, once (R326). -/
def recordCell (part key : Nat) (ea : Word) (pa : Nat) : Mv := upPart part fun p => { p with loop := p.loop.map fun l =>
  { l with iters := l.iters.map fun i =>
      if i.key = key && !i.rsv.any (fun x => x.1 == ea) then { i with rsv := i.rsv ++ [(ea, pa)] } else i } }

/-- What a refused or failed request leaves: a register that is owed nothing more, and no reservation (R326, R328). -/
def forgetReq (q : Req) : Mv :=
  match q.acc with
  | .cellRead => Mv.when q.wanted (.look fun s => Mv.when (decide ((s.half q.hid).tid = q.tid)) (upHalf q.hid fun h => markReady h (.s q.reg)))
  | .cellReserve _ key => .look fun s =>
    let ea := word q.va
    let again := s.net.reqs.any fun r => r.id != q.id && r.tid == q.tid && decide (r.acc = q.acc) && r.va == q.va
    let applied := match s.iterOf q.part key with | some i => i.rsv.any fun x => x.1 == ea | none => false
    Mv.when (!again && !applied) (upTask q.tid fun t => { t with rsv := t.rsv.filter (· != ea) })
  | _ => .done

/-- A request that is refused: a probe waits for its refusal to arrive, anything else completes with the cause
(R191, R192). -/
def refuseReq (i : Nat) (q : Req) (cause : Cause) (va : Nat) : Mv :=
  match q.acc with
  | .probe => upReq i fun q => { q with phase := .refused cause, va := va }
  | _ => Mv.seq [dropReq i, forgetReq q, Mv.when q.wanted (raiseAfter q.hid q.tid q.seq cause (word va) q.entry)]

/-- What a request's task is. -/
def State.whoReq (s : State) (q : Req) : Who :=
  match s.task? q.tid with
  | some t => ⟨q.tid, t.part, t.reef.toNat⟩
  | none => ⟨q.tid, q.part, 0⟩

/-- A station records a miss: it holds one of the page, or has room and no earlier miss waits in the cluster network
(R187; log 97). -/
def State.missRoom (s : State) (q : Req) : Bool :=
  let l := s.records q.station false
  l.contains q.record || (decide (l.length < stationMisses) && !s.net.reqs.any fun r =>
    decide (r.phase = .missing) && r.station == q.station && r.id != q.id && (q.stamp == 0 || decide (r.stamp < q.stamp)))

/-- A miss at a station: its walk waits its turn, or it waits in the cluster network (R187). -/
def missReq (i : Nat) (q : Req) : Mv := .look fun s => withId fun id => upReq i fun r => { r with
  stamp := if r.stamp = 0 then id + 1 else r.stamp
  phase := if s.missRoom q then .walk else .missing }

/-- The translation that an instruction, a commit or a command waits for stands: it tries again, before what the same page fault
has held behind it (R190). -/
def readyReq (i : Nat) (r : XRes) : Mv := .look fun s =>
  match r with
  | .fault => upReq i fun q => { q with phase := .fault }
  | r => upReq i fun q => { q with pas := q.pas ++ [(s.reach r).getD 0], phase := .home }

/-- Translating the next line of a request by range table and page cache (R187, R34). -/
def translateReq (i : Nat) (q : Req) : Mv := .look fun s =>
  let va := q.touching.va
  if q.acc.waits then (match lookup s q.party q.acc.kind q.line with
    | none => missReq i q
    | some r => readyReq i r)
  else match s.guardCause (clusterOf q.core) q.asid q.touching q.acc.reads q.acc.kind.writes (s.whoReq q) with
  | some cause => refuseReq i q cause va
  | none =>
    match lookup s q.party q.acc.kind q.line with
    | none => missReq i q
    | some .fault => upReq i fun q => { q with phase := .fault }
    | some r =>
      match s.reach r with
      | none => refuseReq i q .access va
      | some pa =>
        if !s.homeTakes q.acc pa then refuseReq i q .access va
        else if q.pas.length + 1 < q.lines.length then
          upReq i fun q => { q with pas := q.pas ++ [pa], phase := .translate, stamp := 0 }
        else match q.acc with
          | .probe => dropReq i
          | _ => upReq i fun q => { q with pas := q.pas ++ [pa], phase := .home }

/-- A half that holds the task tries its instruction again. -/
def wake (hid tid : Nat) : Mv := .look fun s =>
  Mv.when (decide ((s.half hid).tid = tid)) (upHalf hid fun h => { h with block := h.block.woken })

/-- The station walks the page of a request again, for a RESUME: the request waits (R252). -/
def State.resuming (s : State) (q : Req) : Bool := s.mf0.pages.any fun e =>
  e.2.state == 3 && e.2.asid == q.asid && e.2.va / 4096 == q.line / 4096 && e.2.station == q.station

/-- Another request of the page, which a page fault has held, is still to be replayed: those that it held come in the order of
their arrival, and those that it did not after them (R190, R252). -/
def State.replaysFirst (s : State) (q : Req) : Bool :=
  s.net.reqs.any fun r => r.id != q.id && r.page.isSome && r.record == q.record
    && (q.page.isNone || (r.page == q.page && decide (r.stamp < q.stamp))) && (match r.phase with | .translate | .missing | .walk => true | .home => r.acc.waits | _ => false)

/-- R187. TRANSLATION_REQUEST; the held requests of a page are replayed in their arrival order (R190). -/
def execTranslationRequest (s : State) : Host.Outcome State Fault Refusal :=
  perform (.look fun s => match ith s.net.reqs s.data.n with
    | some q =>
      if (q.phase = .translate ∨ q.phase = .missing) ∧ !s.resuming q ∧ !s.replaysFirst q then
        (translateReq s.data.n q).andThen (wake q.hid q.tid)
      else .done
    | none => .done) s

/-- What a walk of a line finds: the leaf is cached and the request translated again; else it faults or is refused. -/
def walkReq (i : Nat) (q : Req) : Mv := .look fun s =>
  match walk s q.world q.asid q.line with
  | .leaf _ => (cacheLeaf q.party q.line).andThen (upReq i fun q => { q with phase := .translate })
  | .invalid => upReq i fun q => { q with phase := .fault }
  | .secret => refuseReq i q .access q.touching.va

/-- R188. PAGE_WALK_COMPLETE: one of the walks that the station runs at once (R187). The code of the memory may report the
entry that it reads at level `m` (R185). -/
def execPageWalkComplete (s : State) : Host.Outcome State Fault Refusal :=
  perform (.look fun s => match ith s.net.reqs s.data.n with
    | none => .done
    | some q =>
      let entry := s.walkEntry q.asid q.line s.data.m
      if q.phase ≠ .walk ∨ s.resuming q ∨ !((s.records q.station true).take stationWalks).contains q.record then .done
      else match s.eccAt entry 8 with
        | .clean => walkReq s.data.n q
        | .corrected g => (correctedAt q.part entry g).andThen (walkReq s.data.n q)
        | .uncorrectable => (dropReq s.data.n).andThen (reportDue q.tid q.part q.line entry)) s

/-- Shared entries of the page request queue, and reserved ones per partition (R190; log 28). -/
def sharedPages : Nat := 3840

/-- The entries that a post of a partition may take, in order (R190). -/
def postPlaces (part : Nat) : List Nat :=
  List.range sharedPages ++ (List.range 8).map fun i => sharedPages + 8 * part + i

/-- Words 0 and 1 of a page request entry (R251). -/
def pageWords (p : PageReq) : List Word :=
  [word (p.va / 4096 * 4096 * 256),
   word (p.asid * 2 ^ 48 + p.station * 2 ^ 40 + p.part * 2 ^ 35 + p.kind * 2 ^ 33 + b2n p.rsv * 2 ^ 32
     + min p.held 0xFFFF * 2 ^ 16 + p.state)]

/-- The page-request post to the nearest kernel core of a station (R252, R295). -/
def postPage (idx : Nat) (p : PageReq) : Mv := .look fun s =>
  let core := 4096 + 2 * (p.station / 2)
  sendAct deviceSrc core 3 { deviceAct 3 (gateWord (s.core core) 51) (word idx :: pageWords p) with pageReq := some idx }

/-- R190. PAGE_FAULT_POST: joining the page's entry, or taking a free one; without one the request waits. -/
def execPageFaultPost (s : State) : Host.Outcome State Fault Refusal :=
  perform (.look fun s => match ith s.net.reqs s.data.n with
    | none => .done
    | some q =>
      if q.phase ≠ .fault ∨ s.resuming q then .done
      else
        let va := q.line
        let station := stationOf (clusterOf q.core) va
        let kind := if q.acc = .sync then q.reg else q.acc.kind.code
        let hold (idx : Nat) : Mv := upReq s.data.n fun q => { q with phase := .held, page := some idx }
        match s.mf0.pages.find? fun e => e.2.asid == q.asid && e.2.va / 4096 == va / 4096 && e.2.station == station with
        | some e =>
          let e' : PageReq := { e.2 with held := e.2.held + 1, kind := max e.2.kind kind }
          (upMf0 fun m => { m with pages := tput m.pages e.1 e' }).andThen (hold e.1)
        | none =>
          match (postPlaces q.part).find? fun i => (tget s.mf0.pages i).isNone with
          | none => .done
          | some i =>
            let e : PageReq := ⟨va / 4096 * 4096, q.asid, station, q.part, kind, decide (sharedPages ≤ i), 1, 1, 0⟩
            Mv.seq [
              upMf0 fun m => { m with pages := tput m.pages i e },
              hold i,
              countPerf (clusterOf q.core) 0x0A 1,
              postPage i e]) s

/-- R192. PROBE_REFUSAL: the store's staged lines are dropped and the task traps. -/
def execProbeRefusal (s : State) : Host.Outcome State Fault Refusal :=
  perform (.look fun s => match ith s.net.reqs s.data.n with
    | none => .done
    | some q =>
      match q.phase with
      | .refused cause => Mv.seq [
          dropReq s.data.n,
          upTask q.tid fun t => { t with lines := q.lines.foldl (fun l a => tdel l a) t.lines },
          raiseAfter q.hid q.tid q.seq cause (word q.va) q.entry]
      | _ => .done) s

/-! ### Station commands -/

/-- The reply of a station: s1 to the reply endpoint of the command (R189, R297). -/
def replyTo (h2 h3 : Word) (s1 : Word) : Mv :=
  if wbits h2 63 32 = noReply then .done
  else sendEndpoint deviceSrc (word (wbits h2 63 32)) 0 { Act.blank with
    msg := ⟨h0Of 1 0 none (h3.getLsbD 63) (wbits h3 53 0), 0, h2Of noReply 0, 0, [s1]⟩ }

/-- The head command of a station, when it has an opcode, taken from its queue. -/
def stationCmd (n opcode : Nat) (k : StCmd → Mv) : Mv := .look fun s =>
  match (s.station n).cmds with
  | c :: rest => if c.opcode = opcode then (upStation n fun t => { t with cmds := rest }).andThen (k c) else .done
  | [] => .done

/-- Requests translated through entries of an address space, of one station, that their homes have not accepted
(R189). -/
def State.translated (s : State) (n : Nat) (asid : Option Nat) : Bool :=
  let ours (a : Nat) : Bool := match asid with | some x => x == a | none => true
  ((s.net.reqs.zipIdx).any fun x => !x.1.pas.isEmpty && ours x.1.asid && !s.arrived x.2 x.1
    && x.1.lines.any fun l => stationOf (clusterOf x.1.core) l == n)
  || s.net.atoms.any fun q => !q.widen && !q.waiting && ours (s.asidOf q.part) && stationOf (clusterOf q.core) q.va == n

/-- Returning retained pages of an address space to their budgets (R358). -/
def unretain (asid : Nat) (keep : Nat × Nat → Bool) : Mv := .look fun s =>
  Mv.each (s.parts.filter fun p => p.2.image.asids.contains asid) fun p =>
    upPart p.1 fun p => { p with retained := p.retained.filter keep }

/-- R189. INVPAGE. -/
def execInvpage (s : State) : Host.Outcome State Fault Refusal :=
  perform (.look fun s =>
    let n := s.data.n
    match (s.station n).cmds with
    | c :: _ =>
      let asid := (nth c.pay 0).toNat
      let va := (nth c.pay 1).toNat
      if s.translated n (some asid) then .done
      else stationCmd n 1 fun c => Mv.seq [
        upStation n fun t => { t with cache := t.cache.filter fun p => !(p.asid == asid && p.va / 2 ^ p.bits == va / 2 ^ p.bits) },
        unretain asid fun p => !(decide (p.1 ≤ va) && decide (va < p.1 + p.2)),
        replyTo c.h2 c.h3 0]
    | [] => .done) s

/-- R189. INVASID. -/
def execInvasid (s : State) : Host.Outcome State Fault Refusal :=
  perform (.look fun s =>
    let n := s.data.n
    match (s.station n).cmds with
    | c :: _ =>
      let asid := (nth c.pay 0).toNat
      if s.translated n (some asid) then .done
      else stationCmd n 2 fun c => Mv.seq [
        upStation n fun t => { t with cache := t.cache.filter fun p => p.asid != asid },
        unretain asid fun p => stationOf (n / 2) p.1 != n,
        replyTo c.h2 c.h3 0]
    | [] => .done) s

/-- R189. INVALL. -/
def execInvall (s : State) : Host.Outcome State Fault Refusal :=
  perform (.look fun s =>
    let n := s.data.n
    if s.translated n none then .done
    else stationCmd n 3 fun c => Mv.seq [
      upStation n fun t => { t with cache := [] },
      Mv.each s.parts fun p => Mv.when (p.2.image.shape.contains (n / 2))
        (upPart p.1 fun p => { p with retained := p.retained.filter fun r => stationOf (n / 2) r.1 != n }),
      replyTo c.h2 c.h3 0]) s

/-- Whether a request waits on a page request entry. -/
def Req.waitsOn (q : Req) (e : PageReq) : Bool :=
  decide (q.phase = .held) && q.asid == e.asid && q.line / 4096 == e.va / 4096
    && stationOf (clusterOf q.core) q.line == e.station

/-- An access of the device, which tries again as soon as the page is there. -/
def Access.retried : Access → Bool
  | .record => true
  | _ => false

/-- Replaying the requests of an entry (R190). -/
def replayHeld (e : PageReq) : Mv := upNet fun n => { n with
  reqs := (n.reqs.filter fun q => !(q.waitsOn e && q.acc.retried)).map fun q =>
    if q.waitsOn e then { q with phase := .translate } else q }

/-- Failing the requests of an entry (R191): a synchronous one makes its half find the refusal, a commit's ends the
task, an engine's ends the command. Where the page's frame has been retired, every preserved range in the page is not intact
any more (R348). -/
def failHeld (e : PageReq) : Mv := .look fun s =>
  let held := s.net.reqs.filter fun q => q.waitsOn e
  Mv.seq [
    (match s.retiredPage e.asid e.va with
     | some n => spoil e.part false 0 (e.va / 2 ^ n * 2 ^ n) (2 ^ n)
     | none => .done),
    upNet fun n => { n with reqs := n.reqs.filter fun q => !(q.waitsOn e && decide (q.acc ≠ .probe)) },
    Mv.each held fun q => match q.acc with
      | .sync => Mv.when (decide ((s.half q.hid).tid = q.tid)) (upHalf q.hid fun h => { h with refusedAt := some (word q.va) })
      | .probe => upNet fun n => { n with reqs := n.reqs.map fun r =>
          if r.id = q.id then { r with phase := .refused .access, va := q.touching.va } else r }
      | .commit => lateError q.tid .access (word q.va)
      | .record => upNet fun n => { n with errors := n.errors.filter fun x =>
          !(x.part == q.part && s.recordVa x / 4096 == q.va / 4096) }
      | .engine id _ => upNet fun n => { n with cmds := n.cmds.map fun c => if c.id = id then { c with code := 0x0B } else c }
      | _ => (forgetReq q).andThen (Mv.when q.wanted (raiseAfter q.hid q.tid q.seq .access (word q.touching.va) q.entry))]

/-- Error records whose page can be reached now are written (R190, R386). -/
def retryRecords : Mv := .look fun s =>
  let ready (e : ErrRec) : Option Nat := s.deviceWrites e.part (s.recordVa e)
  Mv.seq [
    upNet fun n => { n with errors := n.errors.filter fun e => decide (s.deviceSpa e.part (s.recordVa e) = .fault) },
    Mv.each s.net.errors fun e => match ready e with
      | some a => writeRecord a e
      | none => .done]

/-- R252. RESUME: of an entry of the sender's partition in STATE 0b10. A retry sets STATE 0b11; the station walks again at the
next event, and the command is done. -/
def execResume (s : State) : Host.Outcome State Fault Refusal :=
  let n := s.data.n
  let finishWith (m : StCmd → Mv) : Mv := stationCmd n 4 m
  perform (.look fun s => match (s.station n).cmds with
    | [] => .done
    | c :: _ =>
      let idx := (nth c.pay 0).toNat
      let reject : Mv := finishWith fun c => replyTo c.h2 c.h3 1
      match tget s.mf0.pages idx with
      | none => reject
      | some e =>
        if c.opcode ≠ 4 then .done
        else if e.part ≠ c.part then reject
        else if e.state = 3 ∧ e.resumer = n then
          match walk s (s.secure e.part) e.asid e.va with
          | .invalid =>
            let e' := { e with state := 1 }
            finishWith fun c => Mv.seq [upMf0 fun m => { m with pages := tput m.pages idx e' }, postPage idx e', replyTo c.h2 c.h3 0]
          | _ => finishWith fun c => Mv.seq [
            upMf0 fun m => { m with pages := tdel m.pages idx }, replayHeld e, retryRecords, replyTo c.h2 c.h3 0]
        else if e.state ≠ 2 then reject
        else if nth c.pay 1 = 1 then finishWith fun c => Mv.seq [
          upMf0 fun m => { m with pages := tdel m.pages idx }, failHeld e, replyTo c.h2 c.h3 0]
        else upMf0 fun m => { m with pages := tput m.pages idx { e with state := 3, resumer := n } }) s

/-- R297. RANGEW. -/
def execRangew (s : State) : Host.Outcome State Fault Refusal :=
  perform (.look fun s =>
    let n := s.data.n
    if s.translated n none then .done
    else stationCmd n 5 fun c =>
      let base := (nth c.pay 1).toNat % 2 ^ 56
      let limit := (nth c.pay 2).toNat % 2 ^ 56
      if base % 4096 ≠ 0 ∨ (limit + 1) % 4096 ≠ 0 ∨ limit < base ∨ 256 ≤ (nth c.pay 0).toNat then replyTo c.h2 c.h3 1
      else
        let r : Range := ⟨base, limit, (nth c.pay 3).toNat, nth c.pay 4 &&& 0xFFFF007D⟩
        (upStation n fun t => { t with ranges := tput t.ranges (nth c.pay 0).toNat r }).andThen (replyTo c.h2 c.h3 0)) s

/-- R297. RANGEINV. -/
def execRangeinv (s : State) : Host.Outcome State Fault Refusal :=
  perform (.look fun s =>
    let n := s.data.n
    if s.translated n none then .done
    else stationCmd n 6 fun c =>
      (upStation n fun t => { t with ranges := tdel t.ranges (nth c.pay 0).toNat }).andThen (replyTo c.h2 c.h3 0)) s

/-! ### Release records -/

/-- Whether a release record's scope includes a core (R202). -/
def Release.includes (r : Release) (core : Nat) : Bool := decide (scopeBetween r.core core ≤ r.scope)

/-- The scope-miss message of a home (R235), once per record (R236). -/
def scopeMiss (pa core : Nat) (r : Release) : Mv := .look fun s =>
  if r.missed then .done
  else
    let unit := dieOfHome (homeOf s.extent pa)
    let a : Act := { Act.blank with
      msg := ⟨h0Of 3 3 none false (wbits (gateWord (s.core r.core) 49) 55 2), 0, h2Of (s.endpoint 4 unit) 0,
        word (2 ^ 63 + 0x0010), [word (s.package.id.toNat * 2 ^ 40 + pa / 8 * 8), word (scopeBetween r.core core), zx r.tag]⟩
      kind := 4, free := true, miss := true }
    (Mv.one (.release (pa / 8 * 8) (some { r with missed := true }))).andThen (sendAct deviceSrc r.core 3 a)

/-- The release record of the word at an address. -/
def State.recordAt (s : State) (pa : Nat) : Option Release := tget s.release (pa / 8 * 8)

/-! ### Atomic operations -/

/-- The new value of a word of n bytes, or none where nothing is written (R206). -/
def atomResult (op n : Nat) (old b c : Nat) : Option Nat :=
  let w := 8 * n
  let sb := sval w b
  let so := sval w old
  match op with
  | 0 => some ((old + b) % 2 ^ w)
  | 1 => some (if so ≤ sb then old else b)
  | 2 => some (if sb ≤ so then old else b)
  | 3 => some (min old b)
  | 4 => some (max old b)
  | 5 => some (old &&& b)
  | 6 => some (old ||| b)
  | 7 => some (old ^^^ b)
  | 8 => some b
  | 9 => if old = b then some c else none
  | 10 => some (bankAdd old [b])
  | _ => some (roundTo tF32 false .rne (minMaxNum (op == 12) (valueOf tF32 old) (valueOf tF32 b)).1).1

/-- Applying an operation to a word at its home; the word as it stood goes to `k` (R206, R207). -/
def applyAtom (pa op : Nat) (dbl : Bool) (b c : Word) (k : Word → Mv) : Mv := .look fun s =>
  let n := if dbl then 8 else 4
  let old := memNat s.mem pa n
  match atomResult op n old (truncTo n b) (truncTo n c) with
  | some v => (writeHome pa (toBytes n v)).andThen (k (word old))
  | none => k (word old)

/-! ### Homes -/

/-- Request i is next at its home, and no atomic holds it there (R194, R230, R237). -/
def State.homeTurn (s : State) (i : Nat) (q : Req) : Bool :=
  let isRed := match q.acc with | .red _ _ _ => true | _ => false
  s.arrived i q && (isRed || q.waiting || !s.homeHeld (q.pas.getD q.got 0))

/-- A cell's tag as a number in the order of R319: an empty one, or one of another window, lies above every key. -/
def tagOrder (window : Nat) (t : Option (BitVec 32)) : Nat :=
  match t with
  | some x => if x.toNat / 2 ^ 24 = window then x.toNat % 2 ^ 24 else 2 ^ 24
  | none => 2 ^ 24

/-- The access of a request at its home (R194, R201, R202, R207, R209, R237, R326, R328). -/
def accessHome (i : Nat) (q : Req) : Mv := .look fun s =>
  let pa := q.pas.headD 0 + q.va % 64
  let fill (v : Value) (ordst : Option Word) : Mv := sendFill ⟨q.hid, q.tid, q.seq, v, 0, ordst, false, none, none⟩
  let own (home : List Byte) (va : Nat) : List Byte := match s.task? q.tid with | some t => ownBytes t va home | none => home
  match q.acc with
  | .load n sgn => Mv.seq [dropReq i, tookLine q.tid q.va,
      fill (.s q.reg (extendFrom n sgn (ofBytes (own (memBytes s.mem pa n) q.va)))) none]
  | .acquire n scope =>
    let v := Value.s q.reg (extendFrom n false (ofBytes (own (memBytes s.mem pa n) q.va)))
    match s.recordAt pa with
    | none => Mv.seq [dropReq i, tookLine q.tid q.va, fill v (some (ordstOf 0 false))]
    | some r =>
      let miss := !r.includes q.core
      Mv.seq [dropReq i, tookLine q.tid q.va, fill v (some (ordstOf r.scope miss)), Mv.when (miss && decide (scope < 8)) (scopeMiss pa q.core r)]
  | .vload =>
    let line := q.lines.getD q.got 0
    let linePa := q.pas.getD q.got 0
    let k := (line - q.va) / 64
    let new : VReg := (BitVec.ofNat 4096 (ofBytes (own (memBytes s.mem linePa 64) line))) <<< (512 * k)
    let per := 512 / q.esize
    let m := maskOf fun e => decide (e / per = k) && q.mask.getLsbD e
    let data := mergeV q.esize m q.data new
    (tookLine q.tid line).andThen
      (if q.got + 1 = q.lines.length then (dropReq i).andThen (fill (.v q.reg data) none)
       else upReq i fun q => { q with data := data, got := q.got + 1 })
  | .atom op dbl b c =>
    let apply_ (scope : Nat) : Mv := (dropReq i).andThen (applyAtom pa op dbl b c fun old => Mv.seq [
      setDirty q.party q.va, fill (.s q.reg old) (some (ordstOf scope false))])
    match s.recordAt pa with
    | none => apply_ 0
    | some r => if r.includes q.core then apply_ r.scope
        else (upReq i fun q => { q with waiting := true }).andThen (scopeMiss pa q.core r)
  | .red op dbl b => (dropReq i).andThen (applyAtom pa op dbl b 0 fun _ => setDirty q.party q.va)
  | .cellReserve window key =>
    let t := tget s.tags pa
    let current := (s.part? q.part).any fun p => p.window.toNat == window
    (dropReq i).andThen (Mv.when current ((recordCell q.part key (word q.va) pa).andThen
      (Mv.when (decide (key < tagOrder window t))
        (.one (.tag pa (some (BitVec.ofNat 32 (window % 256 * 2 ^ 24 + key % 2 ^ 24))))))))
  | .cellRead => (dropReq i).andThen (fill (.s q.reg (memWord s.mem pa)) none)
  | .cellWrite w => (dropReq i).andThen (writeHome pa (toBytes 8 w.toNat))
  | .line l reef ts free => Mv.seq [
      dropReq i,
      writeLine (q.pas.headD 0) l,
      Mv.when (!free) (broadcastFrom q.tid q.part reef ts (sigOf q.va) (·.took))]
  | .release n scope w => Mv.seq [
      dropReq i,
      writeHome pa (toBytes n w.toNat),
      recordRelease pa q.core scope]
  | _ => .done

/-- The word of its line at a package address that a request reads, or the line. -/
def Req.wordAt (q : Req) (pa : Nat) : Nat := if q.acc = .vload then pa else pa + q.va % 64 / 8 * 8

/-- The bytes that a request reads there: a write reads none. -/
def Access.readLen : Access → Nat
  | .vload => 64
  | .line _ _ _ _ | .release _ _ _ | .cellWrite _ | .cellReserve _ _ => 0
  | _ => 8

/-- R194. HOME_ACCESS: applied in arrival order, after the memory's code has been heard (R185). A bank that has changed its mode
meanwhile judges the request anew (R183). -/
def execHomeAccess (s : State) : Host.Outcome State Fault Refusal :=
  perform (.look fun s => match ith s.net.reqs s.data.n with
    | none => .done
    | some q =>
      let i := s.data.n
      let pa := q.pas.getD q.got 0
      if q.acc = .record && q.phase = .home then (dropReq i).andThen retryRecords
      else if q.phase ≠ .home || q.acc.waits || !s.homeTurn i q || s.isDeferred q.tid q.seq then .done
      else if !s.homeTakes q.acc pa then refuseReq i q .access (max q.va (q.lines.getD q.got q.va))
      else match s.eccAt (q.wordAt pa) q.acc.readLen with
        | .clean => (accessHome i q).andThen (wake q.hid q.tid)
        | .corrected g => Mv.seq [correctedAt q.part pa g, accessHome i q, wake q.hid q.tid]
        | .uncorrectable => (dropReq i).andThen (reportDue q.tid q.part (q.lines.getD q.got q.va) (q.wordAt pa))) s

/-- R347. PIN_GROUP_FAILED: after 256 corrections on one pin group. -/
def execPinGroupFailed (s : State) : Host.Outcome State Fault Refusal :=
  perform (.look fun s =>
    let key := 64 * s.data.n + s.data.m
    if tgetD s.fabric.corrections key 0 < 256 || s.fabric.failedGroups.contains key || decide (64 ≤ s.data.m) then .done
    else (upFabric fun f => { f with failedGroups := key :: f.failedGroups }).andThen
      (advise (fun p => p.image.channels.contains s.data.n) 1 s.data.n)) s

/-! ### Atomic engines -/

/-- Request i is next at its engine and its home (R210, R230), and no atomic holds it there but, for a reduction (R237). -/
def State.atomTurn (s : State) (i : Nat) (q : AtomReq) : Bool :=
  s.atomArrived i q && (q.widen || !q.value || q.waiting || !s.homeHeld q.pa)

/-- The i-th request at its atomic engine (R210). What the engine of another package finds at the home is a free value, and so
is the scope that it records there (log 6). -/
def accessEngine (i : Nat) (q : AtomReq) : Mv := .look fun s =>
  let drop : Mv := upNet fun n => { n with atoms := ldel n.atoms i }
  if 2 ^ 40 ≤ q.pa then drop.andThen (Mv.when q.value (withFree fun old => withFree fun scope => upNet fun n => { n with
    replies := n.replies ++ [⟨q.dest, if q.dbl then old else word (wbits old 31 0), some (ordstOf (scope.toNat % 5) false)⟩] }))
  else
  let apply_ (scope : Nat) : Mv := drop.andThen (applyAtom q.pa q.op q.dbl q.b q.c fun old =>
    Mv.when q.value (upNet fun n => { n with replies := n.replies ++ [⟨q.dest, old, some (ordstOf scope false)⟩] }))
  if !q.value then apply_ 0
  else match s.recordAt q.pa with
    | none => apply_ 0
    | some r => if r.includes q.core then apply_ r.scope
        else (upNet fun n => { n with atoms := lset n.atoms i { q with waiting := true } }).andThen
          (scopeMiss q.pa q.core r)

/-- The completion entry that a request had reserved is free (R247). -/
def freeCompletion (q : AtomReq) : Mv := Mv.when q.value (upCore q.core fun c => { c with completions := c.completions - 1 })

/-- A request of an atomic engine that ends without a reply: the completion entry that it had reserved is free (R247). -/
def dropAtom (i : Nat) (q : AtomReq) : Mv := (upNet fun n => { n with atoms := ldel n.atoms i }).andThen (freeCompletion q)

/-- Commands that an atomic engine's queue holds (R241). -/
def engineEntries : Nat := 256

/-- The queue of an MF die's atomic engine has room: a request that its home holds has left it (R241, R246). -/
def State.engineRoom (s : State) (mf : Nat) : Bool :=
  decide ((s.net.atoms.filter fun q => q.mf == mf && !q.waiting && !q.owed).length < engineEntries)

/-- A queue of an atomic engine that has room again takes the widening message that waits first at its ingress: its sender has its
status (R246, R255). -/
def admitWiden (mf : Nat) : Mv := .look fun s =>
  match s.net.atoms.find? fun q => q.mf == mf && q.owed with
  | some q => Mv.when (s.engineRoom mf) ((upNet fun n => { n with atoms := n.atoms.map fun x => if x.id = q.id then { x with owed := false } else x }).andThen
      (answer q.dest 0))
  | none => .done

/-- R210. ATOMIC_ENGINE_REQUEST. -/
def execAtomicEngineRequest (s : State) : Host.Outcome State Fault Refusal :=
  perform (.look fun s => match ith s.net.atoms s.data.n with
    | none => .done
    | some q =>
      if q.widen || !s.atomTurn s.data.n q || s.isDeferred q.dest.tid q.dest.seq then .done
      else match (if 2 ^ 40 ≤ q.pa then .clean else s.eccAt (q.pa / 8 * 8) 8) with
        | .clean => Mv.seq [accessEngine s.data.n q, wake q.dest.hid q.dest.tid, admitWiden q.mf]
        | .corrected g => Mv.seq [correctedAt q.part q.pa g, accessEngine s.data.n q, wake q.dest.hid q.dest.tid, admitWiden q.mf]
        | .uncorrectable => Mv.seq [dropAtom s.data.n q, reportDue q.dest.tid q.part q.va q.pa, admitWiden q.mf]) s

/-- R247. ATOMR_REPLY: the reply is in the completion queue and goes on to sD; without its task it is discarded and
its entry free. -/
def execAtomrReply (s : State) : Host.Outcome State Fault Refusal :=
  perform (.look fun s => match ith s.net.replies s.data.n with
    | none => .done
    | some r => (upNet fun n => { n with replies := ldel n.replies s.data.n }).andThen
        (sendFill ⟨r.dest.hid, r.dest.tid, r.dest.seq, .s r.dest.reg r.old, 0, r.ordst, true, none, none⟩)) s

/-- R236. WIDEN: the record widens when its tag still matches. It is served from its engine's queue (R246). -/
def execWiden (s : State) : Host.Outcome State Fault Refusal :=
  perform (.look fun s => match ith s.net.atoms s.data.n with
    | none => .done
    | some q =>
      if !q.widen || q.owed || !s.atomTurn s.data.n q then .done
      else
        let pa := wbits (nth q.pay 0) 39 0
        let scope := wbits (nth q.pay 1) 2 0
        Mv.seq [
          upNet fun n => { n with atoms := ldel n.atoms s.data.n },
          (match s.recordAt pa with
           | some r =>
             if r.tag.toNat = wbits (nth q.pay 2) 31 0 then
               .one (.release (pa / 8 * 8) (some { r with scope := max r.scope scope, missed := false }))
             else .done
           | none => .done),
          admitWiden q.mf]) s

/-! ### The heap unit -/

/-- The lowest free run of n granules among those from g on, `run` of them being free up to g; the fuel is what is left of
the heap (R225). -/
def State.freeRun (s : State) (part : Nat) (p : Image) (n : Nat) : Nat → Nat → Nat → Option Nat
  | fuel, g, run =>
    if n ≤ run then some (g - run)
    else match fuel with
      | 0 => none
      | k + 1 => s.freeRun part p n k (g + 1) (if s.granule part p g = 0 then run + 1 else 0)

/-- Marking a block USED, and its first granule START (R225). -/
def heapTake (part : Nat) (p : Image) (g n : Nat) : Mv :=
  Mv.each (List.range n) fun i => setGranule part p (g + i) (if i = 0 then 3 else 1)

/-- ALLOC at the heap unit (R224, R225). -/
def heapAlloc (d : Dest) (part : Nat) (size : Word) : Mv := .look fun s =>
  match s.part? part, s.task? d.tid with
  | some p, some t =>
    let n := (size.toNat + 63) / 64
    let total := heapGranules p.image.heapSize.toNat
    match (if total < n then none else s.freeRun part p.image n total 0 0) with
    | some g =>
      let a := p.image.heapBase + word (64 * g)
      Mv.seq [
        heapTake part p.image g n,
        upTask d.tid fun _ => { t with allocs := a :: t.allocs },
        answer d a]
    | none => Mv.seq [
        Mv.when (decide ((s.half d.hid).tid = d.tid)) ((upNet fun n => n.sees d.tid d.seq 0x20 none).andThen (upHalf d.hid fun h =>
          { h with ctl := { h.ctl with fflags := h.ctl.fflags ||| 0x20 } })),
        answer d 0]
  | _, _ => .done

/-- FREE at the heap unit: at once for a block of the same uncommitted task, else when the task commits (R224). -/
def heapRelease (d : Dest) (part : Nat) (a : Word) : Mv := .look fun s =>
  match s.task? d.tid with
  | some t =>
    if t.allocs.contains a then (heapFree part a).andThen (upTask d.tid fun t => { t with allocs := t.allocs.filter (· != a) })
    else upTask d.tid fun t => { t with frees := t.frees ++ [a] }
  | none => heapFree part a

/-- The granule of whose byte in the map the code of the memory is heard: one whose word stays uncorrectable (R347), else the one
that the event names (R185). -/
def State.heardGranule (s : State) (part : Nat) (p : Image) : Nat :=
  if s.spoilt.isEmpty then s.data.m
  else ((List.range (heapGranules p.heapSize.toNat)).find? fun g =>
    (s.devicePa part (p.mapVa g)).any fun pa => s.spoilt.contains (pa / 8 * 8)).getD s.data.m

/-- The heap unit reads its map for a request, after the code of the memory has been heard for it (R185). -/
def heardMap (q : HeapReq) (k : Mv) : Mv := .look fun s =>
  match (s.part? q.part).bind fun p =>
      let va := p.image.mapVa (s.heardGranule q.part p.image)
      (s.devicePa q.part va).map fun pa => (va, pa) with
  | some x => if s.data.ecc = .clean && s.spoilt.isEmpty then k else heardFor q.dest.tid q.part x.1 (x.2 / 8 * 8) k
  | none => k

/-- A request at the heap unit; one that needs a page of the map which the unit cannot reach waits for it (R190, R225). -/
def serveHeap (i : Nat) (q : HeapReq) : Mv := .look fun s =>
  match (s.part? q.part).bind fun p => s.heapFault q.part p.image with
  | some va => deviceFault q.part va
  | none => (upNet fun n => { n with heap := ldel n.heap i }).andThen
      (heardMap q (if q.alloc then heapAlloc q.dest q.part q.arg else heapRelease q.dest q.part q.arg))

/-- The kernel's request that empties a heap (R225, R367). -/
def heapReset (part : Nat) : Mv := .look fun s =>
  match s.part? part with
  | some p => Mv.each (List.range (heapGranules p.image.heapSize.toNat)) fun g => setGranule part p.image g 0
  | none => .done

/-- R225. HEAP_REQUEST: requests are applied in arrival order, but those deferred to a quantum's end (R44). -/
def execHeapRequest (s : State) : Host.Outcome State Fault Refusal :=
  perform (.look fun s => match ith s.net.heap s.data.n with
    | none => .done
    | some q =>
      let waits (x : HeapReq) : Bool := s.isDeferred x.dest.tid x.dest.seq
      if waits q || (s.net.heap.take s.data.n).any (fun x => !waits x) then .done
      else serveHeap s.data.n q) s

/-! ### Remote scratchpads -/

/-- A core's counter after n bytes have landed: at 0 it disarms, and the start of its handler is due (R269). -/
def Core.land (c : Core) (ac n : Nat) : Core :=
  match tget c.arrivals ac with
  | none => c
  | some a =>
    if !a.armed then c
    else if a.count.toNat ≤ n then { c with
      arrivals := tput c.arrivals ac { a with count := 0, armed := false }
      due := if a.handler.isSome then c.due ++ [(ac, a)] else c.due }
    else { c with arrivals := tput c.arrivals ac { a with count := a.count - BitVec.ofNat 32 n } }

/-- Landed bytes decrement an armed counter (R269). -/
def landBytes (core ac n : Nat) : Mv := Mv.when (decide (0 < n)) (upCore core fun c => c.land ac n)

/-- The lock of a command that a core has issued after what has this identifier: a store to its own scratchpad that it sent
before comes first, for the command observes it (R220). -/
def State.laterLock (s : State) (own id : Nat) (l : Lock) : Bool :=
  s.net.cmds.any fun q => l.owner == .command q.id && q.core == own && decide (id < q.id)

/-- The cause that refuses an access of a task to a scratchpad of the cluster, sent under an identifier (R196, R181, R294). -/
def State.remoteCause (s : State) (own target off n : Nat) (write : Bool) (w : Who) (id : Nat) : Option Cause :=
  if target ≠ own && !windowGrants (s.core target) off (off + n - 1) write false then some .gate
  else if s.stagingHits target off n then some .access
  else s.lockCauseOf (fun l => !(target == own && s.laterLock own id l)) target off (off + n - 1) write w

/-- The party of a task that may be gone. -/
def State.whoTid (s : State) (tid : Nat) : Who :=
  match s.task? tid with
  | some t => ⟨tid, t.part, t.reef.toNat⟩
  | none =>
    match tget s.net.ghosts tid with
    | some g => ⟨tid, g.identity.part, g.identity.reef⟩
    | none => ⟨tid, 0, 0⟩

/-- A remote load after the code of the target's scratchpad has been heard (R185). -/
def State.heardRemote (s : State) (r : Remote) (k : Mv) : Mv :=
  heardFor r.tid (s.whoTid r.tid).part r.ea.toNat (scratchAt r.target r.off) k

/-- A remote access at its target (R196, R198, R199, R212). -/
def remoteAccess (i : Nat) (r : Remote) : Mv := .look fun s =>
  let n := r.op.size
  (upNet fun x => { x with remotes := ldel x.remotes i }).andThen
    (match s.remoteCause r.core r.target r.off n r.op.writes (s.whoTid r.tid) r.id with
     | some cause => raiseAfter r.hid r.tid r.seq cause r.ea r.entry
     | none =>
       match r.op with
       | .ldr n reg => s.heardRemote r (Mv.seq [
           countPerf (clusterOf r.core) 9 1,
           sendFill ⟨r.hid, r.tid, r.seq, .s reg (word (memNat s.mem (scratchAt r.target r.off) n)), 0, none, false, none, none⟩])
       | .str n w => pokeBytes (scratchAt r.target r.off) (toBytes n w.toNat)
       | .puth n w ac => (pokeBytes (scratchAt r.target r.off) (toBytes n w.toNat)).andThen (landBytes r.target ac n))

/-- R196. REMOTE_SCRATCHPAD_ACCESS: in the order in which one core sent to one target (R230). -/
def execRemoteScratchpadAccess (s : State) : Host.Outcome State Fault Refusal :=
  perform (.look fun s => match ith s.net.remotes s.data.n with
    | none => .done
    | some r =>
      if (s.net.remotes.take s.data.n).any (fun x => x.core == r.core && x.target == r.target)
        || s.net.mcasts.any (fun m => m.core == r.core && decide (m.id < r.id) && m.data.isSome && m.waiting.contains r.target)
        || (r.op.writes && s.detCore r.target) then .done
      else remoteAccess s.data.n r) s

/-- Changing a multicast operation. -/
def upMcast (id : Nat) (f : Mcast → Mcast) : Mv := upNet fun n =>
  { n with mcasts := n.mcasts.map fun m => if m.id = id then f m else m }

/-- A member's answer (R205, R385): the lowest refusing core gives the reason. -/
def Mcast.answer (m : Mcast) (core : Nat) (refusal : Option Nat) : Mcast :=
  let m := { m with waiting := m.waiting.filter (· != core) }
  match refusal with
  | none => { m with pos := m.pos + 1 }
  | some r => { m with
      neg := m.neg + 1
      reason := if core < m.first then r else m.reason
      first := min core m.first }

/-- The router of a die slot answers for its cores: the slot is not valid, or the package that it names is lost (R11, R300,
R385). -/
def State.cutOff (s : State) (core : Nat) : Bool :=
  match tget s.fabric.spar (s.dieOf core) with
  | some x => !x.valid || (x.remote && s.fabric.lostPackages.contains x.pkg.toNat)
  | none => false

/-- What refuses a multicast line at a member (R205, R385). -/
def State.memberCause (s : State) (m : Mcast) (core off : Nat) : Option Cause :=
  if s.cutOff core then some .access else s.remoteCause m.core core off 256 true (s.whoTid m.dest.tid) m.id

/-- A member checks a multicast line and writes it whole, or refuses it (R205). -/
def memberWrite (m : Mcast) (core : Nat) : Mv := .look fun s =>
  match m.data with
  | none => .done
  | some (d, off) =>
    match s.memberCause m core off with
    | some cause => upMcast m.id fun m => m.answer core (some (causeCode cause))
    | none => (pokeBytes (scratchAt core off) (toBytes 256 d.toNat)).andThen (upMcast m.id fun m => m.answer core none)

/-- R205. STSM_MEMBER_WRITE: behind what the same core has sent to that scratchpad before (R230). -/
def execStsmMemberWrite (s : State) : Host.Outcome State Fault Refusal :=
  perform (.look fun s => match s.net.mcasts.find? fun m => m.id == s.data.n with
    | none => .done
    | some m =>
      let core := s.data.m
      let behind := s.net.mcasts.any (fun x => x.core == m.core && decide (x.id < m.id) && x.data.isSome && x.waiting.contains core)
        || s.net.remotes.any (fun r => r.core == m.core && decide (r.id < m.id) && r.target == core)
      if m.waiting.contains core && !s.detCore core && !behind then memberWrite m core else .done) s

/-- The aggregated status of R205. -/
def Mcast.status (m : Mcast) : Word :=
  word (m.reason * 2 ^ 48 + m.first * 2 ^ 32 + m.neg * 2 ^ 16 + m.pos)

/-- R385. STSM_ANSWER_MERGE: the last merge fills sD. -/
def execStsmAnswerMerge (s : State) : Host.Outcome State Fault Refusal :=
  perform (.look fun s => match s.net.mcasts.find? fun m => m.id == s.data.n with
    | none => .done
    | some m =>
      if !m.waiting.isEmpty then .done
      else (upNet fun n => { n with mcasts := n.mcasts.filter fun x => x.id != m.id }).andThen
        (sendFill ⟨m.dest.hid, m.dest.tid, m.dest.seq, .s m.dest.reg m.status, 0, none, false, m.tag.map fun g => (g, m.pos), none⟩)) s

/-! ### Rings -/

/-- Members by rising core. -/
def insertMember (m : Member) : List Member → List Member
  | [] => [m]
  | x :: t => if m.core < x.core then m :: x :: t else x :: insertMember m t

/-- Writing an incoming tile over the receiver's rows. -/
def pokeTile (m : Member) (bs : List Byte) : Mv := Mv.each (List.range m.rows) fun r =>
  pokeBytes (scratchAt m.core (m.base + r * m.stride)) ((bs.drop (r * m.rowBytes)).take m.rowBytes)

/-- What refuses a tile to its receiver: a gate without a window, or a lock of the range that has come since the receiver's
ROT, as a preserved range (R196, R213, R296). -/
def State.hopCause (s : State) (src dst : Member) : Option Cause :=
  let rows := tileRows dst.base dst.rows dst.stride dst.rowBytes
  if src.core ≠ dst.core && !rows.all (fun r => windowGrants (s.core dst.core) r.1 (r.1 + r.2 - 1) true false) then some .gate
  else if rows.any fun r => (s.lockCauseOf (fun l => !l.owner.isTile dst.op) dst.core r.1 (r.1 + r.2 - 1) true (s.whoTid src.tid)).isSome
  then some .rlock
  else none

/-- One hop of a ring: the sender's tile, as it was read, lands at the receiver and decrements its counter; a refusal goes to
the sender (R196, R213). -/
def ringHop (src dst : Member) (bs : List Byte) : Mv := .look fun s =>
  match (if bs.isEmpty then none else s.hopCause src dst) with
  | some cause => raiseAfter src.hid src.tid src.seq cause (word (dst.core % 128 * 2 ^ 18 + dst.base)) { src.entry with nore := true }
  | none => (pokeTile dst bs).andThen (landBytes dst.core dst.ac bs.length)

/-- The reading of the members' tiles, after the code of the scratchpads has been heard: a word that stays uncorrectable is found;
another error is in the tile of member `i` (R185, R347). -/
def heardTiles (part : Nat) (ms : List Member) (i : Nat) (k : Mv) : Mv := .look fun s =>
  let rows (m : Member) : List (Nat × Nat) := tileRows m.base m.rows m.stride m.rowBytes
  match ms.find? fun m => (rows m).any fun r => (s.spoiltIn (scratchAt m.core r.1) r.2).isSome with
  | some m => heardRanges m.tid part m.core (rows m) k
  | none => if s.data.ecc = .clean then k else match ms[i % ms.length]? with
    | some m => heardRanges m.tid part m.core (rows m) (.eff (.ecc .clean) k)
    | none => k

/-- The start of a ring (R213): a member whose tile size differs from that of the first, by rising core, traps BOUND; otherwise
the tiles move around the ring and the locks are released. -/
def startRing (id : Nat) : Mv := .look fun s =>
  match s.net.rings.find? fun g => g.id == id with
  | none => .done
  | some g =>
    let missing := g.members.any fun m => !(g.joined.any fun j => j.core == m) && !g.withdrawn.contains m
    let ms := g.joined.foldr insertMember []
    match ms with
    | [] => if missing then .done else upNet fun n => { n with rings := n.rings.filter fun x => x.id != g.id }
    | first :: _ =>
      let bad := ms.filter fun m => m.rows * m.rowBytes != first.rows * first.rowBytes
      if missing then .done
      else if !bad.isEmpty then Mv.seq [
        upNet fun n => { n with rings := n.rings.map fun x => if x.id = g.id then
          { x with joined := x.joined.filter fun m => !(bad.any fun b => b.core == m.core) } else x },
        Mv.each bad fun m => (unlockRing m).andThen (raiseAfter m.hid m.tid m.seq .bound 0 m.entry)]
      else heardTiles g.part ms s.data.m <|
        let tiles := ms.map fun m => s.tileBytes m.core m.base m.rows m.stride m.rowBytes
        let next := (ms.drop 1) ++ (ms.take 1)
        Mv.seq [
          upNet fun n => { n with rings := n.rings.filter fun x => x.id != g.id },
          Mv.each ((ms.zip next).zip tiles) fun x => ringHop x.1.1 x.1.2 x.2,
          Mv.each ms unlockRing]

/-- R213. RING_START; in a deterministic partition at a quantum's end (R342). -/
def execRingStart (s : State) : Host.Outcome State Fault Refusal :=
  perform (.look fun s => match s.net.rings.find? fun g => g.id == s.data.n with
    | some g => if s.det g.part then .done else startRing g.id
    | none => .done) s

end Sys2Proof.Machine
end

