-- ==== Sys2Proof/Machine/Messages.lean ====
section
/-! DEFINITION. Messages: sending and receiving them, inboxes and activations, arrival counters (spec/02, R21 to R24;
spec/13, R242 to R247, R252; spec/14, R253 to R257, R269, R270). -/
namespace Sys2Proof.Machine

/-! ### Sending -/

/-- Whether an endpoint names a unit of the partition on this package (R243, R255; log 6). -/
def State.unitIn (s : State) (part : Nat) (ep : Word) : Bool :=
  let n := epUnit ep
  let mine (cluster : Nat) : Bool := decide (cluster < clusterCount s.extent) && (s.cluster cluster).part == some part
  epPkg ep == s.package.id.toNat &&
  (match epKind ep with
   | 0 | 1 => s.ownsCore part (epCore ep)
   | 2 | 3 | 5 => mine (n / 2)
   | 4 | 6 => decide (n < s.package.mfDies)
   | _ => mine n)

/-- The engine opcodes that a message may name: WIDEN at an atomic engine, six at a translation station (R189, R236,
R252, R297). -/
def engineTakes (kind opcode : Nat) : Bool :=
  (kind == 4 && opcode == 0x0010) || (kind == 5 && decide (1 ≤ opcode) && decide (opcode ≤ 6))

/-- A message on its way: where to, its activation, its sender and status (R254, R255). -/
structure Outgoing where
  ep : Word
  pri : Nat
  act : Act
  /-- The reply of a scope-miss task to the widening endpoint, which no gate entry has to allow (R235, R294). -/
  free : Bool
  deriving DecidableEq, Repr

/-- The tag that a message carries: the sender's, between compute cores of one cluster (R254). -/
def tagTo (c : Ctx) (same : Bool) : Option Nat :=
  if same && !isKernel c.core then (match c.task.tag with | some g => some g.toNat | none => none) else none

/-- Whether an endpoint is a compute core of the sender's cluster. -/
def sameCluster (c : Ctx) (ep : Word) : Bool := epKind ep == 0 && clusterOf (epUnit ep) == clusterOf c.core

/-- The activation of a message from an instruction (R242, R243, R254). -/
def messageAct (s : State) (c : Ctx) (pri : Nat) (tag : Option Nat) (engine : Bool) (haddr : Nat) (pay : List Word) : Act :=
  { Act.blank with
    msg := ⟨h0Of pay.length pri tag engine haddr, h1Of c.task.reef c.task.ts, h2Of (s.coreEndpoint c.core) (s.coreEndpoint c.core),
      word (wbits c.c 55 2), pay⟩
    launch := match tag with | some g => some (8 * clusterOf c.core + g) | none => none }

/-- The payload register fields of SEND, SENDM and REPLY (R253). -/
def paySrcs (f : FL) : List Src :=
  (List.range (f.m.toNat % 8)).map fun j => ⟨2, .s (f.r.b.toNat + j), f.r.wb⟩

/-- The payload words (R253). -/
def payWords (f : FL) (h : Half) : List Word := (List.range (f.m.toNat % 8)).map fun j => readS h (f.r.b.toNat + j)


/-- Sending to an endpoint, with its status to sD (R255). Only the reply of a scope-miss task reaches opcode WIDEN
(R235). -/
def sendOut (c : Ctx) (d : Dest) (o : Outgoing) : Mv := .look fun s =>
  let kind := epKind o.ep
  if !o.free && !gateAllows (s.core c.core) 62 (wbits o.ep 31 0) then answer d 0x0A
  else if !s.unitIn c.task.part o.ep then answer d 0x0B
  else if kind ≤ 1 then upNet fun n => { n with msgs := n.msgs ++ [⟨c.core, epCore o.ep, o.pri, o.act, some d, none⟩] }
  else if !engineTakes kind (wbits o.act.msg.h0 15 0) then answer d 0x0B
  else if kind = 5 then
    let cmd : StCmd := ⟨wbits o.act.msg.h0 15 0, o.act.msg.pay, c.core, o.act.msg.h2, o.act.msg.h3, c.task.part⟩
    upNet fun n => { n with stCmds := n.stCmds ++ [(epUnit o.ep, cmd, some d)] }
  else if !o.free then answer d 0x0B
  else withId fun id =>
    let full := !s.engineRoom (epUnit o.ep) || s.net.atoms.any fun q => q.mf == epUnit o.ep && q.owed
    let q : AtomReq := { id := id, mf := epUnit o.ep, widen := true, dest := d, core := c.core, part := c.task.part
                         pa := 0, op := 0, dbl := false, b := 0, c := 0, value := false, waiting := false, pay := o.act.msg.pay, va := 0, entry := Entry.blank, owed := full, seen := [] }
    (upNet fun n => { n with atoms := n.atoms ++ [q] }).andThen (Mv.when (!full) (answer d 0))

/-- The engine opcode or the handler address of a SEND, by the unit kind of its endpoint (R253). -/
def sendTarget (c : Ctx) (f : FL) : Bool × Nat :=
  if epKind c.a ≤ 1 then (false, wbits (handlerAt c.addr (sx f.obj)) 55 2) else (true, f.obj.toNat)

/-- R253, R254, R255. SEND. -/
def execSend (f : FL) (s : State) : Host.Outcome State Fault Refusal :=
  let d := f.r.d.toNat
  perform (issue (.send f) ⟨some f.r.k, true, ⟨1, .s f.r.a.toNat, f.r.wa⟩ :: paySrcs f ++ [srcC f], [.s d]⟩ fun c =>
    direct c (.look fun s =>
      let (engine, haddr) := sendTarget c f
      let act := messageAct s c f.sc.toNat (tagTo c (sameCluster c c.a)) engine haddr (payWords f c.h)
      (sendOut c (destOf c d) ⟨c.a, f.sc.toNat, act, false⟩).andThen (finish c fun h => markEmpty h (.s d)))) s

/-- R254. REPLY: to the reply endpoint and handler of the activation message. -/
def execReply (f : FL) (s : State) : Host.Outcome State Fault Refusal :=
  let d := f.r.d.toNat
  perform (issue (.reply f) ⟨some f.r.k, true, paySrcs f ++ [srcC f], [.s d]⟩ fun c =>
    direct c (.look fun s =>
      let h3 := c.task.act.msg.h3
      let ep := word (wbits c.task.act.msg.h2 63 32)
      let act := messageAct s c f.sc.toNat (tagTo c (sameCluster c ep)) (h3.getLsbD 63) (wbits h3 53 0) (payWords f c.h)
      let none_ := ep.toNat == noReply || (!h3.getLsbD 63 && wbits h3 53 0 == 0)
      let widening := c.task.act.miss && epKind ep == 4
      (if none_ then answer (destOf c d) 0x0B
       else sendOut c (destOf c d) ⟨ep, f.sc.toNat, act, widening⟩).andThen (finish c fun h => markEmpty h (.s d)))) s

/-- R254, R255. SENDM: a copy to every member; those that the sender's gate does not reach are refused at once. -/
def execSendm (f : FL) (s : State) : Host.Outcome State Fault Refusal :=
  let d := f.r.d.toNat
  perform (issue (.sendm f) ⟨some f.r.k, true, ⟨1, .s f.r.a.toNat, f.r.wa⟩ :: paySrcs f ++ [srcC f], [.s d]⟩ fun c =>
    direct c (.look fun s =>
      let members := membersOf (s.groupMask c.task.part (f.obj.toNat % 256))
      let same := members.all fun m => clusterOf m == clusterOf c.core
      let act := messageAct s c f.sc.toNat (tagTo c same) false (wbits c.a 55 2) (payWords f c.h)
      let reached := members.filter fun m => gateAllows (s.core c.core) 62 (s.coreEndpoint m)
      let refused := members.filter fun m => !gateAllows (s.core c.core) 62 (s.coreEndpoint m)
      withId fun id =>
        let start : Mcast := ⟨id, destOf c d, c.core, none, f.obj.toNat % 256, members, 0, 0, 0xFFFF, 0, act.tag⟩
        let m := refused.foldl (fun m x => m.answer x (some 0x0A)) start
        let copies := reached.map fun x => NetMsg.mk c.core x f.sc.toNat act none (some id)
        (upNet fun n => { n with mcasts := n.mcasts ++ [m], msgs := n.msgs ++ copies }).andThen
          (finish c fun h => markEmpty h (.s d)))) s

/-! ### Receiving -/

/-- R256. RECV: s1 to s7 are empty until payload word j has arrived in s(j + 1), and 0 in the rest. -/
def execRecv (f : FL) (s : State) : Host.Outcome State Fault Refusal :=
  perform (issue (.recv f) ⟨some f.r.k, true, [], (List.range 7).map fun j => .s (j + 1)⟩ fun c => Mv.seq [
    Mv.each (List.range 7) fun j =>
      sendFill ⟨c.hid, c.tid, c.h.seq, .s (j + 1) (nth c.task.act.msg.pay j), 0, none, false, none, none⟩,
    hold c fun h => c.dsts.foldl markEmpty h]) s

/-- Messages in an inbox, return slots included (R257). -/
def Inbox.count (b : Inbox) : Nat := b.ret.length + b.q.length

/-- The word that POLLQ writes (R257). -/
def Core.poll (c : Core) : Word :=
  word (min c.ingress.length 255 * 2 ^ 32 + c.inbox3.count * 2 ^ 24 + c.inbox2.count * 2 ^ 16 + c.inbox1.count * 2 ^ 8 + c.inbox0.count)

/-- R257. POLLQ: at once, without sD being marked empty; in deterministic operation a request that is deferred to the
quantum's end, when sD fills (R44, R78). -/
def execPollq (f : FL) (s : State) : Host.Outcome State Fault Refusal :=
  let d := f.r.d.toNat
  perform (issue (.pollq f) ⟨some f.r.k, true, [], [.s d]⟩ fun c => .look fun s =>
    if s.detCore c.core then
      (deferIf c true).andThen (hold c fun h => markEmpty h (.s d))
    else finish c fun h => writeS h d (s.core c.core).poll) s

/-! ### Inboxes -/

/-- Entries of an inbox (R24). -/
def inboxEntries : Nat := 16

/-- One more message received under a tag (R244). -/
def countRecv (core tag : Nat) : Mv := upCore core fun c => { c with recv := tput c.recv tag (tgetD c.recv tag 0 + 1) }

/-- A tagged message is accepted or refused: the sender's status, or its part of a SENDM (R255). -/
def acceptMsg (m : NetMsg) : Mv := Mv.seq [
  upCore m.core fun c =>
    let b := c.inbox m.pri
    c.setInbox m.pri { b with q := b.q ++ [m.act] },
  (match m.act.tag with
   | some g => Mv.when (!isKernel m.core) (countRecv m.core g)
   | none => .done),
  (match m.status with
   | some d => sendFill ⟨d.hid, d.tid, d.seq, .s d.reg 0, 0, none, false, m.act.tag.map fun g => (g, 1), none⟩
   | none => .done),
  (match m.mcast with
   | some id => upMcast id fun x => x.answer m.core none
   | none => .done)]

/-- A copy of a SENDM that the member's gate does not let in (R255, R294). -/
def State.copyRefused (s : State) (m : NetMsg) : Bool :=
  m.mcast.isSome && !gateAllows (s.core m.core) 61 (s.coreEndpoint m.src)

/-- Entries of an inbox that are taken: those that a slice's end has saved keep their places for the restore (R24, R245;
log 54). -/
def Core.taken (c : Core) (p : Nat) : Nat := (c.inbox p).q.length + (tgetD c.aside p []).length

/-- Whether an inbox takes a message now (R24, R244). -/
def Core.hasRoom (c : Core) (p : Nat) : Bool := decide (c.taken p < inboxEntries)

/-- A message arrives at its core: refused, accepted, or held at ingress behind those already held (R24, R244). -/
def arriveMsg (m : NetMsg) : Mv := .look fun s =>
  let c := s.core m.core
  if s.copyRefused m then
    (match m.mcast with | some id => upMcast id fun x => x.answer m.core (some 0x0A) | none => .done)
  else if c.hasRoom m.pri && !c.ingress.any (fun x => x.pri == m.pri) then acceptMsg m
  else (upCore m.core fun c => { c with ingress := c.ingress ++ [m] }).andThen (countPerf (clusterOf m.core) 0x0E 1)

/-- The first message held at a core's ingress for an inbox is offered again (R244). -/
def offerHeld (core pri : Nat) : Mv := .look fun s =>
  let c := s.core core
  match c.ingress.find? fun x => x.pri == pri with
  | some m =>
    if c.hasRoom pri then
      (upCore core fun c => { c with ingress := c.ingress.eraseP fun x => x.pri == pri }).andThen (acceptMsg m)
    else .done
  | none => .done

/-- The i-th message of the network arrives. -/
def arriveAt (i : Nat) : Mv := .look fun s =>
  match ith s.net.msgs i with
  | some m => (upNet fun n => { n with msgs := ldel n.msgs i }).andThen (arriveMsg m)
  | none => .done

/-- Commands that a station's queue holds (R246). -/
def stationEntries : Nat := 16

/-- The i-th command on its way to a station joins its queue when there is room, and its sender has its status (R246,
R255). -/
def arriveCmd (i : Nat) : Mv := .look fun s =>
  match ith s.net.stCmds i with
  | some (n, cmd, d) =>
    if (s.station n).cmds.length < stationEntries && !(s.net.stCmds.take i).any (fun x => x.1 == n) then Mv.seq [
      upNet fun x => { x with stCmds := ldel x.stCmds i },
      upStation n fun t => { t with cmds := t.cmds ++ [cmd] },
      (match d with | some d => answer d 0 | none => .done)]
    else .done
  | none => .done

/-- R244. INBOX_ACCEPT: messages of one core to one inbox arrive in the order they were sent (R230); into a
deterministic partition's cores only at a quantum's end (R341). Places beyond the messages are those of commands on
their way to stations. -/
def execInboxAccept (s : State) : Host.Outcome State Fault Refusal :=
  perform (.look fun s =>
    let i := s.data.n
    if s.data.yes then (if s.detCore s.data.n then .done else offerHeld s.data.n s.data.m)
    else match ith s.net.msgs i with
      | some m =>
        if s.detCore m.core || (s.net.msgs.take i).any (fun x => x.src == m.src && x.core == m.core && x.pri == m.pri) then .done
        else arriveAt i
      | none => arriveCmd (i - s.net.msgs.length)) s

/-! ### Activation -/

/-- The task of the core that a save has taken out and that comes back next (R43): of highest priority, and of those the
one that was activated first (log 95). Team swaps and SSAV are not restored so. -/
def State.waitingTask (s : State) (core : Nat) : Option Nat :=
  let out (tid : Nat) (t : Task) : Bool := match t.act.launch with
    | some lid => (match s.launch? lid with | some l => l.team.contains tid | none => false)
    | none => false
  let l := s.tasks.filter fun t => t.2.core == core && decide (t.2.life = .saved) && !out t.1 t.2
      && !s.halves.any (fun h => h.2.tid == t.1 && decide (h.2.occ ≠ .free))
  let top := l.foldl (fun p t => max p t.2.pri) 0
  (l.find? fun t => t.2.pri == top).map (·.1)

/-- The core's tenant is leaving it: a slice has ended and a half that ran its tasks still does (R41, R43). -/
def State.leaving (s : State) (core : Nat) : Bool :=
  [2 * core, 2 * core + 1].any fun hid => (s.half hid).preq && decide ((s.half hid).occ ≠ .free)

/-- A slice's end takes the tenant's entries out of an inbox, in queue order (R245). -/
def Core.setAside (c : Core) : Core :=
  [0, 1, 2, 3].foldl (fun c p =>
    let b := c.inbox p
    if b.q.isEmpty then c
    else { c.setInbox p { b with q := [] } with aside := tput c.aside p (tgetD c.aside p [] ++ b.q) }) c

/-- The tenant returns: its entries stand ahead of those that arrived meanwhile, in their saved order (R245). -/
def Core.takeBack (c : Core) : Core :=
  { c.aside.foldl (fun c x => c.setInbox x.1 { c.inbox x.1 with q := x.2 ++ (c.inbox x.1).q }) c with aside := [] }

/-- The message that a core activates next: the head of its highest-priority non-empty inbox, return slots first
(R24, R244). -/
def Core.head (c : Core) : Option (Nat × Act) :=
  [3, 2, 1, 0].findSome? fun p =>
    match (c.inbox p).ret ++ (c.inbox p).q with
    | a :: _ => some (p, a)
    | [] => none

/-- An inbox without its head. -/
def Inbox.pop (b : Inbox) : Inbox :=
  match b.ret with
  | _ :: t => { b with ret := t }
  | [] => { b with q := b.q.drop 1 }

/-- The launch tag that an activation gives its task (R22, R254). -/
def Act.taskTag (a : Act) : Option (BitVec 3) := a.tag.map (BitVec.ofNat 3)

/-- The task that an activation starts (R22): a message whose reef is not open starts it in the root, outside
arbitration; one that an abort sends back stays where it was (R387). -/
def State.startTask (s : State) (core half part pri : Nat) (a : Act) : Task :=
  let open_ := a.placed || a.body.isSome || (match a.again with | some _ => !a.free | none => s.reefOpen part a.reef.toNat)
  let free := a.miss || a.body.isSome || !open_
  let t := Task.fresh core half part { a with free := free } pri
  { t with reef := if open_ then a.reef else 0, tag := a.taskTag, wdFrom := s.clock.clk }

/-- The half at the activation of a task (R77, R82, R85): its control registers take their reset values, TVEC that of
the core's gate, and the kernel-set ones the partition's. -/
def State.startHalf (s : State) (core tid : Nat) (p : Part) (a : Act) : Half :=
  { Half.reset with
    occ := .live
    tid := tid
    age := s.clock.clk
    hdr := a.handler
    entering := true
    ctl := { Ctl.reset with
      tvec := gateWord (s.core core) 48 &&& 0xFFFFFFFFFFFFFC
      quant := p.quant
      pdl := p.pdl
      wdog := p.wdog } }

/-- A residency request to the jib loader of a cluster, unless the set is resident or already asked for (R314). -/
def wantSet (cluster part n : Nat) : Mv := upCluster cluster fun c =>
  if c.jibs.any (fun r => r.2.part == part && r.2.set == n) || c.jibWanted.contains (part, n) then c
  else { c with jibWanted := c.jibWanted ++ [(part, n)] }

/-! ### Arrival counters -/

/-- The count of ACTR: OBJ16 signed, LIT32 unsigned, or sA (R269). -/
inductive ArmCount where
  | bound
  | disarm
  | arm (n : Nat)
  deriving DecidableEq, Repr

/-- A count register of ACTR (R269, M[0]). -/
def armReg (w : Word) : ArmCount := if w = 0 then .disarm else if 2 ^ 32 ≤ w.toNat then .bound else .arm w.toNat

/-- Arming or disarming a counter (R269). -/
def armCounter (c : Ctx) (ac : Nat) (n : ArmCount) (handler : Option Word) : Mv :=
  match n with
  | .bound => raiseIssue c.hid .bound 0 0
  | .disarm => (upCore c.core fun x => { x with arrivals := tput x.arrivals ac Arrival.reset }).andThen (retire c)
  | .arm k =>
    let a : Arrival := ⟨BitVec.ofNat 32 k, true, handler, c.task.pri, c.task.reef, c.task.ts, c.task.tag, c.task.act.index,
      match c.task.tag with | some g => some (8 * clusterOf c.core + g.toNat) | none => none⟩
    (upCore c.core fun x => { x with arrivals := tput x.arrivals ac a }).andThen (retire c)

/-- R269. ACTR, form L. -/
def execActrL (f : FL) (s : State) : Host.Outcome State Fault Refusal :=
  perform (issue (.actrL f) ⟨some f.r.k, true, if f.m.getLsbD 0 then [⟨1, .s f.r.a.toNat, f.r.wa⟩] else [], []⟩ fun c =>
    let n := f.obj.toNat
    armCounter c (f.r.d.toNat % 16)
      (if f.m.getLsbD 0 then armReg c.a else if n = 0 ∨ 0x8000 ≤ n then .bound else .arm n) none) s

/-- R269. ACTR, form X: the handler is at OBJ16 parcels, or none when that is 0. -/
def execActrX (f : FX) (s : State) : Host.Outcome State Fault Refusal :=
  perform (issue (.actrX f) ⟨some f.l.r.k, true, if f.l.m.getLsbD 0 then [⟨1, .s f.l.r.a.toNat, f.l.r.wa⟩] else [], []⟩ fun c =>
    armCounter c (f.l.r.d.toNat % 16)
      (if f.l.m.getLsbD 0 then armReg c.a else if f.lit = 0 then .bound else .arm f.lit.toNat)
      (if f.l.obj = 0 then none else some (handlerAt c.addr (sx f.l.obj)))) s

/-- A counter of a core is armed. -/
def Core.armed (c : Core) (ac : Nat) : Bool := match tget c.arrivals ac with | some a => a.armed | none => false

/-- R270. WAITC. -/
def execWaitc (f : FL) (s : State) : Host.Outcome State Fault Refusal :=
  let ac := f.r.d.toNat % 16
  perform (issue (.waitc f) ⟨some f.r.k, true, [], []⟩ fun c => .look fun s =>
    if (s.core c.core).armed ac then stall c.hid (.waitc ac) else retire c) s

/-- The activation that a counter's handler starts (R256, R269): the arming task's reef, timestamp and tag. -/
def arrivalAct (s : State) (core ac : Nat) (a : Arrival) (handler : Word) : Act :=
  { Act.blank with
    msg := ⟨h0Of 2 a.pri (a.tag.map (·.toNat)) false (wbits handler 55 2), h1Of a.reef a.ts, h2Of noReply (s.coreEndpoint core), 0,
      [word ac, zx a.index]⟩
    launch := a.launch }

/-- The handler of a counter that has reached 0 starts; its start counts as one message sent and, when the inbox accepts it, one
received (R269). -/
def startHandler (core ac : Nat) : Mv := .look fun s =>
  match (s.core core).due.find? fun x => x.1 == ac with
  | none => .done
  | some (_, a) => Mv.seq [
      upCore core fun c => { c with due := c.due.eraseP fun x => x.1 == ac },
      (match a.handler with
       | some h => Mv.seq [
           (match a.tag with | some g => Mv.when (!isKernel core) (countSent core g.toNat 1) | none => .done),
           sendAct core core a.pri (arrivalAct s core ac a h)]
       | none => .done)]

/-- R269. ARRIVAL_COUNTER_ZERO; in a deterministic partition at a quantum's end (R341). -/
def execArrivalCounterZero (s : State) : Host.Outcome State Fault Refusal :=
  perform (.look fun s => Mv.when (!s.detCore s.data.n) (startHandler s.data.n s.data.m)) s

end Sys2Proof.Machine
end

