-- ==== Sys2Proof/Machine/Launches.lean ====
section
/-! DEFINITION. Launches, spawned children, placement and the end of a launch, and waiting within a launch (spec/02,
R25 to R32; spec/13, R250; spec/14, R258 to R262, R268). -/
namespace Sys2Proof.Machine

/-! ### Memory read and written in a task's name -/

/-- A read at issue of n bytes of shared memory, whose lines stand at package addresses, after the code of the memory has been
heard: which word of them an error is in is a free value (R185). -/
def heardShared (c : Ctx) (va n : Nat) (pas : List Nat) (k : Mv) : Mv := .look fun s =>
  let words := (List.range ((va % 8 + n + 7) / 8)).map fun i =>
    let a := (va / 8 + i) * 8
    (a, pas.getD (a / 64 - va / 64) 0 + a % 64)
  if words.all fun x => decide (s.eccAt x.2 8 = .clean) then k else withFree fun w =>
    let lost := words.filter fun x => decide (s.eccAt x.2 8 = .uncorrectable)
    let x := if lost.isEmpty then words.getD (w.toNat % words.length) (va, 0) else lost.getD (w.toNat % lost.length) (va, 0)
    heard c x.1 x.2 k

/-- An access of the instruction at issue to lines at package addresses waits behind what an atomic holds at a home, and behind
what is on its way there before it (R230, R232, R237). -/
def inTurn (c : Ctx) (pas : List Nat) (k : Mv) : Mv := .look fun s =>
  if pas.any fun pa => s.homeHeld pa || s.behind c.core s.net.nextId pa true false then stall c.hid .register else k

/-- Reading n bytes of shared memory in the task's name: its own staged stores are seen (R181); a page fault holds the
instruction, a refusal is `deny` (R191, R289). -/
def readShared (c : Ctx) (va n : Nat) (deny : Mv) (k : List Byte → Mv) : Mv := .look fun s =>
  let p := s.party c.core
  let lines := linesOf va n
  if 2 ^ 56 < va + n then deny
  else match s.reachLines p (whoOf c) .read (touchesOf va n) with
  | .fault a => if c.h.refusedAt.isSome then deny else syncFault c.hid p .read a
  | .refused .access _ => deny
  | .refused cause a => raiseIssue c.hid cause (word a) 0
  | .ok pas => inTurn c pas <| heardWalk c.tid p lines <|
    let whole := (lines.zip pas).flatMap fun x =>
      let home := memBytes s.mem x.2 64
      match s.task? c.tid with | some t => ownBytes t x.1 home | none => home
    (Mv.each lines (install p)).andThen (heardShared c va n pas (k ((whole.drop (va % 64)).take n)))

/-- Writing bytes to shared memory in the task's name, at once (R289). -/
def writeShared (c : Ctx) (va : Nat) (bs : List Byte) (deny : Mv) (k : Mv) : Mv := .look fun s =>
  let p := s.party c.core
  let lines := linesOf va bs.length
  if 2 ^ 56 < va + bs.length then deny
  else match s.reachLines p (whoOf c) .write (touchesOf va bs.length) with
  | .fault a => if c.h.refusedAt.isSome then deny else syncFault c.hid p .write a
  | .refused .access _ => deny
  | .refused cause a => raiseIssue c.hid cause (word a) 0
  | .ok pas => inTurn c pas <| heardWalk c.tid p lines <|
    Mv.seq [
      Mv.each (lines.zip pas) (fun x =>
        let first := if x.1 < va then va else x.1
        let part := (bs.drop (first - va)).take (x.1 + 64 - first)
        Mv.seq [writeHome (x.2 + (first - x.1)) part, install p x.1, setDirty p x.1]),
      k]

/-- The bytes of a range object: shared memory, or a scratchpad of the task's cluster (R291). -/
def readRange (c : Ctx) (o : Obj) (n : Nat) (deny : Mv) (k : List Byte → Mv) : Mv := .look fun s =>
  let w := nth o.body 0
  if w.getLsbD 63 then
    let (core, off) := clusterAddr c.core (word (wbits w 55 0))
    if wbits w 55 25 ≠ 0 ∨ 0x40000 < off + n ∨ s.ownsCore c.task.part core = false then deny
    else match s.lockCause core off (off + n - 1) false (whoOf c) with
    | some cause => raiseIssue c.hid cause (word (wbits w 55 0)) 0
    | none => if s.storesTo c.tid none core off n then stall c.hid .register
    else heardIn c core [(off, n)] (k (s.scratch core off n))
  else readShared c (wbits w 55 0) n deny k

/-! ### LAUNCH, SPAWN, ABORT at their issue -/

/-- A launch from the words of its descriptor (R259). -/
def descOf (s : State) (part : Nat) (ws : List Word) (reef : BitVec 12) (base : BitVec 48) (handler : Word) (pri : Nat)
    (inside : Bool) (queue : Option Nat) : LDesc :=
  let w0 := nth ws 0
  let group := wbits w0 31 24
  { n := wbits w0 63 32
    group := group
    members := s.groupMask part group
    reef := reef
    cluster := wbits w0 4 0
    handler := handler
    arg := nth ws 2
    base := base
    stride := BitVec.ofNat 48 (wbits (nth ws 4) 47 0)
    reply := BitVec.ofNat 32 (wbits (nth ws 5) 31 0)
    rkind := (nth ws 6).getLsbD 63
    rhaddr := BitVec.ofNat 54 (wbits (nth ws 6) 53 0)
    pri := pri
    part := part
    inside := inside
    queue := queue
    vf := none
    reset := false }

/-- LAUNCH (R259): the descriptor is read, then the request goes to the dispatcher; `handler` overrides HANDLER. -/
def launch (i : Instr) (f : FL) (srcs : List Src) (handler : Ctx → Option Word) : Mv :=
  let d := f.r.d.toNat
  issue i ⟨some f.r.k, true, srcs, [.s d]⟩ fun c => .look fun s =>
    match s.liveObj c.task.part f.obj.toNat 6 with
    | none => raiseIssue c.hid .bound 0 0
    | some o =>
      if (nth o.body 1).toNat ≠ 64 then raiseIssue c.hid .bound 0 0
      else direct c (
        let refuse : Mv := (answer (destOf c d) 0x0B).andThen (finish c fun h => markEmpty h (.s d))
        readRange c o 64 refuse fun bs => .look fun s =>
          let ws := wordsOf bs
          let reef := BitVec.ofNat 12 (if f.r.a.toNat ≠ 0 then wbits c.a 11 0 else wbits (nth ws 0) 23 12)
          let base := BitVec.ofNat 48 (if f.m.getLsbD 0 then wbits c.b 47 0 else wbits (nth ws 3) 47 0)
          let h := (handler c).getD (word (wbits (nth ws 1) 55 0))
          let inside := s.inReef c.task.part c.task.reef.toNat reef.toNat
          let desc := { descOf s c.task.part ws reef base h f.sc.toNat inside none with vf := c.task.act.vf }
          (upNet fun n => { n with launches := n.launches ++ [⟨desc, some (destOf c d)⟩] }).andThen
            (finish c fun h => markEmpty h (.s d)))

/-- The sources of a TASK instruction: A, B with M[0], C with M[1] (R258). -/
def taskSrcs (f : FL) : List Src :=
  [⟨1, .s f.r.a.toNat, f.r.wa⟩] ++ (if f.m.getLsbD 0 then [⟨2, .s f.r.b.toNat, f.r.wb⟩] else [])
    ++ (if f.m.getLsbD 1 then [srcC f] else [])

/-- A handler address from a register: bits [55:2]. -/
def regHandler (w : Word) : Word := word (wbits w 55 2 * 4)

/-- R259. LAUNCH, form L. -/
def execLaunchL (f : FL) (s : State) : Host.Outcome State Fault Refusal :=
  perform (launch (.launchL f) f (taskSrcs f) fun c => if f.m.getLsbD 1 then some (regHandler c.c) else none) s

/-- R259. LAUNCH, form X. -/
def execLaunchX (f : FX) (s : State) : Host.Outcome State Fault Refusal :=
  perform (launch (.launchX f) f.l (taskSrcs f.l) fun c => some (handlerAt c.addr (sx f.lit))) s

/-- SPAWN (R261): the child's timestamp is raised to its parent's. -/
def spawn (i : Instr) (f : FL) (handler : Ctx → Option Word) : Mv :=
  let d := f.r.d.toNat
  issue i ⟨some f.r.k, true, taskSrcs f, [.s d]⟩ fun c => direct c (
    let ts := if f.m.getLsbD 0 then (if (c.b.setWidth 48).ult c.task.ts then c.task.ts else c.b.setWidth 48) else c.task.ts
    let lid := if isKernel c.core then none else c.task.tag.map fun g => 8 * clusterOf c.core + g.toNat
    let q : SpawnReq := ⟨destOf c d, lid, handler c, c.a, f.sc.toNat, ts, c.task.spawned⟩
    Mv.seq [
      upNet fun n => { n with spawns := n.spawns ++ [q] },
      deferIf c true,
      finish c fun h => markEmpty h (.s d)])

/-- R261. SPAWN, form L. -/
def execSpawnL (f : FL) (s : State) : Host.Outcome State Fault Refusal :=
  perform (spawn (.spawnL f) f fun c => if f.m.getLsbD 1 then some (regHandler c.c) else none) s

/-- R261. SPAWN, form X. -/
def execSpawnX (f : FX) (s : State) : Host.Outcome State Fault Refusal :=
  perform (spawn (.spawnX f) f.l fun c => some (handlerAt c.addr (sx f.lit))) s

/-- ABORT (R262): a request to the dispatcher of the handle's cluster. -/
def abortLaunch (i : Instr) (f : FL) : Mv :=
  let d := f.r.d.toNat
  issue i ⟨some f.r.k, true, [⟨1, .s f.r.a.toNat, f.r.wa⟩], [.s d]⟩ fun c => direct c (
    (upNet fun n => { n with aborts := n.aborts ++ [⟨some (destOf c d), c.a.setWidth 9, c.task.part⟩] }).andThen
      (finish c fun h => markEmpty h (.s d)))

/-- R262. ABORT. -/
def execAbort (f : FL) (s : State) : Host.Outcome State Fault Refusal := perform (abortLaunch (.abort f) f) s

/-- R258, R262. ABORT in format X. -/
def execAbortX (f : FX) (s : State) : Host.Outcome State Fault Refusal := perform (abortLaunch (.abortX f) f.l) s

/-! ### The dispatcher -/

/-- Answering a request that may have no task behind it. -/
def answerOpt (d : Option Dest) (w : Word) : Mv := match d with | some d => answer d w | none => .done

/-- What a dispatcher makes of a LAUNCH request (R25, R260, R262). -/
inductive Accepted where
  | refused (code : Nat)
  /-- N = 0: no tag; the completion is sent at once. -/
  | empty
  | tag (g : Nat)
  deriving DecidableEq, Repr

/-- Launches that a reef's record may hold (R262). -/
def reefLaunches : Nat := 8

/-- The checks of a LAUNCH request (R25, R260; log 29). -/
def State.launchCheck (s : State) (d : LDesc) : Accepted :=
  let c := s.cluster d.cluster
  if c.part ≠ some d.part ∨ clusterCount s.extent ≤ d.cluster then .refused 0x0B
  else if !(membersOf d.members).any (fun m => clusterOf m == d.cluster) then .refused 0x32
  else if !s.reefOpen d.part d.reef.toNat then .refused 0x35
  else if reefLaunches ≤ (match s.reef? d.part d.reef.toNat with | some r => r.launches.length | none => 0) then .refused 0x34
  else if d.n = 0 then .empty
  else match freeTagOf c with
    | none => .refused 0x31
    | some g => .tag g

/-- The budget that a queue has left, in ns: its time in a slot uses it up (R40). -/
def State.budgetLeft (s : State) (i : Nat) (q : Queue) : Nat :=
  match s.mf0.slots.find? fun x => x.2.queue == i with
  | some x => q.left - (s.clock.ns - x.2.since)
  | none => q.left

/-- The answer to a launch queue's head entry: it is no longer with a dispatcher. -/
def Mf0.answered (m : Mf0) (queue : Nat) : Mf0 :=
  { m with queues := tmap (fun i q => if i = queue then { q with inFlight := false } else q) m.queues }

/-- A launch queue has its head entry behind it: the consumer index advances (R248, R298). -/
def consumeEntry (queue : Nat) : Mv := .look fun s =>
  match tget s.mf0.queues queue with
  | none => .done
  | some q => Mv.when q.inFlight (Mv.seq [
      upMf0 fun m => m.answered queue,
      (match s.deviceWrites q.part (q.base.toNat + 8) with
       | some a => writeHome a (toBytes 8 ((memNat s.mem a 8 + 1) % 2 ^ 64))
       | none => .done)])

/-- A dispatcher has refused a queue's head entry with BUSY: it stays, and its slot notes the time (R248). -/
def busyEntry (queue : Nat) : Mv := .look fun s =>
  upMf0 fun m =>
    let m := m.answered queue
    { m with slots := tmap (fun _ x => if x.queue = queue then { x with busyAt := some (x.busyAt.getD s.clock.ns) } else x) m.slots }

/-- The dispatcher of a cluster serves a LAUNCH request (R25, R260, R262); one that traffic of a function led to which has been
reset since ends with RESET as it starts (R249; log 35). -/
def serveLaunch (q : LaunchReq) : Mv := .look fun s =>
  let d := q.desc
  let consume : Mv := match d.queue with | some i => consumeEntry i | none => .done
  match s.launchCheck d with
  | .refused 0x31 => (answerOpt q.dest 0x31).andThen (match d.queue with | some i => busyEntry i | none => .done)
  | .refused code => (answerOpt q.dest (word code)).andThen consume
  | .empty => Mv.seq [
      Mv.when (d.reef != 0) (upReef d.part d.reef.toNat fun r => { r with launches := r.launches ++ [⟨d, 8 * d.cluster, false, false⟩] }),
      answerOpt q.dest 0,
      sendCompletion d none (if d.reset then 2 else 0) 0,
      consume]
  | .tag g =>
    let lid := 8 * d.cluster + g
    Mv.seq [
      upCluster d.cluster fun c => { c with launches := tput c.launches g (Launch.fresh d) },
      upReef d.part d.reef.toNat fun r => { r with launches := r.launches ++ [⟨d, lid, true, false⟩] },
      answerOpt q.dest (word (0x10000 + lid * 256)),
      consume,
      Mv.when d.reset (.look fun s => match s.launch? lid with | some l => killLaunch lid l 2 | none => .done)]

/-- R25. LAUNCH_REQUEST: requests reach a dispatcher in any order. -/
def execLaunchRequest (s : State) : Host.Outcome State Fault Refusal :=
  perform (.look fun s => match ith s.net.launches s.data.n with
    | none => .done
    | some q => Mv.seq [
        upNet fun n => { n with launches := ldel n.launches s.data.n },
        serveLaunch q,
        closeReefs q.desc.part 9 q.desc.reef.toNat]) s

/-- The task quota of a partition (R29). -/
def Part.quotaOf (p : Part) : Nat := if p.image.quota = 0 then 16 * 128 * p.image.shape.length else p.image.quota

/-- The dispatcher serves a SPAWN request (R28, R29, R261). -/
def serveSpawn (q : SpawnReq) : Mv := .look fun s =>
  let lid := q.launch.getD 0
  match q.launch.bind s.launch? with
  | none => answer q.dest 0x33
  | some l =>
    let idx := l.desc.n + l.spawnCount
    let reserved := !q.used
    let full := match s.part? l.desc.part with | some p => decide (p.quotaOf ≤ p.spawnedCount) | none => true
    if 0xFFFFFFFF ≤ idx then answer q.dest 0x36
    else if !reserved && full then answer q.dest 0x30
    else
      let child : Child := ⟨idx, q.ts, q.handler.getD l.desc.handler, q.arg, q.pri, !reserved⟩
      Mv.seq [
        upLaunch lid fun l => { l with children := l.children ++ [child], spawnCount := l.spawnCount + 1 },
        Mv.when (!reserved) (upPart l.desc.part fun p => { p with spawnedCount := p.spawnedCount + 1 }),
        upTask q.dest.tid fun t => { t with spawned := true },
        upNet (fun n => { n with spawns := n.spawns.map fun x => if x.dest.tid = q.dest.tid then { x with used := true } else x }),
        countSent (coreOf q.dest.hid) (lid % 8) 1,
        answer q.dest 0]

/-- R261. SPAWN_ACCEPT: in a deterministic partition at a quantum's end (R44). -/
def execSpawnAccept (s : State) : Host.Outcome State Fault Refusal :=
  perform (.look fun s => match ith s.net.spawns s.data.n with
    | none => .done
    | some q =>
      if s.isDeferred q.dest.tid q.dest.seq then .done
      else (upNet fun n => { n with spawns := ldel n.spawns s.data.n }).andThen (serveSpawn q)) s

/-- The dispatcher serves an ABORT request (R260, R262). -/
def serveAbort (q : AbortReq) : Mv := .look fun s =>
  let lid := q.handle.toNat % 256
  match s.launch? lid with
  | some l =>
    if q.handle.getLsbD 8 = false ∨ l.desc.part ≠ q.part then answerOpt q.dest 0x33
    else (killLaunch lid l 4).andThen (answerOpt q.dest 0)
  | none => answerOpt q.dest 0x33

/-- R262. ABORT_REQUEST; of a deterministic partition at a quantum's end (R341). -/
def execAbortRequest (s : State) : Host.Outcome State Fault Refusal :=
  perform (.look fun s => match ith s.net.aborts s.data.n with
    | none => .done
    | some q => Mv.when (!s.det q.part) <| (upNet fun n => { n with aborts := ldel n.aborts s.data.n }).andThen (serveAbort q)) s

/-! ### Teams that are swapped out -/

/-- The barrier of a launch and group. -/
def State.barrier? (s : State) (lid group : Nat) : Option Barrier :=
  s.net.barriers.find? fun b => b.lid == lid && b.group == group

/-- A task waits in BARW or WAITC, and its wait is not satisfied (R30). -/
def State.waits (s : State) (t : Task) (h : Half) : Bool :=
  match h.block with
  | .waitc ac => (s.core t.core).armed ac
  | .barw group =>
    let lid := t.act.launch.getD 0
    let k := tgetD t.bars group 0 / 2
    !(match s.barrier? lid group with | some b => decide (k ≤ b.generation) | none => false)
  | _ => false

/-- A launch has indices or children unplaced, or activations queued in the inboxes of its group (R30). -/
def State.launchPending (s : State) (lid : Nat) (l : Launch) : Bool :=
  decide (l.next < l.desc.n) || !l.children.isEmpty || s.placedActs.any (fun a => a.2.launch == some lid)

/-- The resident tasks of a launch, with their halves. -/
def State.teamOf (s : State) (lid : Nat) : List (Nat × Task) :=
  s.tasks.filter fun t => t.2.act.launch == some lid && decide (t.2.life = .resident)

/-- What a swapped task waits for has come (R30): its wait is satisfied; for a WAITC also once its launch has no unplaced or
queued task left, or tasks of the launch are resident and all of them wait. -/
def State.waitOver (s : State) (lid : Nat) (l : Launch) (t : Task) (x : Half) : Bool :=
  let team := s.teamOf lid
  match x.block with
  | .barw _ => !s.waits t x
  | .waitc _ => !s.waits t x || !s.launchPending lid l
      || (!team.isEmpty && team.all fun u => s.waits u.2 (s.half (2 * u.2.core + u.2.half)))
  | _ => false

/-- A task of a swapped team may come back (R30): the team is being restored, or what a task of it waits for has come. -/
def State.mayReturn (s : State) (lid : Nat) (l : Launch) (tid : Nat) : Bool :=
  l.outs.any fun o => o.tasks.contains tid && (o.back || o.tasks.any fun u => match s.task? u with
    | some t => (match t.saved with | some x => s.waitOver lid l t x | none => false)
    | none => false)

/-- A task of a swapped team of the launch may return to the core (R30, R250). -/
def State.returning (s : State) (lid : Nat) (l : Launch) (core : Nat) : Bool :=
  l.team.any fun tid => (s.task? tid).any (fun t => t.core == core) && s.mayReturn lid l tid

/-! ### Placement -/

/-- Activations on their way to an inbox of a core. -/
def State.underWay (s : State) (core : Nat) : Nat := (s.net.msgs.filter fun m => m.core == core && (m.act.launch.isSome || m.act.body.isSome)).length

/-- Tasks resident on a core. -/
def State.residentOn (s : State) (core : Nat) : Nat :=
  b2n (decide ((s.half (2 * core)).occ ≠ .free)) + b2n (decide ((s.half (2 * core + 1)).occ ≠ .free))

/-- A member is eligible with a free half, or room in the target inbox (R26). -/
def State.eligible (s : State) (part core pri : Nat) : Bool :=
  s.ownsCore part core && !(s.core core).failed &&
    (decide (s.residentOn core < 2) || decide ((s.core core).taken pri + s.underWay core < inboxEntries))

/-- Resident plus queued activations of a core (R26). -/
def State.loadOf (s : State) (core : Nat) : Nat := s.residentOn core + (s.core core).queued.length + s.underWay core

/-- The least loaded of some cores, ties to the lowest (R26). -/
def State.leastLoaded (s : State) : List Nat → Option Nat
  | [] => none
  | c :: t =>
    match s.leastLoaded t with
    | none => some c
    | some b => if s.loadOf b < s.loadOf c then some b else some c

/-- The activation of a task of a launch (R22, R256, R259). -/
def launchAct (d : LDesc) (lid : Nat) (index : Nat) (ts : BitVec 48) (handler arg : Word) (third : Word) (pri : Nat)
    (counted : Bool) : Act :=
  { Act.blank with
    msg := ⟨h0Of 3 pri (some (lid % 8)) false (wbits handler 55 2), h1Of d.reef ts, h2Of d.reply.toNat 0,
      word (b2n d.rkind * 2 ^ 63 + d.rhaddr.toNat), [arg, word index, third]⟩
    index := BitVec.ofNat 32 index
    launch := some lid
    counted := counted
    vf := d.vf
    queue := d.queue }

/-- Clearing the named regions of a core (R179). -/
def clearRegions (part core : Nat) : Mv := .look fun s =>
  match s.part? part with
  | some p => Mv.each p.image.regions fun r => pokeBytes (scratchAt core r.1) (List.replicate r.2 0)
  | none => .done

/-- The dispatcher places the lowest unplaced index of a launch, then its children in acceptance order (R26), on no core to which
a task of a swapped team of the launch may return (R250), and none while the reef is being re-executed (R35). -/
def placeTask (lid : Nat) : Mv := .look fun s =>
  match s.launch? lid with
  | none => .done
  | some l =>
    let d := l.desc
    let pri := if l.next < d.n then d.pri else match l.children with | c :: _ => c.pri | [] => d.pri
    let ok := match s.reef? d.part d.reef.toNat with | some r => decide (r.state = 1) | none => false
    let cores := (membersOf d.members).filter fun c => clusterOf c == d.cluster && s.eligible d.part c pri && !s.returning lid l c
    match ok, s.leastLoaded cores with
    | true, some core =>
      let clear : Mv := Mv.when (!l.cores.contains core) ((clearRegions d.part core).andThen
        (upLaunch lid fun l => { l with cores := core :: l.cores }))
      if l.next < d.n then
        let ts := BitVec.ofNat 48 (d.base.toNat + l.next * d.stride.toNat)
        Mv.seq [
          clear,
          upLaunch lid fun l => { l with next := l.next + 1 },
          countSent core (lid % 8) 1,
          sendAct deviceSrc core pri (launchAct d lid l.next ts d.handler d.arg (word d.n) pri false)]
      else match l.children with
        | [] => .done
        | x :: rest => Mv.seq [
            clear,
            upLaunch lid fun l => { l with children := rest },
            sendAct deviceSrc core pri (launchAct d lid x.index x.ts x.handler x.arg 0 pri x.counted)]
    | _, _ => .done

/-! ### The end of a launch -/

/-- A core is idle for a launch (R27): no task of it lives or waits for its commit, none is queued, no SPAWN into it is on
its way, and no armed counter of its tag names a handler. The reef's error records are written first (R386). -/
def State.launchIdle (s : State) (lid : Nat) (l : Launch) : Bool :=
  decide (l.desc.n ≤ l.next) && l.children.isEmpty
    && !s.tasks.any (fun t => t.2.act.launch == some lid)
    && !s.placedActs.any (fun a => a.2.launch == some lid) && !s.net.spawns.any (fun q => q.launch == some lid)
    && !s.net.errors.any (fun e => e.part == l.desc.part && e.reef == l.desc.reef.toNat)
    && !s.cores.any (fun c => (c.2.arrivals.any fun a => a.2.armed && a.2.handler.isSome && a.2.launch == some lid)
      || c.2.due.any fun a => a.2.launch == some lid)

/-- Messages sent and received under a tag on the compute cores of its cluster (R27). -/
def State.tagSums (s : State) (lid : Nat) : Nat × Nat :=
  let cores := s.cores.filter fun c => !isKernel c.1 && clusterOf c.1 == lid / 8
  (cores.foldl (fun n c => n + (tgetD c.2.sent (lid % 8) 0).toNat) 0 % 2 ^ 32,
   cores.foldl (fun n c => n + (tgetD c.2.recv (lid % 8) 0).toNat) 0 % 2 ^ 32)

/-- The status with which a launch ends of itself (R27, R249). -/
def Launch.status (l : Launch) : Nat := if l.withdrawn then 3 else if l.error then 1 else 0

/-- R27. LAUNCH_END_SWEEP: two sweeps in a row that find every core idle and the same equal sums end the launch. -/
def execLaunchEndSweep (s : State) : Host.Outcome State Fault Refusal :=
  perform (.look fun s =>
    let lid := s.data.n
    match s.launch? lid with
    | none => .done
    | some l =>
      let (sent, recv) := s.tagSums lid
      if s.launchIdle lid l && sent == recv then
        if l.sweep = some sent then Mv.seq [
          sendCompletion l.desc (some (lid % 8)) l.status l.committed,
          freeTag lid l.desc false,
          closeReefs l.desc.part 9 l.desc.reef.toNat]
        else upLaunch lid fun l => { l with sweep := some sent }
      else upLaunch lid fun l => { l with sweep := none }) s

/-! ### Barriers -/

/-- The generation that a task index has reached; an ended task has arrived at every one (R268). -/
def Barrier.at_ (b : Barrier) (idx : Nat) : Nat := tgetD b.arrived idx 0

/-- What the arrivals of a task are kept under (R268): its index; for a task that a message started, a number above every
index, which an abort leaves (R37). -/
def Act.arrivalKey (a : Act) (tid : Nat) : Nat := if a.placed then a.index.toNat else 2 ^ 32 + a.again.getD tid

/-- Every task of the launch that has not ended has arrived at the next generation (R268). -/
def State.generationDone (s : State) (b : Barrier) : Bool :=
  match s.launch? b.lid with
  | none => false
  | some l =>
    decide (l.desc.n ≤ l.next) && l.children.isEmpty
      && !s.placedActs.any (fun a => a.2.launch == some b.lid && (a.2.placed || a.2.again.isSome)
          && decide (b.at_ (a.2.arrivalKey 0) ≤ b.generation))
      && !s.tasks.any (fun t => t.2.act.launch == some b.lid && decide (t.2.life ≠ .ended)
          && decide (b.at_ (t.2.act.arrivalKey t.1) ≤ b.generation))
      && b.arrived.any (fun a => decide (b.generation < a.2))

/-- Recording an arrival: the k-th BAR or BARW of a run on a group is generation k; a repeated one adds nothing
(R268). -/
def recordArrival (lid group idx k : Nat) : Mv := upNet fun n =>
  if n.barriers.any fun b => b.lid == lid && b.group == group then
    { n with barriers := n.barriers.map fun b => if b.lid == lid && b.group == group
        then { b with arrived := tput b.arrived idx (max k (b.at_ idx)) } else b }
  else { n with barriers := n.barriers ++ [⟨lid, group, [(idx, k)], 0⟩] }

/-- BAR and BARW (R268): the arrival is recorded once; a BARW that finds its generation incomplete waits. -/
def barrier (i : Instr) (f : FL) (waits : Bool) : Mv :=
  issue i ⟨some f.r.k, true, [], []⟩ fun c => .look fun s =>
    let group := f.obj.toNat
    let mask := s.groupMask c.task.part group
    let lid := if isKernel c.core then none else c.task.tag.map fun g => 8 * clusterOf c.core + g.toNat
    match lid with
    | none => raiseIssue c.hid .bound 0 0
    | some lid =>
      if 256 ≤ group ∨ mask = 0 ∨ mask.getLsbD c.core = false then raiseIssue c.hid .bound 0 0
      else
        let seen := tgetD c.task.bars group 0
        let again := seen % 2 = 1
        let k := seen / 2 + (if again then 0 else 1)
        let done := !waits || (match s.barrier? lid group with | some b => decide (k ≤ b.generation) | none => false)
        Mv.seq [
          upTask c.tid fun t => { t with bars := tput t.bars group (2 * k + (if done then 0 else 1)) },
          Mv.when (!again) (recordArrival lid group (c.task.act.arrivalKey c.tid) k),
          if done then retire c else stall c.hid (.barw group)]

/-- R268. BAR. -/
def execBar (f : FL) (s : State) : Host.Outcome State Fault Refusal := perform (barrier (.bar f) f false) s

/-- R268. BARW. -/
def execBarw (f : FL) (s : State) : Host.Outcome State Fault Refusal := perform (barrier (.barw f) f true) s

/-- A generation of the i-th barrier completes; its waiters continue at their next issue (R268). -/
def completeGeneration (i : Nat) : Mv := .look fun s =>
  match ith s.net.barriers i with
  | none => .done
  | some b => Mv.when (s.generationDone b)
      (upNet fun n => { n with barriers := lset n.barriers i { b with generation := b.generation + 1 } })

/-- The partition of a barrier's launch. -/
def State.barrierPart (s : State) (b : Barrier) : Nat := match s.launch? b.lid with | some l => l.desc.part | none => 0

/-- R268. BARRIER_GENERATION_COMPLETE; in a deterministic partition at a quantum's end (R342). -/
def execBarrierGenerationComplete (s : State) : Host.Outcome State Fault Refusal :=
  perform (.look fun s => match ith s.net.barriers s.data.n with
    | none => .done
    | some b => if s.det (s.barrierPart b) then .done else completeGeneration s.data.n) s

end Sys2Proof.Machine
end

