-- ==== Sys2Proof/Machine/Reefs.lean ====
section
/-! DEFINITION. Reefs: REEF, REEFX, REEFQ and re-execution (spec/02, R33 to R35; spec/14, R263 to R266, R389). -/
namespace Sys2Proof.Machine

/-- A range of a reef range list (R263). -/
structure ReefRange where
  scratch : Bool
  base : Nat
  len : Nat
  held : Bool
  deriving DecidableEq, Repr

/-- A range that obeys the rules of R263. -/
def rangeOk (w0 w1 : Word) : Bool :=
  let base := wbits w0 55 0
  w1 != 0 && w1.toNat % 64 == 0 && base % 64 == 0
    && (!w0.getLsbD 63 || (wbits w0 62 25 == 0 && decide (wbits w0 17 0 + w1.toNat ≤ 0x40000)))

/-- The ranges of a list of words, the first `pres` of them preserved; none when one is malformed. -/
def reefRanges (pres : Nat) : Nat → List Word → Option (List ReefRange)
  | i, w0 :: w1 :: t =>
    if rangeOk w0 w1 then
      match reefRanges pres (i + 1) t with
      | some l => some (⟨w0.getLsbD 63, wbits w0 55 0, w1.toNat, decide (pres ≤ i)⟩ :: l)
      | none => none
    else none
  | _, _ => some []

/-- A range as a span: a scratchpad one names its core (R158). -/
def spanOf (core : Nat) (r : ReefRange) : Span :=
  if r.scratch then
    let t := clusterAddr core (word r.base)
    ⟨true, t.1, t.2, r.len, true⟩
  else ⟨false, 0, r.base, r.len, true⟩

/-- Whether two spans share a byte. -/
def Span.meets (a b : Span) : Bool :=
  a.scratch == b.scratch && (!a.scratch || a.core == b.core) && decide (a.base < b.base + b.len) && decide (b.base < a.base + a.len)

/-- Whether a span lies wholly inside another. -/
def Span.within (a b : Span) : Bool :=
  a.scratch == b.scratch && (!a.scratch || a.core == b.core) && decide (b.base ≤ a.base) && decide (a.base + a.len ≤ b.base + b.len)

/-- Whether the ranges of a new reef overlap an open reef's in a way that R389 forbids. -/
def State.reefConflict (s : State) (part parent : Nat) (pres held : List Span) : Bool :=
  match s.part? part with
  | none => false
  | some p =>
    let ancestors := s.reefChain part 9 parent
    let others := p.reefs.filter fun r => r.2.state != 0
    let oldPres := others.flatMap fun r => r.2.pres
    let mayHold := (others.filter fun r => ancestors.contains r.1).flatMap fun r => r.2.held
    held.any (fun h => (oldPres ++ pres).any h.meets
        || (others.any fun r => r.2.held.any fun x => h.meets x && !mayHold.any h.within))
      || pres.any (fun x => (others.filter fun r => !ancestors.contains r.1).any fun r => r.2.held.any x.meets)

/-- Guards that a station holds (R288). -/
def guardCapacity : Nat := 128

/-- Free entries for a new reef's ranges: in the lock table of the opener's cluster, and in every station of the
partition (R264, R296). -/
def State.reefRoom (s : State) (part core : Nat) (spans : List Span) : Bool :=
  let own := (spans.filter (·.scratch)).length
  let shared := (spans.filter fun x => !x.scratch).length
  decide ((s.cluster (clusterOf core)).locks.length + own ≤ lockCapacity)
    && (match s.part? part with
        | some p => p.image.shape.all fun n => [0, 1].all fun j =>
            decide ((s.station (2 * n + j)).guards.length + shared ≤ guardCapacity)
        | none => false)

/-- The lowest free reef record (R33, R264; log 30). -/
def Part.freeReef (p : Part) : Option Nat := (List.range 4095).findSome? fun i => if (tget p.reefs (i + 1)).isNone then some (i + 1) else none

/-- The locks and guards of a new reef take force (R34, R296). -/
def setGuards (part id core asid : Nat) (spans : List Span) (kind : Nat) : Mv := .look fun s =>
  let clusters := match s.part? part with | some p => p.image.shape | none => []
  Mv.each spans fun x =>
    let lock : Lock := ⟨kind, if x.scratch then x.core else asid, x.base, x.base + x.len - 1, .reef part id⟩
    if x.scratch then upCluster (clusterOf core) fun c => { c with locks := c.locks ++ [lock] }
    else Mv.each clusters fun n => (upStation (2 * n) fun t => { t with guards := t.guards ++ [lock] }).andThen
      (upStation (2 * n + 1) fun t => { t with guards := t.guards ++ [lock] })

/-- The commit arbiters of a partition: eight for each of its clusters (R6; log 34). -/
def Part.arbiters (p : Part) : List Nat := p.image.shape.flatMap fun n => (List.range 8).map fun i => 8 * n + i

/-- An entry of the arbiter list; until QMAP writes it, the partition's arbiters in turn (R288). -/
def Part.arbiterAt (p : Part) (i : Nat) : Nat :=
  match tget p.arbList i with
  | some a => a.toNat
  | none => p.arbiters.getD (i % p.arbiters.length) 0

/-- The record that a reef starts with. -/
def Reef.opened (parent depth arbiter : Nat) (opener : Nat) (pres held : List Span) : Reef :=
  ⟨1, parent, depth, pres, held, [], arbiter, some opener, none, false, false⟩

/-- The error record of a reef lies on a page that is not mapped (R386). -/
def State.recordFaults (s : State) (part id : Nat) : Bool :=
  match s.part? part with
  | some p => decide (s.deviceSpa part (p.image.errBase.toNat + 128 * id) = .fault)
  | none => false

/-- Opening a reef with its ranges: the id or the negative code of R264 goes to `k`. Its error record is cleared first; a
page of it that faults holds the instruction (R190, R386). -/
def openReef (c : Ctx) (l : List ReefRange) (k : Int → Mv) : Mv := .look fun s =>
  let part := c.task.part
  let parent := c.task.reef.toNat
  match s.part? part with
  | none => k (-1)
  | some p =>
    let depth := match tget p.reefs parent with | some r => r.depth + 1 | none => 1
    let pres := (l.filter fun r => !r.held).map (spanOf c.core)
    let held := (l.filter (·.held)).map (spanOf c.core)
    match p.freeReef with
    | none => k (-1)
    | some id =>
      if 8 < depth ∨ s.reefRoom part c.core (pres ++ held) = false then k (-1)
      else if s.reefConflict part parent pres held then k (-2)
      else if s.recordFaults part id && c.h.refusedAt.isNone then
        syncFault c.hid (s.party c.core) .write (p.image.errBase.toNat + 128 * id)
      else Mv.seq [
        (match s.deviceWrites part (p.image.errBase.toNat + 128 * id) with
         | some a => writeHome a (List.replicate 128 0)
         | none => .done),
        upNet fun n => { n with errors := n.errors.filter fun e => !(e.part == part && e.reef == id) },
        upPart part fun p =>
          let a := p.arbiterAt (id % 64)
          { p with reefs := tput p.reefs id (Reef.opened parent depth a c.tid pres held) },
        setGuards part id c.core (s.asidOf part) pres 3,
        setGuards part id c.core (s.asidOf part) held 4,
        k id]

/-- R263, R264. REEF. -/
def execReef (f : FL) (s : State) : Host.Outcome State Fault Refusal :=
  let d := f.r.d.toNat
  perform (issue (.reef f) ⟨some f.r.k, true, [], [.s d]⟩ fun c => .look fun s =>
    match s.liveObj c.task.part f.obj.toNat 6 with
    | none => raiseIssue c.hid .bound 0 0
    | some o =>
      let len := (nth o.body 1).toNat
      let done (v : Int) : Mv := finish c fun h => writeS h d (wordI v)
      direct c (if len < 8 then done (-3)
        else readRange c o 8 (done (-3)) fun b0 =>
          let w := nth (wordsOf b0) 0
          let pres := wbits w 3 0
          let n := pres + wbits w 7 4
          if 8 < pres ∨ 8 < wbits w 7 4 ∨ len < 8 + 16 * n then done (-3)
          else readRange c o (8 + 16 * n) (done (-3)) fun bs =>
            match reefRanges pres 0 ((wordsOf bs).drop 1) with
            | none => done (-3)
            | some l => openReef c l done)) s

/-- R265. REEFX: a re-execution that takes in the task's own reef discards the task, which issues nothing more, and sD is
never written. -/
def execReefx (f : FL) (s : State) : Host.Outcome State Fault Refusal :=
  let d := f.r.d.toNat
  perform (issue (.reefx f) ⟨some f.r.k, true, [⟨1, .s f.r.a.toNat, f.r.wa⟩], [.s d]⟩ fun c => direct c (.look fun s =>
    let part := c.task.part
    let id := wbits c.a 11 0
    let open_ := match s.reef? part id with | some r => decide (r.state = 1) | none => false
    if id = 0 then finish c fun h => writeS h d (wordI (-2))
    else if !open_ then finish c fun h => writeS h d (wordI (-1))
    else match s.selectReef part id with
      | none => finish c fun h => writeS h d (wordI (-2))
      | some r =>
        let f := s.reexecTarget part r
        if s.inReef part c.task.reef.toNat f then Mv.seq [startReexec part r, finish c fun h => markEmpty h (.s d), haltTask c.tid]
        else (startReexec part r).andThen (finish c fun h => writeS h d (word f)))) s

/-- Uncommitted tasks of a reef: resident, ended, queued, and not yet placed (R38, R266). -/
def State.openTasks (s : State) (part id : Nat) : Nat :=
  (s.tasks.filter fun t => t.2.part == part && t.2.reef.toNat == id).length
    + (s.placedActs.filter fun a => a.2.counts && a.2.reef.toNat == id && s.partOf a.1 == some part).length
    + (s.clusters.filter fun c => c.2.part == some part).foldl (fun n c => n + (c.2.launches.filter fun l => l.2.desc.reef.toNat == id).foldl
        (fun n l => n + (l.2.desc.n - l.2.next) + l.2.children.length) 0) 0

/-- The word that REEFQ writes (R266). -/
def State.reefWord (s : State) (part id : Nat) : Word :=
  match s.reef? part id with
  | none => word (b2n (decide (s.errorCount part id ≠ 0)) * 2 ^ 3)
  | some r => word (r.parent * 2 ^ 52 + r.depth * 2 ^ 48 + min r.launches.length 255 * 2 ^ 32
      + min (s.openTasks part id) 0xFFFFFF * 2 ^ 8 + b2n (decide (s.errorCount part id ≠ 0)) * 2 ^ 3
      + (if r.reexecuting then 2 else r.state))

/-- R266. REEFQ. -/
def execReefq (f : FL) (s : State) : Host.Outcome State Fault Refusal :=
  perform (issue (.reefq f) ⟨some f.r.k, true, [⟨1, .s f.r.a.toNat, f.r.wa⟩], [.s f.r.d.toNat]⟩ fun c => .look fun s =>
    finish c fun h => writeS h f.r.d.toNat (s.reefWord c.task.part (wbits c.a 11 0))) s

/-- A reef of a lost package whose inputs cannot be rebuilt: its launches complete with status ERROR, and it is gone (R353). -/
def giveUpReef (part id : Nat) (r : Reef) : Mv := Mv.seq [
  Mv.each (r.launches.filter fun l => !l.desc.inside) (fun l => sendCompletion l.desc none 1 0),
  releaseReef part id,
  upPart part fun p => { p with reefs := tdel p.reefs id }]

/-- R35. REEF_REEXECUTION: steps 2 to 5 for a reef whose arbiter has stopped; in a deterministic partition at a
quantum's end (R341). With `yes` the inputs of a reef of a lost package cannot be rebuilt (R353). -/
def execReefReexecution (s : State) : Host.Outcome State Fault Refusal :=
  perform (.look fun s => match s.reef? s.data.n s.data.m with
    | some r =>
      if r.state ≠ 2 then .done
      else if r.taken && s.data.yes then giveUpReef s.data.n s.data.m r
      else if s.det s.data.n then .done
      else reexecute s.data.n s.data.m
    | none => .done) s

end Sys2Proof.Machine
end

