-- ==== Sys2Proof/Machine/Saves.lean ====
section
/-! DEFINITION. Taking a task out of its half and putting it back: YIELD, forced saves, slices, double-buffered halves,
team swaps, SSAV and SRST (spec/02, R30, R41, R43; spec/05, R81; spec/15, R282 to R285; spec/16, R299). -/
namespace Sys2Proof.Machine

/-! ### Register images -/

/-- Which groups of registers an image takes (R81): bits of the s groups, of the v groups, K, and of the accumulators. -/
structure Groups where
  s : Nat
  v : Nat
  k : Bool
  a : Nat
  deriving DecidableEq, Repr

/-- The groups that a block header names. -/
def groupsOf (w : Word) : Groups := ⟨hdrLiveS w, hdrLiveV w, hdrLiveK w, hdrLiveA w⟩

/-- Every group (R299). -/
def Groups.all : Groups := ⟨255, 255, true, 15⟩

/-- The registers of the groups. -/
def Groups.regs (g : Groups) : List Reg :=
  ((List.range 32).filter fun r => g.s.testBit (r / 4)).map .s
  ++ ((List.range 32).filter fun r => g.v.testBit (r / 4)).map .v
  ++ (if g.k then (List.range 7).map fun r => .k (r + 1) else [])
  ++ ((List.range 4).filter fun r => g.a.testBit r).map .a

/-- Instructions that a save abandons and a restore issues again: LD, LDV, LDK, LDS and LDSV (R81). -/
def abandonedBySave (e : Entry) : Bool :=
  match decode [e.p0, e.p1, e.p2] with
  | .ok (i, _) => (match i with | .ld _ | .ldv _ | .ldk _ | .lds _ | .ldsv _ => true | _ => false)
  | .error _ => false

/-- A save has to wait: a live register is owed a value by something else than an abandoned load, a matrix multiply is
outstanding (R160), or a request of the task is deferred to its quantum's end (R44, R81). -/
def State.saveWaits (s : State) (h : Half) (g : Groups) : Bool :=
  let loads := (h.replay.filter abandonedBySave).map (·.seq)
  let lo := s.floorOf h.tid
  let hard (q : Nat) : Bool := decide (lo ≤ q) && decide (q < abandoned) && !loads.contains q
  (g.regs.any fun r => s.owedBy h.tid hard r || isBusy h r) || h.hold.isSome
    || ((s.core (coreOf (s.taskHid h.tid))).mops.any fun m => m.tid == h.tid && (m.loaded || !m.jib)) || s.deferred.any (fun d => d.tid == h.tid && d.held)

/-- Keeping the registers of some groups, the others 0 and full (R81); s30 is always kept (R284). -/
def imageOf (g : Groups) (h : Half) : Half :=
  let s := Vector.ofFn fun i : Fin 32 => if g.s.testBit (i.val / 4) || i.val == 30 then readS h i.val else 0
  let v := Vector.ofFn fun i : Fin 32 => if g.v.testBit (i.val / 4) then readV h i.val else 0
  let k := Vector.ofFn fun i : Fin 8 => if i.val = 0 then BitVec.allOnes 1024 else if g.k then readK h i.val else 0
  let a := Vector.ofFn fun i : Fin 4 => if g.a.testBit i.val then readA h i.val else Acc.zero
  let liveS := BitVec.ofNat 32 (ofElems 1 ((List.range 32).map fun i => b2n (g.s.testBit (i / 4) || i == 30)))
  let liveV := BitVec.ofNat 32 (ofElems 1 ((List.range 32).map fun i => b2n (g.v.testBit (i / 4))))
  let liveA := BitVec.ofNat 4 g.a
  { h with
    s := s
    v := v
    k := k
    a := a
    fes := h.fes ||| ~~~ liveS
    fev := h.fev ||| ~~~ liveV
    fek := if g.k then h.fek else BitVec.allOnes 8
    fea := h.fea ||| ~~~ liveA }

/-- The half as its save keeps it (R81, R283): the abandoned loads come before what an interrupted re-injection has
left. -/
def savedHalf (g : Groups) (h : Half) : Half :=
  let h := settleJib h
  let entries := h.replay.filter abandonedBySave ++ h.reinj
  { imageOf g h with
    jib := h.jib.map fun j => { j with found := none }
    busyS := 0
    busyV := 0
    busyK := 0
    busyA := 0
    replay := []
    spares := []
    reinj := entries
    reissue := none
    hold := none
    preq := false }

/-! ### Leaving a half -/

/-- A saved task's loads and matrix operations in flight are dropped (R81). -/
def dropInFlight (tid core : Nat) : Mv := Mv.seq [
  upCore core fun c => { c with mops := c.mops.filter fun m => m.tid != tid },
  upNet fun n => { n with reqs := n.reqs.filter fun r => !(r.tid == tid && speculative r.acc && decide (r.acc ≠ .probe))
                          fills := n.fills.filter fun f => f.tid != tid || f.completion || f.sent.isSome }]

/-- Taking a task out of its half (R41, R283): the image, the resident clk, and the trap frame of a running handler
are kept with it, and not in memory (log 109). The half is left as `after`, and the pre-emption count starts again. -/
def saveTask (hid : Nat) (img : Half) (after : Half) (life : Life) : Mv := .look fun s =>
  let h := s.half hid
  let core := coreOf hid
  let fa := readS h 30
  let frame := if h.ctl.trapd && frameFits h.ctl.stage fa.toNat then s.scratch core fa.toNat 0x1800 else []
  Mv.seq [
    dropInFlight h.tid core,
    upTask h.tid fun t => { t with
      life := life
      saved := some img
      savedFrame := frame
      savedAt := fa
      wdBase := t.wdBase + (s.clock.clk - t.wdFrom)
      floor := h.seq },
    .one (.half hid after),
    upCore core fun c => { c with preqFrom := s.clock.clk }]

/-- A half that a save of a task drains from. -/
def Half.draining (tid : Nat) : Half := { Half.reset with occ := .draining, tid := tid }

/-! ### Coming back -/

/-- The half of a task that a restore has filled (R284): kernel-set registers take the partition's values, PREQ stands as a
slice's end has left it in the half meanwhile, and an instruction that waited issues again. -/
def restoredHalf (s : State) (part tid : Nat) (preq : Bool) (x : Half) : Half :=
  let x := { x with occ := .live, tid := tid, block := .none, preq := preq }
  match s.part? part with
  | some p => { x with ctl := { x.ctl with quant := p.quant, pdl := p.pdl, wdog := p.wdog } }
  | none => x

/-- Putting a task into a half (R284): image, trap frame, identity, watchdog. -/
def restoreTask (tid hid : Nat) : Mv := .look fun s =>
  match s.task? tid with
  | none => .done
  | some t =>
    match t.saved with
    | none => .done
    | some x => Mv.seq [
        Mv.when (!t.savedFrame.isEmpty) (pokeBytes (scratchAt (coreOf hid) t.savedAt.toNat) t.savedFrame),
        .one (.half hid (restoredHalf s t.part tid (s.half hid).preq x)),
        upTask tid fun t => { t with life := .resident, core := coreOf hid, half := hid % 2, saved := none, savedFrame := []
                                     wdFrom := s.clock.clk }]

/-! ### YIELD -/

/-- R282. YIELD: with PREQ clear it does nothing. -/
def execYield (f : FA) (s : State) : Host.Outcome State Fault Refusal :=
  perform (issue (.yield f) (specK f) fun c => .look fun s =>
    let next := pcOf c.h + word (4 * c.len)
    if !c.h.preq then notTaken c id
    else match fetchHeader s c.core next with
      | .notHeader => raiseIssue c.hid .badtgt next 0
      | .refused a => raiseIssue c.hid .access a 0
      | .fault a => if c.h.refusedAt.isSome then raiseIssue c.hid .access a 0 else syncFault c.hid (s.party c.core) .fetch a.toNat
      | .ok w =>
        if !s.quiet c.hid c.h then stall c.hid .register
        else
          let h := { c.h with hdr := next, roff := 0, entering := true, block := .none, seq := c.h.seq + 1, refusedAt := none
                              traps := c.h.traps ++ stepTrap c }
          (retireNow c.hid).andThen (saveTask c.hid (savedHalf (groupsOf w) h) (Half.draining c.tid) .saved)) s

/-! ### Slices and forced saves -/

/-- R41. SLICE_END: PREQ in every half that runs a task of the tenant, or is about to, on the cores that are not already left.
The tenant's entries leave the inboxes of the cores that it held (R245). -/
def execSliceEnd (s : State) : Host.Outcome State Fault Refusal :=
  perform (.look fun s =>
    let mine (core : Nat) : Bool := s.partOf core == some s.data.n && !s.leaving core
    let halves := (s.halves.filter fun h => (decide (h.2.occ = .live) || decide (h.2.occ = .filling)) && mine (coreOf h.1)).map (·.1)
    let cores := (s.cores.map (·.1) ++ halves.map coreOf).eraseDups.filter mine
    Mv.seq [
      Mv.each cores fun c => upCore c fun x => { x.setAside with preqFrom := s.clock.clk },
      Mv.each halves fun hid => upHalf hid fun h => { h with preq := true }]) s

/-- PREQ is set in a half of the core. -/
def State.preempted (s : State) (core : Nat) : Bool := (s.half (2 * core)).preq || (s.half (2 * core + 1)).preq

/-- The pre-emption deadline count of a core (R332). -/
def State.pdlc (s : State) (core : Nat) : Nat :=
  if s.preempted core then min (s.clock.clk - (s.core core).preqFrom) (2 ^ 32 - 1) else 0

/-- R41. PDL_FORCED_SAVE: when the count has reached PDL, no trap waits for delivery, and nothing that the save has
to wait for is outstanding (R81, R283). -/
def execPdlForcedSave (s : State) : Host.Outcome State Fault Refusal :=
  perform (.look fun s =>
    let hid := s.data.n
    let h := s.half hid
    let g := groupsOf h.hdrWord
    if h.occ ≠ .live || !h.preq || decide (s.pdlc (coreOf hid) < h.ctl.pdl.toNat)
      || (!h.traps.isEmpty && !h.ctl.trapd) || s.saveWaits h g then .done
    else saveTask hid (savedHalf g h) (Half.draining h.tid) .saved) s

/-- R43. SAVE_COMPLETE: the drained half is free. -/
def execSaveComplete (s : State) : Host.Outcome State Fault Refusal :=
  perform (.look fun s => Mv.when (decide ((s.half s.data.n).occ = .draining)) (.one (.half s.data.n Half.reset))) s

/-- R43. RESTORE_COMPLETE: a free half begins to fill for the core's saved task of highest priority; a filling half
goes over to one of higher priority, or its task begins issuing. -/
def execRestoreComplete (s : State) : Host.Outcome State Fault Refusal :=
  perform (.look fun s =>
    let hid := s.data.n
    let core := coreOf hid
    let h := s.half hid
    let begin_ (tid : Nat) : Mv := .one (.half hid { Half.reset with occ := .filling, tid := tid })
    match h.occ with
    | .free =>
      (match s.waitingTask core with
       | some tid => Mv.when (!(s.core core).failed) ((upCore core Core.takeBack).andThen (begin_ tid))
       | none => .done)
    | .filling =>
      (match s.waitingTask core with
       | some y =>
         let pri (t : Nat) : Nat := match s.task? t with | some t => t.pri | none => 0
         if pri h.tid < pri y then begin_ y else restoreTask h.tid hid
       | none => restoreTask h.tid hid)
    | _ => .done) s

/-! ### Team swaps -/

/-- A task's wait that tasks of its launch which are not resident may have to satisfy (R30): those without a place,
and for a BARW those of a swapped team that have not arrived. -/
def State.waitsOut (s : State) (lid : Nat) (l : Launch) (t : Task) (h : Half) : Bool :=
  s.waits t h && (s.launchPending lid l
    || (match h.block with
        | .barw group =>
          let k := tgetD t.bars group 0 / 2
          l.team.any fun tid => match s.task? tid, s.barrier? lid group with
            | some u, some b => decide (b.at_ (u.act.arrivalKey tid) < k)
            | _, _ => false
        | _ => false))

/-- The bytes of the named regions of a core, in the order of the layout. -/
def State.regionBytes (s : State) (part core : Nat) : List Byte :=
  match s.part? part with
  | some p => p.image.regions.flatMap fun r => s.scratch core r.1 r.2
  | none => []

/-- Writing named regions back (R30). -/
def pokeRegions (core : Nat) : List (Nat × Nat) → List Byte → Mv
  | [], _ => .done
  | r :: t, bs => (pokeBytes (scratchAt core r.1) (bs.take r.2)).andThen (pokeRegions core t (bs.drop r.2))

/-- A team is to be swapped out (R30): a task of it waits for tasks that are not resident, and every half of the
eligible members holds a task of the launch. -/
def State.teamBlocked (s : State) (lid : Nat) (l : Launch) : Bool :=
  let members := (membersOf l.desc.members).filter fun c => clusterOf c == l.desc.cluster && s.ownsCore l.desc.part c
  let holds (hid : Nat) : Bool := match s.taskOf hid with
    | some t => t.act.launch == some lid && decide ((s.half hid).occ = .live)
    | none => false
  let team := s.teamOf lid
  (team.any fun t => s.waitsOut lid l t.2 (s.half (2 * t.2.core + t.2.half))) && !members.isEmpty && members.all (fun c => holds (2 * c) && holds (2 * c + 1))
    && !team.any (fun t =>
      let h := s.half (2 * t.2.core + t.2.half)
      s.saveWaits h (groupsOf h.hdrWord) || (!h.traps.isEmpty && !h.ctl.trapd))

/-- R30. TEAM_SWAP_OUT: registers and named regions are saved, the halves are free. -/
def execTeamSwapOut (s : State) : Host.Outcome State Fault Refusal :=
  perform (.look fun s =>
    let lid := s.data.n
    match s.launch? lid with
    | none => .done
    | some l =>
      if !s.teamBlocked lid l then .done
      else
        let team := s.teamOf lid
        let cores := team.map fun t => t.2.core
        let regions := cores.foldl (fun r c => tput r c (s.regionBytes l.desc.part c)) []
        Mv.seq [
          upLaunch lid fun l => { l with outs := l.outs ++ [⟨team.map (·.1), regions, false⟩] },
          Mv.each team fun t =>
            let hid := 2 * t.2.core + t.2.half
            let h := s.half hid
            saveTask hid (savedHalf (groupsOf h.hdrWord) h) Half.reset .saved,
          countPerf l.desc.cluster 0x0F 1]) s

/-- A swapped team after a task has returned to its core, whose regions are then written back: all of it is being restored. -/
def TeamOut.without (o : TeamOut) (tid core : Nat) : TeamOut :=
  if o.tasks.contains tid then ⟨o.tasks.filter (· != tid), tdel o.regions core, true⟩ else o

/-- R30. TEAM_RESTORE: a task returns to a free half of its own core; the first one writes the core's regions back. -/
def execTeamRestore (s : State) : Host.Outcome State Fault Refusal :=
  perform (.look fun s =>
    let tid := s.data.n
    let hid := s.data.m
    match s.task? tid with
    | none => .done
    | some t =>
      let lid := t.act.launch.getD 0
      match s.launch? lid with
      | none => .done
      | some l =>
        if decide (coreOf hid ≠ t.core) || decide ((s.half hid).occ ≠ .free) || !s.mayReturn lid l tid then .done
        else
          let layout := match s.part? t.part with | some p => p.image.regions | none => []
          Mv.seq [
            (match (l.outs.find? fun o => o.tasks.contains tid).bind fun o => tget o.regions t.core with
             | some bs => pokeRegions t.core layout bs
             | none => .done),
            upLaunch lid fun l => { l with outs := (l.outs.map fun o => o.without tid t.core).filter fun o => !o.tasks.isEmpty },
            restoreTask tid hid]) s

/-! ### Activation -/

/-- The core as an activation finds it: the entries that a slice's end took out are back once the tenant has left and none of its
tasks is to be restored (R245; log 54). -/
def State.coreNow (s : State) (core : Nat) : Core :=
  if s.leaving core || (s.waitingTask core).isSome then s.core core else (s.core core).takeBack

/-- R24. TASK_ACTIVATION: a free half activates the head message. -/
def execTaskActivation (s : State) : Host.Outcome State Fault Refusal :=
  perform (.look fun s =>
    let hid := s.data.n
    let core := coreOf hid
    let c := s.coreNow core
    match s.partOf core with
    | none => .done
    | some part =>
      match s.part? part, c.head with
      | some p, some (pri, a) =>
        if (s.half hid).occ ≠ .free || c.failed || !p.running then .done
        else withId fun id =>
          let tid := id + 1
          Mv.seq [
            .one (.core core (c.setInbox pri (c.inbox pri).pop)),
            .one (.task tid (some (s.startTask core (hid % 2) part pri a))),
            .one (.half hid (s.startHalf core tid p a)),
            (match s.jibSet part with | some x => wantSet (clusterOf core) part x.1 | none => .done),
            (match a.pageReq with
             | some i => upMf0 fun m => match tget m.pages i with
               | some e => { m with pages := tput m.pages i { e with state := 2 } }
               | none => m
             | none => .done)]
      | _, _ => .done) s

/-! ### SSAV and SRST -/

/-- Bytes at an offset of a list, zeros beyond its end. -/
def sliceOf (l : List Byte) (off n : Nat) : List Byte :=
  let x := (l.drop off).take n
  x ++ List.replicate (n - x.length) 0

/-- Parts laid over zeros. -/
def layBytes (n : Nat) (parts : List (Nat × List Byte)) : List Byte :=
  parts.foldl (fun l p => l.take p.1 ++ p.2 ++ l.drop (p.1 + p.2.length)) (List.replicate n 0)

/-- An accumulator in a register image (R81; log 31): 8,584 bytes. -/
def accBytes (a : Acc) : List Byte :=
  ((List.range 1024).flatMap fun i => toBytes 8 ((tgetD a.elems i 0).toNat + b2n (a.mb.getLsbD i) * 2 ^ 63))
    ++ toBytes 8 (sx a.e).toNat ++ ([a.m, a.l, a.c].flatMap fun r => r.toList.flatMap fun x => toBytes 4 x.toNat)

/-- The register image of a half (R81): the groups that its header names, in order. -/
def imageBytes (g : Groups) (h : Half) : List Byte :=
  (((List.range 32).filter fun r => g.s.testBit (r / 4)).flatMap fun r => toBytes 8 (readS h r).toNat)
    ++ (((List.range 32).filter fun r => g.v.testBit (r / 4)).flatMap fun r => toBytes 512 (readV h r).toNat)
    ++ (if g.k then (List.range 7).flatMap fun r => toBytes 128 (readK h (r + 1)).toNat else [])
    ++ ((List.range 4).filter fun r => g.a.testBit r).flatMap fun r => accBytes (readA h r)

/-- The save frame of a half (R283): CAUSE 0, TD as TRAPD stands. The identity of the task, which the image keeps, is its number
in a reserved word (log 32). -/
def State.saveFrame (s : State) (hid : Nat) (h : Half) : List Byte :=
  let x := savedHalf Groups.all h
  layBytes 0x1800 (frameParts (s.frameWords hid x x.ctl.trapd x.reinj.length 0 0 0 0) x x.reinj ++ [(0x1700, toBytes 8 h.tid)])

/-- R299. SSAV: a forced save at once of the task in a half, its full image at sB; the half is free when sD is written. The trap
frame of a running handler is kept with it (R283). -/
def execSsav (f : FA) (s : State) : Host.Outcome State Fault Refusal :=
  let d := f.d.toNat
  perform (issue (.ssav f) (specAB f) fun c => .look fun s =>
    let core := wbits c.a 11 0
    let hid := 2 * core + wbits c.a 12 12
    let h := s.half hid
    let done (code : Nat) : Mv := finish c fun h => writeS h d (word code)
    if !s.ownsCore c.task.part core then done 0x0B
    else if h.occ ≠ .live then done 0x45
    else if c.b.toNat % 64 ≠ 0 then done 0x0B
    else if s.saveWaits h Groups.all || (!h.traps.isEmpty && !h.ctl.trapd) then stall c.hid .register
    else writeShared c c.b.toNat (s.saveFrame hid h ++ imageBytes Groups.all h) (raiseIssue c.hid .access c.b 0) (Mv.seq [
      saveTask hid (savedHalf Groups.all h) Half.reset .parked,
      done 0])) s

/-- A word of an image. -/
def imgWord (l : List Byte) (off : Nat) : Word := word (ofBytes (sliceOf l off 8))

/-- An accumulator from its image; its checksums are rebuilt (R81, R164). -/
def accFrom (l : List Byte) : Acc :=
  let row (off : Nat) : Vector (BitVec 32) 32 := Vector.ofFn fun i => BitVec.ofNat 32 (ofBytes (sliceOf l (off + 4 * i.val) 4))
  rebuild { Acc.reset with
    elems := tableOf 1024 0 fun i => BitVec.ofNat 48 (wbits (imgWord l (8 * i)) 47 0)
    mb := maskOf fun i => (imgWord l (8 * i)).getLsbD 63
    e := BitVec.ofNat 16 (imgWord l 8192).toNat
    m := row 8200
    l := row 8328
    c := row 8456 }

/-- An entry of a save frame (R275). -/
def entryFrom (l : List Byte) : Entry where
  seq := 0
  addr := imgWord l 0
  p0 := BitVec.ofNat 32 (ofBytes (sliceOf l 8 4))
  p1 := BitVec.ofNat 32 (ofBytes (sliceOf l 12 4))
  p2 := BitVec.ofNat 32 (ofBytes (sliceOf l 16 4))
  nore := (sliceOf l 20 1).headD 0 |>.getLsbD 0
  a := imgWord l 24
  b := imgWord l 32
  c := imgWord l 40
  mask := BitVec.ofNat 1024 (ofBytes (sliceOf l 0x80 128))
  pins := []
  dsts := []
  again := false

/-- A reconvergence stack entry of a save frame (R275). -/
def stackFrom (l : List Byte) : RcEntry where
  rc := imgWord l 0
  tgt := imgWord l 8
  phase := (sliceOf l 16 1).headD 0 |>.getLsbD 0
  outer := BitVec.ofNat 1024 (ofBytes (sliceOf l 0x20 128))
  pend := BitVec.ofNat 1024 (ofBytes (sliceOf l 0xA0 128))

/-- The half that an image of SSAV describes (R81, R274, R284). -/
def halfFrom (l : List Byte) (x : Half) : Half :=
  let w0 := imgWord l 0
  let w1 := imgWord l 8
  let fe := imgWord l 0x40
  let fe2 := imgWord l 0x48
  let ctl (i : Nat) : Word := imgWord l (0x50 + 8 * i)
  let regs := l.drop 0x1800
  let wj := imgWord l 0x1280
  { x with
    hdr := imgWord l 0x20
    roff := wbits (imgWord l 0x28) 8 0
    s := Vector.ofFn fun i => if i.val = 30 then imgWord l 0x38 else imgWord regs (8 * i.val)
    v := Vector.ofFn fun i => BitVec.ofNat 4096 (ofBytes (sliceOf regs (256 + 512 * i.val) 512))
    k := Vector.ofFn fun i => if i.val = 0 then BitVec.allOnes 1024 else BitVec.ofNat 1024 (ofBytes (sliceOf regs (16640 + 128 * (i.val - 1)) 128))
    a := Vector.ofFn fun i => accFrom (sliceOf regs (17536 + 8584 * i.val) 8584)
    fes := BitVec.ofNat 32 (wbits fe 31 0)
    fev := BitVec.ofNat 32 (wbits fe 63 32)
    fek := BitVec.ofNat 8 (wbits fe2 7 0)
    fea := BitVec.ofNat 4 (wbits fe2 11 8)
    ctl := Ctl.defined { x.ctl with
      fmta := ctl 0, fmtb := ctl 1, fmtc := ctl 2, scla := ctl 3, sclb := ctl 4, rmode := ctl 5, fflags := ctl 6, ftrap := ctl 7
      lc := ctl 8, tvec := ctl 9, stage := ctl 10, gang := (ctl 11).setWidth 8, abftp := ctl 12, dito := ctl 13, ordst := ctl 14
      ss := w0.getLsbD 7, jst := BitVec.ofNat 2 (wbits w0 9 8), trapd := w1.getLsbD 16 }
    lanes := BitVec.ofNat 1024 (ofBytes (sliceOf l 0x100 128))
    stack := ((List.range (wbits w1 15 12)).map fun i => stackFrom (sliceOf l (0x980 + 0x120 * i) 0x120)).reverse
    reinj := ((List.range (wbits w1 11 8)).map fun i => entryFrom (sliceOf l (0x180 + 0x100 * i) 0x100)).filter fun e => !e.nore
    jib := if wbits w0 9 8 = 1 then some {
        upc := wbits wj 12 0, slot := wbits wj 18 13, used := wbits wj 63 32
        h := Vector.ofFn fun i => imgWord l (0x1288 + 8 * i.val)
        hv := Vector.ofFn fun i => BitVec.ofNat 4096 (ofBytes (sliceOf l (0x1300 + 512 * i.val) 512))
        found := none
        loading := none } else none }

/-- What the checks of R280 make of an image of SSAV for a core. -/
def State.imageCheck (s : State) (core : Nat) (l : List Byte) (x : Half) : TretCheck :=
  let w1 := imgWord l 8
  let jst := wbits (imgWord l 0) 9 8
  let slot := wbits (imgWord l 0x1280) 18 13
  if 8 < wbits w1 11 8 || 8 < wbits w1 15 12 || jst == 3 then .trap .badssw 0
  else match (if jst == 1 then s.jibAt core (x.hdr + 8 + word (4 * x.roff)) else .jib slot) with
    | .fault va => .fetch va
    | .other => .trap .badssw 0
    | .jib n =>
      if n != slot || (jst == 1 && s.badMicroPc core slot (wbits (imgWord l 0x1280) 12 0)) then .trap .badssw 0
      else match fetchHeader s core x.hdr with
        | .ok w => if hdrBlen w = 0 || decide (5 ≤ hdrKind w) || decide (hdrBlen w < x.roff) then .trap .badtgt x.hdr else .ok w
        | .fault a => .fetch a.toNat
        | _ => .trap .badtgt x.hdr

/-- The parked task of the partition that an image is of (R283, R299; log 32): its number stands in the image. -/
def State.parkedFor (s : State) (part : Nat) (l : List Byte) : Option (Nat × Task) :=
  s.tasks.find? fun t => decide (t.2.life = .parked) && t.2.part == part && word t.1 == imgWord l 0x1700

/-- R299. SRST: the task of the image at sB goes into a free half of the core; an image that fails the checks of R280
terminates it (R277; log 32). -/
def execSrst (f : FA) (s : State) : Host.Outcome State Fault Refusal :=
  let d := f.d.toNat
  perform (issue (.srst f) (specAB f) fun c => .look fun s =>
    let core := wbits c.a 11 0
    let done (code : Nat) : Mv := finish c fun h => writeS h d (word code)
    let hid := if (s.half (2 * core)).occ = .free then 2 * core else 2 * core + 1
    if !s.ownsCore c.task.part core then done 0x0B
    else if (s.half hid).occ ≠ .free then done 0x44
    else if c.b.toNat % 64 ≠ 0 then done 0x0B
    else readShared c c.b.toNat 58016 (raiseIssue c.hid .access c.b 0) fun l => .look fun s =>
      match s.parkedFor c.task.part l with
      | none => done 0x41
      | some (tid, t) =>
        let x := halfFrom l (t.saved.getD Half.reset)
        let restore (x : Half) (k : Mv) : Mv := Mv.seq [
          upTask tid fun t => { t with saved := some x },
          restoreTask tid hid,
          k,
          done 0]
        let reject (cause : Cause) (faddr : Word) : Mv :=
          restore x (terminate tid (s.frameWords hid x false x.reinj.length (causeCode cause) 0 faddr 0))
        match s.imageCheck core l x with
        | .ok w => restore { x with hdrWord := w } .done
        | .trap cause faddr => reject cause faddr
        | .fetch va =>
          if c.h.refusedAt.isSome then reject .badtgt x.hdr else syncFault c.hid (s.party core) .fetch va) s

end Sys2Proof.Machine
end

