-- ==== Sys2Proof/Machine/Ratline.lean ====
section
/-! DEFINITION. Ratline loops and the end of a task (spec/18_ratline.md R318 to R331; spec/07, R118). -/
namespace Sys2Proof.Machine

/-! ### The end of a task -/

/-- What END releases (R118, R162, R213, R223): the half, matrix operations, task locks, gangs and rings. Values on their
way stay so, and are discarded when they arrive. -/
def releaseAtEnd (tid : Nat) (t : Task) : Mv := Mv.seq [
  freeHalf tid t,
  upCore t.core fun c => { c with mops := c.mops.filter fun m => m.tid != tid },
  upCluster (clusterOf t.core) fun c => { c with locks := c.locks.filter fun l => l.owner != .task tid },
  .look (fun s => Mv.each (s.net.rings.flatMap fun g => g.joined.filter fun m => m.tid == tid) unlockRing),
  withdraw tid,
  upNet fun n => { n with reqs := n.reqs.filter fun r => !(r.tid == tid && decide (r.acc = .sync)) }]

/-- END (R36, R118): it waits for the probes of the task's stores (R192); then the task's commit request is with its arbiter
and its half is free; a spawned task no longer counts against the quota (R29). -/
def endTask (c : Ctx) : Mv := .look fun s => if s.probing c.tid then stall c.hid .register else Mv.seq [
  retireNow c.hid,
  upCore c.core fun x => { x with preqFrom := s.clock.clk },
  releaseAtEnd c.tid c.task,
  unspawn c.task,
  upTask c.tid fun t => { t with life := .ended, act := { t.act with counted := false } }]

/-- A request reserves or writes a cell. -/
def Access.ofCell : Access → Bool
  | .cellReserve _ _ | .cellWrite _ => true
  | _ => false

/-- Reservations and writes of cells by a task that their banks have not applied (R326, R381). -/
def State.reserving (s : State) (tid : Nat) : Bool := s.net.reqs.any fun q => q.tid == tid && q.acc.ofCell

/-- Reservations and writes of cells by bodies of a partition, those of bodies that are gone included, that their banks have not
applied (R320, R382). -/
def State.cellsOut (s : State) (part : Nat) : Bool := s.net.reqs.any fun q => q.part == part && q.acc.ofCell

/-- The end of a ratline body (R326, R329, R381): it waits for its reservations and writes of cells; `fail` asks for another
run. -/
def endBody (c : Ctx) (fail : Bool) : Mv := .look fun s =>
  if s.reserving c.tid then stall c.hid .register
  else (upTask c.tid fun t => { t with rlFail := fail }).andThen (endTask c)

/-- R118. END: in a ratline body it acts as RLEND. -/
def execEndT (f : FA) (s : State) : Host.Outcome State Fault Refusal :=
  perform (issue (.endT f) (specK f) fun c => if c.task.act.body.isSome then endBody c false else endTask c) s

/-! ### Starting a loop -/

/-- A loop that has run no window. -/
def Loop.fresh (n w group : Nat) (members : BitVec 4096) (pri : Nat) (arg body : Word) (reef : BitVec 12) (d : Dest) : Loop where
  n := n
  w := w
  group := group
  members := members
  pri := pri
  arg := arg
  body := body
  reef := reef
  hid := d.hid
  tid := d.tid
  seq := d.seq
  reg := d.reg
  next := 0
  retry := []
  iters := []
  active := false
  windows := 0
  done := 0
  error := false

/-- The checks of RLBEGIN on the body's address (R325). -/
inductive BodyAt where
  | ok
  | bad
  | fault (va : Nat)
  deriving DecidableEq, Repr

/-- A header of kind 3 stands at an address. -/
def State.bodyAt (s : State) (core : Nat) (a : Word) : BodyAt :=
  match fetchHeader s core a with
  | .ok w => if hdrKind w = 3 then .ok else .bad
  | .fault x => .fault x.toNat
  | _ => .bad

/-- R325. RLBEGIN. -/
def execRlbegin (f : FL) (s : State) : Host.Outcome State Fault Refusal :=
  let d := f.r.d.toNat
  perform (issue (.rlbegin f) ⟨some f.r.k, true, [⟨1, .s f.r.a.toNat, f.r.wa⟩, ⟨2, .s f.r.b.toNat, f.r.wb⟩, srcC f], [.s d]⟩
    fun c => .look fun s =>
      let w := wbits c.b 14 0
      let group := wbits c.b 23 16
      let members := s.groupMask c.task.part group
      let body := handlerAt c.addr (sx f.obj)
      let go : Mv := direct c (
        let loop := Loop.fresh (wbits c.a 31 0) w group members (wbits c.b 25 24) c.c body c.task.reef (destOf c d)
        (upNet fun n => { n with loops := n.loops ++ [⟨destOf c d, c.task.part, loop⟩] }).andThen
          (finish c fun h => markEmpty h (.s d)))
      if wbits c.a 63 32 ≠ 0 ∨ w = 0 ∨ 16384 < w ∨ members = 0 then raiseIssue c.hid .bound 0 0
      else match s.bodyAt c.core body with
        | .ok => go
        | .bad => raiseIssue c.hid .badtgt body 0
        | .fault va => if c.h.refusedAt.isSome then raiseIssue c.hid .badtgt body 0 else syncFault c.hid (s.party c.core) .fetch va) s

/-- A loop's status word (R325). -/
def loopStatus (windows done code : Nat) : Word := word (min windows 0xFFFFFF * 2 ^ 40 + done % 2 ^ 32 * 2 ^ 8 + code)

/-- R325. RATLINE_REQUEST: in arrival order; a loop of the partition that runs refuses another. -/
def execRatlineRequest (s : State) : Host.Outcome State Fault Refusal :=
  perform (.look fun s => match ith s.net.loops s.data.n with
    | none => .done
    | some q =>
      if (s.net.loops.take s.data.n).any fun x => x.part == q.part then .done
      else (upNet fun n => { n with loops := ldel n.loops s.data.n }).andThen
        (match s.part? q.part with
         | none => .done
         | some p =>
           if p.loop.isSome then (answer q.dest (loopStatus 0 0 0x31)).andThen (closeReefs q.part 9 q.loop.reef.toNat)
           else upPart q.part fun p => { p with loop := some q.loop, report := ⟨0, 0, 0, 0, 0⟩ })) s

/-! ### Windows -/

/-- Changing the loop of a partition. -/
def upLoop (part : Nat) (f : Loop → Loop) : Mv := upPart part fun p => { p with loop := p.loop.map f }

/-- The iterations of the next window, failed ones first (R318). -/
def Loop.fill (l : Loop) : List Nat :=
  let new := (List.range (l.n - l.next)).take (l.w - l.retry.length) |>.map fun i => l.next + i
  (l.retry ++ new).take l.w

/-- Whether a partition has switched an ABM bank into ratline mode (R183, R292). -/
def State.bankOf (s : State) (part bank : Nat) : Bool :=
  match s.part? part with
  | none => false
  | some p => p.objects.any fun o => o.2.banks.contains bank

/-- The bank of a tagged cell. -/
def bankAt (x : Extent) (a : Nat) : Nat := match homeOf x a with | .abm b => b | _ => 0

/-- Every tag of the partition's ratline-mode banks set to empty (R319). -/
def clearTags (part : Nat) : Mv := .look fun s =>
  Mv.each s.tags fun t => Mv.when (s.bankOf part (bankAt s.extent t.1)) (.one (.tag t.1 none))

/-- An iteration at the start of its window. -/
def Iter.fresh (index key : Nat) : Iter := ⟨index, key, [], false, 0, false⟩

/-- Filling a window and starting its round one (R318, R319), once every access of a cell from before is over (R381). -/
def startWindow (part : Nat) (l : Loop) : Mv := .look fun s => Mv.when (!s.cellsOut part) (
  let indices := l.fill
  let window := match s.part? part with | some p => p.window + 1 | none => 0
  let new := indices.length - min l.retry.length indices.length
  Mv.seq [
    upPart part fun p => { p with window := window },
    Mv.when (window == 0) (clearTags part),
    upLoop part fun l => { l with
      iters := indices.zipIdx.map fun x => Iter.fresh x.1 x.2
      retry := l.retry.drop indices.length
      next := l.next + new
      active := true }])

/-- R318. RATLINE_WINDOW_START; in a deterministic partition at a quantum's end (R341). -/
def execRatlineWindowStart (s : State) : Host.Outcome State Fault Refusal :=
  perform (.look fun s =>
    match (s.part? s.data.n).bind (·.loop) with
    | none => .done
    | some l =>
      if l.active || l.error || s.det s.data.n || (l.retry.isEmpty && decide (l.n ≤ l.next)) then .done
      else startWindow s.data.n l) s

/-- The activation of a body (R321). -/
def bodyAct (part : Nat) (l : Loop) (window : BitVec 8) (i : Iter) (round : Bool) : Act :=
  { Act.blank with
    msg := ⟨h0Of 5 l.pri none false (wbits l.body 55 2), h1Of l.reef (BitVec.ofNat 48 i.index), h2Of noReply 0, 0,
      [l.arg, word i.index, word (b2n round), word i.key, zx window]⟩
    index := BitVec.ofNat 32 i.index
    kind := 3
    free := true
    body := some ⟨part, i.index, round, i.key, window.toNat, if round then i.rsv.map (·.1) else [], round && i.holdsAll⟩ }

/-- Placing the next body of a loop's round, on the least loaded eligible member (R26, R320). -/
def placeBody (part : Nat) : Mv := .look fun s =>
  match s.part? part with
  | none => .done
  | some p =>
    match p.loop with
    | none => .done
    | some l =>
      if !l.active then .done
      else match l.iters.find? fun i => i.phase == 0 || i.phase == 3 with
        | none => .done
        | some i =>
          let round := i.phase == 3
          match s.leastLoaded ((membersOf l.members).filter fun c => s.eligible part c l.pri) with
          | none => .done
          | some core => Mv.seq [
              upLoop part fun l => { l with iters := l.iters.map fun x => if x.index = i.index then { x with phase := x.phase + 1 } else x },
              sendAct deviceSrc core l.pri (bodyAct part l p.window i round)]

/-- R26, R320. TASK_PLACEMENT: of a launch's next task, or of a ratline loop's next body; in a deterministic partition
at a quantum's end (R44). -/
def execTaskPlacement (s : State) : Host.Outcome State Fault Refusal :=
  perform (.look fun s =>
    let n := s.data.n
    if 256 ≤ n then (if s.det (n - 256) then .done else placeBody (n - 256))
    else match s.launch? n with
      | some l => if s.det l.desc.part then .done else placeTask n
      | none => .done) s

/-- A cell that an iteration reserved carries the current window and its key (R320). -/
def State.holdsCell (s : State) (window : BitVec 8) (key : Nat) (cell : Word × Nat) : Bool :=
  tget s.tags cell.2 == some (BitVec.ofNat 32 (window.toNat * 2 ^ 24 + key))

/-- The hold list of an iteration (R320). -/
def State.holdList (s : State) (window : BitVec 8) (i : Iter) : Iter :=
  let held := i.rsv.filter (s.holdsCell window i.key)
  { i with rsv := held, holdsAll := held.length == i.rsv.length, phase := 3 }

/-- Building the hold lists and starting round two, when every round-one activation has ended and every reservation has been
applied (R320). -/
def buildHolds (part : Nat) : Mv := .look fun s =>
  match s.part? part with
  | none => .done
  | some p => upLoop part fun l =>
      if l.active && l.iters.all (fun i => i.phase == 2) && !s.cellsOut part then { l with iters := l.iters.map (s.holdList p.window) } else l

/-- R320. HOLD_LIST_BUILD; in a deterministic partition at a quantum's end (R341). -/
def execHoldListBuild (s : State) : Host.Outcome State Fault Refusal :=
  perform (.look fun s => if s.det s.data.n then .done else buildHolds s.data.n) s

/-- The report of a window that has completed (R330). -/
def Loop.report (l : Loop) (old : RlReport) (window : BitVec 8) : RlReport :=
  let retries := (l.iters.filter (·.failed)).length
  let commits := l.iters.length - retries
  ⟨window.toNat, commits, retries, (old.done + commits) % 2 ^ 32, min (old.retried + retries) (2 ^ 32 - 1)⟩

/-- A window that has completed: its failed iterations are queued for the next (R318, R329). -/
def Loop.complete (l : Loop) : Loop :=
  let failed := (l.iters.filter (·.failed)).map (·.index)
  { l with
    active := false
    windows := l.windows + 1
    done := l.done + (l.iters.length - failed.length)
    retry := failed ++ l.retry
    iters := [] }

/-- A loop ends after a window that leaves nothing, or after one in which a body was terminated (R318, R329). -/
def Loop.ended (l : Loop) : Bool := !l.active && (l.error || (l.retry.isEmpty && decide (l.n ≤ l.next)))

/-- Completing a window whose round-two activations have all ended and whose cells are all written, and ending the loop when nothing
is left; its status goes to RLBEGIN's destination (R325, R382), and its reef may close (log 131). -/
def finishWindow (part : Nat) : Mv := .look fun s =>
  match s.part? part with
  | none => .done
  | some p =>
    match p.loop with
    | none => .done
    | some l =>
      let over_ := l.active && l.iters.all (fun i => i.phase == 5) && !s.cellsOut part
      let l' := if over_ then l.complete else l
      let report := if over_ then l.report p.report p.window else p.report
      if l'.ended then Mv.seq [
        upPart part fun p => { p with loop := none, report := report },
        answer ⟨l'.hid, l'.tid, l'.seq, l'.reg⟩ (loopStatus l'.windows l'.done (if l'.error then 1 else 0)),
        closeReefs part 9 l'.reef.toNat]
      else upPart part fun p => { p with loop := some l', report := report }

/-- R325. RATLINE_LOOP_END; in a deterministic partition at a quantum's end (R341). -/
def execRatlineLoopEnd (s : State) : Host.Outcome State Fault Refusal :=
  perform (.look fun s => if s.det s.data.n then .done else finishWindow s.data.n) s

/-! ### The body's instructions -/

/-- The cell address (R324). -/
def cellSrcs (f : FL) : List Src := [⟨1, .s f.r.a.toNat, f.r.wa⟩, ⟨2, .s f.r.b.toNat, f.r.wb⟩]

/-- Distinct cells that an iteration may reserve (R326). -/
def cellLimit : Nat := 8

/-- R326. RLRSV: in round two it retires with no effect. -/
def execRlrsv (f : FL) (s : State) : Host.Outcome State Fault Refusal :=
  perform (issue (.rlrsv f) ⟨some f.r.k, true, cellSrcs f, []⟩ fun c => .look fun s =>
    match c.task.act.body with
    | none => .done
    | some b =>
      let ea := c.a + c.b
      if b.round then retire c
      else checked c (sharedCheck ea 8)
        (if !c.task.rsv.contains ea && decide (cellLimit ≤ c.task.rsv.length) then raiseIssue c.hid .bound ea 0
         else
           let add (l : List Word) : List Word := if l.contains ea then l else l ++ [ea]
           Mv.seq [
             upTask c.tid fun t => { t with rsv := add t.rsv },
             sendReq fun id => sharedReq s c id (.cellReserve b.window b.key) 0 ea.toNat [ea.toNat / 64 * 64] [(touchOf ea.toNat 8).bytes],
             retire c])) s

/-- R327. RLCHK: every bit of kD. -/
def execRlchk (f : FL) (s : State) : Host.Outcome State Fault Refusal :=
  let d := f.r.d.toNat % 8
  perform (issue (.rlchk f) ⟨some f.r.k, true, [], [.k d]⟩ fun c =>
    let all := match c.task.act.body with | some b => b.round && b.holdsAll | none => false
    finish c fun h => writeK h d (if all then BitVec.allOnes 1024 else 0)) s

/-- The hold check of RLLD and RLST in round two (R328). -/
def heldCheck (b : Body) (ea : Word) (k : Check) : Check :=
  match k with
  | .ok => if b.round && !b.holds.contains ea then .trap .resmiss ea else .ok
  | x => x

/-- R328. RLLD: sD is in flight, never empty. -/
def execRlld (f : FL) (s : State) : Host.Outcome State Fault Refusal :=
  let d := f.r.d.toNat
  perform (issue (.rlld f) ⟨some f.r.k, true, cellSrcs f, [.s d]⟩ fun c => .look fun s =>
    match c.task.act.body with
    | none => .done
    | some b =>
      let ea := c.a + c.b
      let align : Check := if ea.toNat % 8 ≠ 0 then .trap .align ea else .ok
      checked c (heldCheck b ea align) (checked c (sharedCheck ea 8)
        (if s.pendingShared c.tid ea.toNat 8 false then stall c.hid .register
         else Mv.seq [
           sendReq fun id => sharedReq s c id .cellRead d ea.toNat [ea.toNat / 64 * 64] [(touchOf ea.toNat 8).bytes],
           hold c fun h => markBusy h (.s d)]))) s

/-- R328. RLST. -/
def execRlst (f : FL) (s : State) : Host.Outcome State Fault Refusal :=
  perform (issue (.rlst f) ⟨some f.r.k, true, cellSrcs f ++ [srcC f], []⟩ fun c => .look fun s =>
    match c.task.act.body with
    | none => .done
    | some b =>
      let ea := c.a + c.b
      let align : Check := if ea.toNat % 8 ≠ 0 then .trap .align ea else if !b.round then .trap .resmiss ea else .ok
      checked c (heldCheck b ea align) (checked c (sharedCheck ea 8)
        (if s.pendingShared c.tid ea.toNat 8 true then stall c.hid .register
         else Mv.seq [
           sendReq fun id => sharedReq s c id (.cellWrite c.c) 0 ea.toNat [ea.toNat / 64 * 64] [(touchOf ea.toNat 8).bytes],
           retire c]))) s

/-- R329. RLEND. -/
def execRlend (f : FL) (s : State) : Host.Outcome State Fault Refusal :=
  perform (issue (.rlend f) ⟨some f.r.k, true, [], []⟩ fun c => endBody c (f.m.getLsbD 0)) s

/-- The word of RLSTAT (R330). -/
def RlReport.word (r : RlReport) (totals : Bool) : Word :=
  if totals then Machine.word (r.done % 2 ^ 32 * 2 ^ 32 + r.retried)
  else Machine.word (r.wnum * 2 ^ 56 + r.commits % 2 ^ 16 * 2 ^ 16 + r.retries % 2 ^ 16)

/-- R330. RLSTAT. -/
def execRlstat (f : FL) (s : State) : Host.Outcome State Fault Refusal :=
  perform (issue (.rlstat f) ⟨some f.r.k, true, [⟨1, .s f.r.a.toNat, f.r.wa⟩], [.s f.r.d.toNat]⟩ fun c => .look fun s =>
    let r := match s.part? c.task.part with | some p => p.report | none => ⟨0, 0, 0, 0, 0⟩
    finish c fun h => writeS h f.r.d.toNat (r.word (c.a.getLsbD 0))) s

end Sys2Proof.Machine
end

