-- ==== Sys2Proof/Machine/Commit.lean ====
section
/-! DEFINITION. Commits, the watchdog, parity, code fetches and trap delivery as events, counters and time (spec/02,
R36 to R39, R42; spec/05, R79; spec/10, R184; spec/15, R273; spec/19, R334 to R338). -/
namespace Sys2Proof.Machine

/-! ### Commits -/

/-- A line that the task has flushed, or the word that it has released, has not been written (R238), a write of it to its staged
lines has not reached its home, or a probe of its stores is out (R192, R197). -/
def State.writesOut (s : State) (tid : Nat) (lines : List Nat) : Bool :=
  (s.net.reqs.any fun q => q.tid == tid && (decide (q.acc = .probe) || q.acc.isLine || q.acc.isRelease
    || (q.acc.writes && q.lines.any fun l => lines.contains l)))
  || (s.net.atoms.any fun q => q.dest.tid == tid && !q.widen && lines.contains (q.va / 64 * 64))

/-- Something that a core sent to a home before a commit's line, or that is visible to it, is still on its way there
(R230, R232). -/
def State.behindAt (s : State) (core pa : Nat) : Bool :=
  s.behind core s.net.nextId pa true false

/-- The arbiter of a task's reef may commit it (R35, R37, R38): its reef is not being re-executed, and it comes next in
timestamp order. Tasks outside arbitration commit at once (R235, R321, R387). -/
def State.mayCommit (s : State) (tid : Nat) (t : Task) : Bool :=
  decide (t.life = .ended)
    && !(s.reefChain t.part 9 t.reef.toNat).any (fun id => match s.reef? t.part id with | some r => r.state == 2 | none => false)
    && (t.act.free || (!s.earlier t.part t.reef t.ts && !s.slotTaken tid))
    && !s.writesOut tid (t.lines.map (·.1))

/-- The write signature that tasks of the same timestamp have committed in the reef (R39). -/
def State.wroteBefore (s : State) (t : Task) : BitVec 2048 :=
  match s.reef? t.part t.reef.toNat with
  | some r => (match r.wrote with | some (ts, sig) => if ts = t.ts then sig else 0 | none => 0)
  | none => 0

/-- In a deterministic partition, a write signature that meets that of an equal-timestamp task already committed
(R39). -/
def State.detConflict (s : State) (t : Task) : Bool :=
  s.det t.part && !t.act.free && (t.writeSig &&& s.wroteBefore t) != 0

/-- Crediting the packet that a task was started by (R360). -/
def creditPacket (a : Act) : Mv := (releasePacket a).andThen
  (match a.packet.bind fun x => x.conn.map fun y => (y, x.len) with
   | some ((vf, serial), len) => upFabric fun f => match tget f.vfs vf with
       | some v =>
         let v := { v with conns := tmap (fun _ x => if x.serial = serial then { x with fwd := x.fwd + len } else x) v.conns }
         { f with vfs := tput f.vfs vf v }
       | none => f
   | none => .done)

/-- Requests of a task are still in flight. -/
def State.inFlight (s : State) (tid : Nat) : Bool :=
  s.net.reqs.any (fun q => q.tid == tid) || s.net.cmds.any (fun q => q.dest.tid == tid)
    || s.net.remotes.any (fun q => q.tid == tid) || s.net.rings.any (fun g => g.joined.any fun m => m.tid == tid)
    || s.net.atoms.any (fun q => q.dest.tid == tid)

/-- What the launch, the loop and the network learn when a task has committed (R27, R191, R320). -/
def taskCommitted (tid : Nat) (t : Task) : Mv := .look fun s => Mv.seq [
  (match t.act.launch with
   | some lid => Mv.when t.act.placed (upLaunch lid fun l =>
       { l with committed := l.committed + 1 })
   | none => .done),
  (match t.act.body with
   | some b => upIter b fun i => { i with phase := if b.round then 5 else 2, failed := i.failed || (b.round && t.rlFail && !b.holdsAll) }
   | none => .done),
  creditPacket t.act,
  Mv.each t.frees (heapFree t.part),
  Mv.when (s.inFlight tid) (upNet fun n => { n with ghosts := tput n.ghosts tid ⟨errOf t [], t.act.launch⟩ }),
  countPerf (clusterOf t.core) 8 1,
  .one (.task tid none),
  closeAfter tid t]

/-- Remembering a write signature for the tasks of the same timestamp (R39). -/
def rememberWrites (t : Task) : Mv := Mv.when (!t.act.free) (.look fun s =>
  let sig := t.writeSig ||| s.wroteBefore t
  upReef t.part t.reef.toNat fun r => { r with wrote := some (t.ts, sig) })

/-- A page of a commit's line faults: the commit waits for it (R192). -/
def commitFault (tid : Nat) (t : Task) (va : Nat) : Mv := .look fun s =>
  let p := s.party t.core
  if s.net.reqs.any fun q => q.tid == tid && decide (q.acc = .commit) then .done
  else withId fun id => upNet fun n => { n with reqs := n.reqs ++
    [{ faultReq id (2 * t.core + t.half) tid 0 t.core p .commit 0 va with phase := s.missPhase p.cluster va }] }

/-- Committing a task that comes next: its staged lines go home as one set, with the broadcast of their signature
(R37); a line that is refused terminates it (R191), and so does a conflict of R39. -/
def commitTask (tid : Nat) (t : Task) : Mv := .look fun s =>
  if s.detConflict t then terminate tid (s.taskWords tid (causeCode .detww) 0 0 0)
  else
    let p := s.party t.core
    let waited (q : Req) : Bool := q.tid == tid && decide (q.acc = .commit) && decide (q.phase = .home)
    (Mv.when (s.net.reqs.any waited) (upNet fun n => { n with reqs := n.reqs.filter fun q => !waited q })).andThen <|
    match s.reachLines p (t.whoAs tid) .write t.touches with
    | .fault va => commitFault tid t va
    | .refused cause va => terminate tid (s.taskWords tid (causeCode cause) 0 (word va) 0)
    | .ok pas => heardWalk tid p (t.lines.map (·.1)) <|
      if pas.any (fun pa => s.homeHeld pa || s.behindAt t.core pa) then .done
      else Mv.seq [rememberWrites t, writeSet tid t p pas, taskCommitted tid t]

/-- R37. COMMIT_REQUEST; in a deterministic partition at a quantum's end (R341). -/
def execCommitRequest (s : State) : Host.Outcome State Fault Refusal :=
  perform (.look fun s => match s.task? s.data.n with
    | some t => if s.mayCommit s.data.n t && !s.detCore t.core then commitTask s.data.n t else .done
    | none => .done) s

/-! ### The watchdog -/

/-- The clk that a task has spent resident (R42). -/
def State.wdc (s : State) (t : Task) : Nat := t.wdBase + (s.clock.clk - t.wdFrom)

/-- R42. WDOG: the task is terminated; in deterministic operation the promise is void (R343). -/
def execWdog (s : State) : Host.Outcome State Fault Refusal :=
  perform (.look fun s =>
    let h := s.half s.data.n
    match s.taskOf s.data.n with
    | some t =>
      if h.occ = .live && decide (h.ctl.wdog.toNat ≤ s.wdc t) then
        (countDetx t.part (.core t.core)).andThen (terminate h.tid (s.taskWords h.tid (causeCode .wdog) (pcOf h) 0 0))
      else .done
    | none => .done) s

/-! ### Parity, code fetches, trap delivery -/

/-- The register that a granule belongs to: of a side register, the accumulator. -/
def Granule.reg : Granule → Option Reg
  | .s r => some (.s r)
  | .v r _ => some (.v r)
  | .k r _ => some (.k r)
  | .side a _ => some (.a a)
  | _ => none

/-- The instruction that has produced a granule is still in the replay queue (R79). -/
def Half.replays (h : Half) (g : Granule) : Bool :=
  match g.reg with
  | some r => h.replay.any fun e => e.dsts.contains r
  | none => false

/-- R79. PARITY_ERROR: the three steps. A re-execution from the replay queue changes no value; an error that recurs on
its granule is a hard fault of the core (R350). -/
def execParityError (s : State) : Host.Outcome State Fault Refusal :=
  perform (.look fun s =>
    let hid := s.data.n
    let h := s.half hid
    match s.taskOf hid with
    | some t =>
      if h.occ ≠ .live then .done
      else if (s.core (coreOf hid)).replayed = some (hid, s.data.gran) then hardFaultOf (coreOf hid) [] false
      else if h.replays s.data.gran then
        (countError t.part 5 (.core (coreOf hid))).andThen (upCore (coreOf hid) fun c => { c with replayed := some (hid, s.data.gran) })
      else rerunOrRecover h.tid (s.taskWords h.tid 0 (pcOf h) 0 0)
    | none => .done) s

/-- R184. CODE_FETCH: the header or the parcels at the resume point arrive, fault, or are refused; the code of the memory may
report them, or with `yes` the entry that the walk for them reads at level `m` (R185). -/
def execCodeFetch (s : State) : Host.Outcome State Fault Refusal :=
  perform ((prepare s.data.n).andThen (.look fun s =>
    let hid := s.data.n
    let h := s.half hid
    if s.idleHalf hid h || h.reissue.isSome then .done
    else
    let p := s.party (coreOf hid)
    let read := if s.data.yes && (lookup s p .fetch (pcOf h).toNat).isNone then some (s.walkEntry p.asid (pcOf h).toNat s.data.m)
      else s.reach (translate s p .fetch (pcOf h).toNat)
    match read.map fun pa => (s.eccAt (pa / 8 * 8) 8, pa) with
    | some (.corrected g, pa) => correctedAt p.part pa g
    | some (.uncorrectable, pa) => reportDue h.tid p.part (pcOf h).toNat pa
    | _ => match fetchFrom s (coreOf hid) (pcOf h) (hdrBlen h.hdrWord - h.roff) with
      | (_, some (a, true)) => fetchFaulted hid h a
      | (_, some (a, false)) => fetchRefused hid a
      | (_, none) => .done)) s

/-- R273. TRAP_DELIVERY. -/
def execTrapDelivery (s : State) : Host.Outcome State Fault Refusal :=
  perform (.look fun s => Mv.when (decide ((s.half s.data.n).occ = .live)) (deliver s.data.n)) s

/-! ### Counters -/

/-- Counter codes that take their index from sA (R334). -/
def indexed (code : Nat) : Bool := decide (6 ≤ code)

/-- The event that a counter counts is how long the vector unit was busy, which the model does not time (R340; log 3). -/
def Perf.timed (p : Perf) : Bool := p.sel.getLsbD 15 && wbits p.sel 7 0 == 4

/-- The content of a counter (R334, R335); `open_` is a free value. -/
def State.counter (s : State) (c : Ctx) (code : Nat) (sA open_ : Word) : Word :=
  let k := s.core c.core
  let perf (i : Nat) : Perf := tgetD (s.cluster (clusterOf c.core)).perf i ⟨0, 0⟩
  match code with
  | 0 => word (s.clock.clk - max k.cycBase (match s.part? c.task.part with | some p => p.since | none => 0))
  | 1 => k.ret
  | 2 => zx k.qpos
  | 3 => word (s.wdc c.task % 2 ^ 32)
  | 4 => word (s.pdlc c.core)
  | 5 => (match (c.task.act.launch.bind s.launch?).bind (·.desc.queue) with
    | some q => (match tget s.mf0.queues q with | some x => word (s.budgetLeft q x / 1000) | none => 0xFFFFFFFF)
    | none => 0xFFFFFFFF)
  | 6 =>
    let g := wbits sA 2 0
    word ((tgetD k.recv g 0).toNat * 2 ^ 32 + (tgetD k.sent g 0).toNat)
  | 7 =>
    let a := tgetD k.arrivals (wbits sA 3 0) Arrival.reset
    word (b2n a.handler.isSome * 2 ^ 33 + b2n a.armed * 2 ^ 32 + a.count.toNat)
  | 8 => if (perf (wbits sA 3 0)).timed then open_ else (perf (wbits sA 3 0)).count
  | 9 => (perf (wbits sA 51 48)).sel
  | _ => (match s.part? c.task.part with | some p => tgetD p.errors (wbits sA 2 0) 0 | none => 0)

/-- The instruction reads or selects anew a counter that only timing fixes. -/
def State.timedCounter (s : State) (c : Ctx) (code : Nat) (sA : Word) : Bool :=
  let perf (i : Nat) : Perf := tgetD (s.cluster (clusterOf c.core)).perf i ⟨0, 0⟩
  (code == 8 && (perf (wbits sA 3 0)).timed) || (code == 9 && (perf (wbits sA 51 48)).timed)

/-- Reading a counter, with a free value where only timing fixes it. -/
def withCounter (c : Ctx) (code : Nat) (k : Word → Word → Mv) : Mv := .look fun s =>
  if s.timedCounter c code c.a then withFree fun w => k (s.counter c code c.a w) w else k (s.counter c code c.a 0) 0

/-- What CTRR and CTRW read and write. -/
def ctrSpec (f : FA) : Spec :=
  ⟨some f.k, true, if indexed (f.b.toNat % 32) then [⟨1, .s f.a.toNat, f.wa⟩] else [], [.s f.d.toNat]⟩

/-- R335. CTRR. -/
def execCtrr (f : FA) (s : State) : Host.Outcome State Fault Refusal :=
  perform (issue (.ctrr f) (ctrSpec f) fun c => withCounter c (f.b.toNat % 32) fun w _ => finish c fun h => writeS h f.d.toNat w) s

/-- The effect of CTRW on a kernel core (R334, R336). A new selection leaves the count, which is `open_` where only timing fixes it
(R340). -/
def clearCounter (c : Ctx) (code : Nat) (open_ : Word) : Mv :=
  let n := clusterOf c.core
  match code with
  | 8 => upCluster n fun x =>
      let i := wbits c.a 3 0
      let p := tgetD x.perf i ⟨0, 0⟩
      { x with perf := tput x.perf i { p with count := 0 } }
  | 9 => upCluster n fun x =>
      let i := wbits c.a 51 48
      let p := tgetD x.perf i ⟨0, 0⟩
      { x with perf := tput x.perf i ⟨if p.timed then open_ else p.count, c.a &&& 0x80FF⟩ }
  | 10 => upPart c.task.part fun p => { p with errors := tput p.errors (wbits c.a 2 0) 0 }
  | _ => .done

/-- R336. CTRW: the old content, then the effect where the core and the code permit one. -/
def execCtrw (f : FA) (s : State) : Host.Outcome State Fault Refusal :=
  perform (issue (.ctrw f) (ctrSpec f) fun c => withCounter c (f.b.toNat % 32) fun w open_ =>
    (Mv.when (isKernel c.core) (clearCounter c (f.b.toNat % 32) open_)).andThen (finish c fun h => writeS h f.d.toNat w)) s

/-! ### Time -/

/-- R338. TIME. -/
def execTime (f : FA) (s : State) : Host.Outcome State Fault Refusal :=
  let d := f.d.toNat
  let full := f.b.getLsbD 0
  perform (issue (.time f) ⟨some f.k, true, [], if full then [.s d, .s (d + 1)] else [.s d]⟩ fun c => .look fun s =>
    let t := s.clock
    finish c fun h =>
      let h := writeS h d (word t.ns)
      if full then writeS h (d + 1) (word (b2n t.locked * 2 ^ 16 + t.frac % 2 ^ 16)) else h) s

/-- The time that a WAITT waits for: what it captured when it began to wait (R338). -/
def waitTarget (c : Ctx) : Word := c.h.waitt.getD c.a

/-- R338. WAITT. -/
def execWaitt (f : FA) (s : State) : Host.Outcome State Fault Refusal :=
  perform (issue (.waitt f) ⟨some f.k, true, [⟨1, .s f.a.toNat, f.wa⟩], []⟩ fun c => .look fun s =>
    let x := waitTarget c
    if x.toNat ≤ s.clock.ns % 2 ^ 64 then finish c fun h => { h with waitt := none }
    else upHalf c.hid fun h => { h with block := .waitt x, waitt := some x }) s

/-- R338. WAITT_EXPIRE: package time has reached the target, and the WAITT completes. -/
def execWaittExpire (s : State) : Host.Outcome State Fault Refusal :=
  perform (.look fun s =>
    let hid := s.data.n
    let h := s.half hid
    match h.block with
    | .waitt x =>
      if h.occ = .live && decide (x.toNat ≤ s.clock.ns % 2 ^ 64) && (h.traps.isEmpty || h.ctl.trapd) then
        Mv.seq [retireNow hid, advance hid 1, upHalf hid fun h => { h with waitt := none },
          Mv.when h.ctl.ss (raise hid ⟨h.seq, .bkpt, pcOf h, 0, 1, none, false⟩)]
      else .done
    | _ => .done) s

end Sys2Proof.Machine
end

