-- ==== Sys2Proof/Machine/Lanes.lean ====
section
/-! DEFINITION. Element functions of the vector unit: what one element becomes, with its flags
(spec/08_vector_instructions.md R125 to R150). -/
namespace Sys2Proof.Machine

/-- A signed integer type (R68). -/
def isSignedType (t : BitVec 4) : Bool := [1, 3, 5, 6, 7].contains t.toNat

/-- The value of an integer pattern (R68). -/
def intOf (t : BitVec 4) (p : Nat) : Int := if isSignedType t then sval (typeWidth t) p else (p : Int)

/-- The least value of an integer type. -/
def intMin (t : BitVec 4) : Int := if isSignedType t then -(2 ^ (typeWidth t - 1) : Nat) else 0

/-- The greatest value of an integer type. -/
def intMax (t : BitVec 4) : Int := if isSignedType t then (2 ^ (typeWidth t - 1) : Nat) - 1 else (2 ^ typeWidth t : Nat) - 1

/-- An integer wrapped, or with `.sat` saturated, into a type (R128). -/
def fitInt (t : BitVec 4) (sat : Bool) (x : Int) : Nat :=
  pat (typeWidth t) (if sat then max (intMin t) (min (intMax t) x) else x)

/-- A scalar result of an integer type, extended by its signedness (R138, R150). -/
def intWord (t : BitVec 4) (x : Int) : Word := if isSignedType t then wordI x else word (pat (typeWidth t) x)

/-- The pattern of a type as a scalar: integers extended by signedness, floats by zeros (R138, R150). -/
def patWord (t : BitVec 4) (p : Nat) : Word :=
  if isIntType t then intWord t (intOf t p) else word p

/-- The sign bit of a pattern cleared. -/
def clearSign (w p : Nat) : Nat := p % 2 ^ (w - 1)

/-- The sign bit of a pattern flipped. -/
def flipSign (w p : Nat) : Nat := if p < 2 ^ (w - 1) then p + 2 ^ (w - 1) else p - 2 ^ (w - 1)

/-- How a float operation is carried out: FTZ, and the rounding of the element. -/
structure Fp where
  ftz : Bool
  rnd : Rnd

/-- A float operation on two patterns, rounded once (R127, R130). -/
def float2 (t : BitVec 4) (m : Fp) (op : Num → Num → Num × Flags) (x y : Nat) : Nat × Flags :=
  let (z, f1) := op (operand m.ftz t x) (operand m.ftz t y)
  let (p, f2) := roundTo t m.ftz m.rnd z
  (p, f1 ||| f2)

/-- The element operations of VARITH (R130, R131). -/
inductive VOp where
  | add | sub | mul | fma | min | max | abs | neg | and | or | xor | shl | shr | sar | mulh
  deriving DecidableEq, Repr

/-- An integer element of VARITH (R130, R131); the amount of a shift is the bit pattern of B mod w (log 102). -/
def intElem (op : VOp) (t : BitVec 4) (sat : Bool) (a b c : Nat) : Nat :=
  let w := typeWidth t
  let x := intOf t a
  let y := intOf t b
  match op with
  | .add => fitInt t sat (x + y)
  | .sub => fitInt t sat (x - y)
  | .mul => fitInt t sat (x * y)
  | .fma => fitInt t sat (x * y + intOf t c)
  | .min => if y < x then b else a
  | .max => if x < y then b else a
  | .abs => fitInt t sat (if x < 0 then -x else x)
  | .neg => fitInt t sat (-x)
  | .and => Nat.land a b
  | .or => Nat.lor a b
  | .xor => Nat.xor a b
  | .shl => fitInt t sat (x * (2 ^ (b % w) : Nat))
  | .shr => a / 2 ^ (b % w)
  | .sar => pat w (sval w a / (2 ^ (b % w) : Nat))
  | .mulh => pat w (x * y / (2 ^ w : Nat))

/-- A floating element of VARITH (R130, R131). -/
def floatElem (op : VOp) (t : BitVec 4) (m : Fp) (a b c : Nat) : Nat × Flags :=
  match op with
  | .add => float2 t m addNum a b
  | .sub => float2 t m subNum a b
  | .mul => float2 t m mulNum a b
  | .fma =>
    let (z, f1) := fmaNum (operand m.ftz t a) (operand m.ftz t b) (operand m.ftz t c)
    let (p, f2) := roundTo t m.ftz m.rnd z
    (p, f1 ||| f2)
  | .min => float2 t m (minMaxNum false) a b
  | .max => float2 t m (minMaxNum true) a b
  | .abs => (clearSign (typeWidth t) a, 0)
  | .neg => (flipSign (typeWidth t) a, 0)
  | _ => (a, 0)

/-- An element of VARITH. -/
def arithElem (op : VOp) (t : BitVec 4) (sat : Bool) (m : Fp) (a b c : Nat) : Nat × Flags :=
  if isIntType t then (intElem op t sat a b c, 0) else floatElem op t m a b c

/-- The result type of a widening instruction (R133). -/
def wideType (t : BitVec 4) : BitVec 4 :=
  match t.toNat with
  | 0 => 2
  | 1 => 3
  | 2 => 4
  | 3 => 5
  | 7 => 1
  | _ => 8

/-- An element of VWADD, VWSUB, VWMUL, VWFMA (R133). -/
def wideElem (op : VOp) (t : BitVec 4) (sat : Bool) (m : Fp) (a b old : Nat) : Nat × Flags :=
  let d := wideType t
  if isIntType t then
    let x := intOf t a
    let y := intOf t b
    (fitInt d sat (match op with
      | .add => x + y
      | .sub => x - y
      | .mul => x * y
      | _ => x * y + intOf d old), 0)
  else
    let x := operand m.ftz t a
    let y := operand m.ftz t b
    let (z, f1) := match op with
      | .add => addNum x y
      | .sub => subNum x y
      | .mul => mulNum x y
      | _ => fmaNum x y (operand m.ftz d old)
    let (p, f2) := roundTo d m.ftz m.rnd z
    (p, f1 ||| f2)

/-- A conversion of one element between types (R134). -/
def convertElem (src dst : BitVec 4) (sat : Bool) (m : Fp) (p : Nat) : Nat × Flags :=
  if isIntType src && isIntType dst then
    (fitInt dst (sat && decide (typeWidth dst ≤ typeWidth src)) (intOf src p), 0)
  else roundTo dst m.ftz m.rnd (operand m.ftz src p)

/-- The result type of VDOT4 (R135). -/
def dotType (t : BitVec 4) : BitVec 4 :=
  match t.toNat with
  | 0 => 4
  | 1 => 5
  | 7 => 3
  | _ => 8

/-- How many results VDOT4 has (R135). -/
def dotCount (t : BitVec 4) : Nat := match t.toNat with | 0 | 1 => 128 | 7 => 256 | _ => 64

/-- The sum of two values rounded to f32 (R135). -/
def addF32 (ftz : Bool) (x y : Num) : Num × Flags :=
  let (z, f1) := addNum x y
  let (p, f2) := roundTo tF32 ftz .rne z
  (operand ftz tF32 p, f1 ||| f2)

/-- One result of VDOT4 on four pairs and an addend (R135): a NaN operand is returned in field order (R127). -/
def dotElem (t : BitVec 4) (sat ftz : Bool) (as bs : List Nat) (c : Nat) : Nat × Flags :=
  if isIntType t then
    (fitInt (dotType t) sat (intOf (dotType t) c
      + ((as.zip bs).map fun x => intOf t x.1 * intOf t x.2).foldl (· + ·) 0), 0)
  else
    let xs := as.map (operand ftz t)
    let ys := bs.map (operand ftz t)
    let z := operand ftz tF32 c
    let ps := (xs.zip ys).map fun x => mulNum x.1 x.2
    let fp := ps.foldl (fun f x => f ||| x.2) 0
    let p (i : Nat) : Num := (ps.getD i (zeroNum false, 0)).1
    let (l, f1) := addF32 ftz (p 0) (p 1)
    let (r, f2) := addF32 ftz (p 2) (p 3)
    let (q, f3) := addF32 ftz l r
    let (s, f4) := addNum z q
    let v := match firstNaN (xs ++ ys ++ [z]) with | some n => n | none => s
    let (out, f5) := roundTo tF32 ftz .rne v
    (out, fp ||| f1 ||| f2 ||| f3 ||| f4 ||| f5)

/-- A comparison of VCMP (R69, R136): its value and flags. -/
def cmpElem (code : Nat) (t : BitVec 4) (ftz : Bool) (a b : Nat) : Bool × Flags :=
  if isIntType t then
    let x := intOf t a
    let y := intOf t b
    (match code with
      | 0 => a == b
      | 1 => a != b
      | 2 => decide (x < y)
      | 3 => decide (x ≤ y)
      | 4 => decide (a < b)
      | 5 => decide (a ≤ b)
      | _ => Nat.land a b != 0, 0)
  else
    let x := operand ftz t a
    let y := operand ftz t b
    let nan := isNaN x || isNaN y
    let sig := flIf (anySignalling [x, y]) flNV
    match code with
    | 0 => (!nan && eqNum x y, sig)
    | 1 => (nan || !eqNum x y, sig)
    | 2 => (!nan && ltNum false x y, flIf nan flNV)
    | 3 => (!nan && (ltNum false x y || eqNum x y), flIf nan flNV)
    | 4 => (nan || ltNum false x y, sig)
    | _ => (nan || ltNum false x y || eqNum x y, sig)

/-- The place of a pattern in the total order of R144. -/
def orderKey (t : BitVec 4) (p : Nat) : Int :=
  if isIntType t then intOf t p
  else if bit p (typeWidth t - 1) then -(clearSign (typeWidth t) p : Int) - 1 else (p : Int)

/-- precedes(a, b) of R144. -/
def precedes (t : BitVec 4) (desc : Bool) (a b : Nat) : Bool :=
  if desc then decide (orderKey t b < orderKey t a) else decide (orderKey t a < orderKey t b)

/-- Putting an element behind every one that it does not precede (R145). -/
def insertOrdered (t : BitVec 4) (desc : Bool) (x : Nat) : List Nat → List Nat
  | [] => [x]
  | y :: l => if precedes t desc x y then x :: y :: l else y :: insertOrdered t desc x l

/-- The stable sort of R145. -/
def sortStable (t : BitVec 4) (desc : Bool) (l : List Nat) : List Nat :=
  l.foldl (fun acc x => insertOrdered t desc x acc) []

/-- The merge loop of R146; the fuel is the number of elements. -/
def mergeLoop (t : BitVec 4) (desc : Bool) : Nat → List Nat → List Nat → List Nat
  | 0, _, _ => []
  | n + 1, a :: as, b :: bs =>
    if precedes t desc b a then b :: mergeLoop t desc n (a :: as) bs else a :: mergeLoop t desc n as (b :: bs)
  | n + 1, a :: as, [] => a :: mergeLoop t desc n as []
  | n + 1, [], b :: bs => b :: mergeLoop t desc n [] bs
  | _ + 1, [], [] => []

/-- The magnitude that VSPARSE ranks by (R148). -/
def sparseMag (t : BitVec 4) (p : Nat) : Nat :=
  if isIntType t then (intOf t p).natAbs else clearSign (typeWidth t) p

/-- The indices of the two greatest of four magnitudes, the lower index first; ties go to the lower (R148). -/
def topTwo (m : Nat → Nat) : Nat × Nat :=
  let better (i j : Nat) : Bool := decide (m j < m i) || (decide (m i = m j) && decide (i < j))
  let rank (i : Nat) : Nat := ((List.range 4).filter fun j => better j i).length
  let kept := (List.range 4).filter fun i => decide (rank i < 2)
  (kept.getD 0 0, kept.getD 1 1)

/-- The functions of VSFU (R149). -/
inductive Fun where
  | exp2 | log2 | rcp | rsq | tanh
  deriving DecidableEq, Repr

/-- The exact value of a special function, or its special result, with NV and DZ (R149). -/
def funNum (g : Fun) (x : Num) : Num × Flags :=
  match x with
  | .nan neg sig pay => (.nan neg false pay, flIf sig flNV)
  | .inf neg =>
    match g with
    | .exp2 => (if neg then zeroNum false else .inf false, 0)
    | .log2 => if neg then (defaultNaN, flNV) else (.inf false, 0)
    | .rcp => (zeroNum neg, 0)
    | .rsq => if neg then (defaultNaN, flNV) else (zeroNum false, 0)
    | .tanh => (.fin ⟨neg, 1, 0, false⟩, 0)
  | .fin d =>
    match g with
    | .exp2 => (.fin (exp2Dy d), 0)
    | .log2 =>
      if d.man = 0 then (.inf true, flDZ)
      else if d.neg then (defaultNaN, flNV)
      else (.fin (log2Dy d), 0)
    | .rcp => if d.man = 0 then (.inf d.neg, flDZ) else (.fin (rcpDy d), 0)
    | .rsq =>
      if d.man = 0 then (.inf d.neg, flDZ)
      else if d.neg then (defaultNaN, flNV)
      else (.fin (rsqDy d), 0)
    | .tanh => if d.man = 0 then (.fin d, 0) else (.fin (tanhDy d), 0)

/-- One element of VSFU (R149). -/
def funElem (g : Fun) (t : BitVec 4) (ftz : Bool) (a : Nat) : Nat × Flags :=
  let (z, f1) := funNum g (operand ftz t a)
  let (p, f2) := roundTo t ftz .rne z
  (p, f1 ||| f2)

/-- A step of a floating maximum or minimum over active elements, NaNs aside (R138). -/
def bestNum (isMax : Bool) (best : Option Num) (x : Num) : Option Num :=
  if isNaN x then best
  else match best with
    | none => some x
    | some y => some (if isMax then (if ltNum true y x then x else y) else (if ltNum true x y then x else y))

end Sys2Proof.Machine
end

