-- ==== Sys2Proof/Machine/Engines.lean ====
section
/-! DEFINITION. The copy and erasure engines: COPY, ECENC, ECREC, and what the engines do (spec/11, R215 to R222; spec/12,
R239; spec/13, R246; spec/20, R358). -/
namespace Sys2Proof.Machine

/-! ### Descriptors -/

/-- A copy descriptor (R216): sizes from dimension 0 up, strides from dimension 1 up. -/
structure CopyDesc where
  dspace : Nat
  sspace : Nat
  sat : Bool
  rnd : Nat
  conv : Bool
  dtype : BitVec 4
  stype : BitVec 4
  sizes : List Nat
  sstride : List Int
  dstride : List Int
  deriving DecidableEq, Repr

/-- A copy descriptor from its words (R216). -/
def copyDesc (ws : List Word) : CopyDesc :=
  let w0 := nth ws 0
  let n := wbits w0 3 0
  let dims := (List.range n).map (· + 1)
  { dspace := wbits w0 23 22
    sspace := wbits w0 21 20
    sat := w0.getLsbD 19
    rnd := wbits w0 18 17
    conv := w0.getLsbD 16
    dtype := BitVec.ofNat 4 (wbits w0 15 12)
    stype := BitVec.ofNat 4 (wbits w0 11 8)
    sizes := wbits (nth ws 1) 31 0 :: dims.map fun d => wbits (nth ws (3 * d - 1)) 31 0
    sstride := dims.map fun d => (nth ws (3 * d)).toInt
    dstride := dims.map fun d => (nth ws (3 * d + 1)).toInt }

/-- The type of the elements that are written. -/
def CopyDesc.outType (d : CopyDesc) : BitVec 4 := if d.conv then d.dtype else d.stype

/-- Elements of a run. -/
def CopyDesc.runLength (d : CopyDesc) : Nat := d.sizes.headD 0

/-- Runs of the copy. -/
def CopyDesc.runs (d : CopyDesc) : Nat := (d.sizes.drop 1).foldl (· * ·) 1

/-- Elements of the copy. -/
def CopyDesc.elements (d : CopyDesc) : Nat := d.runs * d.runLength

/-- Bytes of a run of elements of a type (R216). -/
def CopyDesc.runBytes (d : CopyDesc) (t : BitVec 4) : Nat := (d.runLength * typeWidth t + 7) / 8

/-- The lowest and highest byte of an end, from its base (R218). -/
def spanOfStrides (sizes : List Nat) (strides : List Int) (run : Nat) : Int × Int :=
  let l := (sizes.drop 1).zip strides
  (l.foldl (fun x y => x + min 0 (((y.1 : Int) - 1) * y.2)) 0,
   l.foldl (fun x y => x + max 0 (((y.1 : Int) - 1) * y.2)) 0 + (run : Int) - 1)

/-- The offset of run j, dimension 1 being the innermost (R217). -/
def runOffset : Nat → List Nat → List Int → Int
  | j, n :: sizes, x :: strides => ((j % n : Nat) : Int) * x + runOffset (j / n) sizes strides
  | _, _, _ => 0

/-- One end of a copy: shared, or the scratchpad of a core at an offset. -/
structure CopyEnd where
  shared : Bool
  core : Nat
  base : Int
  first : Int
  last : Int
  deriving DecidableEq, Repr

/-- An end from its space and address (R216, R217); none when a byte lies outside its scratchpad. -/
def copyEnd (core space : Nat) (a : Word) (span : Int × Int) : Option CopyEnd :=
  if space = 2 then some ⟨true, 0, a.toNat, 0, 0⟩
  else
    let (c, off) := if space = 1 then clusterAddr core a else (core, a.toNat)
    if space = 1 ∧ wbits a 63 25 ≠ 0 then none
    else if (off : Int) + span.1 < 0 ∨ 0x40000 ≤ (off : Int) + span.2 then none
    else some ⟨false, c, off, off + span.1, off + span.2⟩

/-- The source end. -/
def CopyDesc.source (d : CopyDesc) (core : Nat) (a : Word) : Option CopyEnd :=
  copyEnd core d.sspace a (spanOfStrides d.sizes d.sstride (d.runBytes d.stype))

/-- The destination end. -/
def CopyDesc.dest (d : CopyDesc) (core : Nat) (a : Word) : Option CopyEnd :=
  copyEnd core d.dspace a (spanOfStrides d.sizes d.dstride (d.runBytes d.outType))

/-- The checks of R217 on the descriptor itself. -/
def CopyDesc.bad (d : CopyDesc) : Bool :=
  d.dspace == 3 || d.sspace == 3 || d.rnd == 3 || d.stype == 6 || (d.conv && d.dtype == 6) || d.sizes.contains 0
    || decide (2 ^ 40 < d.runs * d.runBytes d.stype) || decide (2 ^ 40 < d.runs * d.runBytes d.outType)

/-- An end, of runs so far apart, has a byte in the staging area of its core (R217). -/
def State.endStaged (s : State) (d : CopyDesc) (e : CopyEnd) (strides : List Int) (run : Nat) : Bool :=
  !e.shared && s.stagingHits e.core e.first.toNat (e.last - e.first + 1).toNat && (List.range d.runs).any fun j =>
    s.stagingHits e.core (e.base + runOffset j (d.sizes.drop 1) strides).toNat run

/-- Both ends in one scratchpad, with overlapping ranges (R217). -/
def CopyEnd.overlaps (a b : CopyEnd) : Bool :=
  !a.shared && !b.shared && a.core == b.core && decide (a.first ≤ b.last) && decide (b.first ≤ a.last)

/-- An erasure descriptor's KD + 1 and P (R221). -/
def ecMembers (ws : List Word) : Nat × Nat := (wbits (nth ws 0) 3 0 + 1, wbits (nth ws 0) 5 4)

/-- The members that ECREC rebuilds (R221). -/
def ecErased (ws : List Word) : List Nat := (List.range 16).filter fun i => (nth ws 0).getLsbD (16 + i)

/-- The checks of R221. -/
def ecBad (ws : List Word) (rec_ : Bool) (sA sB : Word) : Bool :=
  let (k, p) := ecMembers ws
  decide (14 < k) || p == 0 || p == 3 || decide (sA.toNat % 64 ≠ 0) || decide (sB.toNat % 64 ≠ 0)
    || decide (wbits (nth ws 0) 63 32 < sA.toNat + sB.toNat)
    || (rec_ && (decide (p < (ecErased ws).length) || (ecErased ws).any fun m => decide (k + p ≤ m)))

/-! ### Issue -/

/-- An engine takes a reference on a descriptor (R220). -/
def holdObj (part idx : Nat) : Mv := upPart part fun p => match tget p.objects idx with
  | some o => { p with objects := tput p.objects idx { o with holds := o.holds + 1 } }
  | none => p

/-- A free entry of the generation after o's (R292). -/
def Obj.freed (o : Obj) : Obj := { Obj.reset with gen := o.gen + 1 }

/-- A reference is dropped: a retiring entry is free when it was the last (R286, R292). -/
def dropObj (part idx : Nat) : Mv := upPart part fun p => match tget p.objects idx with
  | some o =>
    let o' := { o with holds := o.holds - 1 }
    { p with objects := tput p.objects idx (if o.state = 2 ∧ o.holds ≤ 1 then o'.freed else o') }
  | none => p

/-- The command that an instruction sends (R215): copy engine 2 x cluster + half, or the erasure engine beside it, which
bears that number and 64. -/
def engCmd (c : Ctx) (f : FL) (op id : Nat) (desc : List Word) (p : Party) : EngCmd where
  id := id
  erasure := op != 0
  op := op
  engine := (if op = 0 then 0 else 64) + 2 * clusterOf c.core + c.hid % 2
  dest := destOf c f.r.d.toNat
  core := c.core
  part := c.task.part
  asid := p.asid
  world := p.secure
  obj := f.obj.toNat
  desc := desc
  sA := c.a
  sB := c.b
  ac := if f.m.getLsbD 1 then some (f.c.toNat % 16) else none
  retain := f.m.getLsbD 0
  started := false
  reef := c.task.reef.toNat
  vf := c.task.act.vf
  dito := c.h.ctl.dito
  buf := []
  landed := []
  bytes := 0
  flags := 0
  code := 0

/-- Registering an end in the lock table of its cluster (R218). -/
def lockEnd (id kind : Nat) (e : CopyEnd) : Mv :=
  Mv.when (!e.shared) (upCluster (clusterOf e.core) fun c =>
    { c with locks := c.locks ++ [⟨kind, e.core, e.first.toNat, e.last.toNat, .command id⟩] })

/-- Some lock table has no room for the ends that it would take (R218). -/
def State.locksFull (s : State) (l : List CopyEnd) : Bool :=
  let own := l.filter fun e => !e.shared
  own.any fun e => decide (lockCapacity <
    (s.cluster (clusterOf e.core)).locks.length + (own.filter fun x => clusterOf x.core == clusterOf e.core).length)

/-- Sending a command to its engine (R215, R220). -/
def sendCmd (c : Ctx) (f : FL) (op : Nat) (desc : List Word) (ends : List (CopyEnd × Nat)) : Mv := .look fun s =>
  withId fun id => Mv.seq [
    holdObj c.task.part f.obj.toNat,
    Mv.each ends (fun e => lockEnd id e.2 e.1),
    upNet fun n => { n with cmds := n.cmds ++ [engCmd c f op id desc (s.party c.core)] },
    finish c fun h => markEmpty h (.s f.r.d.toNat)]

/-- The sources of COPY, ECENC and ECREC (R215). -/
def engSpec (f : FL) : Spec :=
  ⟨some f.r.k, true, [⟨1, .s f.r.a.toNat, f.r.wa⟩, ⟨2, .s f.r.b.toNat, f.r.wb⟩], [.s f.r.d.toNat]⟩

/-- R215 to R218. COPY. -/
def execCopy (f : FL) (s : State) : Host.Outcome State Fault Refusal :=
  perform (issue (.copy f) (engSpec f) fun c => .look fun s =>
    match s.liveObj c.task.part f.obj.toNat 3 with
    | none => raiseIssue c.hid .bound 0 0
    | some o =>
      let d := copyDesc o.body
      if d.bad then raiseIssue c.hid .bound 0 0
      else match d.source c.core c.a, d.dest c.core c.b with
        | some x, some y =>
          if s.endStaged d x d.sstride (d.runBytes d.stype) || s.endStaged d y d.dstride (d.runBytes d.outType) || x.overlaps y then raiseIssue c.hid .bound 0 0
          else direct c (if s.locksFull [x, y] then stall c.hid .register else sendCmd c f 0 o.body [(x, 0), (y, 1)])
        | _, _ => raiseIssue c.hid .bound 0 0) s

/-- ECENC and ECREC (R221). -/
def erasure (i : Instr) (f : FL) (op : Nat) : Mv :=
  issue i (engSpec f) fun c => .look fun s =>
    match s.liveObj c.task.part f.obj.toNat 4 with
    | none => raiseIssue c.hid .bound 0 0
    | some o =>
      if ecBad o.body (op == 2) c.a c.b then raiseIssue c.hid .bound 0 0
      else direct c (sendCmd c f op o.body [])

/-- R221, R222. ECENC. -/
def execEcenc (f : FL) (s : State) : Host.Outcome State Fault Refusal := perform (erasure (.ecenc f) f 1) s

/-- R221, R222. ECREC. -/
def execEcrec (f : FL) (s : State) : Host.Outcome State Fault Refusal := perform (erasure (.ecrec f) f 2) s

/-! ### What an engine may reach -/

/-- Bytes that an engine reads or writes. -/
inductive Reach where
  /-- At a package address. -/
  | ok (pa : Nat)
  /-- Another engine's lock or a task's lock holds it (R218, R223). -/
  | wait
  /-- A page fault (R190). -/
  | fault (va : Nat)
  /-- The command fails with this code (R219). -/
  | fail (code : Nat)
  deriving DecidableEq, Repr

/-- The party that a command's requests are translated for (R193). -/
def EngCmd.party (q : EngCmd) : Party := ⟨clusterOf q.core, q.part, q.asid, q.world⟩

/-- A request that stands for a fault of a command. -/
def Access.ofCommand : Access → Nat → Bool
  | .engine id _, n => id == n
  | _, _ => false

/-- A store of the issuing core to its own scratchpad, sent before the command, has not landed there: a COPY observes it
(R220). -/
def State.storeBefore (s : State) (q : EngCmd) (off n : Nat) : Bool :=
  (s.net.remotes.any fun r => r.core == q.core && r.target == q.core && r.op.writes && decide (r.id < q.id)
    && rangesMeet r.off r.op.size off n)
  || s.net.mcasts.any fun m => m.core == q.core && m.waiting.contains q.core && decide (m.id < q.id)
    && (match m.data with | some d => rangesMeet d.2 256 off n | none => false)

/-- A range lock that an engine command meets: those of its own engine's commands hold no access of the engine (R218, R296). -/
def State.engineMeets (s : State) (q : EngCmd) (l : Lock) (core off n : Nat) (write : Bool) : Bool :=
  l.covers core off (off + n - 1) && !(s.net.cmds.any fun x => l.owner == .command x.id && x.engine == q.engine) &&
  (match l.kind with
   | 0 | 3 => write
   | 4 => !write && (match l.owner with | .reef p id => !s.inReef p q.reef id | _ => true)
   | _ => true)

/-- An engine's access to bytes of a scratchpad (R196, R218, R223, R294, R296). -/
def State.engineScratch (s : State) (q : EngCmd) (core off n : Nat) (write : Bool) : Reach :=
  let kinds := ((s.cluster (clusterOf core)).locks.filter fun l => s.engineMeets q l core off n write).map (·.kind)
  if core ≠ q.core && !windowGrants (s.core core) off (off + n - 1) write true then .fail 0x0A
  else if s.stagingHits core off n then .fail 0x0B
  else match kinds.foldl (fun m k => min m k) 5 with
    | 0 | 1 | 2 => .wait
    | 3 => .fail 0x09
    | 4 => .fail 0x12
    | _ => if core = q.core && s.storeBefore q off n then .wait else .ok (scratchAt core off)

/-- An engine's access to a byte of shared memory (R34, R183, R186, R187, R193, R219); it waits behind an atomic that the home
holds (R237), and behind the writes that its core saw as it issued the command (R232). -/
def State.engineShared (s : State) (q : EngCmd) (va : Nat) (write : Bool) : Reach :=
  let p := q.party
  if 2 ^ 56 ≤ va then .fail 0x0B
  else match s.guardCause p.cluster q.asid (touchOf va 1) (!write) write ⟨q.dest.tid, q.part, q.reef⟩ with
    | some cause => .fail (causeCode cause)
    | none =>
      match translate s p (if write then .write else .read) va with
      | .fault => .fault va
      | .refused => .fail 0x0B
      | .ok spa =>
        match s.reach (.ok spa) with
        | none => .fail 0x0B
        | some pa =>
          match homeOf s.extent pa with
          | .scratch core => s.engineScratch q core (pa % 0x40000) 1 write
          | _ => if s.beyondCells pa || (write && s.inRatBank pa) then .fail 0x0B
              else if s.homeHeld pa || s.behind q.core q.id pa false false then .wait
              else .ok pa

/-- The bytes of an access, one by one; the first that cannot be reached decides. -/
def reachAll (f : Nat → Reach) : List Nat → Except Reach (List Nat)
  | [] => .ok []
  | a :: t => match f a with
    | .ok pa => (match reachAll f t with | .ok l => .ok (pa :: l) | .error e => .error e)
    | e => .error e

/-- The package addresses of n bytes at an end. -/
def State.endBytes (s : State) (q : EngCmd) (e : CopyEnd) (off : Int) (n : Nat) (write : Bool) : Except Reach (List Nat) :=
  let a := e.base + off
  reachAll (fun i => if e.shared then s.engineShared q ((a + i) % 2 ^ 64).toNat write
    else s.engineScratch q e.core (a + i).toNat 1 write) (List.range n)

/-- A byte written by an engine: at its home, through its translation (R189, R202). -/
def engineWrite (q : EngCmd) (shared : Bool) (va pa : Nat) (b : Byte) : Mv :=
  let p := q.party
  if shared then Mv.seq [writeHome pa [b], install p va, setDirty p va] else .one (.byte pa b)

/-! ### Elements -/

/-- What an engine does with one element at one time. -/
inductive Landing where
  /-- Bytes to write: shared or not, virtual address, package address, byte; and the receiving core. -/
  | write (l : List (Bool × Nat × Nat × Byte)) (core : Nat) (flags : Flags)
  /-- It cannot be done now, at its source or at its destination. -/
  | stop (write : Bool) (r : Reach)

/-- Reading element i of run j of a copy (R217). -/
def State.copyRead (s : State) (q : EngCmd) (d : CopyDesc) (src : CopyEnd) (e : Nat) : Except Reach Nat :=
  let i := e % d.runLength
  let w := typeWidth d.stype
  let off := runOffset (e / d.runLength) (d.sizes.drop 1) d.sstride + ((i * w / 8 : Nat) : Int)
  match s.endBytes q src off (max 1 (w / 8)) false with
  | .error r => .error r
  | .ok pas =>
    let n := ofBytes (pas.map (memGet s.mem))
    .ok (if w = 4 then n / 16 ^ (i % 2) % 16 else n)

/-- What is written of an element: its pattern, converted when CONV is set (R98 to R101, R216, R217). -/
def CopyDesc.convert (d : CopyDesc) (dito : Word) (i x : Nat) : Nat × Flags :=
  if d.conv then convertElem d.stype d.dtype d.sat ⟨false, rndOf (BitVec.ofNat 2 d.rnd) (ditherElem dito i)⟩ x else (x, 0)

/-- The elements that share the destination's bytes with element e: a pair of 4-bit ones (R216). -/
def CopyDesc.mates (d : CopyDesc) (e : Nat) : List Nat :=
  let i := e % d.runLength
  if typeWidth d.outType = 4 then
    let first := e - i % 2
    if i - i % 2 + 1 < d.runLength then [first, first + 1] else [first]
  else [e]

/-- The patterns of some elements, read before or now. -/
def State.readMates (s : State) (q : EngCmd) (d : CopyDesc) (src : CopyEnd) : List Nat → Except Reach (List Nat)
  | [] => .ok []
  | e :: t =>
    match (match tget q.buf e with | some x => Except.ok x | none => s.copyRead q d src e) with
    | .error r => .error r
    | .ok x => match s.readMates q d src t with
      | .ok l => .ok (x :: l)
      | .error r => .error r

/-- What landing element e of a copy writes; an odd last 4-bit element keeps the upper nibble (R216). -/
def State.copyPiece (s : State) (q : EngCmd) (d : CopyDesc) (src dst : CopyEnd) (e : Nat) : Landing :=
  let mates := d.mates e
  let first := mates.headD e
  let i := first % d.runLength
  let w := typeWidth d.outType
  let n := max 1 (w / 8)
  let off := runOffset (first / d.runLength) (d.sizes.drop 1) d.dstride + ((i * w / 8 : Nat) : Int)
  match s.readMates q d src mates, s.endBytes q dst off n true with
  | .error r, _ => .stop false r
  | _, .error r => .stop true r
  | .ok xs, .ok pas =>
    let rs := xs.zipIdx.map fun x => d.convert q.dito (i + x.2) x.1
    let v := if w = 4 then
        (match rs with
         | [a] => a.1 % 16 + (memGet s.mem (pas.headD 0)).toNat / 16 * 16
         | _ => ofElems 4 (rs.map (·.1)))
      else (rs.map (·.1)).headD 0
    let va := ((dst.base + off) % 2 ^ 64).toNat
    .write (((toBytes n v).zip pas).zipIdx.map fun x => (dst.shared, va + x.2, x.1.2, x.1.1))
      (if dst.shared then q.core else dst.core) (rs.foldl (fun fl r => fl ||| r.2) 0)

/-! ### Erasure arithmetic (R222) -/

/-- Doubling in GF(2^8). -/
def gfDouble (x : Nat) : Nat := if x < 128 then 2 * x else (2 * x) ^^^ 0x11D

/-- Multiplication in GF(2^8); the fuel is the bits of the second factor. -/
def gfMul : Nat → Nat → Nat → Nat
  | 0, _, _ => 0
  | n + 1, a, b => (if b % 2 = 1 then a else 0) ^^^ gfMul n (gfDouble a) (b / 2)

/-- A power of g = 0x02. -/
def gfPow : Nat → Nat
  | 0 => 1
  | n + 1 => gfDouble (gfPow n)

/-- The inverse of a number below 256, 0 for 0. -/
def gfInv (a : Nat) : Nat := ((List.range 256).find? fun b => gfMul 8 a b == 1).getD 0

/-- p0 of the data members. -/
def parity0 (d : List Nat) : Nat := d.foldl (fun x y => x ^^^ y) 0

/-- p1 of the data members. -/
def parity1 (d : List Nat) : Nat := d.zipIdx.foldl (fun x y => x ^^^ gfMul 8 (gfPow y.2) y.1) 0

/-- The data members at one offset, the erased ones solved for from the rest; erased members count as 0 in `m`, the bytes
of all members. -/
def solveData (k : Nat) (m : List Nat) (erased : List Nat) : List Nat :=
  let d := m.take k
  let a := parity0 d ^^^ m.getD k 0
  let b := parity1 d ^^^ m.getD (k + 1) 0
  match erased.filter fun e => decide (e < k) with
  | [x] => lset d x (if erased.contains k then gfMul 8 (gfInv (gfPow x)) b else a)
  | [x, y] =>
    let dy := gfMul 8 (gfInv (gfPow x ^^^ gfPow y)) (b ^^^ gfMul 8 (gfPow x) a)
    lset (lset d x (a ^^^ dy)) y dy
  | _ => d

/-- The byte of member e once the data is known. -/
def memberByte (k : Nat) (d : List Nat) (e : Nat) : Nat :=
  if e < k then d.getD e 0 else if e = k then parity0 d else parity1 d

/-- The members that a command writes. -/
def EngCmd.targets (q : EngCmd) : List Nat :=
  let (k, p) := ecMembers q.desc
  if q.op = 1 then (List.range p).map (k + ·) else ecErased q.desc

/-- What landing byte o of an erasure command writes (R222). -/
def State.erasurePiece (s : State) (q : EngCmd) (o : Nat) : Landing :=
  let (k, p) := ecMembers q.desc
  let va (m : Nat) : Nat := ((nth q.desc (1 + m)).toNat + q.sA.toNat + o) % 2 ^ 64
  let targets := q.targets
  let read (m : Nat) : Reach := if targets.contains m || (q.op == 1 && decide (k ≤ m)) then .ok (2 ^ 64)
    else s.engineShared q (va m) false
  match reachAll read (List.range (k + p)), reachAll (fun m => s.engineShared q (va m) true) targets with
  | .error r, _ => .stop false r
  | _, .error r => .stop true r
  | .ok from_, .ok to_ =>
    let m := from_.map fun pa => if pa = 2 ^ 64 then 0 else (memGet s.mem pa).toNat
    let d := solveData k m (if q.op = 1 then [] else targets)
    .write ((targets.zip to_).map fun x => (true, va x.1, x.2, BitVec.ofNat 8 (memberByte k d x.1))) q.core 0

/-! ### The life of a command -/

/-- Elements of a command: of a copy, or the byte offsets of an erasure command. -/
def EngCmd.total (q : EngCmd) : Nat := if q.erasure then q.sB.toNat else (copyDesc q.desc).elements

/-- Element e has landed. -/
def EngCmd.hasLanded (q : EngCmd) (e : Nat) : Bool := q.landed.any fun r => decide (r.1 ≤ e) && decide (e < r.1 + r.2)

/-- Every element has landed. -/
def EngCmd.complete (q : EngCmd) : Bool := q.landed.foldl (fun n r => n + r.2) 0 == q.total

/-- Changing a command. -/
def upCmd (id : Nat) (f : EngCmd → EngCmd) : Mv := upNet fun n => { n with cmds := n.cmds.map fun c => if c.id = id then f c else c }

/-- A command in flight. -/
def State.cmd? (s : State) (id : Nat) : Option EngCmd := s.net.cmds.find? fun c => c.id == id

/-- What landing element e writes. -/
def State.piece (s : State) (q : EngCmd) (e : Nat) : Landing :=
  if q.erasure then s.erasurePiece q e
  else
    let d := copyDesc q.desc
    match d.source q.core q.sA, d.dest q.core q.sB with
    | some x, some y => s.copyPiece q d x y e
    | _, _ => .stop false (.fail 0x0B)

/-- The page that holds an address, as base and bytes: of a cached or walked leaf, else 4 KiB (R358). -/
def State.pageOf (s : State) (p : Party) (va : Nat) : Nat × Nat :=
  match rangeHit (s.station (stationOf p.cluster va)) p.asid va with
  | some _ => (va / 4096 * 4096, 4096)
  | none => match walk s p.secure p.asid va with
    | .leaf g => (g.va, 2 ^ g.bits)
    | _ => (va / 4096 * 4096, 4096)

/-- Pages joined to a list that has not yet got them. -/
def addPages (l : List (Nat × Nat)) (new : List (Nat × Nat)) : List (Nat × Nat) :=
  new.foldl (fun l x => if l.contains x then l else l ++ [x]) l

/-- The retained pages after a COPY with .ret, or none when the budget is spent (R219, R358). -/
def State.retainedBy (s : State) (q : EngCmd) : Option (List (Nat × Nat)) :=
  let d := copyDesc q.desc
  match s.part? q.part, d.dest q.core q.sB with
  | some p, some y =>
    if !y.shared then some p.retained
    else
      let party := q.party
      let run := d.runBytes d.outType
      let pages := (List.range d.runs).flatMap fun j =>
        let va := ((y.base + runOffset j (d.sizes.drop 1) d.dstride) % 2 ^ 64).toNat
        (linesOf va run).map (s.pageOf party)
      let l := addPages p.retained pages
      if p.image.retain < l.foldl (fun n x => n + x.2) 0 then none else some l
  | _, _ => none

/-- The status word of a command (R219). -/
def EngCmd.status (q : EngCmd) (noret : Bool) : Word :=
  word (min q.bytes (2 ^ 32 - 1) * 2 ^ 32 + b2n noret * 2 ^ 13 + q.flags.toNat * 2 ^ 8 + q.code)

/-- A command's end, successful or not (R218, R219, R220): its locks are released, its reference dropped, its status
fills sD in the same clk. -/
def finishCmd (id : Nat) : Mv := .look fun s =>
  match s.cmd? id with
  | none => .done
  | some q =>
    let kept := if q.retain && q.op == 0 && q.code == 0 then s.retainedBy q else some []
    Mv.seq [
      upNet fun n => { n with
        cmds := n.cmds.filter fun c => c.id != id
        reqs := n.reqs.filter fun r => !r.acc.ofCommand id },
      Mv.each s.clusters (fun c => Mv.when (c.2.locks.any fun l => l.owner == .command id) (upCluster c.1 fun c =>
        { c with locks := c.locks.filter fun l => l.owner != .command id })),
      dropObj q.part q.obj,
      Mv.when (q.retain && q.op == 0 && q.code == 0) (match kept with
        | some l => upPart q.part fun p => { p with retained := l }
        | none => .done),
      fillNow ⟨q.dest.hid, q.dest.tid, q.dest.seq, .s q.dest.reg (q.status kept.isNone), 0, none, false, none, none⟩]

/-- A command fails: its status is sent at once, and what has been written stays (R219). -/
def failCmd (id code : Nat) : Mv := (upCmd id fun q => { q with code := code }).andThen (finishCmd id)

/-- A page fault of a command (R190). -/
def engineFault (q : EngCmd) (va : Nat) (write : Bool) : Mv := .look fun s =>
  if s.net.reqs.any fun r => r.acc.ofCommand q.id && r.va / 4096 == va / 4096 then .done
  else withId fun id => upNet fun n => { n with reqs := n.reqs ++
    [{ faultReq id q.dest.hid q.dest.tid q.dest.seq q.core q.party (.engine q.id write) 0 va with
        phase := s.missPhase q.party.cluster va }] }

/-- The source lock is released once the last source byte has been read (R218). -/
def releaseSource (q : EngCmd) : Mv :=
  let d := copyDesc q.desc
  let read := (List.range q.total).all fun e => q.hasLanded e || (tget q.buf e).isSome
  Mv.when (!q.erasure && read) (match d.source q.core q.sA with
    | some x => Mv.when (!x.shared) (upCluster (clusterOf x.core) fun c =>
        { c with locks := c.locks.filter fun l => !(l.kind == 0 && l.owner == .command q.id) })
    | none => .done)

/-- What stops an element: a fault of the source or the destination is posted, a failure ends the command. -/
def stopPiece (q : EngCmd) (write : Bool) : Reach → Mv
  | .fault va => engineFault q va write
  | .fail code => failCmd q.id code
  | _ => .done

/-- Element e is read, and stays with the engine until it lands. -/
def readElem (id e : Nat) : Mv := .look fun s =>
  match s.cmd? id with
  | none => .done
  | some q =>
    let d := copyDesc q.desc
    if q.erasure || q.hasLanded e || decide (q.total ≤ e) || (tget q.buf e).isSome then .done
    else match d.source q.core q.sA with
      | none => .done
      | some x => match s.copyRead q d x e with
        | .ok v => (upCmd id fun q => { q with buf := tput q.buf e v }).andThen
            (.look fun s => match s.cmd? id with | some q => releaseSource q | none => .done)
        | .error r => stopPiece q false r

/-- Landed bytes decrement the counter of the receiving core (R219). -/
def EngCmd.countBytes (q : EngCmd) (core n : Nat) : Mv := match q.ac with | some ac => landBytes core ac n | none => .done

/-- Element e lands, with the one that shares its byte: its bytes are written and counted. With the last one the command
ends in the same clk (R219). -/
def landElem (id e : Nat) : Mv := .look fun s =>
  match s.cmd? id with
  | none => .done
  | some q =>
    if q.hasLanded e || decide (q.total ≤ e) then .done
    else match s.piece q e with
      | .stop write r => stopPiece q write r
      | .write l core fl =>
        let mates := if q.erasure then [e] else (copyDesc q.desc).mates e
        Mv.seq [
          Mv.each l (fun x => engineWrite q x.1 x.2.1 x.2.2.1 x.2.2.2),
          upCmd id fun q => { q with
            buf := mates.foldl tdel q.buf
            landed := (mates.headD e, mates.length) :: q.landed
            bytes := q.bytes + l.length
            flags := q.flags ||| fl },
          q.countBytes core l.length,
          .look fun s => match s.cmd? id with
            | some q => if q.complete then finishCmd id else releaseSource q
            | none => .done]

/-- Commands that the queue of a copy or erasure engine, a ratline controller or a jib loader holds (R241). -/
def queueEntries : Nat := 64

/-- The commands in the queue of an engine, in arrival order; those that it has no room for wait at the engine's ingress (R246). -/
def State.engineQueue (s : State) (engine : Nat) : List EngCmd :=
  (s.net.cmds.filter fun q => q.engine == engine && !q.started).take queueEntries

/-- The command that an engine takes next from its queue (R246). -/
def State.engineNext (s : State) (engine : Nat) : Option EngCmd := (s.engineQueue engine).head?

/-- R246. ENGINE_COMMAND_START: commands start in arrival order, and several may run at once (R239). -/
def execEngineCommandStart (s : State) : Host.Outcome State Fault Refusal :=
  perform (.look fun s => match s.engineNext s.data.n with
    | some q => upCmd q.id fun q => { q with started := true }
    | none => .done) s

/-- Where the source of element e stands: virtual and package address; of an erasure command, that of the member `i` among those
that it reads. -/
def State.sourceAt (s : State) (q : EngCmd) (e i : Nat) : Option (Nat × Nat) :=
  if q.erasure then
    let (k, p) := ecMembers q.desc
    let read := (List.range (if q.op = 1 then k else k + p)).filter fun m => !q.targets.contains m
    let va := ((nth q.desc (1 + read.getD (i % read.length) 0)).toNat + q.sA.toNat + e) % 2 ^ 64
    match s.engineShared q va false with
    | .ok pa => some (va, pa)
    | _ => none
  else
    let d := copyDesc q.desc
    let off := runOffset (e / d.runLength) (d.sizes.drop 1) d.sstride + ((e % d.runLength * typeWidth d.stype / 8 : Nat) : Int)
    match d.source q.core q.sA with
    | some x => (match s.endBytes q x off 1 false with
      | .ok (pa :: _) => some (((x.base + off) % 2 ^ 64).toNat, pa)
      | _ => none)
    | none => none

/-- The addresses that element e is read from. -/
def State.sourcesOf (s : State) (q : EngCmd) (e : Nat) : List (Nat × Nat) :=
  (List.range (if q.erasure then (ecMembers q.desc).1 + (ecMembers q.desc).2 else 1)).filterMap (s.sourceAt q e)

/-- A source byte that cannot be corrected ends a command with DUE, and the reef of its task is notified (R185, R219). -/
def dueCmd (q : EngCmd) (x : Nat × Nat) : Mv :=
  Mv.seq [failCmd q.id 0x20, reportDue q.dest.tid q.part x.1 x.2, .one (.ecc .clean)]

/-- The word that an error of a source is in: its own, or in a shared source, with bit 63 of `i`, the entry that the walk for it
reads at level i (R188). -/
def State.walkedFor (s : State) (q : EngCmd) (i : Nat) (x : Nat × Nat) : Nat × Nat :=
  let p := q.party
  let scratch := match homeOf s.extent x.2 with | .scratch _ => true | _ => false
  if i / 2 ^ 63 = 1 && !scratch && (lookup s p .read x.1).isNone then (x.1, s.walkEntry p.asid x.1 (i % 8)) else x

/-- An engine's reading of some elements, after the code of the memories has been heard (R185): a byte that stays lost is found;
another error is in a source of the first of them, of the member `i` of an erasure command. -/
def heardElems (q : EngCmd) (elems : List Nat) (i : Nat) (k : Mv) : Mv := .look fun s =>
  match (elems.flatMap (s.sourcesOf q)).find? fun x => decide (s.eccAt x.2 1 = .uncorrectable) && decide (s.data.ecc = .clean) with
  | some x => dueCmd q x
  | none =>
    if s.data.ecc = .clean then k
    else match (s.sourceAt q (elems.headD 0) i).map (s.walkedFor q i) with
      | none => .done
      | some x => match s.eccAt x.2 1 with
        | .uncorrectable => dueCmd q x
        | .corrected g => (correctedAt q.part x.2 g).andThen (.eff (.ecc .clean) k)
        | .clean => k

/-- A command tries its elements again: the translations that it waited for, and that stand now, hold nothing back any more
(R190). -/
def retryCmd (id : Nat) : Mv := .look fun s =>
  let ready (q : Req) : Bool := q.acc.ofCommand id && decide (q.phase = .home)
  Mv.when (s.net.reqs.any ready) (upNet fun n => { n with reqs := n.reqs.filter fun q => !ready q })

/-- R219. ENGINE_BYTES_LAND: k elements from m on are read, or with `yes` unset land; in a deterministic partition at a
quantum's end (R341). The code of the memory may report a source of element m, of an erasure command that of the member
that `word` picks (R185). -/
def execEngineBytesLand (s : State) : Host.Outcome State Fault Refusal :=
  perform (.look fun s => match s.cmd? s.data.n with
    | none => .done
    | some q =>
      let elems := (List.range (min s.data.k (q.total - s.data.m))).map (s.data.m + ·)
      if !q.started || q.code != 0 || s.detCore q.core then .done
      else (retryCmd q.id).andThen (heardElems q elems s.data.word.toNat
        (Mv.each elems (if s.data.yes then readElem q.id else landElem q.id)))) s

/-- Everything of a command that has not landed lands, and the command ends when nothing is left. -/
def landRest (q : EngCmd) : Mv :=
  if q.code ≠ 0 then finishCmd q.id
  else if q.complete then finishCmd q.id
  else
    let rest := (List.range q.total).filter fun e => !q.hasLanded e
    (retryCmd q.id).andThen (.look fun s => heardElems q (rest.filter fun e => (tget q.buf e).isNone) s.data.word.toNat
      (Mv.each rest (landElem q.id)))

/-- R219. ENGINE_COMMAND_COMPLETE: the last bytes land, the destination lock is released and the status is sent; a failed
command ends with its code. -/
def execEngineCommandComplete (s : State) : Host.Outcome State Fault Refusal :=
  perform (.look fun s => match s.cmd? s.data.n with
    | none => .done
    | some q => if !q.started || s.detCore q.core then .done else landRest q) s

end Sys2Proof.Machine
end

