-- ==== Sys2Proof/Machine/Vector.lean ====
section
/-! DEFINITION. The vector instructions (spec/08_vector_instructions.md R125 to R150). -/
namespace Sys2Proof.Machine

/-! ### Shapes -/

/-- An active element (R125). -/
def active (m : Mask) (i : Nat) : Bool := m.getLsbD i

/-- A register of n elements, the active ones new and the others old, with the flags of the active ones ORed
(R125, R127). -/
def mapLanes (w n : Nat) (m : Mask) (old : VReg) (f : Nat → Nat × Flags) : VReg × Flags :=
  let l := (List.range (lanesOf w)).map fun i => if active m i && decide (i < n) then f i else (elem old w i, 0)
  (BitVec.ofNat 4096 (ofElems w (l.map (·.1))), l.foldl (fun a x => a ||| x.2) 0)

/-- A group of g registers of width w (R132): element i is position i div g of register i mod g. -/
def mapGroup (w g : Nat) (m : Mask) (old : Nat → VReg) (f : Nat → Nat × Flags) : List VReg × Flags :=
  let l := (List.range g).map fun r =>
    (List.range (lanesOf w)).map fun p => if active m (p * g + r) then f (p * g + r) else (elem (old r) w p, 0)
  (l.map fun x => BitVec.ofNat 4096 (ofElems w (x.map (·.1))), l.foldl (fun a x => x.foldl (fun b y => b ||| y.2) a) 0)

/-- Element i of a group of g registers from r up (R132). -/
def groupElem (h : Half) (r g w i : Nat) : Nat := elem (readV h (r + i % g)) w (i / g)

/-- Registers from r up written. -/
def writeGroup (h : Half) (r : Nat) : List VReg → Half
  | [] => h
  | x :: l => writeGroup (writeV h r x) (r + 1) l

/-- A vector instruction that writes: its results stand in their registers, and it is in flight until it completes (R125,
R151). -/
def finishVec (c : Ctx) (f : Half → Half) : Mv := finishLater c 0 false f

/-- Ending a vector instruction that computes: an exception enabled as it issues traps and writes nothing, any other sets its
flag as the instruction completes (R124, R127; logs 24, 126). `fp` where it is floating. -/
def vecDone (c : Ctx) (fp : Bool) (fl : Flags) (write : Half → Half) : Mv :=
  if trapping c.h.ctl fl ≠ 0 then raiseIssue c.hid .fpx 0 (zx fl)
  else finishLater c fl fp write

/-- A source that is v[A], v[B] or v[C]. -/
def vsrc (fld r : Nat) (w : Bool) : Src := ⟨fld, .v r, w⟩

/-- The B source: sB with `.vs`, else v[B] (R128). -/
def bsrc (f : FL) : Src := if f.m.getLsbD 1 then ⟨2, .s f.r.b.toNat, f.r.wb⟩ else vsrc 2 f.r.b.toNat f.r.wb

/-- B[i]: the low bits of sB with `.vs`, else the element (R128). -/
def belem (f : FL) (c : Ctx) (w i : Nat) : Nat :=
  if f.m.getLsbD 1 then c.b.toNat % 2 ^ w else elem (readV c.h f.r.b.toNat) w i

/-- A vector instruction with D in v. -/
def specV (f : FL) (srcs : List Src) : Spec := ⟨some f.r.k, false, srcs, [.v f.r.d.toNat]⟩

/-- The rounding of element i of a vector (R99, R127). -/
def vfp (f : FL) (c : Ctx) (i : Nat) : Fp := ⟨ftzOf c.h.ctl, rndOf f.sc (ditherElem c.h.ctl.dito i)⟩

/-! ### VARITH -/

/-- VARITH (R130): `useB` and `useC` tell which fields the minor reads. -/
def varith (i : Instr) (f : FL) (op : VOp) (useB useC : Bool) : Mv :=
  let w := typeWidth f.t
  issue i (specV f ([vsrc 1 f.r.a.toNat f.r.wa] ++ (if useB then [bsrc f] else [])
    ++ (if useC then [vsrc 3 f.c.toNat f.wc] else []))) fun c =>
    let (v, fl) := mapLanes w (lanesOf w) c.vmask (readV c.h f.r.d.toNat) fun i =>
      arithElem op f.t (f.m.getLsbD 0) (vfp f c i) (elem (readV c.h f.r.a.toNat) w i) (belem f c w i)
        (elem (readV c.h f.c.toNat) w i)
    vecDone c (isFloatType f.t) fl fun h => writeV h f.r.d.toNat v

/-- R130. VADD. -/
def execVadd (f : FL) (s : State) : Host.Outcome State Fault Refusal :=
  perform (varith (.vadd f) f .add true false) s

/-- R130. VSUB. -/
def execVsub (f : FL) (s : State) : Host.Outcome State Fault Refusal :=
  perform (varith (.vsub f) f .sub true false) s

/-- R130. VMUL. -/
def execVmul (f : FL) (s : State) : Host.Outcome State Fault Refusal :=
  perform (varith (.vmul f) f .mul true false) s

/-- R130. VFMA. -/
def execVfma (f : FL) (s : State) : Host.Outcome State Fault Refusal :=
  perform (varith (.vfma f) f .fma true true) s

/-- R130. VMIN. -/
def execVmin (f : FL) (s : State) : Host.Outcome State Fault Refusal :=
  perform (varith (.vmin f) f .min true false) s

/-- R130. VMAX. -/
def execVmax (f : FL) (s : State) : Host.Outcome State Fault Refusal :=
  perform (varith (.vmax f) f .max true false) s

/-- R130. VABS. -/
def execVabs (f : FL) (s : State) : Host.Outcome State Fault Refusal :=
  perform (varith (.vabs f) f .abs false false) s

/-- R130. VNEG. -/
def execVneg (f : FL) (s : State) : Host.Outcome State Fault Refusal :=
  perform (varith (.vneg f) f .neg false false) s

/-- R130. VAND. -/
def execVand (f : FL) (s : State) : Host.Outcome State Fault Refusal :=
  perform (varith (.vand f) f .and true false) s

/-- R130. VOR. -/
def execVor (f : FL) (s : State) : Host.Outcome State Fault Refusal :=
  perform (varith (.vor f) f .or true false) s

/-- R130. VXOR. -/
def execVxor (f : FL) (s : State) : Host.Outcome State Fault Refusal :=
  perform (varith (.vxor f) f .xor true false) s

/-- R130. VSHL. -/
def execVshl (f : FL) (s : State) : Host.Outcome State Fault Refusal :=
  perform (varith (.vshl f) f .shl true false) s

/-- R130. VSHR. -/
def execVshr (f : FL) (s : State) : Host.Outcome State Fault Refusal :=
  perform (varith (.vshr f) f .shr true false) s

/-- R130. VSAR. -/
def execVsar (f : FL) (s : State) : Host.Outcome State Fault Refusal :=
  perform (varith (.vsar f) f .sar true false) s

/-- R130. VSEL. -/
def execVsel (f : FL) (s : State) : Host.Outcome State Fault Refusal :=
  perform (issue (.vsel f) (specV f [vsrc 1 f.r.a.toNat f.r.wa, bsrc f, ⟨3, .k (f.c.toNat % 8), f.wc⟩]) fun c =>
    let w := typeWidth f.t
    let v := (mapLanes w (lanesOf w) c.vmask (readV c.h f.r.d.toNat) fun i =>
      (if active (readK c.h (f.c.toNat % 8)) i then elem (readV c.h f.r.a.toNat) w i else belem f c w i, 0)).1
    finishVec c fun h => writeV h f.r.d.toNat v) s

/-- R130. VMULH. -/
def execVmulh (f : FL) (s : State) : Host.Outcome State Fault Refusal :=
  perform (varith (.vmulh f) f .mulh true false) s

/-! ### VWIDE -/

/-- VWADD, VWSUB, VWMUL, VWFMA (R133). -/
def vwide (i : Instr) (f : FL) (op : VOp) : Mv :=
  let d := f.r.d.toNat
  let w := typeWidth f.t
  issue i ⟨some f.r.k, false, [vsrc 1 f.r.a.toNat f.r.wa, vsrc 2 f.r.b.toNat f.r.wb], vgroup d 2⟩ fun c =>
    let (vs, fl) := mapGroup (2 * w) 2 c.vmask (fun r => readV c.h (d + r)) fun i =>
      wideElem op f.t (f.m.getLsbD 0) (vfp f c i) (elem (readV c.h f.r.a.toNat) w i)
        (elem (readV c.h f.r.b.toNat) w i) (groupElem c.h d 2 (2 * w) i)
    vecDone c (isFloatType f.t) fl fun h => writeGroup h d vs

/-- R133. VWADD. -/
def execVwadd (f : FL) (s : State) : Host.Outcome State Fault Refusal :=
  perform (vwide (.vwadd f) f .add) s

/-- R133. VWSUB. -/
def execVwsub (f : FL) (s : State) : Host.Outcome State Fault Refusal :=
  perform (vwide (.vwsub f) f .sub) s

/-- R133. VWMUL. -/
def execVwmul (f : FL) (s : State) : Host.Outcome State Fault Refusal :=
  perform (vwide (.vwmul f) f .mul) s

/-- R133. VWFMA. -/
def execVwfma (f : FL) (s : State) : Host.Outcome State Fault Refusal :=
  perform (vwide (.vwfma f) f .fma) s

/-- R134. VNARROW. -/
def execVnarrow (f : FL) (s : State) : Host.Outcome State Fault Refusal :=
  perform (
    let ws := typeWidth f.t
    let wd := typeWidth (cvtDst f)
    let g := ws / wd
    issue (.vnarrow f) ⟨some f.r.k, false,
      (List.range g).map fun r => vsrc 1 (f.r.a.toNat + r) f.r.wa, [.v f.r.d.toNat]⟩ fun c =>
      let (v, fl) := mapLanes wd (lanesOf wd) c.vmask (readV c.h f.r.d.toNat) fun i =>
        convertElem f.t (cvtDst f) (f.m.getLsbD 0) (vfp f c i) (groupElem c.h f.r.a.toNat g ws i)
      vecDone c (!(isIntType f.t && isIntType (cvtDst f))) fl fun h => writeV h f.r.d.toNat v) s

/-- R134. VCVT. -/
def execVcvt (f : FL) (s : State) : Host.Outcome State Fault Refusal :=
  perform (
    let ws := typeWidth f.t
    let wd := typeWidth (cvtDst f)
    let g := wd / ws
    issue (.vcvt f) ⟨some f.r.k, false, [vsrc 1 f.r.a.toNat f.r.wa], vgroup f.r.d.toNat g⟩ fun c =>
      let (vs, fl) := mapGroup wd g c.vmask (fun r => readV c.h (f.r.d.toNat + r)) fun i =>
        convertElem f.t (cvtDst f) (f.m.getLsbD 0) (vfp f c i) (elem (readV c.h f.r.a.toNat) ws i)
      vecDone c (!(isIntType f.t && isIntType (cvtDst f))) fl fun h => writeGroup h f.r.d.toNat vs) s

/-- R135. VDOT4. -/
def execVdot4 (f : FL) (s : State) : Host.Outcome State Fault Refusal :=
  perform (
    issue (.vdot4 f) (specV f [vsrc 1 f.r.a.toNat f.r.wa, vsrc 2 f.r.b.toNat f.r.wb, vsrc 3 f.c.toNat f.wc]) fun c =>
      let w := typeWidth f.t
      let wd := typeWidth (dotType f.t)
      let four (r j : Nat) : List Nat := (List.range 4).map fun t => elem (readV c.h r) w (4 * j + t)
      let (v, fl) := mapLanes wd (dotCount f.t) c.vmask (readV c.h f.r.d.toNat) fun j =>
        dotElem f.t (f.m.getLsbD 0) (ftzOf c.h.ctl) (four f.r.a.toNat j) (four f.r.b.toNat j)
          (elem (readV c.h f.c.toNat) wd j)
      vecDone c (isFloatType f.t) fl fun h => writeV h f.r.d.toNat v) s

/-! ### VCMPS -/

/-- A predicate of n element results: inactive bits below n stay, bits from n up are 0 (R136). -/
def mapBits (n : Nat) (m : Mask) (old : Mask) (f : Nat → Bool × Flags) : Mask × Flags :=
  let l := (List.range n).map fun i => if active m i then f i else (old.getLsbD i, 0)
  (BitVec.ofNat 1024 (ofElems 1 (l.map fun x => b2n x.1)), l.foldl (fun a x => a ||| x.2) 0)

/-- VCMPS (R136, R137). -/
def vcompare (i : Instr) (f : FL) (test : Ctx → Nat → Nat → Bool × Flags) : Mv :=
  issue i ⟨some f.r.k, false, [vsrc 1 f.r.a.toNat f.r.wa, vsrc 2 f.r.b.toNat f.r.wb], [.k (f.r.d.toNat % 8)]⟩ fun c =>
    let w := typeWidth f.t
    let (m, fl) := mapBits (lanesOf w) c.vmask (readK c.h (f.r.d.toNat % 8)) fun i =>
      test c (elem (readV c.h f.r.a.toNat) w i) (elem (readV c.h f.r.b.toNat) w i)
    vecDone c (isFloatType f.t) fl fun h => writeK h (f.r.d.toNat % 8) m

/-- R136. VCMP. -/
def execVcmp (f : FL) (s : State) : Host.Outcome State Fault Refusal :=
  perform (vcompare (.vcmp f) f fun c a b => cmpElem (f.m.extractLsb' 0 3).toNat f.t (ftzOf c.h.ctl) a b) s

/-- R137. VTEST. -/
def execVtest (f : FL) (s : State) : Host.Outcome State Fault Refusal :=
  perform (vcompare (.vtest f) f fun _ a b => (Nat.land a b != 0, 0)) s

/-! ### VRED -/

/-- The patterns of the active elements of A, by rising index. -/
def activeElems (c : Ctx) (r w : Nat) : List Nat :=
  ((List.range (lanesOf w)).filter (active c.vmask)).map (elem (readV c.h r) w)

/-- A reduction into sD (R138). -/
def vreduce (i : Instr) (f : FL) (red : Ctx → List Nat → Word × Flags) : Mv :=
  issue i ⟨some f.r.k, false, [vsrc 1 f.r.a.toNat f.r.wa], [.s f.r.d.toNat]⟩ fun c =>
    let (x, fl) := red c (activeElems c f.r.a.toNat (typeWidth f.t))
    vecDone c (isFloatType f.t) fl fun h => writeS h f.r.d.toNat x

/-- The tree sum of R102 over all elements of A up to index `top`, the inactive ones and those above as -0. -/
def vecTree (c : Ctx) (t : BitVec 4) (r top : Nat) : Nat × Flags :=
  let w := typeWidth t
  treeSum t (ftzOf c.h.ctl) 12 ((List.range (lanesOf w)).map fun i =>
    if active c.vmask i && decide (i ≤ top) then elem (readV c.h r) w i else negZero t)

/-- VREDMAX and VREDMIN (R138). -/
def redExtreme (isMax : Bool) (t : BitVec 4) (ftz : Bool) (l : List Nat) : Word × Flags :=
  if isIntType t then
    (intWord t (l.foldl (fun b p => if isMax then max b (intOf t p) else min b (intOf t p))
      (if isMax then intMin t else intMax t)), 0)
  else
    let xs := l.map (operand ftz t)
    let z := if l.isEmpty then .inf isMax
      else match xs.foldl (bestNum isMax) none with | some x => x | none => defaultNaN
    let (p, fl) := roundTo t ftz .rne z
    (word p, fl ||| flIf (anySignalling xs) flNV)

/-- R138. VREDSUM. -/
def execVredsum (f : FL) (s : State) : Host.Outcome State Fault Refusal :=
  perform (vreduce (.vredsum f) f fun c l =>
    if isIntType f.t then (wordI ((l.map (intOf f.t)).foldl (· + ·) 0), 0)
    else let (p, fl) := vecTree c f.t f.r.a.toNat 1023; (word p, fl)) s

/-- R138. VREDMAX. -/
def execVredmax (f : FL) (s : State) : Host.Outcome State Fault Refusal :=
  perform (vreduce (.vredmax f) f fun c l => redExtreme true f.t (ftzOf c.h.ctl) l) s

/-- R138. VREDMIN. -/
def execVredmin (f : FL) (s : State) : Host.Outcome State Fault Refusal :=
  perform (vreduce (.vredmin f) f fun c l => redExtreme false f.t (ftzOf c.h.ctl) l) s

/-- R138. VREDAND. -/
def execVredand (f : FL) (s : State) : Host.Outcome State Fault Refusal :=
  perform (vreduce (.vredand f) f fun _ l =>
    (patWord f.t (l.foldl Nat.land (2 ^ typeWidth f.t - 1)), 0)) s

/-- R138. VREDOR. -/
def execVredor (f : FL) (s : State) : Host.Outcome State Fault Refusal :=
  perform (vreduce (.vredor f) f fun _ l => (patWord f.t (l.foldl Nat.lor 0), 0)) s

/-- One step of a prefix (R139): add wraps, max and min follow R131. -/
def scanStep (code : Nat) (t : BitVec 4) (ftz : Bool) (acc x : Nat) : Nat × Flags :=
  if isIntType t then
    (match code with
      | 0 => fitInt t false (intOf t acc + intOf t x)
      | 1 => if intOf t acc < intOf t x then x else acc
      | _ => if intOf t x < intOf t acc then x else acc, 0)
  else float2 t ⟨ftz, .rne⟩ (minMaxNum (code = 1)) acc x

/-- The prefix of one element: its value as computed, a floating one flushed and quieted (R87, R101, R127). -/
def scanFirst (t : BitVec 4) (ftz : Bool) (x : Nat) : Nat × Flags :=
  if isIntType t then (x, 0)
  else
    let v := operand ftz t x
    let (p, fl) := roundTo t ftz .rne ((firstNaN [v]).getD v)
    (p, fl ||| flIf (anySignalling [v]) flNV)

/-- The prefixes of the active elements at each index, by rising index (R139): `acc` is the last one. -/
def scanLanes (first : Nat → Nat × Flags) (step : Nat → Nat → Nat × Flags) (act : Nat → Bool) :
    List (Nat × Nat) → Option Nat → List (Nat × Flags)
  | [], _ => []
  | (i, x) :: l, acc =>
    if act i then
      let r := match acc with | some a => step a x | none => first x
      r :: scanLanes first step act l (some r.1)
    else (0, 0) :: scanLanes first step act l acc

/-- R139. VSCAN. -/
def execVscan (f : FL) (s : State) : Host.Outcome State Fault Refusal :=
  perform (issue (.vscan f) (specV f [vsrc 1 f.r.a.toNat f.r.wa]) fun c =>
    let w := typeWidth f.t
    let code := (f.m.extractLsb' 0 2).toNat
    let xs := (List.range (lanesOf w)).map fun i => (i, elem (readV c.h f.r.a.toNat) w i)
    let ps := scanLanes (scanFirst f.t (ftzOf c.h.ctl)) (scanStep code f.t (ftzOf c.h.ctl)) (active c.vmask) xs none
    let (v, fl) := mapLanes w (lanesOf w) c.vmask (readV c.h f.r.d.toNat) fun i =>
      if isFloatType f.t && code == 0 then vecTree c f.t f.r.a.toNat i else ps.getD i (0, 0)
    vecDone c (isFloatType f.t) fl fun h => writeV h f.r.d.toNat v) s

/-! ### VPERMS -/

/-- A move of patterns: D[i] is `f c i` for every active i, and nothing is raised (R127). -/
def vmoveLanes (c : Ctx) (f : FL) (g : Nat → Nat) : Mv :=
  let w := typeWidth f.t
  let v := (mapLanes w (lanesOf w) c.vmask (readV c.h f.r.d.toNat) fun i => (g i, 0)).1
  finishVec c fun h => writeV h f.r.d.toNat v

/-- The number of index registers of VPERM (R140). -/
def permRegs (w : Nat) : Nat := if w = 4 then 4 else if w = 8 then 2 else 1

/-- R140. VPERM. -/
def execVperm (f : FL) (s : State) : Host.Outcome State Fault Refusal :=
  perform (issue (.vperm f) (specV f (vsrc 1 f.r.a.toNat f.r.wa ::
      (List.range (permRegs (typeWidth f.t))).map fun r => vsrc 2 (f.r.b.toNat + r) f.r.wb)) fun c =>
    let w := typeWidth f.t
    vmoveLanes c f fun i =>
      let x := elem (readV c.h (f.r.b.toNat + i / 256)) 16 (i % 256)
      if x < lanesOf w then elem (readV c.h f.r.a.toNat) w x else 0) s

/-- The sources of VSLIDE, VBCAST and VEXT: A, and sB with `.vs`. -/
def slideSrcs (f : FL) : List Src :=
  vsrc 1 f.r.a.toNat f.r.wa :: (if f.m.getLsbD 1 then [⟨2, .s f.r.b.toNat, f.r.wb⟩] else [])

/-- The index of VBCAST, VINS and VEXT: OBJ16, or sB with `.vs`, unsigned (R141, R150). -/
def laneIndex (f : FL) (c : Ctx) : Nat := if f.m.getLsbD 1 then c.b.toNat else f.obj.toNat

/-- R141. VSLIDE. -/
def execVslide (f : FL) (s : State) : Host.Outcome State Fault Refusal :=
  perform (issue (.vslide f) (specV f (slideSrcs f)) fun c =>
    let w := typeWidth f.t
    let a : Int := if f.m.getLsbD 1 then c.b.toInt else f.obj.toInt
    vmoveLanes c f fun i =>
      let j : Int := i + a
      if 0 ≤ j && j < lanesOf w then elem (readV c.h f.r.a.toNat) w j.toNat else 0) s

/-- R141. VBCAST: x at or above n traps BOUND at issue, whatever elements are active (log 103). -/
def execVbcast (f : FL) (s : State) : Host.Outcome State Fault Refusal :=
  perform (issue (.vbcast f) (specV f (slideSrcs f)) fun c =>
    let w := typeWidth f.t
    let x := laneIndex f c
    if lanesOf w ≤ x then raiseIssue c.hid .bound 0 0
    else vmoveLanes c f fun _ => elem (readV c.h f.r.a.toNat) w x) s

/-- R142. VIOTA. -/
def execViota (f : FL) (s : State) : Host.Outcome State Fault Refusal :=
  perform (issue (.viota f) (specV f []) fun c =>
    vmoveLanes c f fun i => ((List.range i).filter (active c.vmask)).length % 2 ^ typeWidth f.t) s

/-- Sources of VCOMPRESS and VEXPAND: A and kC. -/
def packSrcs (f : FL) : List Src := [vsrc 1 f.r.a.toNat f.r.wa, ⟨3, .k (f.c.toNat % 8), f.wc⟩]

/-- The elements that VCOMPRESS and VEXPAND select (R142). -/
def selected (f : FL) (c : Ctx) : List Nat :=
  (List.range (lanesOf (typeWidth f.t))).filter fun i => active c.vmask i && active (readK c.h (f.c.toNat % 8)) i

/-- D with elements 0 up replaced by a list. -/
def packLow (w : Nat) (old : VReg) (l : List Nat) : VReg :=
  vecOf w fun i => l.getD i (elem old w i)

/-- R142. VCOMPRESS. -/
def execVcompress (f : FL) (s : State) : Host.Outcome State Fault Refusal :=
  perform (issue (.vcompress f) (specV f (packSrcs f)) fun c =>
    let w := typeWidth f.t
    let v := packLow w (readV c.h f.r.d.toNat) ((selected f c).map (elem (readV c.h f.r.a.toNat) w))
    finishVec c fun h => writeV h f.r.d.toNat v) s

/-- R142. VEXPAND. -/
def execVexpand (f : FL) (s : State) : Host.Outcome State Fault Refusal :=
  perform (issue (.vexpand f) (specV f (packSrcs f)) fun c =>
    let w := typeWidth f.t
    let sel := selected f c
    let v := vecOf w fun i =>
      if sel.contains i then elem (readV c.h f.r.a.toNat) w (sel.filter fun j => decide (j < i)).length
      else elem (readV c.h f.r.d.toNat) w i
    finishVec c fun h => writeV h f.r.d.toNat v) s

/-- Sources A and B in v. -/
def srcsAB (f : FL) : List Src := [vsrc 1 f.r.a.toNat f.r.wa, vsrc 2 f.r.b.toNat f.r.wb]

/-- R143. VZIP. -/
def execVzip (f : FL) (s : State) : Host.Outcome State Fault Refusal :=
  perform (issue (.vzip f) (specV f (srcsAB f)) fun c =>
    let w := typeWidth f.t
    vmoveLanes c f fun i => elem (readV c.h (if i % 2 = 0 then f.r.a.toNat else f.r.b.toNat)) w (i / 2)) s

/-- R143. VUNZIP. -/
def execVunzip (f : FL) (s : State) : Host.Outcome State Fault Refusal :=
  perform (issue (.vunzip f) (specV f (srcsAB f)) fun c =>
    let w := typeWidth f.t
    let half := lanesOf w / 2
    vmoveLanes c f fun i =>
      if i < half then elem (readV c.h f.r.a.toNat) w (2 * i) else elem (readV c.h f.r.b.toNat) w (2 * (i - half))) s

/-! ### VORDER -/

/-- R145. VSORT. -/
def execVsort (f : FL) (s : State) : Host.Outcome State Fault Refusal :=
  perform (issue (.vsort f) (specV f [vsrc 1 f.r.a.toNat f.r.wa]) fun c =>
    let w := typeWidth f.t
    let v := packLow w (readV c.h f.r.d.toNat) (sortStable f.t (f.m.getLsbD 0) (activeElems c f.r.a.toNat w))
    finishVec c fun h => writeV h f.r.d.toNat v) s

/-- R146. VMERGE. -/
def execVmerge (f : FL) (s : State) : Host.Outcome State Fault Refusal :=
  perform (
    let d := f.r.d.toNat
    issue (.vmerge f) ⟨some f.r.k, false, srcsAB f, vgroup d 2⟩ fun c =>
      let w := typeWidth f.t
      let n := lanesOf w
      let a := activeElems c f.r.a.toNat w
      let b := activeElems c f.r.b.toNat w
      let out := mergeLoop f.t (f.m.getLsbD 0) (a.length + b.length) a b
      let lo := packLow w (readV c.h d) (out.take n)
      let hi := packLow w (readV c.h (d + 1)) (out.drop n)
      finishVec c fun h => writeV (writeV h d lo) (d + 1) hi) s

/-- R147. VSEARCH. -/
def execVsearch (f : FL) (s : State) : Host.Outcome State Fault Refusal :=
  perform (issue (.vsearch f) (specV f (srcsAB f)) fun c =>
    let w := typeWidth f.t
    let as := (List.range (lanesOf w)).map (elem (readV c.h f.r.a.toNat) w)
    vmoveLanes c f fun i =>
      let b := elem (readV c.h f.r.b.toNat) w i
      min (2 ^ w - 1) (as.filter fun a => precedes f.t (f.m.getLsbD 0) a b).length) s

/-- R148. VSPARSE. -/
def execVsparse (f : FL) (s : State) : Host.Outcome State Fault Refusal :=
  perform (issue (.vsparse f) (specV f [vsrc 1 f.r.a.toNat f.r.wa]) fun c =>
    let w := typeWidth f.t
    let x (i : Nat) : Nat := if active c.vmask i then elem (readV c.h f.r.a.toNat) w i else 0
    let kept := (List.range (lanesOf w / 4)).map fun g => topTwo fun t => sparseMag f.t (x (4 * g + t))
    let values := kept.zipIdx.flatMap fun y => [x (4 * y.2 + y.1.1), x (4 * y.2 + y.1.2)]
    let meta_ := kept.map fun y => y.1 + 4 * y.2
    let v : VReg := BitVec.ofNat 4096 (ofElems w values + 2 ^ 2048 * ofElems 4 meta_)
    finishVec c fun h => writeV h f.r.d.toNat v) s

/-- R148. VUNSPARSE. -/
def execVunsparse (f : FL) (s : State) : Host.Outcome State Fault Refusal :=
  perform (issue (.vunsparse f) (specV f [vsrc 1 f.r.a.toNat f.r.wa]) fun c =>
    let w := typeWidth f.t
    let a := readV c.h f.r.a.toNat
    vmoveLanes c f fun i =>
      let nib := elem a 4 (512 + i / 4)
      let t := i % 4
      if nib / 4 % 4 = t then elem a w (2 * (i / 4) + 1) else if nib % 4 = t then elem a w (2 * (i / 4)) else 0) s

/-! ### VSFU -/

/-- VSFU (R149). -/
def vfun (i : Instr) (f : FL) (g : Fun) : Mv :=
  issue i (specV f [vsrc 1 f.r.a.toNat f.r.wa]) fun c =>
    let w := typeWidth f.t
    let (v, fl) := mapLanes w (lanesOf w) c.vmask (readV c.h f.r.d.toNat) fun i =>
      funElem g f.t (ftzOf c.h.ctl) (elem (readV c.h f.r.a.toNat) w i)
    vecDone c (isFloatType f.t) fl fun h => writeV h f.r.d.toNat v

/-- R149. VEXP2. -/
def execVexp2 (f : FL) (s : State) : Host.Outcome State Fault Refusal :=
  perform (vfun (.vexp2 f) f .exp2) s

/-- R149. VLOG2. -/
def execVlog2 (f : FL) (s : State) : Host.Outcome State Fault Refusal :=
  perform (vfun (.vlog2 f) f .log2) s

/-- R149. VRCP. -/
def execVrcp (f : FL) (s : State) : Host.Outcome State Fault Refusal :=
  perform (vfun (.vrcp f) f .rcp) s

/-- R149. VRSQ. -/
def execVrsq (f : FL) (s : State) : Host.Outcome State Fault Refusal :=
  perform (vfun (.vrsq f) f .rsq) s

/-- R149. VTANH. -/
def execVtanh (f : FL) (s : State) : Host.Outcome State Fault Refusal :=
  perform (vfun (.vtanh f) f .tanh) s

/-! ### VMOVE -/

/-- R150. VMOV. -/
def execVmov (f : FL) (s : State) : Host.Outcome State Fault Refusal :=
  perform (issue (.vmov f) (specV f [vsrc 1 f.r.a.toNat f.r.wa]) fun c =>
    vmoveLanes c f fun i => elem (readV c.h f.r.a.toNat) (typeWidth f.t) i) s

/-- R150. VSPLAT. -/
def execVsplat (f : FL) (s : State) : Host.Outcome State Fault Refusal :=
  perform (issue (.vsplat f) (specV f [⟨1, .s f.r.a.toNat, f.r.wa⟩]) fun c =>
    vmoveLanes c f fun _ => c.a.toNat % 2 ^ typeWidth f.t) s

/-- R150. VINS; x at or above n as for VBCAST (log 103). -/
def execVins (f : FL) (s : State) : Host.Outcome State Fault Refusal :=
  perform (issue (.vins f) (specV f (⟨1, .s f.r.a.toNat, f.r.wa⟩ ::
      (if f.m.getLsbD 1 then [⟨2, .s f.r.b.toNat, f.r.wb⟩] else []))) fun c =>
    let w := typeWidth f.t
    let x := laneIndex f c
    if lanesOf w ≤ x then raiseIssue c.hid .bound 0 0
    else vmoveLanes c f fun i => if i = x then c.a.toNat % 2 ^ w else elem (readV c.h f.r.d.toNat) w i) s

/-- R150. VEXT; x at or above n as for VBCAST (log 103). -/
def execVext (f : FL) (s : State) : Host.Outcome State Fault Refusal :=
  perform (issue (.vext f) ⟨some f.r.k, false, slideSrcs f, [.s f.r.d.toNat]⟩ fun c =>
    let w := typeWidth f.t
    let x := laneIndex f c
    if lanesOf w ≤ x then raiseIssue c.hid .bound 0 0
    else finishVec c fun h =>
      if active c.vmask x then writeS h f.r.d.toNat (patWord f.t (elem (readV c.h f.r.a.toNat) w x)) else h) s

end Sys2Proof.Machine
end

