-- ==== Sys2Proof/Machine/Jib.lean ====
section
/-! DEFINITION. Jib instructions, the control store and the jib loader (spec/17_jib.md R302 to R317). A running jib
executes one micro-op at each turn of its half, so that the boundaries of R316 stand between steps. -/
namespace Sys2Proof.Machine

/-! ### Micro-op words (R304) -/

/-- The fields of a micro-op word. -/
structure Micro where
  op : Nat
  x : Nat
  y : Nat
  z : Nat
  zi : Bool
  ty : BitVec 4
  aux : Nat
  imm : BitVec 32
  deriving DecidableEq, Repr

/-- A micro-op from its word. -/
def microOf (w : Word) : Micro where
  op := wbits w 63 59
  x := wbits w 58 55
  y := wbits w 54 51
  z := wbits w 50 47
  zi := w.getLsbD 46
  ty := BitVec.ofNat 4 (wbits w 45 42)
  aux := wbits w 41 36
  imm := BitVec.ofNat 32 (wbits w 31 0)

/-- The cost of a micro-op (R306). -/
def Micro.cost (m : Micro) : Nat :=
  match m.op with
  | 2 | 3 | 21 | 22 | 23 | 24 | 27 | 28 => 2
  | 25 | 26 => if m.aux % 8 = 4 then 4 else 2
  | 29 => 4
  | _ => 1

/-! ### The checker (R309, R311) -/

/-- What a selector has to be. -/
inductive Sel where
  | h | v | field | anyField | free
  deriving DecidableEq, Repr

/-- A selector of its class (R304). -/
def Sel.ok (s : Sel) (n : Nat) : Bool :=
  match s with
  | .h => decide (n < 8)
  | .v => n == 8 || n == 9
  | .field => decide (n < 4)
  | .anyField => decide (n < 5)
  | .free => true

/-- The classes of X, Y and Z of a micro-op (R304, R306, R307). -/
def Micro.classes (m : Micro) : Sel × Sel × Sel :=
  let z : Sel := if m.zi then .free else .h
  let d : Sel := if m.aux % 8 = 4 then .v else .h
  match m.op with
  | 0 => (.h, .field, .free)
  | 1 => (.field, .h, .free)
  | 2 => (.v, .field, .free)
  | 3 => (.field, .v, .free)
  | 4 => (.v, .anyField, .free)
  | 5 => (.anyField, .v, .free)
  | 6 | 7 | 8 => (.h, .free, .free)
  | 9 => (.h, .v, z)
  | 10 => (.v, .h, z)
  | 21 | 22 | 23 => (.v, .v, .v)
  | 24 => (.v, .v, .free)
  | 25 => (d, .h, .free)
  | 26 => (.free, .h, d)
  | 27 | 28 => (.h, .h, .free)
  | 29 => (.free, .h, .h)
  | 30 => (.free, if m.aux % 2 = 1 then .h else .free, .free)
  | 31 => (.free, .free, .free)
  | _ => (.h, .h, z)

/-- Reason 7 of R311: a selector, code or size that the micro-op does not allow. -/
def Micro.badField (m : Micro) : Bool :=
  let k := m.classes
  (m.zi && m.z != 0) || !k.1.ok m.x || !k.2.1.ok m.y || !k.2.2.ok m.z
    || (m.op == 8 && decide (4 < m.aux)) || (m.op == 17 && m.aux % 8 == 7)
    || ((m.op == 25 || m.op == 26) && decide (4 < m.aux % 8)) || (m.op == 27 && decide (3 < m.aux % 8))
    || (m.op == 24 && m.aux / 16 == 3)

/-- Reason 8 of R311: a type that the micro-op does not accept (R306). -/
def Micro.badType (m : Micro) : Bool :=
  let dst := BitVec.ofNat 4 (m.aux % 16)
  (([3, 9, 10, 21, 22, 23, 24].contains m.op) && m.ty == 6)
    || (([21, 22, 23].contains m.op) && !isVecType m.ty)
    || (m.op == 24 && (dst == 6 || typeWidth dst != typeWidth m.ty))

/-- The failure of word i of a sequence of n words, whose body has `words` words (R311). -/
def Micro.reason (w : Word) (i n words : Nat) : Nat :=
  let m := microOf w
  let lo := m.imm.toNat % 0x2000
  let count := m.imm.toNat / 2 ^ 16 % 0x2000
  if wbits w 35 32 ≠ 0 then 1
  else if (m.op == 31) != (i + 1 == n) then 3
  else if m.badField then 7
  else if m.badType then 8
  else if m.op = 30 ∧ (m.imm.toNat % 64 = 0 ∨ n ≤ i + 1 + m.imm.toNat % 64) then 4
  else if m.op = 28 ∧ (count = 0 ∨ words < lo + count) then 9
  else 0

/-- The first failure of a sequence: reason and place in it. -/
def checkWords (n words : Nat) : Nat → Nat → Nat → List Word → Option (Nat × Nat)
  | _, _, _, [] => none
  | i, mem, mma, w :: t =>
    let m := microOf w
    let mem' := mem + b2n (m.op == 25 || m.op == 26 || m.op == 27)
    let mma' := mma + b2n (m.op == 29)
    let r := Micro.reason w i n words
    if r ≠ 0 then some (r, i)
    else if 4 < mem' then some (5, i)
    else if 1 < mma' then some (6, i)
    else checkWords n words (i + 1) mem' mma' t

/-- The failure of a slot entry or of its sequence: reason and image word (R311). -/
def checkSlot (words : Nat) (body : List Word) (j : Nat) (e : Word) : Option (Nat × Nat) :=
  let start := wbits e 12 0
  let n := wbits e 28 16
  if wbits e 62 29 ≠ 0 ∨ wbits e 15 13 ≠ 0 then some (1, 1 + j)
  else if !e.getLsbD 63 then none
  else if n = 0 ∨ 48 < n ∨ words < start + n then some (2, 1 + j)
  else (checkWords n words 0 0 0 ((body.drop start).take n)).map fun x => (x.1, 65 + start + x.2)

/-- The checker of the jib loader: the first failure of an image, as reason and word (R311). -/
def checkImage (img : List Word) (words : Nat) : Option (Nat × Nat) :=
  let w0 := nth img 0
  let body := img.drop 65
  if wbits w0 63 16 ≠ 0 then some (1, 0)
  else if wbits w0 15 0 ≠ words then some (10, 0)
  else (List.range 64).findSome? fun j => checkSlot words body j (nth img (1 + j))

/-- The set that an accepted image describes (R311, R312). -/
def setOf (img : List Word) (measure : BitVec 512) : JibSet where
  slots := (List.range 64).filterMap fun j =>
    let e := nth img (1 + j)
    if e.getLsbD 63 then some (j, (wbits e 12 0, wbits e 28 16)) else none
  body := img.drop 65
  measure := measure

/-! ### A jib instruction -/

/-- The fields of a jib instruction (R303, R305): format A reads C as register 0 with WC = 0, and T, M, OBJ16 and SC as 0. -/
structure JibIns where
  slot : Nat
  formL : Bool
  f : FL
  deriving DecidableEq, Repr

/-- A jib of format A. -/
def jibInsA (slot : BitVec 6) (f : FA) : JibIns := ⟨slot.toNat, false, ⟨f, 0, 0, 0, 0, false, 0⟩⟩

/-- A jib of format L. -/
def jibInsL (slot : BitVec 6) (f : FL) : JibIns := ⟨slot.toNat, true, f⟩

/-- The register number of a field code, and its W bit (R304, R305). -/
def JibIns.field (q : JibIns) (code : Nat) : Nat × Bool :=
  match code with
  | 0 => (q.f.r.d.toNat, false)
  | 1 => (q.f.r.a.toNat, q.f.r.wa)
  | 2 => (q.f.r.b.toNat, q.f.r.wb)
  | 3 => (q.f.c.toNat, q.f.wc)
  | _ => (q.f.r.k.toNat, false)

/-- A scalar temporary. -/
def JibRun.hs (j : JibRun) (i : Nat) : Word := vget j.h i 0

/-- A vector temporary, by selector. -/
def JibRun.hv_ (j : JibRun) (i : Nat) : VReg := vget j.hv (i - 8) 0

/-- A scalar temporary written. -/
def JibRun.setH (j : JibRun) (i : Nat) (w : Word) : JibRun := { j with h := vset j.h i w }

/-- A vector temporary written, by selector. -/
def JibRun.setV (j : JibRun) (i : Nat) (v : VReg) : JibRun := { j with hv := vset j.hv (i - 8) v }

/-- A jib at its first micro-op (R303). -/
def JibRun.fresh (slot : Nat) (found : Nat × JibSet) : JibRun :=
  ⟨0, slot, 0, Vector.replicate 8 0, Vector.replicate 2 0, some found, none⟩

/-- "z" (R306). -/
def zOf (m : Micro) (j : JibRun) : Word := if m.zi then sx m.imm else j.hs m.z

/-- The micro-op has run: the half changes, and the jib stands at its next micro-op. -/
def microDone (c : Ctx) (j : JibRun) (f : Half → Half) : Mv := upHalf c.hid fun h =>
  let h := f h
  { h with jib := some j, block := .none, refusedAt := none }

/-- Reading a register field: it waits while the register is empty, or traps EMPTY with its W bit (R305). -/
def jibRead (c : Ctx) (r : Reg) (code num : Nat) (w : Bool) (k : Mv) : Mv :=
  if !isFull c.h r then
    (if w then raiseIssue c.hid .empty 0 (word (code * 32 + num)) else stall c.hid .register)
  else if isBusy c.h r then stall c.hid .register else k

/-- Writing a register field: it waits until the destination is full (R305). -/
def jibWrite (c : Ctx) (r : Reg) (j : JibRun) (f : Half → Half) : Mv :=
  if isFull c.h r && !isBusy c.h r then microDone c j f else stall c.hid .register

/-- The scalar results of micro-ops 11 to 20 (R306). -/
def jibAlu (m : Micro) (x y z : Word) : Word :=
  match m.op with
  | 11 => y + z
  | 12 => y - z
  | 13 => y &&& z
  | 14 => y ||| z
  | 15 => y ^^^ z
  | 16 => (match m.aux % 4 with
    | 0 => y <<< (z.toNat % 64)
    | 1 => y >>> (z.toNat % 64)
    | 2 => y.sshiftRight (z.toNat % 64)
    | _ => y.rotateLeft (z.toNat % 64))
  | 17 => word (b2n (condHolds (m.aux % 8) y z))
  | 18 => if x.getLsbD 0 then y else z
  | 19 => if m.aux % 2 = 1 then (if z.ult y then z else y) else (if z.slt y then z else y)
  | _ => if m.aux % 2 = 1 then (if y.ult z then z else y) else (if y.slt z then z else y)

/-- The value of JPARM (R306). -/
def jibParam (q : JibIns) (code : Nat) : Word :=
  match code with
  | 0 => zx q.f.t
  | 1 => zx q.f.m
  | 2 => sx q.f.obj
  | 3 => zx q.f.sc
  | _ => word (b2n q.formL)

/-- The vector results of micro-ops 21 to 24 (R306): `old` is hv[X]. -/
def jibVector (m : Micro) (ctl : Ctl) (old y z : VReg) : VReg × Flags :=
  let w := typeWidth m.ty
  let fp (i : Nat) : Fp := ⟨ftzOf ctl, rndOf (BitVec.ofNat 2 (if m.op = 24 then m.aux / 16 else 0)) (ditherElem ctl.dito i)⟩
  mapLanes w (lanesOf w) (BitVec.allOnes 1024) old fun i =>
    match m.op with
    | 21 => arithElem .add m.ty false (fp i) (elem y w i) (elem z w i) 0
    | 22 => arithElem .mul m.ty false (fp i) (elem y w i) (elem z w i) 0
    | 23 => (if z.getLsbD i then elem y w i else elem old w i, 0)
    | _ => convertElem m.ty (BitVec.ofNat 4 (m.aux % 16)) false (fp i) (elem y w i)

/-- The address of a memory micro-op (R307). -/
def microAddr (m : Micro) (j : JibRun) : Word := j.hs m.y + sx m.imm

/-- The size and alignment of a memory micro-op (R307). -/
def microSize (m : Micro) : Nat × Nat := if m.aux % 8 = 4 then (512, 64) else (2 ^ (m.aux % 8), 2 ^ (m.aux % 8))

/-- JLDL and JSTL (R307). -/
def jibLocal (c : Ctx) (m : Micro) (j : JibRun) (next : JibRun) : Mv := .look fun s =>
  let ea := microAddr m j
  let (n, align) := microSize m
  let write := m.op == 26
  checked c (s.localCheck c ea n align write)
    (if s.pendingScratch c.tid c.core c.core ea.toNat n write then stall c.hid .register
     else if write then
       let bs := if n = 512 then vecBytes (j.hv_ m.z) else toBytes n (j.hs m.z).toNat
       (pokeBytes (scratchAt c.core ea.toNat) bs).andThen (microDone c next id)
     else
       let bs := s.scratch c.core ea.toNat n
       heardIn c c.core [(ea.toNat, n)] (microDone c (if n = 512 then next.setV m.x (bytesVec bs)
         else next.setH m.x (extendFrom n (decide (8 ≤ m.aux % 16)) (ofBytes bs))) id))

/-- JLDSH (R201, R307): the line enters the read signature, and the value is read with the task's own stores over it. -/
def jibShared (c : Ctx) (m : Micro) (j : JibRun) (next : JibRun) : Mv := .look fun s =>
  let ea := microAddr m j
  let n := (microSize m).1
  let p := s.party c.core
  checked c (sharedCheck ea n)
    (if s.pendingShared c.tid ea.toNat n false then stall c.hid .register
     else match s.reachLines p (whoOf c) .read [touchOf ea.toNat n] with
         | .fault a => if c.h.refusedAt.isSome then raiseIssue c.hid .access ea 0 else syncFault c.hid p .read a
         | .refused cause _ => raiseIssue c.hid cause ea 0
         | .ok pas =>
           let pa := pas.headD 0 + ea.toNat % 64
           if s.homeHeld pa || s.behind c.core s.net.nextId pa true false then stall c.hid .register
           else heardWalk c.tid p [ea.toNat] <|
             let home := memBytes s.mem pa n
             let bs := match s.task? c.tid with | some t => ownBytes t ea.toNat home | none => home
             heard c ea.toNat pa <| Mv.seq [
               install p ea.toNat,
               sign c.tid [ea.toNat] [],
               tookLine c.tid ea.toNat,
               countPerf (clusterOf c.core) 5 1,
               microDone c (next.setH m.x (extendFrom n (decide (8 ≤ m.aux % 16)) (ofBytes bs))) id])

/-- The operands and formats of JMMA that R75 and R17 refuse. -/
def State.jmmaCause (s : State) (h : Half) : Option Cause :=
  if usesF6 h.ctl && !s.package.cap.getLsbD 3 then some .absent
  else if !matrixType (wbits h.ctl.fmta 3 0) || !matrixType (wbits h.ctl.fmtb 3 0) || wbits h.ctl.fmtc 1 0 == 3 then some .ill
  else none

/-- JMMA (R308): the MMA starts, and the jib goes on once its operands are loaded (R316). -/
def jibMma (c : Ctx) (q : JibIns) (m : Micro) (j : JibRun) : Mv := .look fun s =>
  let acc := m.aux % 4
  if j.loading.isSome then stall c.hid .register
  else if !q.formL then raiseIssue c.hid .ill 0 0
  else match s.jmmaCause c.h with
    | some cause => raiseIssue c.hid cause 0 0
    | none =>
      if !isFull c.h (.a acc) then stall c.hid .register
      else match s.shapeL c.task.part q.f with
        | none => raiseIssue c.hid .bound 0 0
        | some sh =>
          let c' : Ctx := { c with a := j.hs m.y, b := j.hs m.z, kmask := BitVec.allOnes 1024 }
          let f : FL := { q.f with m := 0, r := { q.f.r with d := BitVec.ofNat 5 acc } }
          match mmulChecks s c' sh false false false true with
          | .trap cause a => raiseIssue c.hid cause a 0
          | .ok => withId fun id => Mv.seq [
              upCore c.core fun x => { x with mops := x.mops ++ [mopOf c' f [q.f.obj.toNat] sh ⟨false, false, false⟩ true id true] },
              upHalf c.hid fun h =>
                let h := markEmpty h (.a acc)
                { h with jib := some { j with loading := some acc }, block := .register }]

/-- One micro-op (R306): `next` is the jib at the micro-op after it, with its cost counted. -/
def micro (c : Ctx) (q : JibIns) (body : List Word) (m : Micro) (j : JibRun) (next : JibRun) : Mv :=
  let (ry, wy) := q.field m.y
  let (rx, _) := q.field m.x
  match m.op with
  | 0 => jibRead c (.s ry) m.y ry wy (microDone c (next.setH m.x (readS c.h ry)) id)
  | 1 => jibWrite c (.s rx) next fun h => writeS h rx (j.hs m.y)
  | 2 => jibRead c (.v ry) m.y ry wy (microDone c (next.setV m.x (readV c.h ry)) id)
  | 3 => jibWrite c (.v rx) next fun h => writeV h rx (mergeV (typeWidth m.ty) h.lanes (readV h rx) (j.hv_ m.y))
  | 4 => jibRead c (.k (ry % 8)) m.y (ry % 8) wy
      (microDone c (next.setV m.x (((j.hv_ m.x >>> 1024) <<< 1024) ||| (readK c.h (ry % 8)).setWidth 4096)) id)
  | 5 => jibWrite c (.k (rx % 8)) next fun h => writeK h (rx % 8) ((j.hv_ m.y).setWidth 1024)
  | 6 => microDone c (next.setH m.x (sx m.imm)) id
  | 7 => microDone c (next.setH m.x (word (m.imm.toNat * 2 ^ 32 + wbits (j.hs m.x) 31 0))) id
  | 8 => microDone c (next.setH m.x (jibParam q m.aux)) id
  | 9 =>
    let w := typeWidth m.ty
    let z := (zOf m j).toNat
    let p := elem (j.hv_ m.y) w z
    microDone c (next.setH m.x (if lanesOf w ≤ z then 0 else if isSignedType m.ty then wordI (sval w p) else word p)) id
  | 10 =>
    let w := typeWidth m.ty
    let z := (zOf m j).toNat
    let old := j.hv_ m.x
    microDone c (next.setV m.x (vecOf w fun i => if i = z then (j.hs m.y).toNat % 2 ^ w else elem old w i)) id
  | 21 | 22 | 23 | 24 =>
    let (v, fl) := jibVector m c.h.ctl (j.hv_ m.x) (j.hv_ m.y) (j.hv_ m.z)
    if trapping c.h.ctl fl ≠ 0 then raiseIssue c.hid .fpx 0 (zx fl)
    else microDone c (next.setV m.x v) fun h => { h with ctl := orFlags h.ctl fl }
  | 25 | 26 => jibLocal c m j next
  | 27 => jibShared c m j next
  | 28 =>
    let i := j.hs m.y
    let count := m.imm.toNat / 2 ^ 16 % 0x2000
    microDone c (next.setH m.x (if i.toNat < count then nth body (m.imm.toNat % 0x2000 + i.toNat) else 0)) id
  | 29 => jibMma c q m j
  | 30 =>
    let taken := m.aux % 2 = 0 ∨ ((j.hs m.y).getLsbD 0 != (m.aux / 2 % 2 == 1)) = true
    microDone c (if taken then { next with upc := next.upc + m.imm.toNat % 64 } else next) id
  | _ => microDone c (next.setH m.x (jibAlu m (j.hs m.x) (j.hs m.y) (zOf m j))) id

/-- A jib of the cluster is executing the set (R314). -/
def State.executing (s : State) (cluster part n : Nat) : Bool :=
  s.halves.any fun h => clusterOf (coreOf h.1) == cluster && s.partOf (coreOf h.1) == some part && h.2.ctl.jst == 1
    && (match h.2.jib with | some j => (match j.found with | some x => x.1 == n | none => false) | none => false)

/-- A jib of the cluster has found the set at its set check, and executes it or waits for it (R303, R313). -/
def State.inUse (s : State) (cluster part n : Nat) : Bool :=
  s.halves.any fun h => clusterOf (coreOf h.1) == cluster && s.partOf (coreOf h.1) == some part
    && (match h.2.jib.bind (·.found) with | some x => x.1 == n | none => false)

/-- The partition binds the set to some ASID. -/
def State.bound (s : State) (part n : Nat) : Bool := (s.part? part).any fun p => p.jibMap.any fun m => m.2 == n

/-- A set that is not bound any more leaves the cluster when no jib of it is past its set check in it (R313). -/
def dropSet (cluster part n : Nat) : Mv := .look fun s =>
  Mv.when (!s.bound part n && !s.inUse cluster part n) (upCluster cluster fun c =>
    { c with jibs := c.jibs.filter fun r => !(r.2.part == part && r.2.set == n)
             jibWanted := c.jibWanted.filter (· != (part, n)) })

/-- The half with no jib in progress. -/
def Half.leftJib (h : Half) : Half := { h with jib := none, ctl := { h.ctl with jst := 0 } }

/-- The half's jib is over, and with it the last that may have been executing a set (R303, R313). -/
def leaveJib (c : Ctx) : Mv := (upHalf c.hid Half.leftJib).andThen
  (match c.h.jib.bind (·.found) with
   | some x => dropSet (clusterOf c.core) c.task.part x.1
   | none => .done)

/-- The jib is over (R303): JEND retires it. -/
def jibEnd (c : Ctx) : Mv := (leaveJib c).andThen (retire c)

/-- A jib that cannot run on traps ILL, its frame with JST = 0b00 (R303, R315). -/
def jibIll (c : Ctx) : Mv := (leaveJib c).andThen (raiseIssue c.hid .ill 0 0)

/-- Running the micro-op at which a jib stands (R306, R310). -/
def jibStep (c : Ctx) (q : JibIns) (x : JibSet) (j : JibRun) : Mv :=
  match tget x.slots q.slot with
  | none => jibIll c
  | some (start, n) =>
    let m := microOf (nth x.body (start + j.upc))
    if n ≤ j.upc then jibIll c
    else if 256 < j.used + m.cost then raiseIssue c.hid .jiblim 0 0
    else if m.op = 31 then jibEnd c
    else micro c q x.body m j { j with upc := j.upc + 1, used := j.used + m.cost }

/-- The set is resident in the cluster (R303): a copy of a set that is not bound any more counts only while some jib
is past its set check in it (R313). -/
def State.resident (s : State) (cluster part n : Nat) : Bool :=
  (s.bound part n || s.inUse cluster part n) && (s.cluster cluster).jibs.any fun r => r.2.part == part && r.2.set == n

/-- The jib waits for the set that it has found (R303). -/
def jibWait (c : Ctx) (n : Nat) (j : JibRun) (jst : BitVec 2) : Mv := (wantSet (clusterOf c.core) c.task.part n).andThen
  (upHalf c.hid fun h => { h with block := .jibSet, jib := some j, ctl := { h.ctl with jst := jst } })

/-- A jib that has found its set starts, at its first micro-op, when the set is resident (R303, R314). -/
def jibStart (c : Ctx) (q : JibIns) (x : Nat × JibSet) : Mv := .look fun s =>
  let cluster := clusterOf c.core
  let j := JibRun.fresh q.slot x
  if !s.resident cluster c.task.part x.1 then jibWait c x.1 j 2
  else Mv.seq [
    countPerf cluster 0x0C 1,
    upCluster cluster fun k => { k with jibs := tmap (fun _ r => if r.part == c.task.part && r.set == x.1 then { r with lastStart := s.clock.clk } else r) k.jibs },
    upHalf c.hid fun h => { h with jib := some j, ctl := { h.ctl with jst := 1 } },
    jibStep c q x.2 j]

/-- A jib that runs, or goes on after a return or restore, in the set that it has found (R303, R315). -/
def jibRun (c : Ctx) (q : JibIns) (x : Nat × JibSet) (j : JibRun) : Mv := .look fun s =>
  if !s.resident (clusterOf c.core) c.task.part x.1 then jibWait c x.1 { j with found := some x } 1
  else jibStep c q x.2 { j with found := some x }

/-- A jib instruction (R303): its set check, once, then one micro-op of it at a time. -/
def jib (i : Instr) (k : BitVec 3) (q : JibIns) : Mv :=
  issue i ⟨some k, false, [], []⟩ fun c => .look fun s =>
    match (c.h.jib.bind (·.found)).orElse fun _ => s.jibSet c.task.part with
    | none => jibIll c
    | some x =>
      match c.h.ctl.jst, c.h.jib with
      | 1, some j => jibRun c q x j
      | _, _ => jibStart c q x

/-- R303. JIB_FORMAT_A. -/
def execJibA (slot : BitVec 6) (f : FA) (s : State) : Host.Outcome State Fault Refusal :=
  perform (jib (.jibA slot f) f.k (jibInsA slot f)) s

/-- R303. JIB_FORMAT_L. -/
def execJibL (slot : BitVec 6) (f : FL) (s : State) : Host.Outcome State Fault Refusal :=
  perform (jib (.jibL slot f) f.r.k (jibInsL slot f)) s

/-! ### The jib loader -/

/-- Words of a cluster's control store (R16, R19). -/
def State.storeWords (s : State) : Nat := 2048 * 2 ^ wbits s.package.cap 19 16

/-- Pages of a set (R302). -/
def JibSet.pages (x : JibSet) : Nat := (x.body.length + 63) / 64

/-- Entries and pages suffice for one more set (R302). -/
def setFits (jibs : Table Resident) (total pages : Nat) : Bool :=
  decide (jibs.length < 16) && decide (jibs.foldl (fun n r => n + r.2.pages) 0 + pages ≤ total)

/-- The set that is evicted first among some entries: the oldest last start, then the lowest entry (R314). -/
def oldestEntry : Table Resident → Option Nat
  | [] => none
  | (i, r) :: t => match oldestEntry t with
    | none => some i
    | some k => match tget t k with
      | some x => if x.lastStart < r.lastStart then some k else some i
      | none => some i

/-- The binding table once enough sets have been evicted, or none when that is impossible (R314). -/
def evictFor (busy : Resident → Bool) (total pages : Nat) : Nat → Table Resident → Option (Table Resident)
  | 0, l => if setFits l total pages then some l else none
  | k + 1, l =>
    if setFits l total pages then some l
    else match oldestEntry (l.filter fun r => !busy r.2) with
      | some i => evictFor busy total pages k (tdel l i)
      | none => none

/-- The lowest entry that is free. -/
def freeEntry (l : Table Resident) : Nat := ((List.range 16).find? fun i => (tget l i).isNone).getD 0

/-- R314. JIB_SET_RESIDENT: the loader serves the partition's oldest residency request in the cluster, and waits while no
set can be evicted. -/
def execJibSetResident (s : State) : Host.Outcome State Fault Refusal :=
  perform (.look fun s =>
    let cluster := s.data.n
    let part := s.data.m
    let c := s.cluster cluster
    match c.jibWanted.find? fun w => w.1 == part with
    | none => .done
    | some w =>
      let drop : Mv := upCluster cluster fun c => { c with jibWanted := c.jibWanted.filter (· != w) }
      match (s.part? part).bind fun p => tget p.jibSets w.2 with
      | none => drop
      | some x =>
        if s.resident cluster part w.2 then drop
        else match evictFor (fun r => s.executing cluster r.part r.set) (s.storeWords / 64) x.pages 16
            (c.jibs.filter fun r => s.bound r.2.part r.2.set || s.inUse cluster r.2.part r.2.set) with
          | none => .done
          | some l => drop.andThen (upCluster cluster fun c =>
              { c with jibs := tput l (freeEntry l) ⟨part, w.2, x.pages, s.clock.clk⟩ })) s

end Sys2Proof.Machine
end

