-- ==== Sys2Proof/Machine/System.lean ====
section
/-! DEFINITION. The SYS instructions, which read and write the device's tables (spec/16_tables.md R288 to R299;
spec/17_jib.md R311 to R313). SSAV and SRST are in Machine/Saves.lean. -/
namespace Sys2Proof.Machine

/-- A SYS instruction has finished: sD takes its status word, CODE in [7:0] and VALUE in [63:32] (R290). -/
def sysDone (c : Ctx) (d code value : Nat) : Mv := finish c fun h => writeS h d (word (value * 2 ^ 32 + code))

/-- Reading a SYS image of n bytes at sB, 64-byte aligned (R289, R290). -/
def sysImage (c : Ctx) (d n : Nat) (deny : Mv) (k : List Byte → Mv) : Mv :=
  if c.b.toNat % 64 ≠ 0 then sysDone c d 0x0B 0 else readShared c c.b.toNat n deny k

/-- An image address that cannot be resolved traps ACCESS (R191, R289). -/
def noImage (c : Ctx) : Mv := raiseIssue c.hid .access c.b 0

/-- A SYS write takes effect, and answers, when every request that a unit has accepted under the old entry has completed
(R290). -/
def whenIdle (c : Ctx) (busy : Bool) (m : Mv) : Mv := if busy then stall c.hid .register else m

/-- Writing bytes at sB, 64-byte aligned, before the status (R289, R290). -/
def sysStore (c : Ctx) (d : Nat) (bs : List Byte) (k : Mv) : Mv :=
  if c.b.toNat % 64 ≠ 0 then sysDone c d 0x0B 0
  else writeShared c c.b.toNat bs (raiseIssue c.hid .access c.b 0) k

/-! ### The gate table (R294) -/

/-- The core that a gate selector names. -/
def gateCore (a : Word) : Nat := if a.getLsbD 28 then 4096 + wbits a 27 16 else wbits a 27 16

/-- A selector that the core's gate has: 50 to 52 only on a kernel core. -/
def gateSelOk (core sel : Nat) : Bool := decide (sel < 50) || (isKernel core && decide (sel ≤ 52))

/-- The bits of a gate word; the others are reserved (R3, R294). -/
def gateMask (sel : Nat) : Word :=
  if sel < 32 then 0xE000FFFFFFFFFFF0 else if sel < 48 then 0xF000000FFFFFFFFF else 0xFFFFFFFFFFFFFC

/-- The lines of shared memory that a command reads and writes (R216, R221). -/
def EngCmd.sharedLines (q : EngCmd) : List Nat :=
  if q.erasure then
    let (k, p) := ecMembers q.desc
    (List.range (k + p)).flatMap fun m => linesOf (((nth q.desc (1 + m)).toNat + q.sA.toNat) % 2 ^ 64) q.sB.toNat
  else
    let d := copyDesc q.desc
    let runs (e : Option CopyEnd) (strides : List Int) (n : Nat) : List Nat := match e with
      | some e => if e.shared then (List.range d.runs).flatMap fun j =>
          linesOf ((e.base + runOffset j (d.sizes.drop 1) strides) % 2 ^ 64).toNat n else []
      | none => []
    runs (d.source q.core q.sA) d.sstride (d.runBytes d.stype) ++ runs (d.dest q.core q.sB) d.dstride (d.runBytes d.outType)

/-- A command moves bytes to or from the scratchpad of a core that is not its own, by a cluster address or through the aperture
(R186, R216). -/
def State.cmdReaches (s : State) (q : EngCmd) (core : Nat) : Bool :=
  let d := copyDesc q.desc
  q.started && q.core != core
    && ((!q.erasure && [d.source q.core q.sA, d.dest q.core q.sB].any fun e => e.any fun e => !e.shared && e.core == core)
      || q.sharedLines.any fun va => match s.reach (mapped s q.party .read va) with
        | some pa => decide (homeOf s.extent pa = .scratch core)
        | none => false)

/-- Messages that inboxes have still to accept. -/
def State.unaccepted (s : State) : List NetMsg := s.net.msgs ++ s.cores.flatMap fun c => c.2.ingress

/-- A request that was accepted under a gate word of a core has not completed (R290): messages that the core has sent, or by a
multicast is to receive; for a window multicast stores to the core, the rings that it has joined, the commands that reach it and
the operands still to be read from it; for a handler the messages to the core that start it. -/
def State.gateBusy (s : State) (core sel : Nat) : Bool :=
  if sel < 32 then
    (s.unaccepted.any fun m => m.src == core && m.status.isSome) || (s.net.stCmds.any fun x => x.2.1.sender == core && x.2.2.isSome)
      || s.net.mcasts.any fun m => m.data.isNone && (m.core == core || m.waiting.contains core)
  else if sel < 48 then
    (s.net.mcasts.any fun m => m.data.isSome && m.waiting.contains core)
      || (s.net.rings.any fun g => g.joined.any fun m => m.core == core)
      || (s.net.cmds.any fun q => s.cmdReaches q core)
      || s.cores.any fun c => c.1 != core && c.2.mops.any fun o => !o.loaded && (o.ranges c.1).any fun x => x.1 == core
  else sel != 48 && s.unaccepted.any fun m => m.core == core && m.act.handler == gateWord (s.core core) sel

/-- R294. GATEW. -/
def execGatew (f : FA) (s : State) : Host.Outcome State Fault Refusal :=
  let d := f.d.toNat
  perform (issue (.gatew f) (specAB f) fun c => .look fun s =>
    let core := gateCore c.a
    let sel := wbits c.a 5 0
    if !s.ownsCore c.task.part core then sysDone c d 0x0B 0
    else if !gateSelOk core sel then sysDone c d 0x40 0
    else whenIdle c (s.gateBusy core sel)
      ((upCore core fun x => { x with gate := tput x.gate sel (c.b &&& gateMask sel) }).andThen (sysDone c d 0 0))) s

/-- R294. GATER: 0 for a core outside the partition, and for a selector that its gate does not have. -/
def execGater (f : FA) (s : State) : Host.Outcome State Fault Refusal :=
  let d := f.d.toNat
  perform (issue (.gater f) (specA f) fun c => .look fun s =>
    let core := gateCore c.a
    let sel := wbits c.a 5 0
    finish c fun h => writeS h d
      (if s.ownsCore c.task.part core && gateSelOk core sel then gateWord (s.core core) sel else 0)) s

/-! ### The object table (R291, R292) -/

/-- The bits that word i of an entry's body has for a kind (R216, R221, R291). -/
def bodyMask (kind i : Nat) : Word :=
  match kind with
  | 1 => if i = 1 then 0xFFFFFFFFFFFF else if i = 2 then 0x3FFFF0003FFFF else 0
  | 2 => if i = 1 then 0xFFFFFFFF0003FFFF else if i = 2 then 0xF0003FFFF else 0
  | 3 =>
    if i = 1 then 0xFFFF0F else if i = 2 then 0xFFFFFFFF else if 48 ≤ i then 0
    else if i % 3 = 0 then 0xFFFFFFFF else 0xFFFFFFFFFFFFFFFF
  | 4 => if i = 1 then 0xFFFFFFFFFFFF003F else if i ≤ 17 then 0xFFFFFFFFFFFFFFFF else 0
  | 5 => if i = 1 then 0xFFFFFFFFFFFFFFFF else if i = 2 then 0xFFFFFFFF else if i = 3 then 0x3FFFF else 0
  | _ => if i = 1 then 0x80FFFFFFFFFFFFFF else if i = 2 then 0xFFFFFFFFFFFFFFFF else if i = 3 then 1 else 0

/-- The body of an entry from words 1 to 63 of an image. -/
def objBody (kind : Nat) (img : List Word) : List Word :=
  (List.range 63).map fun i => nth img (i + 1) &&& bodyMask kind (i + 1)

/-- The header of an entry. -/
def Obj.header (o : Obj) : Word := word (o.gen.toNat * 2 ^ 48 + o.holds % 2 ^ 16 * 2 ^ 32 + o.state.toNat * 8 + o.kind)

/-- The ABM bank that 64 KiB at a virtual address translate to, if they are a whole one. -/
def State.wholeBank (s : State) (p : Party) (va : Nat) : Option Nat :=
  let page (i : Nat) : Option Nat := s.reach (mapped s p .read (va + 4096 * i))
  match page 0 with
  | none => none
  | some a => match homeOf s.extent a with
    | .abm b => if a % 0x10000 = 0 ∧ ((List.range 16).all fun i => page i == some (a + 4096 * i)) = true then some b else none
    | _ => none

/-- The banks of n successive 64 KiB pieces, if each is a whole one. -/
def State.wholeBanks (s : State) (p : Party) : Nat → Nat → Option (List Nat)
  | 0, _ => some []
  | n + 1, va => match s.wholeBank p va with
    | none => none
    | some b => (s.wholeBanks p n (va + 0x10000)).map (b :: ·)

/-- The banks that a range marked ratline switches, or none when its conditions fail (R292). -/
def State.ratlineRange (s : State) (p : Party) (body : List Word) : Option (List Nat) :=
  let base := wbits (nth body 0) 55 0
  let len := (nth body 1).toNat
  if (nth body 0).getLsbD 63 ∨ base % 0x10000 ≠ 0 ∨ len % 0x10000 ≠ 0 then none
  else s.wholeBanks p (len / 0x10000) base

/-- Requests that a bank has accepted and not completed (R183). -/
def State.bankBusy (s : State) (b : Nat) : Bool :=
  let here (a : Nat) : Bool := decide (homeOf s.extent a = .abm b)
  s.net.reqs.any (fun q => decide (q.phase = .home) && q.pas.any here) || s.net.atoms.any fun q => !q.widen && here q.pa

/-- A bank is switched: every cell is 0, without a release record (R202), and every tag empty (R183). -/
def clearBank (b : Nat) : Mv := .look fun s =>
  let base := abmBase + b * 0x10000
  Mv.seq [
    pokeBytes base (List.replicate 0x8000 0),
    Mv.each (s.release.filter fun t => t.1 / 0x8000 == base / 0x8000) fun t => .one (.release t.1 none),
    Mv.each (s.tags.filter fun t => t.1 / 0x10000 == base / 0x10000) fun t => .one (.tag t.1 none)]

/-- Banks leave ratline mode and enter it (R183, R292); one that stays in it is not switched. -/
def switchBanks (out into : List Nat) : Mv := .look fun s =>
  let leave := out.filter fun b => !into.contains b
  let enter := into.filter fun b => !s.ratBanks.contains b
  Mv.seq [
    Mv.each (leave ++ enter) clearBank,
    .one (.banks ((s.ratBanks.filter fun b => !leave.contains b) ++ enter))]

/-- A matrix multiply or a ring that an object gave its shape has not completed (R290). Engine commands hold their
descriptors (R220, R292). -/
def State.objBusy (s : State) (part idx : Nat) : Bool :=
  (s.cores.any fun c => s.partOf c.1 == some part && c.2.mops.any fun o => o.objs.contains idx)
  || s.net.rings.any fun g => g.part == part && g.joined.any fun m => m.obj == idx

/-- Writing an object entry from its image (R292): freed by KIND 0, otherwise written live. -/
def writeObj (c : Ctx) (d idx : Nat) (o : Obj) (img : List Word) : Mv := .look fun s =>
  let kind := wbits (nth img 0) 2 0
  let body := objBody kind img
  let banks : Option (List Nat) := if kind = 6 ∧ (nth body 2).getLsbD 0 = true then s.ratlineRange (s.party c.core) body else some []
  let put (x : Obj) : Mv := upPart c.task.part fun p => { p with objects := tput p.objects idx x }
  let done (x : Obj) : Mv := (put x).andThen (sysDone c d 0 (x.gen.toNat * 2 ^ 16 + idx))
  if kind = 7 then sysDone c d 0x41 0
  else if kind ≠ 0 ∧ o.holds ≠ 0 then sysDone c d 0x44 0
  else match banks with
    | none => sysDone c d 0x41 0
    | some into =>
      whenIdle c ((o.banks ++ into).any s.bankBusy || s.objBusy c.task.part idx) ((switchBanks o.banks into).andThen (
        if kind = 0 then done (if o.holds = 0 then o.freed else { o with state := 2, banks := [] })
        else done { o with state := 1, kind := kind, body := body, banks := into }))

/-- An entry of a partition's object table. -/
def State.objAt (s : State) (part idx : Nat) : Obj :=
  match s.part? part with | some p => tgetD p.objects idx Obj.reset | none => Obj.reset

/-- A handle names a live entry of its generation (R286). -/
def Obj.takes (o : Obj) (a : Word) : Bool := o.state == 1 && o.gen.toNat == wbits a 31 16

/-- R292. OBJW. -/
def execObjw (f : FA) (s : State) : Host.Outcome State Fault Refusal :=
  let d := f.d.toNat
  perform (issue (.objw f) (specAB f) fun c => .look fun s =>
    let idx := wbits c.a 15 0
    let o := s.objAt c.task.part idx
    if c.a.getLsbD 32 && o.state != 0 then sysDone c d 0x44 0
    else if !c.a.getLsbD 32 && !o.takes c.a then raiseIssue c.hid .stale 0 (word (wbits c.a 31 0))
    else sysImage c d 512 (noImage c) fun bs => writeObj c d idx o (wordsOf bs)) s

/-- R292. OBJR: header and body at sB. -/
def execObjr (f : FA) (s : State) : Host.Outcome State Fault Refusal :=
  let d := f.d.toNat
  perform (issue (.objr f) (specAB f) fun c => .look fun s =>
    let o := s.objAt c.task.part (wbits c.a 15 0)
    if !o.takes c.a then raiseIssue c.hid .stale 0 (word (wbits c.a 31 0))
    else sysStore c d (((o.header :: (List.range 63).map fun i => nth o.body i)).flatMap fun w => toBytes 8 w.toNat) (sysDone c d 0 0)) s

/-! ### The group table (R293) -/

/-- A mask is a strict subset of another. -/
def strictSubset (a b : BitVec 4096) : Bool := a &&& b == a && a != b

/-- The status that GRPW gives a mask (R32, R293). -/
def State.groupCheck (s : State) (part idx : Nat) (groups : Table (BitVec 4096)) (mask : BitVec 4096) : Nat :=
  let others := groups.filter fun g => g.1 != idx && g.2 != 0
  if (membersOf mask).any fun m => !s.ownsCore part m then 0x0B
  else if mask ≠ 0 ∧ (others.any fun g => strictSubset mask g.2 || strictSubset g.2 mask) = true then 0x42
  else if (membersOf mask).any fun m => decide (4 ≤ (others.filter fun g => g.2.getLsbD m).length) then 0x43
  else 0

/-- A multicast, gang or ring of a group has not completed (R32, R290). -/
def State.groupBusy (s : State) (part idx : Nat) : Bool :=
  (s.net.mcasts.any fun m => m.group == idx && s.partOf m.core == some part)
  || (s.net.gangs.any fun g => g.part == part && g.group == idx) || s.net.rings.any fun g => g.part == part && g.group == idx

/-- R293. GRPW. -/
def execGrpw (f : FA) (s : State) : Host.Outcome State Fault Refusal :=
  let d := f.d.toNat
  perform (issue (.grpw f) (specAB f) fun c => sysImage c d 520 (noImage c) fun bs => .look fun s =>
    let idx := wbits c.a 7 0
    let mask : BitVec 4096 := BitVec.ofNat 4096 (ofBytes (bs.take 512))
    match s.part? c.task.part with
    | none => .done
    | some p =>
      let code := s.groupCheck c.task.part idx p.groups mask
      if code ≠ 0 then sysDone c d code 0
      else whenIdle c (s.groupBusy c.task.part idx)
        ((upPart c.task.part fun p => { p with groups := if mask = 0 then tdel p.groups idx else tput p.groups idx mask }).andThen
          (sysDone c d 0 0))) s

/-! ### Mapper queues and arbiters (R298) -/

/-- A queue has been assigned an image (R298), its first period beginning now; BASE is reserved in the tx and event queues of a
function. -/
def queueOf (ns : Nat) (ws : List Word) : Queue where
  kind := wbits (nth ws 0) 63 62
  cls := wbits (nth ws 0) 61 60
  part := wbits (nth ws 0) 52 48
  vf := wbits (nth ws 0) 41 32
  size := wbits (nth ws 0) 31 16
  qidx := wbits (nth ws 0) 15 0
  base := if wbits (nth ws 0) 63 62 = 1 ∧ wbits (nth ws 0) 15 0 ≠ 0 then 0 else word (wbits (nth ws 1) 55 0)
  period := wbits (nth ws 2) 31 0
  budget := wbits (nth ws 2) 63 32
  left := 1000 * wbits (nth ws 2) 63 32
  start := ns / 1000
  next := none
  inFlight := false

/-- The words of a queue's entry (R298): word 2 as it was last written, word 3 the live deadline in us and the budget left. -/
def State.queueWords (s : State) (i : Nat) (q : Queue) : List Word :=
  [word (q.kind * 2 ^ 62 + q.cls * 2 ^ 60 + q.part * 2 ^ 48 + q.vf * 2 ^ 32 + q.size * 2 ^ 16 + q.qidx), q.base,
   word ((q.next.getD (q.period, q.budget)).2 * 2 ^ 32 + (q.next.getD (q.period, q.budget)).1),
   word (s.budgetLeft i q / 1000 * 2 ^ 32 + (q.start + q.period) % 2 ^ 32)]

/-- An unassigned queue (R241). -/
def Queue.reset : Queue := queueOf 0 []

/-- A size that a kind of queue may have (R298). -/
def sizeAllowed (kind size : Nat) : Bool :=
  let max := if kind = 1 then 1024 else 4096
  kind == 0 || (decide (size ≤ max) && (List.range 13).any fun i => size == 2 ^ i)

/-- A budget and period that are allowed (R298). -/
def edfAllowed (q : Queue) : Bool := decide (0 < q.period) && decide (q.budget ≤ q.period)

/-- The status that form 0 gives an image (R290, R298). -/
def State.queueCheck (s : State) (part i : Nat) (q : Queue) : Nat :=
  if s.mf0.slots.any fun x => x.2.queue == i then 0x44
  else if q.kind = 3 ∨ edfAllowed q = false ∨ sizeAllowed q.kind q.size = false then 0x41
  else if q.part ≠ part then 0x0B
  else if q.kind = 1 ∧ (match tget s.fabric.vfs q.vf with | some v => v.part == some part | none => false) = false then 0x0B
  else 0

/-- Form 0 of QMAP: writing a queue entry; one of KIND 0 is unassigned, and keeps its other fields. -/
def qmapEntry (c : Ctx) (d : Nat) (ws : List Word) : Mv := .look fun s =>
  let i := wbits c.a 9 0
  let q := queueOf s.clock.ns ws
  let held := match tget s.mf0.queues i with | some o => o.kind != 0 && o.part != c.task.part | none => false
  let code := if held then 0x0B else s.queueCheck c.task.part i q
  if code ≠ 0 then sysDone c d code 0
  else whenIdle c (s.mf0.queues.any fun o => o.1 == i && o.2.inFlight)
    ((upMf0 fun m => { m with queues := tput m.queues i q }).andThen (sysDone c d 0 0))

/-- The queue of an index, when the partition may use it: its own, or one that is unassigned. -/
def State.ownQueue (s : State) (part i : Nat) : Option Queue :=
  let q := tgetD s.mf0.queues i Queue.reset
  if q.kind = 0 ∨ q.part = part then some q else none

/-- Form 1 of QMAP: EDF parameters for the next period; an unassigned entry has no period that they would wait for. -/
def qmapEdf (c : Ctx) (d : Nat) (ws : List Word) : Mv := .look fun s =>
  let i := wbits c.a 9 0
  let new := queueOf 0 ws
  match s.ownQueue c.task.part i with
  | none => sysDone c d 0x0B 0
  | some q =>
    if !edfAllowed new then sysDone c d 0x41 0
    else
      let q' := if q.kind = 0 then { q with period := new.period, budget := new.budget } else { q with next := some (new.period, new.budget) }
      (upMf0 fun m => { m with queues := tput m.queues i q' }).andThen (sysDone c d 0 0)

/-- A commit arbiter that belongs to a partition. -/
def State.ownArbiter (s : State) (part a : Nat) : Bool :=
  match s.part? part with | some p => p.arbiters.contains a | none => false

/-- Form 2 of QMAP: the arbiter list. -/
def qmapArbiter (c : Ctx) (d : Nat) (ws : List Word) : Mv := .look fun s =>
  let a := wbits (nth ws 0) 7 0
  if !s.ownArbiter c.task.part a then sysDone c d 0x0B 0
  else (upPart c.task.part fun p => { p with arbList := tput p.arbList (wbits c.a 5 0) (BitVec.ofNat 8 a) }).andThen (sysDone c d 0 0)

/-- Form 3 of QMAP: reading a queue entry. -/
def qmapRead (c : Ctx) (d : Nat) : Mv := .look fun s =>
  let i := wbits c.a 9 0
  match s.ownQueue c.task.part i with
  | none => sysDone c d 0x0B 0
  | some q => sysStore c d ((s.queueWords i q).flatMap fun w => toBytes 8 w.toNat) (sysDone c d 0 0)

/-- R298. QMAP. -/
def execQmap (f : FA) (s : State) : Host.Outcome State Fault Refusal :=
  let d := f.d.toNat
  perform (issue (.qmap f) (specAB f) fun c =>
    match wbits c.a 61 60 with
    | 0 => sysImage c d 32 (noImage c) fun bs => qmapEntry c d (wordsOf bs)
    | 1 => sysImage c d 32 (noImage c) fun bs => qmapEdf c d (wordsOf bs)
    | 2 => sysImage c d 32 (noImage c) fun bs => qmapArbiter c d (wordsOf bs)
    | _ => qmapRead c d) s

/-! ### Jib sets (R311 to R313) -/

/-- R313. JBIND. -/
def execJbind (f : FA) (s : State) : Host.Outcome State Fault Refusal :=
  let d := f.d.toNat
  perform (issue (.jbind f) (specA f) fun c => .look fun s =>
    let asid := wbits c.a 15 0
    let set := wbits c.a 23 16
    let unbind := c.a.getLsbD 24
    match s.part? c.task.part with
    | none => .done
    | some p =>
      let old := tget p.jibMap asid
      let leave : Mv := match old with
        | some n => Mv.each s.clusters fun x => dropSet x.1 c.task.part n
        | none => .done
      if !p.image.asids.contains asid then sysDone c d 0x0B 0
      else if !unbind && set == 255 then sysDone c d 0x40 0
      else if !unbind && (tget p.jibSets set).isNone then sysDone c d 0x41 0
      else Mv.seq [
        Mv.when (!unbind) (Mv.each s.clusters fun x => dropSet x.1 c.task.part set),
        upPart c.task.part fun p => { p with jibMap := if unbind then tdel p.jibMap asid else tput p.jibMap asid set },
        leave,
        sysDone c d 0 0]) s

/-- R312. JLOAD: the image is checked, measured and registered; an unreadable one is the status ACCESS. The loader takes it at
once, and its queue stays empty: the instruction holds issue until its status in any case (R246, R290; log 110). -/
def execJload (f : FA) (s : State) : Host.Outcome State Fault Refusal :=
  let d := f.d.toNat
  perform (issue (.jload f) (specAB f) fun c => .look fun s =>
    let set := wbits c.a 7 0
    let words := wbits c.a 31 16
    match s.part? c.task.part with
    | none => .done
    | some p =>
      if words = 0 ∨ s.storeWords < words then raiseIssue c.hid .bound 0 0
      else if set = 255 then sysDone c d 0x40 0
      else if p.jibMap.any fun m => m.2 == set then sysDone c d 0x44 0
      else sysImage c d (8 * (65 + words)) (sysDone c d 0x0B 0) fun bs =>
        let img := wordsOf bs
        match checkImage img words with
        | some (reason, at_) => sysDone c d 0x41 (reason * 2 ^ 16 + at_)
        | none =>
          (upPart c.task.part fun p => { p with jibSets := tput p.jibSets set (setOf img (Config.sha3 bs)) }).andThen (sysDone c d 0 0)) s

/-! ### Interrupting a kernel core (R299) -/

/-- R299. IPI: its status comes when the inbox accepts the message, and issue is held until then (R290). -/
def execIpi (f : FA) (s : State) : Host.Outcome State Fault Refusal :=
  let d := f.d.toNat
  perform (issue (.ipi f) (specAB f) fun c => .look fun s =>
    let core := 4096 + wbits c.a 5 0
    if !s.ownsCore c.task.part core then sysDone c d 0x0B 0
    else
      let act := deviceAct 3 (gateWord (s.core core) 50) [c.b, word (c.core - 4096)]
      let act := { act with msg := { act.msg with h2 := h2Of noReply (s.coreEndpoint c.core) } }
      (upNet fun n => { n with msgs := n.msgs ++ [⟨c.core, core, 3, act, some (destOf c d), none⟩] }).andThen
        (hold c fun h => { h with hold := some c.h.seq })) s

end Sys2Proof.Machine
end

