-- ==== Sys2Proof/Machine/Mapper.lean ====
section
/-! DEFINITION. The queue mapper and the host's devices: slots, budgets and launch queues (spec/02, R40; spec/13, R248),
virtual functions, vsock packets and the host send ring (spec/13, R249; spec/21, R359 to R362), and Ethernet frames
(R363). -/
namespace Sys2Proof.Machine

/-! ### Slots and budgets -/

/-- The active slots (R40). -/
def slotCount : Nat := 32

/-- A queue is assigned and has budget left (R40). -/
def State.hasBudget (s : State) (i : Nat) (q : Queue) : Bool := q.kind != 0 && decide (0 < s.budgetLeft i q)

/-- A queue may be served: class 0 only while no queue of a higher class has budget (R40). -/
def State.mayServe (s : State) (i : Nat) (q : Queue) : Bool :=
  s.hasBudget i q && (decide (0 < q.cls) || !s.mf0.queues.any fun x => decide (0 < x.2.cls) && s.hasBudget x.1 x.2)

/-- Whether queue i comes before queue j: the earlier deadline, then the higher class, then the lower number (R40). -/
def Queue.before (i : Nat) (a : Queue) (j : Nat) (b : Queue) : Bool :=
  let da := a.start + a.period
  let db := b.start + b.period
  decide (da < db) || (da == db && (decide (b.cls < a.cls) || (a.cls == b.cls && decide (i < j))))

/-- The first of some queues in that order. -/
def firstQueue : List (Nat × Queue) → Option Nat
  | [] => none
  | (i, q) :: t =>
    match t.find? fun x => Queue.before x.1 x.2 i q with
    | some _ => firstQueue t
    | none => some i

/-- The queue that a free slot takes: one that may be served and is in no slot (R40). -/
def State.nextQueue (s : State) : Option Nat :=
  firstQueue (s.mf0.queues.filter fun q => s.mayServe q.1 q.2 && !s.mf0.slots.any fun x => x.2.queue == q.1)

/-- A slot lets go of its queue, whose budget is settled. -/
def leaveSlot (n : Nat) : Mv := .look fun s =>
  match tget s.mf0.slots n with
  | none => .done
  | some x => upMf0 fun m =>
    let queues := tmap (fun i q => if i = x.queue then { q with left := s.budgetLeft i q } else q) m.queues
    { m with slots := tdel m.slots n, queues := queues }

/-- A slot takes a queue. -/
def enterSlot (n queue : Nat) : Mv := .look fun s =>
  upMf0 fun m => { m with slots := tput m.slots n ⟨queue, s.clock.ns, none⟩ }

/-- R40. SLOT_SCHEDULE. -/
def execSlotSchedule (s : State) : Host.Outcome State Fault Refusal :=
  perform (.look fun s =>
    if slotCount ≤ s.data.n ∨ (tget s.mf0.slots s.data.n).isSome = true then .done
    else match s.nextQueue with
      | some q => enterSlot s.data.n q
      | none => .done) s

/-- The activation of the device's own notice at a handler of a partition's management kernel core (R295). -/
def notice (p : Part) (sel : Nat) (pay : List Word) : Mv := .look fun s =>
  let core := 4096 + p.image.mgmtCore
  sendAct deviceSrc core 3 (deviceAct 3 (gateWord (s.core core) sel) pay)

/-- R40, R295. OVERRUN: the slot's queue has used up its budget. -/
def execOverrun (s : State) : Host.Outcome State Fault Refusal :=
  perform (.look fun s =>
    match tget s.mf0.slots s.data.n with
    | none => .done
    | some x => match tget s.mf0.queues x.queue with
      | none => .done
      | some q =>
        if s.budgetLeft x.queue q ≠ 0 then .done
        else (leaveSlot s.data.n).andThen (match s.part? q.part with
          | some p => notice p 52 [word x.queue, word q.start, word q.budget, word q.period]
          | none => .done)) s

/-- A queue at the start of its next period (R40, R298). -/
def Queue.renew (q : Queue) : Queue :=
  let (period, budget) := q.next.getD (q.period, q.budget)
  { q with start := q.start + q.period, period := period, budget := budget, left := 1000 * budget, next := none }

/-- R40. QUEUE_PERIOD_START. -/
def execQueuePeriodStart (s : State) : Host.Outcome State Fault Refusal :=
  perform (.look fun s =>
    match tget s.mf0.queues s.data.n with
    | none => .done
    | some q =>
      if q.kind = 0 ∨ s.clock.ns < 1000 * (q.start + q.period) then .done
      else upMf0 fun m =>
        let slots := tmap (fun _ x => if x.queue = s.data.n then { x with since := s.clock.ns } else x) m.slots
        { m with queues := tput m.queues s.data.n q.renew, slots := slots }) s

/-- The queue that a slot serves now, with its number and partition. -/
def State.served (s : State) (slot : Nat) : Option (Nat × Queue × Part) :=
  match tget s.mf0.slots slot with
  | none => none
  | some x => match tget s.mf0.queues x.queue with
    | none => none
    | some q => match s.part? q.part with
      | some p => if s.mayServe x.queue q && p.running then some (x.queue, q, p) else none
      | none => none

/-- A 64-bit word at a virtual address, read by the device in a partition's name (R225, R298). -/
def State.deviceWord (s : State) (part : Nat) (va : Nat) : Option Word := (s.devicePa part va).map fun a => memWord s.mem a

/-- R248. LAUNCH_QUEUE_SERVE: the head entry's LAUNCH request goes to its dispatcher, with the queue's class. -/
def execLaunchQueueServe (s : State) : Host.Outcome State Fault Refusal :=
  perform (.look fun s =>
    match s.served s.data.n with
    | none => .done
    | some (i, q, _) =>
      if q.kind ≠ 2 ∨ q.inFlight = true then .done
      else match s.deviceWord q.part q.base.toNat, s.deviceWord q.part (q.base.toNat + 8) with
        | some prod, some cons =>
          if prod = cons then .done
          else match s.devicePa q.part (q.base.toNat + 64 + 64 * (cons.toNat % q.size)) with
            | none => .done
            | some a =>
              let ws := wordsOf (memBytes s.mem a 64)
              let reef := BitVec.ofNat 12 (wbits (nth ws 0) 23 12)
              let desc := descOf s q.part ws reef (BitVec.ofNat 48 (wbits (nth ws 3) 47 0)) (word (wbits (nth ws 1) 55 0)) q.cls false (some i)
              heardDevice q.part [(q.base.toNat + 64 + 64 * (cons.toNat % q.size), a)] <|
              (upMf0 fun m => { m with queues := tput m.queues i { q with inFlight := true } }).andThen
                (upNet fun n => { n with launches := n.launches ++ [⟨desc, none⟩] })
        | _, _ => .done) s

/-- R248. SLOT_BUSY_TIMEOUT: 1 us after a BUSY refusal the slot moves to another queue, if there is one. -/
def execSlotBusyTimeout (s : State) : Host.Outcome State Fault Refusal :=
  perform (.look fun s =>
    let n := s.data.n
    match tget s.mf0.slots n with
    | none => .done
    | some x => match x.busyAt with
      | none => .done
      | some t =>
        if s.clock.ns < t + 1000 then .done
        else match s.nextQueue with
          | some q => (leaveSlot n).andThen (enterSlot n q)
          | none => upMf0 fun m => { m with slots := tput m.slots n { x with busyAt := none } }) s

/-! ### Virtual functions -/

/-- The VF features that the device offers: VERSION_1, ACCESS_PLATFORM, RING_PACKED and EVENT_IDX (R359). -/
def offered : BitVec 64 := 0x720000000

/-- A virtual function that nothing has happened to (R359). -/
def Vf.reset : Vf := ⟨none, 0, false, [], [], [], []⟩

/-- A virtual function. -/
def State.vf (s : State) (n : Nat) : Vf := tgetD s.fabric.vfs n Vf.reset

/-- Changing a virtual function. -/
def upVf (n : Nat) (f : Vf → Vf) : Mv := .look fun s => upFabric fun x => { x with vfs := tput x.vfs n (f (s.vf n)) }

/-- R359. VIRTIO_FEATURE_NEGOTIATION: a driver that does not accept VERSION_1 fails FEATURES_OK; function 0 is the
console. -/
def execVirtioFeatureNegotiation (s : State) : Host.Outcome State Fault Refusal :=
  perform (.look fun s =>
    let n := s.data.n
    let f := s.data.word &&& offered
    if n = 0 then upFabric fun x => { x with consoleFeatures := if f.getLsbD 32 then f else 0 }
    else if 1024 < n then .done
    else upVf n fun v => { v with features := f, featuresOk := f.getLsbD 32 }) s

/-- The guest_cid of a partition's virtual functions (R359). -/
def State.guestCid (s : State) (part : Nat) : BitVec 64 := word (0x10000 * (s.package.id.toNat + 1) + part)

/-- The size that a virtqueue of a function reports to its driver: 0 when QMAP has not assigned it, or the function has no
partition (R248, R359). -/
def State.queueSize (s : State) (vf qidx : Nat) : Nat :=
  match (s.vf vf).part, s.mf0.queues.find? fun x => x.2.kind == 1 && x.2.vf == vf && x.2.qidx == qidx with
  | some _, some x => x.2.size
  | _, _ => 0

/-- The virtqueue of a function that a slot serves now: its queue and partition (R40, R248). The rings stand in the host's
memory; what the mapper takes from them is the data of its events (log 111). -/
def State.virtqueue (s : State) (vf qidx : Nat) : Option (Queue × Part) :=
  (List.range slotCount).findSome? fun i => match s.served i with
    | some (_, q, p) =>
      if q.kind = 1 ∧ q.vf = vf ∧ q.qidx = qidx ∧ (s.vf vf).featuresOk = true ∧ s.queueSize vf qidx ≠ 0 then some (q, p) else none
    | none => none

/-- What a reset of a function means to a launch of its partition (R249; log 35): a collective, which answers to another package, is
withdrawn. -/
def Launch.vfReset (id : Nat) (part : Nat) (l : Launch) : Launch :=
  { l with withdrawn := l.withdrawn || (l.desc.part == part && l.desc.reply.toNat != noReply && epPkg (zx l.desc.reply) != id) }

/-- R249, R287. VF_RESET: the launches and the copy commands that its traffic led to end with RESET, its messages are removed, its
queues are unassigned. -/
def execVfReset (s : State) : Host.Outcome State Fault Refusal :=
  perform (.look fun s =>
    let n := s.data.n
    let queues := (s.mf0.queues.filter fun q => q.2.kind == 1 && q.2.vf == n).map (·.1)
    let part := ((s.vf n).part).getD 32
    if n = 0 ∨ 1024 < n then .done
    else Mv.seq [
      Mv.each (s.net.cmds.filter fun q => q.vf == some n && !q.erasure) (fun q => failCmd q.id 0x21),
      removeActs fun _ a => a.vf != some n,
      upMf0 fun m => { m with
        slots := m.slots.filter fun x => !queues.contains x.2.queue
        queues := m.queues.filter fun q => !queues.contains q.1 },
      Mv.each (s.clusters.flatMap fun c => (c.2.launches.filter fun l => l.2.desc.vf == some n).map fun l => 8 * c.1 + l.1) fun lid =>
        .look fun s => match s.launch? lid with | some l => killLaunch lid l 2 | none => .done,
      .look fun s => Mv.each s.clusters fun c => upCluster c.1 fun c =>
        { c with launches := tmap (fun _ l => l.vfReset s.package.id.toNat part) c.launches },
      upNet fun x => { x with launches := x.launches.map fun q => if q.desc.vf == some n then { q with desc := { q.desc with reset := true } } else q },
      upVf n fun v => { Vf.reset with part := v.part }]) s

/-! ### Packets -/

/-- A vsock header of 44 bytes (R360, R362; virtio 1.2). -/
def vsockHeader (src dst : BitVec 64) (sport dport : BitVec 32) (len : Nat) (stream : Bool) (op : Nat) (buf fwd : Nat) : List Byte :=
  toBytes 8 src.toNat ++ toBytes 8 dst.toNat ++ toBytes 4 sport.toNat ++ toBytes 4 dport.toNat ++ toBytes 4 len
    ++ toBytes 2 (if stream then 1 else 2) ++ toBytes 2 op ++ toBytes 4 0 ++ toBytes 4 buf ++ toBytes 4 fwd

/-- A packet without data from the mapper, in answer to one of the host's: it waits for a buffer of the host (R360, R362). -/
def answerPkt (vf : Nat) (p : VsockPkt) (op buf fwd : Nat) : Mv :=
  upVf vf fun v => { v with answers := v.answers ++ [vsockHeader p.dstCid p.srcCid p.dstPort p.srcPort 0 p.stream op buf fwd] }

/-- The words of the port table's valid entry for a port (R361): its endpoint is a core of the partition. -/
def State.portEntry (s : State) (part : Nat) (p : Part) (port : BitVec 32) : Option (List Word) :=
  (List.range 4096).findSome? fun i =>
    match s.devicePa part (p.image.portTable.toNat + 32 * i) with
    | none => none
    | some a =>
      let ws := [0, 1, 2, 3].map fun j => memWord s.mem (a + 8 * j)
      let ep := word (wbits (nth ws 1) 31 0)
      if (nth ws 0).getLsbD 63 && wbits (nth ws 0) 31 0 == port.toNat && decide (epKind ep ≤ 1)
        && epPkg ep == s.package.id.toNat && s.ownsCore part (epCore ep) then some ws else none

/-- Package addresses of bytes of a ring from a position on, wrapping at its end. -/
def State.ringPas (s : State) (part : Nat) (ring : Word) (size pos n : Nat) : Option (List Nat) :=
  let pas := (List.range n).filterMap fun i => s.devicePa part (ring.toNat + (pos + i) % size)
  if pas.length = n then some pas else none

/-- Writing bytes at their homes, one by one. -/
def pokeAll (pas : List Nat) (bs : List Byte) : Mv := Mv.each (pas.zip bs) fun x => writeHome x.1 [x.2]

/-- The connection of a packet, with its index: of its kind, which the port entry accepted as it opened (R360). -/
def Vf.conn (v : Vf) (p : VsockPkt) : Option (Nat × Conn) :=
  v.conns.find? fun x => x.2.srcCid == p.srcCid && x.2.srcPort == p.srcPort && x.2.dstPort == p.dstPort && x.2.stream == p.stream

/-- What a connection is known by: the host's CID and port, the port here, and whether it is of streams. -/
def VsockPkt.key (p : VsockPkt) : BitVec 64 × BitVec 32 × BitVec 32 × Bool := (p.srcCid, p.srcPort, p.dstPort, p.stream)

/-- The virtio-vsock operation codes that the mapper meets (virtio 1.2). -/
def opRequest : Nat := 1
/-- RESPONSE. -/
def opResponse : Nat := 2
/-- RST. -/
def opRst : Nat := 3
/-- SHUTDOWN. -/
def opShutdown : Nat := 4
/-- RW. -/
def opRw : Nat := 5
/-- CREDIT_UPDATE. -/
def opCreditUpdate : Nat := 6
/-- CREDIT_REQUEST. -/
def opCreditRequest : Nat := 7

/-- Opening a connection at the lowest free index (R360, R361): the host's request is answered, and its response to the kernel's
request is not. -/
def openConn (vf part : Nat) (p : Part) (pkt : VsockPkt) : Mv := .look fun s =>
  match s.portEntry part p pkt.dstPort with
  | none => answerPkt vf pkt opRst 0 0
  | some ws =>
    let w0 := nth ws 0
    match (List.range 4096).find? fun i => (tget (s.vf vf).conns i).isNone with
    | none => answerPkt vf pkt opRst 0 0
    | some i =>
      if (!pkt.stream && !w0.getLsbD 62) || ((s.vf vf).conn pkt).isSome then answerPkt vf pkt opRst 0 0
      else withId fun id =>
        let c : Conn := { serial := id, srcCid := pkt.srcCid, srcPort := pkt.srcPort, dstPort := pkt.dstPort
                          endpoint := (nth ws 1).setWidth 32, handler := word (wbits (nth ws 2) 55 2 * 4), pri := wbits w0 61 60
                          ring := word (wbits (nth ws 3) 55 6 * 64), ringBytes := 1024 * wbits w0 47 32, fwd := 0, stream := pkt.stream }
        (upVf vf fun v => { v with conns := tput v.conns i c, asked := v.asked.erase pkt.key }).andThen
          (Mv.when (decide (pkt.op.toNat = opRequest)) (answerPkt vf pkt opResponse c.ringBytes 0))

/-- A receive ring of a partition, by its base (R360, R363). -/
def State.ringOf (s : State) (part : Nat) (base : Word) : RecvRing :=
  match s.part? part with | some p => tgetD p.rings base.toNat ⟨0, []⟩ | none => ⟨0, []⟩

/-- A ring of so many bytes has room for n more: those whose tasks have still to commit stay (R360). -/
def RecvRing.fits (r : RecvRing) (size n : Nat) : Bool := decide (r.head + n ≤ r.live.foldl (fun m x => min m x.1) r.head + size)

/-- Bytes land at the head of a receive ring, and stay there for a task (R360, R363). -/
def landIn (part : Nat) (base : Word) (pas : List Nat) (bs : List Byte) : Mv := (pokeAll pas bs).andThen
  (upPart part fun p =>
    let r := tgetD p.rings base.toNat ⟨0, []⟩
    { p with rings := tput p.rings base.toNat ⟨r.head + bs.length, r.live ++ [(r.head, bs.length)]⟩ })

/-- A data packet: its payload goes into the port's receive ring, which the connections of the port share, and a message starts a
task (R360). It waits while the ring has no room for it. -/
def dataPkt (vf part i : Nat) (c : Conn) (pkt : VsockPkt) : Mv := .look fun s =>
  let n := pkt.payload.length
  let r := s.ringOf part c.ring
  if !r.fits c.ringBytes n then .done
  else match s.ringPas part c.ring c.ringBytes r.head n with
    | none => .done
    | some pas =>
      let pay := [pkt.srcCid, word (pkt.srcPort.toNat * 2 ^ 32 + pkt.dstPort.toNat), c.ring + word (r.head % c.ringBytes), word n, word i]
      let act := { deviceAct c.pri c.handler pay with packet := some ⟨part, c.ring.toNat, r.head, n, some (vf, c.serial)⟩, vf := some vf }
      (landIn part c.ring pas pkt.payload).andThen (sendEndpoint deviceSrc (zx c.endpoint) c.pri act)

/-- R360. VSOCK_PACKET: served while the tx virtqueue is in a slot. -/
def execVsockPacket (s : State) : Host.Outcome State Fault Refusal :=
  perform (.look fun s =>
    let vf := s.data.n
    match s.data.pkt, s.virtqueue vf 1 with
    | some pkt, some (q, p) =>
      if pkt.dstCid ≠ s.guestCid q.part then answerPkt vf pkt opRst 0 0
      else if pkt.op.toNat = opRequest ∨ (pkt.op.toNat = opResponse ∧ (s.vf vf).asked.contains pkt.key = true) then openConn vf q.part p pkt
      else match (s.vf vf).conn pkt with
        | none => if pkt.op.toNat = opRst then upVf vf fun v => { v with asked := v.asked.erase pkt.key } else answerPkt vf pkt opRst 0 0
        | some (i, c) =>
          let close : Mv := upVf vf fun v => { v with conns := tdel v.conns i }
          if pkt.op.toNat = opRw then dataPkt vf q.part i c pkt
          else if pkt.op.toNat = opShutdown then close.andThen (answerPkt vf pkt opRst 0 0)
          else if pkt.op.toNat = opRst then close
          else if pkt.op.toNat = opCreditRequest then answerPkt vf pkt opCreditUpdate c.ringBytes (c.fwd % 2 ^ 32)
          else if pkt.op.toNat = opCreditUpdate ∨ pkt.op.toNat = opResponse then .done
          else answerPkt vf pkt opRst 0 0
    | _, _ => .done) s

/-- What a packet of the kernel's that goes to the host does to its connection (R360): a request is remembered until the host's
response, and a reset ends the connection. -/
def Vf.sends (v : Vf) (header : List Byte) : Vf :=
  let at_ (i n : Nat) : Nat := ofBytes ((header.drop i).take n)
  let key : BitVec 64 × BitVec 32 × BitVec 32 × Bool :=
    (BitVec.ofNat 64 (at_ 8 8), BitVec.ofNat 32 (at_ 20 4), BitVec.ofNat 32 (at_ 16 4), at_ 28 2 == 1)
  if at_ 30 2 = opRequest then { v with asked := v.asked ++ [key] }
  else if at_ 30 2 = opRst then { v with conns := v.conns.filter fun x => (x.2.srcCid, x.2.srcPort, x.2.dstPort, x.2.stream) != key }
  else v

/-- R362. HOST_SEND_RING_SERVICE: the head entry's header and data go into the next host rx buffer; a packet of the mapper's own
goes before it. -/
def execHostSendRingService (s : State) : Host.Outcome State Fault Refusal :=
  perform (.look fun s =>
    let vf := s.data.n
    match s.virtqueue vf 0, (s.vf vf).answers with
    | none, _ => .done
    | some _, p :: rest => Mv.when s.data.yes (upVf vf fun v => { v with answers := rest, toHost := v.toHost ++ [p] })
    | some (q, _), [] =>
      let base := q.base.toNat
      match s.deviceWord q.part base, s.deviceWord q.part (base + 8), s.devicePa q.part (base + 8) with
      | some prod, some cons, some ctl =>
        if prod = cons ∨ s.data.yes = false then .done
        else match s.devicePa q.part (base + 64 + 64 * (cons.toNat % q.size)) with
          | none => .done
          | some a =>
            let header := memBytes s.mem a 44
            let n := ofBytes ((header.drop 24).take 4)
            match s.ringPas q.part (memWord s.mem (a + 48)) (2 ^ 56) 0 n with
            | none => .done
            | some pas => heardDevice q.part [(base + 64 + 64 * (cons.toNat % q.size), a)] <| Mv.seq [
                upVf vf fun v => { v.sends header with toHost := v.toHost ++ [header ++ pas.map (memGet s.mem)] },
                writeHome ctl (toBytes 8 (cons.toNat + 1))]
      | _, _, _ => .done) s

/-! ### Ethernet -/

/-- A port of the package (R363). -/
def State.port (s : State) (n : Nat) : Port := tgetD s.fabric.ports n Port.reset

/-- Changing a port. -/
def upPort (n : Nat) (f : Port → Port) : Mv := .look fun s => upFabric fun x => { x with ports := tput x.ports n (f (s.port n)) }

/-- R363. ETHERNET_FRAME_RECEIVE: the frame lands in the network ring, where it stays until its task commits, and starts the network
handler. One for which the ring has no room is lost (log 133). -/
def execEthernetFrameReceive (s : State) : Host.Outcome State Fault Refusal :=
  perform (.look fun s =>
    let port := s.port s.data.n
    match port.part, port.part.bind s.part? with
    | some part, some p =>
      let n := s.data.bytes.length
      let ep := zx p.image.netEndpoint
      let ring := p.image.netRing
      let r := s.ringOf part ring
      if !port.ethernet || !port.up || !p.running || !r.fits p.image.netBytes n
        || !(decide (epKind ep ≤ 1) && epPkg ep == s.package.id.toNat && s.ownsCore part (epCore ep)) then .done
      else match s.ringPas part ring p.image.netBytes r.head n with
        | none => .done
        | some pas => (landIn part ring pas s.data.bytes).andThen (sendEndpoint deviceSrc ep p.image.netPri
            { deviceAct p.image.netPri p.image.netHandler [0, 0, ring + word (r.head % p.image.netBytes), word n, 0] with
              packet := some ⟨part, ring.toNat, r.head, n, none⟩ })
    | _, _ => .done) s

end Sys2Proof.Machine
end

