-- ==== Sys2Proof/Machine/Stays.lean ====
section
/-! DEFINITION. The Stays: links, faults of cores, dies and packages, votes, bring-up, the management page, power,
package time and the console (spec/01, R8 to R16; spec/19, R337; spec/20, R344 to R356; spec/21, R359 to R368). -/
namespace Sys2Proof.Machine

/-! ### Links -/

/-- NVMe root ports: two on MF1 and two on MF3, or two on MF1 of the FJ-20 (R9). That they are numbered 0 and 1 on MF1, 2 and 3 on
MF3, and that a partition image names the root port beside its namespace, is the model's choice (log 114). -/
def nvmePorts (fj20 : Bool) : Nat := if fj20 then 2 else 4

/-- The MF die of an NVMe root port (R9; log 114). -/
def nvmeDie (port : Nat) : Nat := if port < 2 then 1 else 3

/-- A partition uses an MF die: its channels, its banks, its Nimosh port, the root port of its NVMe namespace, or the stations
and engines of its clusters (R9, R352). -/
def usesMf (x : Extent) (die : Nat) (p : Part) : Bool :=
  let banks := if x = .v4096 then 2048 else 4096
  p.image.channels.any (fun c => c / 192 == die) || p.objects.any (fun o => o.2.banks.any fun b => b % banks / 1024 == die)
    || p.image.port / 8 == die || nvmeDie p.image.nvmePort == die || p.image.clusters.any fun c => c / 8 == die

/-- Die-to-die links of compute dies to MF dies: nine compute dies with the spare, each to four MF dies (R10). -/
def mfLinks : Nat := 36

/-- A partition holds a unit that a die-to-die link joins: link 4d + m joins compute die d to MF die m, link 36 + m MF die m to the
next of the ring (R10, R339; log 137). -/
def State.usesLink (s : State) (n : Nat) (p : Part) : Bool :=
  if n < mfLinks then p.image.clusters.any fun c => c / 4 == n / 4
  else usesMf s.extent (n - mfLinks) p || usesMf s.extent ((n - mfLinks + 1) % s.package.mfDies) p

/-- R10, R339. UCIE_LANE_REPAIR: no program sees it; a retry counts once for the link, and for the partitions that it serves. -/
def execUcieLaneRepair (s : State) : Host.Outcome State Fault Refusal :=
  perform (.look fun s =>
    Mv.when s.data.yes ((countUnit 6 (.link s.data.n)).andThen
      (Mv.each (s.parts.filter fun p => s.usesLink s.data.n p.2) fun p => countPart p.1 6))) s

/-- Flits of a port sent again, each counted for the port, and for the partition that holds it (R339, R349, R363). -/
def resend (port n : Nat) : Mv := .look fun s => Mv.seq [
  upPort port fun x => { x with resends := x.resends + n },
  Mv.each (List.range n) fun _ => countUnit 6 (.port port),
  (match (s.port port).part with
   | some p => Mv.each (List.range n) fun _ => countPart p 6
   | none => .done)]

/-- The width that a port trains to with some healthy lanes: the widest of 4, 2 and 1 (R349). -/
def Port.width (x : Port) : Nat := if 4 ≤ x.lanes then 4 else if 2 ≤ x.lanes then 2 else x.lanes

/-- A port that has lost a lane: it goes down with the last (R349). -/
def Port.loseLane (x : Port) : Port := { x with lanes := x.lanes - 1, up := decide (1 < x.lanes) }

/-- Ports of the package (R6). -/
def portCount (fj20 : Bool) : Nat := if fj20 then 16 else 32

/-- R349, R363. NIMOSH_LANE_LOSS: at most the 64 flits of the replay buffer are sent again; a port in Ethernet mode has none. -/
def execNimoshLaneLoss (s : State) : Host.Outcome State Fault Refusal :=
  perform (.look fun s =>
    let n := s.data.n
    if portCount s.package.fj20 ≤ n ∨ (s.port n).up = false then .done
    else Mv.seq [
      upPort n Port.loseLane,
      Mv.when (!(s.port n).ethernet) (resend n (min s.data.m 64)),
      advise (fun p => p.image.port == n) 3 n]) s

/-- R349, R363. NIMOSH_LINK_RETRY. -/
def execNimoshLinkRetry (s : State) : Host.Outcome State Fault Refusal :=
  perform (.look fun s =>
    let x := s.port s.data.n
    if portCount s.package.fj20 ≤ s.data.n ∨ x.up = false ∨ x.ethernet = true then .done else resend s.data.n 1) s

/-! ### Stopping a partition -/

/-- A core of a partition, by its half. -/
def State.hidIn (s : State) (part hid : Nat) : Bool := s.partOf (coreOf hid) == some part

/-- What is in flight without what belongs to a partition. -/
def Net.without (n : Net) (s : State) (part : Nat) : Net :=
  let mine (d : Dest) : Bool := s.hidIn part d.hid
  let inPart (core : Nat) : Bool := s.partOf core == some part
  { n with
    reqs := n.reqs.filter fun q => q.part != part
    fills := n.fills.filter fun f => !s.hidIn part f.hid
    remotes := n.remotes.filter fun q => !inPart q.core
    msgs := n.msgs.filter fun m => !inPart m.core
    mcasts := n.mcasts.filter fun m => !inPart m.core
    cmds := n.cmds.filter fun q => q.part != part
    atoms := n.atoms.filter fun q => q.part != part
    replies := n.replies.filter fun q => !mine q.dest
    heap := n.heap.filter fun q => q.part != part
    launches := n.launches.filter fun q => q.desc.part != part
    spawns := n.spawns.filter fun q => !mine q.dest
    aborts := n.aborts.filter fun q => q.part != part
    loops := n.loops.filter fun q => q.part != part
    gangs := n.gangs.filter fun g => g.part != part
    rings := n.rings.filter fun g => g.part != part
    stCmds := n.stCmds.filter fun c => c.2.1.part != part
    errors := n.errors.filter fun e => e.part != part
    ghosts := tfilter (fun _ g => g.identity.part != part) n.ghosts }

/-- A partition stops: nothing of it runs on (R352, R353, R368). -/
def stopPart (part : Nat) : Mv := .look fun s =>
  let queues := (s.mf0.queues.filter fun q => q.2.part == part).map (·.1)
  let slots := (s.mf0.slots.filter fun x => queues.contains x.2.queue).map (·.1)
  Mv.seq [
    upPart part fun p => { p with running := false, loop := none },
    Mv.each (s.tasks.filter fun t => t.2.part == part) (fun t => .one (.task t.1 none)),
    Mv.each (s.halves.filter fun h => s.hidIn part h.1) (fun h => .one (.half h.1 Half.reset)),
    Mv.each (s.cores.filter fun c => s.partOf c.1 == some part) (fun c => upCore c.1 fun c =>
      { c with inbox0 := Inbox.reset, inbox1 := Inbox.reset, inbox2 := Inbox.reset, inbox3 := Inbox.reset, ingress := []
               aside := [], arrivals := [], due := [], mops := [], completions := 0 }),
    .one (.deferred (s.deferred.filter fun d => !s.hidIn part d.hid)),
    upNet fun n => n.without s part,
    Mv.each slots leaveSlot]

/-- R241. PARTITION_TEARDOWN: its page request entries are freed along with its clusters, queues, ports and functions. -/
def execPartitionTeardown (s : State) : Host.Outcome State Fault Refusal :=
  perform (.look fun s =>
    let part := s.data.n
    match s.part? part with
    | none => .done
    | some p => Mv.seq [
        stopPart part,
        upMf0 fun m => { m with
          pages := tfilter (fun _ e => e.part != part) m.pages
          queues := tfilter (fun _ q => q.part != part) m.queues },
        Mv.each (s.cores.filter fun c => s.partOf c.1 == some part) (fun c => .one (.core c.1 Core.reset)),
        Mv.each p.image.shape (fun n => Mv.seq [
          upCluster n fun c => { Cluster.reset with spares := c.spares },
          .one (.station (2 * n) Station.reset),
          .one (.station (2 * n + 1) Station.reset)]),
        Mv.each (p.objects.flatMap fun o => o.2.banks) clearBank,
        .one (.banks (s.ratBanks.filter fun b => !p.objects.any fun o => o.2.banks.contains b)),
        upFabric fun f => { f with
          vfs := tmap (fun _ v => if v.part = some part then Vf.reset else v) f.vfs
          ports := tmap (fun _ x => if x.part = some part then { x with part := none } else x) f.ports },
        .one (.part part none)]) s

/-! ### Cores and dies -/

/-- Numbers from bytes, two each. -/
def pairsOf : List Byte → List Nat
  | a :: b :: t => ofBytes [a, b] :: pairsOf t
  | _ => []

/-- R350. CORE_SELF_TEST. -/
def execCoreSelfTest (s : State) : Host.Outcome State Fault Refusal :=
  perform (.look fun s =>
    let core := s.data.n
    if s.data.yes || (s.core core).failed || (s.partOf core).isNone then .done
    else hardFaultOf core (pairsOf s.data.bytes) (s.data.m != 0)) s

/-- Reefs of a partition that have a task, a launch or a preserved range on a die (R351). -/
def State.reefsOn (s : State) (part die : Nat) (p : Part) : List Nat :=
  (p.reefs.filter fun r =>
    s.tasks.any (fun t => t.2.part == part && t.2.reef.toNat == r.1 && s.dieOf t.2.core == die)
    || s.placedActs.any (fun a => a.2.placed && a.2.reef.toNat == r.1 && s.dieOf a.1 == die)
    || r.2.launches.any (fun l => l.running && s.physical l.desc.cluster / 4 == die)
    || r.2.pres.any (fun x => x.scratch && s.dieOf x.core == die)).map (·.1)

/-- The reefs that are re-executed for some reefs, each once; an outer one takes its inner ones with it (R35, R346). -/
def State.targets (s : State) (part : Nat) (reefs : List Nat) : List Nat :=
  let l := (reefs.filterMap fun r => s.selectReef part r).eraseDups
  l.filter fun r => !(s.reefChain part 9 r).any fun a => a != r && l.contains a

/-- A launch that no intact reef re-executes and whose dispatcher is lost completes with status ERROR (R345). -/
def loseLaunch (lid : Nat) (l : Launch) : Mv := .look fun s =>
  let tasks := s.tasks.filter fun t => t.2.act.launch == some lid
  Mv.seq [
    Mv.each tasks (fun t => (discardTask t.1).andThen (unspawn t.2)),
    removeQueued lid,
    sendCompletion l.desc (some (lid % 8)) 1 l.committed,
    freeTag lid l.desc true]

/-- What a lost die takes with it in one partition (R351, steps 4 and 5). -/
def loseDieIn (die part : Nat) (p : Part) : Mv := .look fun s =>
  let spoiled (x : Span) : Span := if x.scratch && s.dieOf x.core == die then { x with intact := false } else x
  let launches := s.clusters.flatMap fun c => if s.physical c.1 / 4 = die ∧ c.2.part = some part then
    c.2.launches.map fun l => (8 * c.1 + l.1, l.2) else []
  let reefs := s.reefsOn part die p
  Mv.seq [
    upPart part fun p => { p with reefs := tmap (fun _ r => { r with pres := r.pres.map spoiled }) p.reefs },
    .look fun s => Mv.seq [
      Mv.each (launches.filter fun l => (s.selectReef part l.2.desc.reef.toNat).isNone) (fun l => loseLaunch l.1 l.2),
      Mv.each (s.targets part reefs) (startReexec part),
      .look fun s => Mv.each (s.tasks.filter fun t => t.2.part == part && s.dieOf t.2.core == die
          && (s.selectReef part t.2.reef.toNat).isNone) fun t =>
        rerunOrTerminate t.1 (s.taskWords t.1 0 0 0 0)]]

/-- The cores of a die as its spare has them: scratchpads, inboxes and dispatchers empty (R351, step 4). -/
def emptyDie (die : Nat) : Mv := .look fun s =>
  let here (a : Nat) : Bool := decide (apBase ≤ a) && s.dieOf ((a - apBase) / 0x40000) == die
  let blank : Core := { Core.reset with cycBase := s.clock.clk }
  Mv.seq [
    Mv.each (s.mem.filter fun c => here c.1) (fun c => .one (.byte c.1 memDefault)),
    .one (.spoilt (s.spoilt.filter fun w => !here w)),
    Mv.each (s.cores.filter fun c => s.dieOf c.1 == die) (fun c => .one (.core c.1 blank)),
    Mv.each (s.clusters.filter fun c => s.physical c.1 / 4 == die) (fun c => upCluster c.1 fun c =>
      { c with locks := c.locks.filter fun l => match l.owner with | .reef _ _ => true | _ => false
               jibs := [], jibWanted := [], spares := 4 })]

/-- R351. COMPUTE_DIE_LOSS: once its vote has decided it; the package's spare die takes the slot, or the chosen one of a
peer package (R300). -/
def execComputeDieLoss (s : State) : Host.Outcome State Fault Refusal :=
  perform (.look fun s =>
    let die := s.data.n
    if s.fabric.decided.head? ≠ some (8, die) ∨ s.package.dies ≤ die then .done
    else
      let slot : Spar := match s.fabric.spareDie with
        | some phys => ⟨true, false, s.package.id, phys⟩
        | none => ⟨true, true, BitVec.ofNat 12 s.data.m, s.data.k⟩
      Mv.seq [
        upFabric fun f => { f with decided := f.decided.drop 1, spareDie := none, spar := tput f.spar die slot },
        emptyDie die,
        Mv.each s.parts (fun p => loseDieIn die p.1 p.2),
        .look fun s => Mv.each (s.halves.filter fun h => s.dieOf (coreOf h.1) == die) (fun h => .one (.half h.1 Half.reset)),
        advise (fun p => p.image.clusters.any fun c => c / 4 == die) 5 die]) s

/-- The MF die of the backstay (R8). -/
def backstayDie (fj20 : Bool) : Nat := if fj20 then 1 else 2

/-- R352. MF_DIE_LOSS: MF0 is the package; otherwise the partitions that use the die stop, and the others are told. -/
def execMfDieLoss (s : State) : Host.Outcome State Fault Refusal :=
  perform (.look fun s =>
    let die := s.data.n
    if s.fabric.decided.head? ≠ some (9, die) ∨ s.package.mfDies ≤ die then .done
    else (upFabric fun f => { f with decided := f.decided.drop 1 }).andThen
      (if die = 0 then .one (.package { s.package with lost := true })
       else Mv.seq [
         Mv.each (s.parts.filter fun p => usesMf s.extent die p.2) (fun p => stopPart p.1),
         Mv.when (die = backstayDie s.package.fj20) (upFabric fun f =>
           { f with lostStays := f.lostStays ++ [(s.package.id.toNat, true)] }),
         advise (fun p => p.running && !usesMf s.extent die p) 5 (8 + die)])) s

/-- The package that a request to an atomic engine goes to (R210; log 6). -/
def AtomReq.package (q : AtomReq) (own : Nat) : Nat := if q.pa < 2 ^ 40 then own else q.pa / 2 ^ 40 - 1

/-- A request that was on its way to a lost package completes with ACCESS (R191, R353). -/
def failAway (pkg : Nat) : Mv := .look fun s =>
  let lost (q : AtomReq) : Bool := !q.widen && q.package s.package.id.toNat == pkg
  (upNet fun n => { n with atoms := n.atoms.filter fun q => !lost q }).andThen
    (Mv.each (s.net.atoms.filter lost) fun q => Mv.seq [
      freeCompletion q, raiseAfter q.dest.hid q.dest.tid q.dest.seq .access (word q.va) q.entry, admitWiden q.mf])

/-- A launch that answers to a lost package is withdrawn (R249, R353; log 35). -/
def Launch.loses (pkg : Nat) (l : Launch) : Launch :=
  { l with withdrawn := l.withdrawn || (l.desc.reply.toNat != noReply && epPkg (zx l.desc.reply) == pkg) }

/-! ### Votes -/

/-- The packages of a tray (R354). -/
def State.tray (s : State) (n : Nat) : List Nat := (s.fabric.group.members.filter fun g => g.2 == n).map (·.1)

/-- The preserved ranges with a page in a frame are not intact any more (R344, R348). -/
def spoilFrame (frame : Nat) : Mv := .look fun s =>
  let hit (part : Nat) (x : Span) : Bool := !x.scratch && (List.range ((x.base % 4096 + x.len + 4095) / 4096)).any fun i =>
    match s.devicePa part (x.base / 4096 * 4096 + 4096 * i) with | some a => a / 4096 * 4096 == frame | none => false
  let lose (part : Nat) (r : Reef) : Reef :=
    let pres := r.pres.map fun x => if hit part x then { x with intact := false } else x
    { r with pres := pres }
  Mv.each s.parts fun p => upPart p.1 fun q => { q with reefs := tmap (fun _ r => lose p.1 r) q.reefs }

/-- Carrying out a decided action: within a die at once, beyond it in the order of the decisions (R346, R355). -/
def decideVote (v : Vote) : Mv := .look fun s =>
  match v.cls with
  | 4 => (upFabric fun f => { f with failedGroups := if f.failedGroups.contains v.unit then f.failedGroups else v.unit :: f.failedGroups }).andThen
      (advise (fun p => p.image.channels.contains (v.unit / 64)) 1 (v.unit / 64))
  | 5 => Mv.seq [
      spoilFrame (v.unit / 4096 * 4096),
      upFabric (retireFrame (v.unit / 4096 * 4096)),
      Mv.each s.stations fun t => upStation t.1 (loseFrame v.unit),
      advise (fun p => p.image.channels.contains (v.unit / 0x40000000)) 2 (v.unit / 4096 * 4096)]
  | 6 => (upPort v.unit Port.loseLane).andThen
      (advise (fun p => p.image.port == v.unit) 3 v.unit)
  | 7 => hardFaultOf v.unit [] false
  | 11 => upFabric fun f => { f with decided := f.decided ++ (s.tray v.unit).map fun p => (10, p) }
  | n => Mv.when (decide (8 ≤ n ∧ n ≤ 10)) (queueAction n v.unit)

/-- R355. DIAGNOSIS_VOTE. -/
def execDiagnosisVote (s : State) : Host.Outcome State Fault Refusal :=
  perform (.look fun s =>
    match s.data.vote with
    | none => .done
    | some d => countVote d decideVote) s

/-- R355. VOTE_TIMEOUT: 10 ms after its first diagnosis a vote declines (R347). -/
def execVoteTimeout (s : State) : Host.Outcome State Fault Refusal :=
  perform (.look fun s =>
    match ith s.fabric.votes s.data.n with
    | none => .done
    | some v => Mv.when (s.expired v) (decline (ldel s.fabric.votes s.data.n) v)) s

/-! ### Bring-up -/

/-- Two lists of resources share one. -/
def overlapping (a b : List Nat) : Bool := a.any b.contains

/-- The resources of an image overlap those of a running partition (R364): a deterministic one has all the core numbers and banks
of the package (R20; log 6). -/
def Image.clashes (x y : Image) : Bool :=
  x.det || y.det || overlapping x.clusters y.clusters || overlapping x.channels y.channels || x.port == y.port || x.nvme == y.nvme
    || overlapping x.asids y.asids || overlapping x.vfs y.vfs

/-- Clusters that a part has (R6). -/
def Package.clusters (p : Package) : Nat := 4 * p.dies

/-- The Stays start an image (R295, R364, R365, R386): verified, its management core its own, ERRBASE aligned, and no
resource in use. -/
def State.accepts (s : State) (x : Image) : Bool :=
  x.valid && !x.clusters.isEmpty && x.shape.contains (x.mgmtCore / 2) && x.errBase.toNat % 0x10000 == 0
    && x.clusters.all (fun c => decide (c < s.package.clusters)) && decide (x.nvmePort < nvmePorts s.package.fj20)
    && !s.parts.any fun p => x.clashes p.2.image

/-- The memory that a partition is given: its channels, and the scratchpads of its cores (R179, R365). -/
def State.givenTo (s : State) (x : Image) (a : Nat) : Bool :=
  match homeOf s.extent a with
  | .hbm chan => x.channels.contains chan
  | .scratch core => x.shape.contains (clusterOf core)
  | _ => false

/-- PARTITION_CREATE (R364, R365): world bits, scrub, roots, functions and port are set, the heap's map is cleared (R225), and the
kernel cores start at the entry address. -/
def createPart (n : Nat) (x : Image) : Mv := .look fun s =>
  let start := deviceAct 3 x.entry []
  let boot (k : Nat) : Mv := upCore (4096 + k) fun c =>
    { Core.reset with cycBase := s.clock.clk, failed := c.failed, inbox3 := ⟨[], [start]⟩ }
  Mv.seq [
    Mv.each (s.mem.filter fun c => s.givenTo x c.1) (fun c => .one (.byte c.1 memDefault)),
    .one (.spoilt (s.spoilt.filter fun w => !s.givenTo x w)),
    Mv.each x.load (fun c => .one (.byte c.1 c.2)),
    Mv.each x.roots (fun r => pokeBytes (s.package.asidRoot + 8 * r.1) (toBytes 8 r.2.toNat)),
    .one (.part n (some { Part.created x with since := s.clock.clk })),
    heapReset n,
    Mv.each x.shape (fun c => Mv.seq [
      upCluster c fun k => { Cluster.reset with spares := k.spares, part := some n },
      boot (2 * c),
      boot (2 * c + 1)]),
    Mv.each x.vfs (fun v => upVf v fun f => { f with part := some n }),
    upPort x.port fun p => { p with part := some n, ethernet := x.ethernet }]

/-- The images of flash in order: each is started, or reported on the console. -/
def bringUp : Nat → List Image → Mv
  | _, [] => .done
  | n, x :: t => (Mv.look fun s =>
      if s.accepts x then createPart n x
      else upFabric fun f => { f with console := f.console ++ [Config.consoleAnswer (toBytes 1 n)] }).andThen (bringUp (n + 1) t)

/-- The spar map that bring-up writes (R11, R300). -/
def sparMap (p : Package) : Table Spar :=
  let id := p.id
  let dies := p.dies
  let mfs := p.mfDies
  (List.range dies).map (fun i => (i, ⟨true, false, id, i⟩)) ++ (List.range mfs).map fun i => (8 + i, ⟨true, false, id, 9 + i⟩)

/-- The Stays take the group and its standby from their configuration (R354); a group that R354 does not allow is reported. -/
def setGroup : Mv := .look fun s =>
  if s.fabric.config.1.ok then upFabric fun f => { f with group := f.config.1, standby := f.config.2 }
  else upFabric fun f => { f with console := f.console ++ [Config.consoleAnswer []] }

/-- R365. POWER_ON_BRING_UP: once. The base of the ASID root table, which the spec lets the Stays set and does not name, stays the
one of reset, by the model's choice (log 124). -/
def execPowerOnBringUp (s : State) : Host.Outcome State Fault Refusal :=
  perform (.look fun s =>
    if s.fabric.booted then .done
    else Mv.seq [
      .one (.clock { s.clock with locked := true }),
      upFabric fun f => { f with
        booted := true
        spar := sparMap s.package
        spareDie := some s.package.dies },
      Mv.each (s.mem.filter fun c => match homeOf s.extent c.1 with | .abm _ => true | _ => false)
        (fun c => .one (.byte c.1 memDefault)),
      setGroup,
      bringUp 0 (s.fabric.flash.take 32)]) s

/-! ### The loss of a package -/

/-- A reef of a lost package, as its standby takes it over (R353): its launches run no more, and its re-execution is due once its
inputs are rebuilt. -/
def Reef.asTaken (part : Nat) (r : Reef) : Reef :=
  { r with
    state := 2
    taken := true
    opener := none
    launches := r.launches.map fun l => { l with running := false, desc := { l.desc with part := part } } }

/-- The reef table of a partition of a lost package (R345, R353): the launches of its root complete with status ERROR, its other
reefs are re-executed. -/
def takeReefs (part : Nat) (t : Table Reef) : Mv := Mv.seq [
  Mv.each (tgetD t 0 Reef.blank).launches (fun l => sendCompletion { l.desc with part := part } none 1 0),
  upPart part fun p => { p with reefs := p.reefs.take 1 ++ (t.filter fun r => r.1 != 0).map fun r => (r.1, r.2.asTaken part) }]

/-- The first partition number above those in use. -/
def State.freePart (s : State) : Nat := s.parts.foldl (fun n p => max n (p.1 + 1)) 0

/-- This package, the standby, takes the place of a lost one: its logical id, its partitions, and their reefs (R353). -/
def takeOver (pkg : Nat) : Mv := .look fun s =>
  let peer := tgetD s.fabric.peers pkg ⟨[], []⟩
  let base := s.freePart
  Mv.seq [
    .one (.package { s.package with id := BitVec.ofNat 12 pkg }),
    bringUp base peer.images,
    .look fun s => Mv.each peer.reefs.zipIdx fun x => Mv.when (s.part? (base + x.2)).isSome (takeReefs (base + x.2) x.1)]

/-- R353. PACKAGE_LOSS: once its vote has decided it. The standby takes the lost package's logical id, requests on their way
to it are refused, and collectives that include it are withdrawn; with none free the action is declined. This package may be
the standby (log 138). -/
def execPackageLoss (s : State) : Host.Outcome State Fault Refusal :=
  perform (.look fun s =>
    let pkg := s.data.n
    if s.fabric.decided.head? ≠ some (10, pkg) then .done
    else (upFabric fun f => { f with decided := f.decided.drop 1 }).andThen
      (if pkg = s.package.id.toNat then .one (.package { s.package with lost := true })
       else match s.fabric.standby with
         | some y => Mv.seq [
             upFabric fun f => { f with standby := none, lostPackages := f.lostPackages ++ [pkg] },
             Mv.each s.clusters fun c => upCluster c.1 fun c => { c with launches := tmap (fun _ l => l.loses pkg) c.launches },
             failAway pkg,
             Mv.when (y = s.package.id.toNat) (takeOver pkg),
             advise (·.running) 6 pkg]
         | none => advise (·.running) 7 10)) s

/-! ### The management page, power, time, console -/

/-- PWRSTAT (R368). -/
def Fabric.pwrstat (f : Fabric) : Word := word (f.watts % 2 ^ 16 * 2 ^ 48 + f.inlet % 256 * 2 ^ 40 + f.step * 2 ^ 32)

/-- A signed attestation report over a nonce of 32 to 64 bytes (R366); nothing for any other. -/
def State.attest (s : State) (nonce : List Byte) : List Byte :=
  if nonce.length < 32 ∨ 64 < nonce.length then []
  else
    let measures := Config.firmware :: (s.parts.flatMap fun p => p.2.image.measure :: p.2.jibSets.map (·.2.measure))
    let text := Config.report measures (wbits s.package.cap 39 32) nonce
    text ++ Config.sign text

/-- A write of an injector register (R356). -/
def Injector.write (j : Injector) (reg : Nat) (w : Word) : Injector :=
  match reg with
  | 0 => { j with seed := if w = 0 then 1 else w }
  | 1 => { j with rate := w.setWidth 32 }
  | 2 => { j with mask := w.setWidth 6 }
  | 3 => { j with sel := w &&& 0x8000FFFFFFFFFF7F }
  | _ => j

/-- The Stays' answer to a request of a management page, and what it changes (R225, R356, R366 to R368). -/
def answerMgmt (part : Nat) (p : Part) (r : Config.MgmtReq) (k : List Byte → Mv) : Mv := .look fun s =>
  match r with
  | .report nonce => k (s.attest nonce)
  | .injector reg w => (Mv.when p.image.test (upPart part fun p => { p with injector := p.injector.write reg w })).andThen (k [])
  | .power => k (toBytes 8 s.fabric.pwrstat.toNat)
  | .heapReset => (Mv.when (!s.tasks.any fun t => t.2.part == part) (heapReset part)).andThen (k [])
  | .other => k []

/-- R367. MANAGEMENT_PAGE_POLL: the reply is written before word 0 is cleared. -/
def execManagementPagePoll (s : State) : Host.Outcome State Fault Refusal :=
  perform (.look fun s =>
    let part := s.data.n
    match s.part? part with
    | none => .done
    | some p =>
      if !p.running || decide (s.clock.ns < p.polled + 10000) then .done
      else (upPart part fun p => { p with polled := s.clock.ns }).andThen
        (match s.devicePa part p.image.mgmtPage.toNat with
         | none => .done
         | some a =>
           if memWord s.mem a = 0 then .done
           else
             let page := memBytes s.mem a 4096
             let off := 8 + Config.mgmtPlace page % 4088
             answerMgmt part p (Config.mgmtRequest page) fun bs => Mv.seq [
               writeHome (a + off) (bs.take (4096 - off)),
               writeHome a (toBytes 8 0)])) s

/-- The power limit of the module in W (R15). -/
def powerLimit (fj20 : Bool) : Nat := if fj20 then 1450 else 2800

/-- R14, R368. CLOCK_STEP_DOWN: the registers take the sample, and the core clock goes down a step while the module is
over its power or coolant limits. -/
def execClockStepDown (s : State) : Host.Outcome State Fault Refusal :=
  perform (.look fun s =>
    let over_ := decide (powerLimit s.package.fj20 < s.data.n ∨ s.data.m < 20 ∨ 40 < s.data.k)
    upFabric fun f => { f with watts := s.data.n, inlet := s.data.k, step := if over_ then min 3 (f.step + 1) else f.step }) s

/-- R368. INLET_OVER_LIMIT: above 60 degrees every partition stops. -/
def execInletOverLimit (s : State) : Host.Outcome State Fault Refusal :=
  perform (.look fun s =>
    if s.data.n ≤ 60 then .done
    else (upFabric fun f => { f with inlet := s.data.n }).andThen (Mv.each s.parts fun p => stopPart p.1)) s

/-- R337. PTP_MESSAGE: lock is acquired; before any partition boots the time is set, afterwards it only slews. -/
def execPtpMessage (s : State) : Host.Outcome State Fault Refusal :=
  perform (.look fun s =>
    .one (.clock (if s.fabric.booted then { s.clock with locked := true }
      else { s.clock with ns := s.data.n, frac := s.data.m % 2 ^ 16, locked := true }))) s

/-- R337. PTP_LOCK_LOSS: holdover at the last rate. -/
def execPtpLockLoss (s : State) : Host.Outcome State Fault Refusal :=
  perform (.look fun s => .one (.clock { s.clock with locked := false })) s

/-- R359, R366. CONSOLE_COMMAND: of a driver that has accepted VERSION_1. -/
def execConsoleCommand (s : State) : Host.Outcome State Fault Refusal :=
  perform (.look fun s => Mv.when (s.fabric.consoleFeatures.getLsbD 32) <|
    let line := match Config.consoleRequest s.data.bytes with
      | some nonce => s.attest nonce
      | none => Config.consoleAnswer s.data.bytes
    upFabric fun f => { f with console := f.console ++ [line] }) s

end Sys2Proof.Machine
end

