-- ==== Sys2Proof/Machine/Quantum.lean ====
section
/-! DEFINITION. The quantum's end of a deterministic partition (spec/02, R44; spec/06, R103; spec/11, R208; spec/19,
R341, R342). -/
namespace Sys2Proof.Machine

/-! ### When a quantum ends -/

/-- The operations of a deterministic partition that its next boundary applies, in logical core order, and within a
core in issue order (R44, R341). -/
def State.boundaryOrder (s : State) (part : Nat) : List Deferred :=
  let mine := s.deferred.filter fun d => s.partOf (coreOf d.hid) == some part && !isKernel (coreOf d.hid)
  let cores := (mine.map fun d => coreOf d.hid).eraseDups
  (cores.insertionSort (· ≤ ·)).flatMap fun c => mine.filter fun d => coreOf d.hid == c

/-- A destination belongs to an operation. -/
def Deferred.owns (d : Deferred) (x : Dest) : Bool := d.hid == x.hid && d.tid == x.tid && d.seq == x.seq

/-- A shared request belongs to an operation. -/
def Deferred.ownsReq (d : Deferred) (q : Req) : Bool := d.hid == q.hid && d.tid == q.tid && d.seq == q.seq

/-- What the task of a half waits for is on its way without any boundary (R342). -/
def State.owedInside (s : State) (hid tid : Nat) : Bool :=
  let n := s.net
  n.fills.any (fun f => f.tid == tid) || n.replies.any (fun r => r.dest.tid == tid)
  || n.reqs.any (fun q => q.tid == tid && !(s.isDeferred q.tid q.seq && decide (q.phase = .home ∨ q.phase = .fault ∨ q.phase = .held)))
  || n.remotes.any (fun r => r.tid == tid && (!r.op.writes || !s.detCore r.target))
  || n.mcasts.any (fun m => m.dest.tid == tid && m.waiting.isEmpty)
  || n.cmds.any (fun q => q.dest.tid == tid && !q.started)
  || n.atoms.any (fun q => q.dest.tid == tid && !s.isDeferred tid q.dest.seq)
  || n.heap.any (fun q => q.dest.tid == tid && !s.isDeferred tid q.dest.seq)
  || n.launches.any (fun q => q.dest.any fun d => d.tid == tid)
  || n.stCmds.any (fun q => q.2.2.any fun d => d.tid == tid) || n.loops.any (fun q => q.dest.tid == tid)
  || n.msgs.any (fun m => (m.status.any fun d => d.tid == tid) && !s.detCore m.core)
  || (s.core (coreOf hid)).mops.any (fun o => o.tid == tid &&
      (match o.gang with
       | some g => (n.gangs.find? fun x => x.id == g).all (·.started)
       | none => true))

/-- A half has nothing to do before a boundary (R342): it is free with nothing to activate, or blocked only on what
boundaries apply. -/
def State.halfIdle (s : State) (hid : Nat) : Bool :=
  let core := coreOf hid
  let h := s.half hid
  let blocked := !s.owedInside hid h.tid
  match h.occ with
  | .free => (s.coreNow core).head.isNone && (s.waitingTask core).isNone
  | .filling => false
  | .draining => false
  | .live =>
    if h.hold = some abandoned then blocked
    else if !h.traps.isEmpty && !h.ctl.trapd then blocked && s.directsOut h.tid
    else if s.quantumFull hid h then blocked
    else match h.block with
      | .waitc ac => (s.core core).armed ac
      | .barw _ => true
      | .safe => !s.directReady h.tid
      | .register | .fence => blocked
      | _ => false

/-- A core has ended its quantum (R342): QPOS has reached QUANT, or both halves are idle. -/
def State.quantumEnded (s : State) (core : Nat) : Bool :=
  (s.core core).failed
    || [2 * core, 2 * core + 1].any (fun hid => decide ((s.half hid).occ ≠ .free)
        && decide ((s.half hid).ctl.quant.toNat ≤ (s.core core).qpos.toNat))
    || (s.halfIdle (2 * core) && s.halfIdle (2 * core + 1))

/-- The cores of a partition's shape to which anything has happened. -/
def State.shapeCores (s : State) (part : Nat) : List Nat :=
  (s.cores.map (·.1) ++ s.halves.map fun h => coreOf h.1).eraseDups.filter fun c =>
    !isKernel c && s.partOf c == some part

/-- A request that is held has reached the place where it is served, or waits for a page (R44). -/
def State.heldReady (s : State) (part : Nat) : Bool :=
  (s.net.reqs.zipIdx).all fun x =>
    !s.isDeferred x.1.tid x.1.seq || x.1.part != part || isKernel x.1.core
      || (match x.1.phase with
          | .home => !(s.net.reqs.take x.2).any fun r => decide (r.phase = .home) && r.core == x.1.core
              && !s.isDeferred r.tid r.seq
          | .translate | .walk => false
          | _ => true)

/-- Every core of the partition has ended its quantum (R44, R342). -/
def State.boundaryDue (s : State) (part : Nat) (p : Part) : Bool :=
  p.image.det && p.running && (s.shapeCores part).all s.quantumEnded && s.heldReady part

/-! ### Deferred requests -/

/-- Floating adds that are held at a word, in service order: by place among requests, or among atomic engine requests
(R103). -/
def State.addsAt (s : State) (part pa : Nat) : List (Bool × Nat × Word) :=
  (s.boundaryOrder part).flatMap fun d =>
    ((s.net.reqs.zipIdx).filterMap fun x =>
      if d.ownsReq x.1 && decide (x.1.phase = .home) && x.1.pas.headD 0 + x.1.va % 64 == pa then
        match x.1.acc with
        | .atom 10 _ b _ => some (false, x.1.id, b)
        | .red 10 _ b => some (false, x.1.id, b)
        | _ => none
      else none)
    ++ ((s.net.atoms.zipIdx).filterMap fun x =>
      if d.owns x.1.dest && !x.1.widen && x.1.op == 10 && x.1.pa == pa then some (true, x.2, x.1.b) else none)

/-- The word of a request may be accessed by the requesting core now: it bears no release record, or one whose scope
includes the core (R237). -/
def State.opens (s : State) (pa core : Nat) : Bool := match s.recordAt pa with | some r => r.includes core | none => true

/-- The scope that an access by an atomic reports (R237). -/
def State.scopeAt (s : State) (pa : Nat) : Nat := match s.recordAt pa with | some r => r.scope | none => 0

/-- The batch of a quantum's floating adds at a word (R103, R208): their sum is added to it, and every member that
returns a value receives the word as it stood before the batch. -/
def serveAdds (part pa : Nat) : Mv := .look fun s =>
  let l := (s.addsAt part pa).eraseDups
  let old := memNat s.mem pa 4
  let ordst := some (ordstOf (s.scopeAt pa) false)
  let ids := (l.filter fun x => !x.1).map (·.2.1)
  let places := (l.filter (·.1)).map (·.2.1)
  let reqs := s.net.reqs.filter fun q => ids.contains q.id
  let atoms := (s.net.atoms.zipIdx.filter fun x => places.contains x.2).map (·.1)
  Mv.seq [
    upNet fun n => { n with
      reqs := n.reqs.filter fun q => !ids.contains q.id
      atoms := (n.atoms.zipIdx.filter fun x => !places.contains x.2).map (·.1) },
    writeHome pa (toBytes 4 (bankAdd old (l.map fun x => truncTo 4 x.2.2))),
    Mv.each reqs (fun q => Mv.seq [
      setDirty q.party q.va,
      match q.acc with
      | .atom _ _ _ _ => sendFill ⟨q.hid, q.tid, q.seq, .s q.reg (word old), 0, ordst, false, none, none⟩
      | _ => .done]),
    Mv.each atoms fun q => Mv.when q.value
      (upNet fun n => { n with replies := n.replies ++ [⟨q.dest, word old, ordst⟩] })]

/-- A held request at its home (R44, R208): floating adds go in their batch, the rest one at a time. -/
def serveReq (part : Nat) (d : Deferred) (q : Req) : Mv := .look fun s =>
  match s.net.reqs.zipIdx.find? fun x => x.1.id == q.id with
  | none => .done
  | some (q, i) =>
    let pa := q.pas.headD 0 + q.va % 64
    let add := match q.acc with | .atom op _ _ _ => op == 10 | .red op _ _ => op == 10 | _ => false
    let red := match q.acc with | .red _ _ _ => true | _ => false
    if q.phase ≠ .home || !d.held || (s.homeHeld pa && !q.waiting && !red) then .done
    else if add && s.opens pa q.core then serveAdds part pa
    else accessHome i q

/-- A held request at its atomic engine (R44, R208, R210). -/
def serveAtom (part : Nat) (d : Deferred) : Mv := .look fun s =>
  match s.net.atoms.zipIdx.find? fun x => d.owns x.1.dest && !x.1.widen with
  | none => .done
  | some (q, i) =>
    if !d.held || (s.homeHeld q.pa && !q.waiting && q.value) then .done
    else if q.op == 10 && decide (q.pa < 2 ^ 40) && (!q.value || s.opens q.pa q.core) then serveAdds part q.pa
    else accessEngine i q

/-- The allocations, frees and spawns of an operation (R44, R225). -/
def serveRequests (d : Deferred) : Mv := .look fun s =>
  let heap := s.net.heap.filter fun q => d.owns q.dest
  let spawns := s.net.spawns.filter fun q => d.owns q.dest
  Mv.seq [
    upNet fun n => { n with
      spawns := n.spawns.filter fun q => !d.owns q.dest },
    Mv.each heap fun q => .look fun s =>
      serveHeap (s.net.heap.findIdx fun x => d.owns x.dest) q,
    Mv.each spawns serveSpawn]

/-! ### What crosses into cores -/

/-- Messages that a predicate selects arrive at the cores of deterministic partitions, in the order they were sent
(R341). -/
def deliverMsgs (sel : NetMsg → Bool) : Mv := .look fun s =>
  let due (m : NetMsg) : Bool := sel m && s.detCore m.core
  Mv.seq [
    upNet fun n => { n with msgs := n.msgs.filter fun m => !due m },
    Mv.each (s.net.msgs.filter due) arriveMsg]

/-- Remote writes that a predicate selects land (R341). -/
def landRemotes (sel : Remote → Bool) : Mv := .look fun s =>
  Mv.each (s.net.remotes.filter fun r => sel r && r.op.writes && s.detCore r.target) fun r => .look fun s =>
    match s.net.remotes.zipIdx.find? fun x => x.1.id == r.id with
    | some (r, i) => remoteAccess i r
    | none => .done

/-- A multicast store reaches those of its members that still wait, by rising core (R205, R341). -/
def landMcast (id : Nat) : Mv := .look fun s =>
  match s.net.mcasts.find? fun m => m.id == id with
  | some m => Mv.when m.data.isSome (Mv.each (m.waiting.insertionSort (· ≤ ·)) fun core => .look fun s =>
      match s.net.mcasts.find? fun m => m.id == id with
      | some m => memberWrite m core
      | none => .done)
  | none => .done

/-- The ABORT requests of a partition that a predicate selects are served (R262, R341). -/
def serveAborts (part : Nat) (sel : AbortReq → Bool) : Mv := .look fun s =>
  let due (q : AbortReq) : Bool := q.part == part && sel q
  (upNet fun n => { n with aborts := n.aborts.filter fun q => !due q }).andThen
    (Mv.each (s.net.aborts.filter due) serveAbort)

/-- The handlers of the counters of a partition's cores that have reached 0 start, by rising core (R269, R341). -/
def startHandlers (part : Nat) : Mv := .look fun s =>
  Mv.each (s.cores.filter fun c => s.partOf c.1 == some part && !isKernel c.1) fun c =>
    Mv.each c.2.due fun d => startHandler c.1 d.1

/-- Applying one operation (R44, R341): what it wrote into other cores, the ring it began, its command's deliveries, its
held request, its ABORT, its messages. -/
def applyDeferred (part : Nat) (d : Deferred) : Mv := .look fun s =>
  let mcasts := (s.net.mcasts.filter fun m => d.owns m.dest).map (·.id)
  let rings := s.net.rings.filter fun g => (g.joined.head?).any fun m => m.hid == d.hid && m.tid == d.tid && m.seq == d.seq
  let cmds := s.net.cmds.filter fun q => d.owns q.dest && q.started
  Mv.seq [
    landRemotes fun r => r.hid == d.hid && r.tid == d.tid && r.seq == d.seq,
    Mv.each mcasts landMcast,
    Mv.each rings fun g => startRing g.id,
    Mv.each cmds landRest,
    Mv.each (s.net.reqs.filter d.ownsReq) (serveReq part d),
    serveAtom part d,
    serveRequests d,
    serveAborts part fun q => q.dest.any d.owns,
    deliverMsgs fun m => (m.status.any d.owns) || (m.mcast.any mcasts.contains)]

/-- Something of an operation is still to be applied. -/
def State.leftOf (s : State) (d : Deferred) : Bool :=
  s.net.reqs.any (fun q => d.held && d.ownsReq q) || s.net.atoms.any (fun q => d.held && d.owns q.dest && !q.widen)
    || s.net.cmds.any (fun q => d.owns q.dest) || s.net.heap.any (fun q => d.owns q.dest)
    || s.net.rings.any (fun g => g.joined.any fun m => m.hid == d.hid && m.tid == d.tid && m.seq == d.seq)

/-! ### Commits, re-executions, loops, placements -/

/-- The ended task that commits next: the earliest timestamp, then the lowest core (R39, R341). -/
def State.nextCommit (s : State) (part : Nat) (tried : List Nat) : Option (Nat × Task) :=
  let l := s.tasks.filter fun t => t.2.part == part && !isKernel t.2.core && !tried.contains t.1 && s.mayCommit t.1 t.2
  l.foldl (fun best t => match best with
    | none => some t
    | some b => if t.2.ts.toNat < b.2.ts.toNat ∨ (t.2.ts = b.2.ts ∧ t.2.core < b.2.core) then some t else best) none

/-- Commits in order, while a task that has not been tried may commit (R341). -/
def commitAll (part : Nat) : Nat → List Nat → Mv
  | 0, _ => .done
  | n + 1, tried => .look fun s =>
    match s.nextCommit part tried with
    | some (tid, t) => (commitTask tid t).andThen (commitAll part n (tid :: tried))
    | none => .done

/-- Placements by one dispatcher or controller, each delivered as it is made, until none is possible (R44). -/
def placeAll (place : Mv) : Nat → Mv
  | 0 => .done
  | n + 1 => .look fun s => place.andThen (.look fun s' =>
      if s.net.msgs.length < s'.net.msgs.length then
        (arriveAt (s'.net.msgs.length - 1)).andThen (placeAll place n)
      else .done)

/-- Activations that the cores of a cluster can hold at once. -/
def clusterRoom : Nat := 128 * (2 + 4 * inboxEntries)

/-- The loop of a partition moves on: a window's end, the next window, hold lists (R318, R320, R341). -/
def loopBoundary (part : Nat) : Mv := Mv.seq [
  buildHolds part,
  finishWindow part,
  .look fun s => match (s.part? part).bind (·.loop) with
    | some l => Mv.when (!l.active && !l.error && !(l.retry.isEmpty && decide (l.n ≤ l.next))) (startWindow part l)
    | none => .done]

/-- The destination register of a POLLQ that a half holds in its replay queue. -/
def pollDest (h : Half) (seq : Nat) : Option Nat :=
  match h.replay.find? fun e => e.seq == seq with
  | some e => (match decode [e.p0, e.p1] with | .ok (.pollq f, _) => some f.r.d.toNat | _ => none)
  | none => none

/-- POLLQ is served last (R257). -/
def servePoll (d : Deferred) : Mv := .look fun s =>
  if d.held && decide ((s.half d.hid).tid = d.tid) then
    match pollDest (s.half d.hid) d.seq with
    | some r => sendFill ⟨d.hid, d.tid, d.seq, .s r (s.core (coreOf d.hid)).poll, 0, none, false, none, none⟩
    | none => .done
  else .done

/-- The next quantum begins (R332, R340, R342): the operations that are done leave, QPOS reads 0, every blocked half
tries again. -/
def nextQuantum (part : Nat) (served : List Deferred) : Mv := .look fun s => Mv.seq [
  .one (.deferred (s.deferred.filter fun d => !served.contains d || s.leftOf d)),
  Mv.each (s.cores.filter fun c => s.partOf c.1 == some part) (fun c => upCore c.1 fun c => { c with qpos := 0 }),
  upPart part fun p => { p with quanta := p.quanta + 1 },
  Mv.each (s.clusters.filter fun c => c.2.part == some part) (fun c => countPerf c.1 0x0D 1),
  Mv.each (s.halves.filter fun h => s.partOf (coreOf h.1) == some part && decide (h.2.occ = .live)) fun h =>
    upHalf h.1 fun h => { h with block := match h.block with
      | .waitt x => .waitt x
      | .jibSet => .jibSet
      | .fetch => .fetch
      | _ => .none }]

/-- Applying a boundary (R44, R341; log 37). -/
def boundary (part : Nat) : Mv := .look fun s =>
  let order := s.boundaryOrder part
  let clusters := s.clusters.filter fun c => c.2.part == some part
  let reefs := match s.part? part with | some p => p.reefs.filter fun r => r.2.state == 2 | none => []
  Mv.seq [
    Mv.each (s.cores.filter fun c => s.partOf c.1 == some part && !isKernel c.1) (fun c =>
      Mv.each c.2.ingress fun m => offerHeld c.1 m.pri),
    Mv.each order (applyDeferred part),
    landRemotes fun r => s.partOf r.target == some part,
    Mv.each (s.net.gangs.filter fun g => g.part == part) (fun g => startGang g.id),
    serveAborts part fun _ => true,
    startHandlers part,
    deliverMsgs fun m => s.partOf m.core == some part,
    commitAll part s.tasks.length [],
    Mv.each reefs fun r => reexecute part r.1,
    Mv.each (List.range s.net.barriers.length) (fun i => Mv.when ((ith s.net.barriers i).any fun b => s.barrierPart b == part)
      (completeGeneration i)),
    loopBoundary part,
    Mv.each clusters fun c => Mv.each c.2.launches fun l => placeAll (placeTask (8 * c.1 + l.1)) clusterRoom,
    placeAll (placeBody part) (clusterRoom * clusters.length),
    deliverMsgs fun m => s.partOf m.core == some part,
    Mv.each order servePoll,
    nextQuantum part order]

/-- R44, R341. QUANTUM_BOUNDARY. -/
def execQuantumBoundary (s : State) : Host.Outcome State Fault Refusal :=
  perform (.look fun s => match s.part? s.data.n with
    | some p => Mv.when (s.boundaryDue s.data.n p) (boundary s.data.n)
    | none => .done) s

end Sys2Proof.Machine
end

