-- ==== Sys2Proof/Machine/SafeSend.lean ====
section
/-! DEFINITION. The sending of a direct operation that waited for its task to be safe (spec/02, R38; spec/12, R229). -/
namespace Sys2Proof.Machine

/-- The meaning of an instruction that is a direct operation, or may become one (R38, R203); nothing for any other. -/
def sendDirect (i : Instr) (s : State) : Host.Outcome State Fault Refusal :=
  match i with
  | .str f => execStr f s
  | .puthL f => execPuthL f s
  | .puthX f => execPuthX f s
  | .sts f => execSts f s
  | .stsv f => execStsv f s
  | .strel f => execStrel f s
  | .stsm f => execStsm f s
  | .atom f => execAtom f s
  | .red f => execRed f s
  | .atomr f => execAtomr f s
  | .redr f => execRedr f s
  | .fence m f => execFence m f s
  | .rot f => execRot f s
  | .copy f => execCopy f s
  | .ecenc f => execEcenc f s
  | .ecrec f => execEcrec f s
  | .send f => execSend f s
  | .reply f => execReply f s
  | .sendm f => execSendm f s
  | .launchL f => execLaunchL f s
  | .launchX f => execLaunchX f s
  | .spawnL f => execSpawnL f s
  | .spawnX f => execSpawnX f s
  | .abort f => execAbort f s
  | .abortX f => execAbortX f s
  | .rlbegin f => execRlbegin f s
  | .reef f => execReef f s
  | .reefx f => execReefx f s
  | _ => .next s

/-- R38. TASK_SAFE_SEND: the half's direct operation, which found its task not yet safe, takes the commit slot and is
sent now that the task is the next of its timestamp. -/
def execTaskSafeSend (s : State) : Host.Outcome State Fault Refusal :=
  let hid := s.data.n
  if (s.half hid).block = .safe && s.directReady (s.half hid).tid then
    match nextTurn s hid with
    | .instr i => sendDirect i { s with cur := hid }
    | .act _ => .next s
  else .next s

end Sys2Proof.Machine
end

