-- ==== Sys2Proof/Machine/Schedule.lean ====
section
/-! DEFINITION. Which agent moves when the agenda names none (log 2): the halves that hold a task and the events
whose cause is pending take turns by the counter of free values. -/
namespace Sys2Proof.Machine

/-- An event with the number it happens to. -/
def ev (i : Instr) (n : Nat) : Sched := .event i { EventData.none with n := n }

/-- An event with two numbers. -/
def ev2 (i : Instr) (n m : Nat) : Sched := .event i { EventData.none with n := n, m := m }

/-- The positions of a list. -/
def indices {α : Type} (l : List α) : List Nat := List.range l.length

/-- The turns that halves may take. -/
def halfTurns (s : State) : List Sched :=
  s.halves.flatMap fun x =>
    let h := x.2
    (if h.occ = .live then [.issue x.1 .clean, ev .codeFetch x.1] else [])
    ++ (if h.traps.isEmpty then [] else [ev .trapDelivery x.1])
    ++ (match h.block with
        | .safe => [ev .taskSafeSend x.1]
        | .waitt _ => [ev .waittExpire x.1]
        | _ => [])
    ++ (match h.occ with
        | .draining => [ev .saveComplete x.1]
        | .filling => [ev .restoreComplete x.1]
        | .live => [ev .wdog x.1, ev .pdlForcedSave x.1]
        | .free => [])

/-- The turns of tasks out of their halves: a save's restore, a swapped team's return, an ended task's commit. -/
def taskTurns (s : State) : List Sched :=
  s.tasks.flatMap fun x =>
    match x.2.life with
    | .saved => [0, 1].flatMap fun i => [ev .restoreComplete (2 * x.2.core + i), ev2 .teamRestore x.1 (2 * x.2.core + i)]
    | .ended => [ev .commitRequest x.1]
    | _ => []

/-- The turns of cores: activations and messages held at ingress. -/
def coreTurns (s : State) : List Sched :=
  s.cores.flatMap fun x =>
    (if x.2.queued.isEmpty then [] else
      [ev .taskActivation (2 * x.1), ev .taskActivation (2 * x.1 + 1)])
    ++ (if x.2.ingress.isEmpty then [] else [0, 1, 2, 3].map fun p => .event .inboxAccept { EventData.none with n := x.1, m := p, yes := true })
    ++ x.2.due.map (fun a => ev2 .arrivalCounterZero x.1 a.1)
    ++ (if x.2.mops.isEmpty then [] else
        x.2.mops.flatMap fun m => [ev .mmulLoadPhase m.id, ev .mmulComputeDone m.id])

/-- The turns of what is in flight. -/
def netTurns (s : State) : List Sched :=
  let n := s.net
  (indices n.fills).map (fun i => ev .registerFill i)
  ++ (indices n.reqs).flatMap (fun i => [ev .translationRequest i, ev .pageWalkComplete i,
        ev .homeAccess i, ev .probeRefusal i, ev .pageFaultPost i])
  ++ (indices n.remotes).map (fun i => ev .remoteScratchpadAccess i)
  ++ (List.range (n.msgs.length + n.stCmds.length)).map (fun i => ev .inboxAccept i)
  ++ n.mcasts.flatMap (fun m => m.waiting.map (fun c => ev2 .stsmMemberWrite m.id c) ++ [ev .stsmAnswerMerge m.id])
  ++ n.cmds.flatMap (fun c => [ev .engineCommandStart c.engine, .event .engineBytesLand { EventData.none with n := c.id, k := 2 ^ 32 },
        ev .engineCommandComplete c.id])
  ++ (indices n.atoms).flatMap (fun i => [ev .atomicEngineRequest i, ev .widen i])
  ++ (indices n.replies).map (fun i => ev .atomrReply i)
  ++ (indices n.heap).map (fun i => ev .heapRequest i)
  ++ (indices n.launches).map (fun i => ev .launchRequest i)
  ++ (indices n.spawns).map (fun i => ev .spawnAccept i)
  ++ (indices n.aborts).map (fun i => ev .abortRequest i)
  ++ (indices n.loops).map (fun i => ev .ratlineRequest i)
  ++ n.gangs.flatMap (fun g => [ev .gangStart g.id, ev .gangComplete g.id])
  ++ n.rings.map (fun g => ev .ringStart g.id)
  ++ (indices n.barriers).map (fun i => ev .barrierGenerationComplete i)

/-- The turns of stations, dispatchers, loaders, ratline controllers, the mapper and the Stays. -/
def unitTurns (s : State) : List Sched :=
  s.stations.flatMap (fun x =>
    (match x.2.cmds.head? with
        | some c => [ev (match c.opcode with
            | 1 => .invpage | 2 => .invasid | 3 => .invall | 4 => .resume | 5 => .rangew | _ => .rangeinv) x.1]
        | none => []))
  ++ s.clusters.flatMap (fun x =>
      x.2.launches.flatMap (fun l => [ev .taskPlacement (8 * x.1 + l.1), ev .launchEndSweep (8 * x.1 + l.1),
        ev .teamSwapOut (8 * x.1 + l.1)])
      ++ x.2.jibWanted.map (fun w => ev2 .jibSetResident x.1 w.1))
  ++ s.parts.flatMap (fun p => match p.2.loop with
      | some _ => [ev .ratlineWindowStart p.1, ev .taskPlacement (256 + p.1), ev .holdListBuild p.1,
          ev .ratlineLoopEnd p.1]
      | none => [])
  ++ s.parts.flatMap (fun p => (if p.2.image.det then [ev .quantumBoundary p.1] else [])
      ++ (p.2.reefs.filter fun r => r.2.state == 2).map (fun r => ev2 .reefReexecution p.1 r.1)
      ++ [ev .managementPagePoll p.1])
  ++ (List.range 32).flatMap (fun i => if s.mf0.queues.isEmpty then [] else
      [ev .slotSchedule i, ev .launchQueueServe i, ev .overrun i, ev .slotBusyTimeout i])
  ++ s.mf0.queues.map (fun q => ev .queuePeriodStart q.1)
  ++ (if s.fabric.booted then [] else [ev .powerOnBringUp 0])
  ++ (match s.fabric.decided with
      | (8, n) :: _ => [ev .computeDieLoss n]
      | (9, n) :: _ => [ev .mfDieLoss n]
      | (_, n) :: _ => [ev .packageLoss n]
      | [] => [])
  ++ (indices s.fabric.votes).map (fun i => ev .voteTimeout i)

/-- Every turn that may be taken now. -/
def turns (s : State) : List Sched := netTurns s ++ halfTurns s ++ taskTurns s ++ coreTurns s ++ unitTurns s

/-- The agent that moves when the agenda is empty (log 2). -/
def pick (s : State) : Sched :=
  let l := turns s
  l.getD (s.free % l.length) (.issue s.cur .clean)

/-- The agent that moves now, and the machine with it taken off the agenda. -/
def takeTurn (s : State) : Sched × State :=
  match s.agenda with
  | x :: rest => (x, { s with agenda := rest })
  | [] => (pick s, s)

end Sys2Proof.Machine
end

