-- ==== Sys2Proof/Machine/Arbiter.lean ====
section
/-! DEFINITION. The operands of every instruction in one table (spec/04, R62, R63). -/
namespace Sys2Proof.Machine

/-! ### Operands -/

/-- The registers of a format A, I or S instruction, or of a system one: k[K], the sources in the order of their
fields, the destinations (R62, R63, R104 to R124, R289, R299, R332 to R338). -/
def operandsA : Instr → Option Spec
  | .add f | .sub f | .and f | .or f | .xor f | .andn f | .shl f | .shr f | .sar f | .rol f | .min f | .max f | .minn f
  | .maxn f | .mul f | .mulh f | .mulhn f | .div f | .divn f | .rem f | .remn f | .gatew f | .objw f | .objr f | .grpw f
  | .qmap f | .jload f | .ssav f | .srst f | .ipi f => some (specAB f)
  | .clz f | .popc f | .gater f | .jbind f | .alloc f => some (specA f)
  | .ceq f | .cne f | .clt f | .cle f | .cltn f | .clen f | .ctst f => some (specCmp f)
  | .addi f | .andi f | .ori f | .xori f => some (specI f)
  | .shli f | .shri f | .sari f => some ⟨none, true, [⟨1, .s f.a.toNat, f.wa⟩], [.s f.d.toNat]⟩
  | .cmpi f => some ⟨none, true, [⟨1, .s f.a.toNat, f.wa⟩], [.k (f.d.toNat % 8)]⟩
  | .kand f | .kor f | .kxor f =>
    some ⟨some f.k, true, [⟨1, .k (f.a.toNat % 8), f.wa⟩, ⟨2, .k (f.b.toNat % 8), f.wb⟩], [.k (f.d.toNat % 8)]⟩
  | .knot f => some ⟨some f.k, true, [⟨1, .k (f.a.toNat % 8), f.wa⟩], [.k (f.d.toNat % 8)]⟩
  | .kmovs f => some ⟨some f.k, true, [⟨1, .s f.a.toNat, f.wa⟩], [.k (f.d.toNat % 8)]⟩
  | .kmovk f | .kpopc f | .kfirst f => some ⟨some f.k, true, [⟨1, .k (f.a.toNat % 8), f.wa⟩], [.s f.d.toNat]⟩
  | .br f | .loop f | .vbr f => some ⟨some f.k, false, [], []⟩
  | .jmp _ => some ⟨none, false, [], []⟩
  | .call _ => some ⟨none, false, [], [.s 31]⟩
  | .callr f => some ⟨some f.k, true, [⟨1, .s f.a.toNat, f.wa⟩], [.s 31]⟩
  | .jr f | .crw f | .free f | .waitt f => some ⟨some f.k, true, [⟨1, .s f.a.toNat, f.wa⟩], []⟩
  | .ret f => some ⟨some f.k, true, [⟨0, .s 31, false⟩], []⟩
  | .endT f | .yield f | .trap f | .tret f | .bkpt f | .fence _ f => some (specK f)
  | .crr f => some ⟨some f.k, true, [], [.s f.d.toNat]⟩
  | .crx f => some ⟨some f.k, true, [⟨1, .s f.a.toNat, f.wa⟩], [.s f.d.toNat]⟩
  | .ctrr f | .ctrw f =>
    some ⟨some f.k, true, if indexed (f.b.toNat % 32) then [⟨1, .s f.a.toNat, f.wa⟩] else [], [.s f.d.toNat]⟩
  | .time f => some ⟨some f.k, true, [], if f.b.getLsbD 0 then [.s f.d.toNat, .s (f.d.toNat + 1)] else [.s f.d.toNat]⟩
  | .jibA _ f => some ⟨some f.k, false, [], []⟩
  | .jibL _ f => some ⟨some f.r.k, false, [], []⟩
  | .nop | .pfh _ | .prio _ | .alignh _ | .hint1 _ | .hint2 _ _ | .hint3 _ _ _ => some ⟨none, false, [], []⟩
  | _ => none

/-- The registers of a vector or matrix instruction (R125 to R177). -/
def operandsV : Instr → Option Spec
  | .vadd f | .vsub f | .vmul f | .vmin f | .vmax f | .vand f | .vor f | .vxor f | .vshl f | .vshr f | .vsar f | .vmulh f =>
    some (specV f [vsrc 1 f.r.a.toNat f.r.wa, bsrc f])
  | .vfma f => some (specV f [vsrc 1 f.r.a.toNat f.r.wa, bsrc f, vsrc 3 f.c.toNat f.wc])
  | .vabs f | .vneg f | .vscan f | .vsort f | .vsparse f | .vunsparse f | .vexp2 f | .vlog2 f | .vrcp f | .vrsq f
  | .vtanh f | .vmov f => some (specV f [vsrc 1 f.r.a.toNat f.r.wa])
  | .vsel f => some (specV f [vsrc 1 f.r.a.toNat f.r.wa, bsrc f, ⟨3, .k (f.c.toNat % 8), f.wc⟩])
  | .vwadd f | .vwsub f | .vwmul f | .vwfma f | .vmerge f =>
    some ⟨some f.r.k, false, [vsrc 1 f.r.a.toNat f.r.wa, vsrc 2 f.r.b.toNat f.r.wb], vgroup f.r.d.toNat 2⟩
  | .vnarrow f => some ⟨some f.r.k, false,
      (List.range (typeWidth f.t / typeWidth (cvtDst f))).map fun r => vsrc 1 (f.r.a.toNat + r) f.r.wa, [.v f.r.d.toNat]⟩
  | .vcvt f => some ⟨some f.r.k, false, [vsrc 1 f.r.a.toNat f.r.wa],
      vgroup f.r.d.toNat (typeWidth (cvtDst f) / typeWidth f.t)⟩
  | .vdot4 f => some (specV f [vsrc 1 f.r.a.toNat f.r.wa, vsrc 2 f.r.b.toNat f.r.wb, vsrc 3 f.c.toNat f.wc])
  | .vcmp f | .vtest f =>
    some ⟨some f.r.k, false, [vsrc 1 f.r.a.toNat f.r.wa, vsrc 2 f.r.b.toNat f.r.wb], [.k (f.r.d.toNat % 8)]⟩
  | .vredsum f | .vredmax f | .vredmin f | .vredand f | .vredor f =>
    some ⟨some f.r.k, false, [vsrc 1 f.r.a.toNat f.r.wa], [.s f.r.d.toNat]⟩
  | .vperm f => some (specV f (vsrc 1 f.r.a.toNat f.r.wa ::
      (List.range (permRegs (typeWidth f.t))).map fun r => vsrc 2 (f.r.b.toNat + r) f.r.wb))
  | .vslide f | .vbcast f => some (specV f (slideSrcs f))
  | .viota f => some (specV f [])
  | .vcompress f | .vexpand f => some (specV f [vsrc 1 f.r.a.toNat f.r.wa, ⟨3, .k (f.c.toNat % 8), f.wc⟩])
  | .vzip f | .vunzip f | .vsearch f => some (specV f [vsrc 1 f.r.a.toNat f.r.wa, vsrc 2 f.r.b.toNat f.r.wb])
  | .vsplat f => some (specV f [⟨1, .s f.r.a.toNat, f.r.wa⟩])
  | .vins f => some (specV f (⟨1, .s f.r.a.toNat, f.r.wa⟩ ::
      (if f.m.getLsbD 1 then [⟨2, .s f.r.b.toNat, f.r.wb⟩] else [])))
  | .vext f => some ⟨some f.r.k, false, slideSrcs f, [.s f.r.d.toNat]⟩
  | .mmaL f | .mmarL f | .mmagL f | .mmagrL f =>
    some (specAcc f [⟨1, .s f.r.a.toNat, f.r.wa⟩, ⟨2, .s f.r.b.toNat, f.r.wb⟩])
  | .mmaX f | .mmarX f | .mmagX f | .mmagrX f =>
    some (specAcc f.l [⟨1, .s f.l.r.a.toNat, f.l.r.wa⟩, ⟨2, .s f.l.r.b.toNat, f.l.r.wb⟩])
  | .mzero f | .mchk f | .mtrans f | .msmax f | .mmask f | .mtree f => some (specAcc f [])
  | .mload f | .mdrain f | .mexp f => some (specAcc f [⟨1, .s f.r.a.toNat, f.r.wa⟩])
  | .mside f => some (if f.sc = 0 then ⟨some f.r.k, false, [], [.a (accD f), .v f.r.b.toNat]⟩
      else specAcc f [⟨2, .v f.r.b.toNat, f.r.wb⟩])
  | .mscale f => some (specAcc f [⟨1, .a (f.r.a.toNat % 4), f.r.wa⟩])
  | _ => none

/-- The registers of a memory, message or task instruction (R195 to R224, R253 to R270, R325 to R330). -/
def operandsM : Instr → Option Spec
  | .movl _ f | .movlHi _ f => some ⟨some f.l.r.k, true, [], [.s f.l.r.d.toNat]⟩
  | .leaL _ f => some ⟨some f.r.k, true, addrSrcs f, [.s f.r.d.toNat]⟩
  | .leaX _ f => some ⟨some f.l.r.k, true, addrSrcs f.l, [.s f.l.r.d.toNat]⟩
  | .ld f | .ldr f | .lds f | .lda f => some ⟨some f.r.k, true, addrSrcs f, [.s f.r.d.toNat]⟩
  | .ldv f | .ldsv f => some ⟨some f.r.k, false, addrSrcs f, [.v f.r.d.toNat]⟩
  | .ldk f => some ⟨some f.r.k, true, addrSrcs f, [.k (f.r.d.toNat % 8)]⟩
  | .st f | .str f | .sts f | .strel f | .puthL f => some ⟨some f.r.k, true, addrSrcs f ++ [srcC f], []⟩
  | .puthX f => some ⟨some f.l.r.k, true, addrSrcs f.l ++ [srcC f.l], []⟩
  | .stv f | .stsv f => some ⟨some f.r.k, false, addrSrcs f ++ [⟨3, .v f.c.toNat, f.wc⟩], []⟩
  | .stk f => some ⟨some f.r.k, true, addrSrcs f ++ [⟨3, .k (f.c.toNat % 8), f.wc⟩], []⟩
  | .stsm f => some ⟨some f.r.k, true, cellSrcs f ++ [⟨3, .v f.c.toNat, f.wc⟩], [.s f.r.d.toNat]⟩
  | .atom f | .atomr f => some ⟨some f.r.k, true, cellSrcs f ++ [srcC f], [.s f.r.d.toNat]⟩
  | .red f | .redr f => some ⟨some f.r.k, true, cellSrcs f ++ [], []⟩
  | .rot f | .pft f => some ⟨some f.r.k, true, cellSrcs f, []⟩
  | .copy f | .ecenc f | .ecrec f => some (engSpec f)
  | .rlock f | .runlock f => some ⟨some f.r.k, true, cellSrcs f, [.s f.r.d.toNat]⟩
  | .send f | .sendm f =>
    some ⟨some f.r.k, true, ⟨1, .s f.r.a.toNat, f.r.wa⟩ :: paySrcs f ++ [srcC f], [.s f.r.d.toNat]⟩
  | .reply f => some ⟨some f.r.k, true, paySrcs f ++ [srcC f], [.s f.r.d.toNat]⟩
  | .recv f => some ⟨some f.r.k, true, [], (List.range 7).map fun j => .s (j + 1)⟩
  | .pollq f => some ⟨some f.r.k, true, [], [.s f.r.d.toNat]⟩
  | .spawnL f | .launchL f => some ⟨some f.r.k, true, taskSrcs f, [.s f.r.d.toNat]⟩
  | .spawnX f | .launchX f => some ⟨some f.l.r.k, true, taskSrcs f.l, [.s f.l.r.d.toNat]⟩
  | .abort f | .reefx f | .reefq f | .rlstat f =>
    some ⟨some f.r.k, true, [⟨1, .s f.r.a.toNat, f.r.wa⟩], [.s f.r.d.toNat]⟩
  | .abortX f => some ⟨some f.l.r.k, true, [⟨1, .s f.l.r.a.toNat, f.l.r.wa⟩], [.s f.l.r.d.toNat]⟩
  | .reef f => some ⟨some f.r.k, true, [], [.s f.r.d.toNat]⟩
  | .bar f | .barw f | .waitc f | .rlend f => some ⟨some f.r.k, true, [], []⟩
  | .actrL f => some ⟨some f.r.k, true, if f.m.getLsbD 0 then [⟨1, .s f.r.a.toNat, f.r.wa⟩] else [], []⟩
  | .actrX f => some ⟨some f.l.r.k, true, if f.l.m.getLsbD 0 then [⟨1, .s f.l.r.a.toNat, f.l.r.wa⟩] else [], []⟩
  | .rlbegin f => some ⟨some f.r.k, true, cellSrcs f ++ [srcC f], [.s f.r.d.toNat]⟩
  | .rlrsv f => some ⟨some f.r.k, true, cellSrcs f, []⟩
  | .rlchk f => some ⟨some f.r.k, true, [], [.k (f.r.d.toNat % 8)]⟩
  | .rlld f => some ⟨some f.r.k, true, cellSrcs f, [.s f.r.d.toNat]⟩
  | .rlst f => some ⟨some f.r.k, true, cellSrcs f ++ [srcC f], []⟩
  | _ => none

/-- The registers of every instruction; an event has none. -/
def operands (i : Instr) : Option Spec := (operandsA i).orElse fun _ => (operandsV i).orElse fun _ => operandsM i

/-- The registers of an instruction, none where it is an event. -/
def operandsOf (i : Instr) : Spec := (operands i).getD ⟨none, false, [], []⟩

end Sys2Proof.Machine
end

