-- ==== Sys2Proof/Machine/Control.lean ====
section
/-! DEFINITION. Transfers between blocks, divergent branches, control registers, hints, and the instructions TRAP,
BKPT and TRET (spec/07_scalar_instructions.md R114 to R124; spec/04, R73; spec/05, R82 to R86; spec/15, R278 to
R281). -/
namespace Sys2Proof.Machine

/-! ### Transfers -/

/-- Whether the tested bit of k[K] and the sense bit make a format J branch taken (R65). -/
def branchTaken (f : FJ) (k : Mask) : Bool := bit0 k != f.clr

/-- The s31 link of a call: the parcel after it (R115). -/
def linkOf (c : Ctx) : Word := c.addr + 4

/-- The half after a call has written its link (R115, R117). -/
def linked (c : Ctx) (h : Half) : Half := (writeS h 31 (linkOf c)).supersede c.h.seq c.dsts

/-- Format J, testing k[K] (R65). -/
def specJ (f : FJ) : Spec := ⟨some f.k, false, [], []⟩

/-- R115. BR. -/
def execBr (f : FJ) (s : State) : Host.Outcome State Fault Refusal :=
  perform (issue (.br f) (specJ f) fun c =>
    if branchTaken f c.kmask then transfer c (jTarget c.addr f.off) id else notTaken c id) s

/-- R115. JMP. -/
def execJmp (f : FJ) (s : State) : Host.Outcome State Fault Refusal :=
  perform (issue (.jmp f) ⟨none, false, [], []⟩ fun c => transfer c (jTarget c.addr f.off) id) s

/-- R115. CALL. -/
def execCall (f : FJ) (s : State) : Host.Outcome State Fault Refusal :=
  perform (issue (.call f) ⟨none, false, [], [.s 31]⟩ fun c =>
    transfer c (jTarget c.addr f.off) (linked c)) s

/-- The count that LOOP leaves (R119). -/
def loopCount (lc : Word) : Word := if lc = 0 then 0 else lc - 1

/-- R119. LOOP. -/
def execLoop (f : FJ) (s : State) : Host.Outcome State Fault Refusal :=
  perform (issue (.loop f) (specJ f) fun c =>
    let lc := loopCount c.h.ctl.lc
    let count (h : Half) : Half := { h with ctl := { h.ctl with lc := lc } }
    if lc ≠ 0 && branchTaken f c.kmask then transfer c (jTarget c.addr f.off) count else notTaken c count) s

/-- A transfer to the address in a register (R114): bits [63:56] must be zero. -/
def transferTo (c : Ctx) (target : Word) (pre : Half → Half) : Mv :=
  if wbits target 63 56 ≠ 0 then raiseIssue c.hid .badtgt (target &&& word (2 ^ 56 - 1)) 0 else transfer c target pre

/-- R117. CALLR. -/
def execCallr (f : FA) (s : State) : Host.Outcome State Fault Refusal :=
  perform (issue (.callr f) ⟨some f.k, true, [⟨1, .s f.a.toNat, f.wa⟩], [.s 31]⟩ fun c =>
    transferTo c c.a (linked c)) s

/-- R117. JR. -/
def execJr (f : FA) (s : State) : Host.Outcome State Fault Refusal :=
  perform (issue (.jr f) ⟨some f.k, true, [⟨1, .s f.a.toNat, f.wa⟩], []⟩ fun c => transferTo c c.a id) s

/-- R117. RET. -/
def execRet (f : FA) (s : State) : Host.Outcome State Fault Refusal :=
  perform (issue (.ret f) ⟨some f.k, true, [⟨0, .s 31, false⟩], []⟩ fun c => transferTo c (readS c.h 31) id) s

/-- Whether a header stands at an address, for the checks of VBR (R58, R121). -/
inductive HeaderAt where
  | yes
  | no
  | fault (va : Nat)
  deriving DecidableEq, Repr

/-- The header test of R58; a refused fetch is left to the entry of the header (R184). -/
def State.headerAt (s : State) (core : Nat) (addr : Word) : HeaderAt :=
  if wbits addr 1 0 ≠ 0 then .no
  else match fetchParcel s core addr with
    | .ok p => if isHeaderParcel p then .yes else .no
    | .refused => .yes
    | .fault => .fault addr.toNat

/-- The reconvergence address of a block (R60, R121). -/
def reconvOf (h : Half) : Word := (h.hdr + (sx (hdrReconv h.hdrWord) <<< 2)) &&& word (2 ^ 56 - 1)

/-- R121. VBR. -/
def execVbr (f : FJ) (s : State) : Host.Outcome State Fault Refusal :=
  perform (issue (.vbr f) (specJ f) fun c => .look fun s =>
    let t := if f.clr then ~~~ c.kmask else c.kmask
    let taken := c.h.lanes &&& t
    let rest := c.h.lanes &&& ~~~ t
    let target := jTarget c.addr f.off
    let rc := reconvOf c.h
    let split : Mv :=
      if rest = 0 then transfer c target id
      else if 8 ≤ c.h.stack.length then raiseIssue c.hid .bound 0 0
      else notTaken c fun h => { h with lanes := rest, stack := ⟨rc, target, false, c.h.lanes, taken⟩ :: h.stack }
    let wait (va : Nat) (k : Mv) : Mv := if c.h.refusedAt.isSome then k else syncFault c.hid (s.party c.core) .fetch va
    if taken = 0 then notTaken c id
    else
      let second : Mv := match s.headerAt c.core rc with
        | .no => raiseIssue c.hid .badtgt rc 0
        | .fault va => wait va split
        | .yes => split
      match s.headerAt c.core target with
      | .no => raiseIssue c.hid .badtgt target 0
      | .fault va => wait va second
      | .yes => second) s

/-! ### TRAP, BKPT, TRET -/

/-- An instruction that retires and raises a trap (R279). -/
def retireTrap (c : Ctx) (cause : Cause) (info : Word) : Mv := Mv.seq [
  retireNow c.hid, advance c.hid c.len,
  raiseAll c.hid (⟨c.h.seq, cause, c.addr, 0, info, none, false⟩ :: stepTrap c)]

/-- R279. TRAP: the code is D. -/
def execTrap (f : FA) (s : State) : Host.Outcome State Fault Refusal :=
  perform (issue (.trap f) (specK f) fun c => retireTrap c .trapi (word f.d.toNat)) s

/-- R279. BKPT. -/
def execBkpt (f : FA) (s : State) : Host.Outcome State Fault Refusal :=
  perform (issue (.bkpt f) (specK f) fun c => retireTrap c .bkpt 0) s

/-- R280. TRET: the frame that it reads, where it may read one, after the code of the scratchpad has been heard (R185). -/
def execTret (f : FA) (s : State) : Host.Outcome State Fault Refusal :=
  perform (issue (.tret f) (specK f) fun c => .look fun s =>
    let h := s.half c.hid
    let fa := (readS h 30).toNat
    if h.ctl.trapd && s.quiet c.hid h && fa % 64 == 0 && frameFits h.ctl.stage (fa : Int)
    then heardIn c c.core [(fa, 0x1800)] (trapReturn c) else trapReturn c) s

/-! ### Control registers -/

/-- TASKID of a task: tag and index (R22, R85). -/
def taskIdOf (t : Task) : Word := word ((match t.tag with | some g => g.toNat | none => 0) * 2 ^ 32 + t.act.index.toNat)

/-- GANG.POS in [15:8]: 0xFF for no member; a position above 255 does not fit, and the spec states none for it
(log 23). -/
def gangWord (pos : Option Nat) (group : BitVec 8) (open_ : Word) : Word :=
  match pos with
  | none => word (0xFF00 + group.toNat)
  | some p => if p < 256 then word (p * 256 + group.toNat) else word (wbits open_ 7 0 * 256 + group.toNat)

/-- The value that reading a control register gives (R72, R83 to R86); `open_` is a free value. -/
def State.readCtl (s : State) (c : Ctx) (h : Half) (n : Nat) (open_ : Word) : Word :=
  let part := (s.partOf c.core).getD 0
  let kset (own : BitVec 32) (of : Part → BitVec 32) : Word :=
    if isKernel c.core then (match s.part? part with | some p => zx (of p) | none => zx own) else zx own
  match n with
  | 0 => h.ctl.fmta
  | 1 => h.ctl.fmtb
  | 2 => h.ctl.fmtc
  | 3 => h.ctl.scla
  | 4 => h.ctl.sclb
  | 5 => h.ctl.rmode
  | 6 => h.ctl.fflags
  | 7 => h.ctl.ftrap
  | 8 => h.ctl.lc
  | 9 => h.ctl.tvec
  | 10 => s.ssw c.hid h
  | 11 => word (b2n h.ctl.trapd)
  | 12 => taskIdOf c.task
  | 13 => zx c.task.ts
  | 14 => zx c.task.reef
  | 15 => word (s.asidOf part)
  | 16 => h.ctl.stage
  | 17 => h.ctl.ordst
  | 18 => gangWord (s.gangPos c.core h.ctl.gang.toNat) h.ctl.gang open_
  | 19 => h.ctl.abftp
  | 20 => kset h.ctl.quant (·.quant)
  | 21 => kset h.ctl.pdl (·.pdl)
  | 22 => kset h.ctl.wdog (·.wdog)
  | 23 => s.package.cap
  | 24 => h.ctl.dito
  | _ => 0

/-- The control registers after a write (R83 to R86, R124): reserved bits and read-only fields stay. -/
def writeCtl (c : Ctl) (n : Nat) (w : Word) : Ctl :=
  match n with
  | 0 => { c with fmta := w &&& 0x1F }
  | 1 => { c with fmtb := w &&& 0x1F }
  | 2 => { c with fmtc := w &&& 3 }
  | 3 => { c with scla := w &&& 0x3FFFF }
  | 4 => { c with sclb := w &&& 0x3FFFF }
  | 5 => { c with rmode := w &&& 1 }
  | 6 => { c with fflags := w &&& 0x3F }
  | 7 => { c with ftrap := w &&& 0x1F }
  | 8 => { c with lc := w }
  | 9 => { c with tvec := w &&& 0xFFFFFFFFFFFFFC }
  | 10 => { c with ss := w.getLsbD 7 }
  | 16 => { c with stage := w &&& 0x1FF0003F000 }
  | 18 => { c with gang := w.setWidth 8 }
  | 19 => { c with abftp := if wbits w 2 1 = 3 then w &&& 1 else w &&& 7 }
  | 24 => { c with dito := w &&& 0xFF }
  | _ => c

/-- A STAGE value that R86 accepts. -/
def stageOk (w : Word) : Bool :=
  let size := wbits w 40 32
  decide (1 ≤ size) && decide (size ≤ 64) && decide (wbits w 17 12 * 4096 + size * 4096 ≤ 0x40000)

/-- A write of STAGE traps BOUND (R86, R124). -/
def stageRefused (c : Ctx) (n : Nat) (w : Word) : Bool := n = 16 && (!stageOk w || !c.task.lines.isEmpty)

/-- Kernel-set registers: a write on a kernel core sets the partition's value, 0 storing the reset value (R124). -/
def writeKset (part n : Nat) (w : Word) : Mv :=
  let v : BitVec 32 := w.setWidth 32
  match n with
  | 20 => upPart part fun p => { p with quant := if v = 0 then 0x1000 else v }
  | 21 => upPart part fun p => { p with pdl := if v = 0 then 0x4E20 else v }
  | 22 => upPart part fun p => { p with wdog := if v = 0 then 0x1000000 else v }
  | _ => .done

/-- Everything that a write of a control register does. -/
def doWriteCtl (c : Ctx) (n : Nat) (w : Word) : Mv := .look fun s =>
  (upHalf c.hid fun h => { h with ctl := writeCtl h.ctl n w }).andThen
    (Mv.when (isKernel c.core) (writeKset ((s.partOf c.core).getD 0) n w))

/-- The read of FFLAGS or ORDST that has to wait (R82): it issues with what the register holds, takes in what earlier
instructions still set, and only readers of its result wait (R104). -/
def readLater (c : Ctx) (d n : Nat) : Mv := Mv.seq [
  sendFill ⟨c.hid, c.tid, c.h.seq, .s d (if n = 6 then c.h.ctl.fflags else c.h.ctl.ordst), 0, none, false, none, some n⟩,
  hold c fun h => markBusy h (.s d)]

/-- Reading a control register, with a free value where the spec leaves the value open. -/
def withCtl (c : Ctx) (n : Nat) (k : Word → Mv) : Mv := .look fun s =>
  let h := s.half c.hid
  if n = 18 && (match s.gangPos c.core h.ctl.gang.toNat with | some p => decide (256 ≤ p) | none => false)
  then withFree fun w => k (s.readCtl c h n w)
  else k (s.readCtl c h n 0)

/-- R123. CRR. -/
def execCrr (f : FA) (s : State) : Host.Outcome State Fault Refusal :=
  perform (issue (.crr f) ⟨some f.k, true, [], [.s f.d.toNat]⟩ fun c => .look fun s =>
    if s.ctlWait c.tid f.b.toNat none then readLater c f.d.toNat f.b.toNat
    else withCtl c f.b.toNat fun w => finish c fun h => writeS h f.d.toNat w) s

/-- R123, R124. CRW. -/
def execCrw (f : FA) (s : State) : Host.Outcome State Fault Refusal :=
  perform (issue (.crw f) ⟨some f.k, true, [⟨1, .s f.a.toNat, f.wa⟩], []⟩ fun c =>
    if stageRefused c f.b.toNat c.a then raiseIssue c.hid .bound 0 0
    else (doWriteCtl c f.b.toNat c.a).andThen (retire c)) s

/-- R123, R124. CRX. Its read waits as that of CRR does (R82, R104). A write of FFLAGS takes place as it issues, and what is
outstanding then ORs its flags into both the old value that it returns and the new one (log 100). -/
def execCrx (f : FA) (s : State) : Host.Outcome State Fault Refusal :=
  perform (issue (.crx f) ⟨some f.k, true, [⟨1, .s f.a.toNat, f.wa⟩], [.s f.d.toNat]⟩ fun c => .look fun s =>
    if stageRefused c f.b.toNat c.a then raiseIssue c.hid .bound 0 0
    else if s.ctlWait c.tid f.b.toNat none then (doWriteCtl c f.b.toNat c.a).andThen (readLater c f.d.toNat f.b.toNat)
    else withCtl c f.b.toNat fun w =>
      (doWriteCtl c f.b.toNat c.a).andThen (finish c fun h => writeS h f.d.toNat w)) s

/-! ### Hints -/

/-- A hint retires and changes no value (R73). -/
def hint (i : Instr) : Mv := issue i ⟨none, false, [], []⟩ retire

/-- R73. NOP. -/
def execNop (s : State) : Host.Outcome State Fault Refusal := perform (hint .nop) s

/-- R73. PFH: what it fetches ahead changes no value (log 13). -/
def execPfh (off : BitVec 19) (s : State) : Host.Outcome State Fault Refusal := perform (hint (.pfh off)) s

/-- R73. PRIO: network priority is timing (R73). -/
def execPrio (n : BitVec 2) (s : State) : Host.Outcome State Fault Refusal := perform (hint (.prio n)) s

/-- R73. ALIGNH. -/
def execAlignh (n : BitVec 4) (s : State) : Host.Outcome State Fault Refusal := perform (hint (.alignh n)) s

/-- R73. An unnamed hint of one parcel. -/
def execHint1 (p : BitVec 32) (s : State) : Host.Outcome State Fault Refusal := perform (hint (.hint1 p)) s

/-- R73. An unnamed hint of two parcels. -/
def execHint2 (p q : BitVec 32) (s : State) : Host.Outcome State Fault Refusal := perform (hint (.hint2 p q)) s

/-- R73. An unnamed hint of three parcels. -/
def execHint3 (p q r : BitVec 32) (s : State) : Host.Outcome State Fault Refusal := perform (hint (.hint3 p q r)) s

end Sys2Proof.Machine
end

