-- ==== Sys2Proof/Machine/Scalar.lean ====
section
/-! DEFINITION. The scalar, predicate and address instructions (spec/07_scalar_instructions.md R104 to R113). -/
namespace Sys2Proof.Machine

/-- A format A instruction that writes sD from A and B (R105, R106). -/
def scalarAB (i : Instr) (f : FA) (op : Word → Word → Word) : Mv :=
  issue i (specAB f) fun c => finish c fun h => writeS h f.d.toNat (op c.a c.b)

/-- A multiplication or division, whose result is not ready in the issue clk (R104). -/
def scalarLong (i : Instr) (f : FA) (op : Word → Word → Word) : Mv :=
  issue i (specAB f) fun c => finishLater c 0 false fun h => writeS h f.d.toNat (op c.a c.b)

/-- A format A instruction that writes sD from A (R105). -/
def scalarA (i : Instr) (f : FA) (op : Word → Word) : Mv :=
  issue i (specA f) fun c => finish c fun h => writeS h f.d.toNat (op c.a)

/-- A comparison that writes every bit of kD (R107). -/
def scalarCmp (i : Instr) (f : FA) (code : Nat) : Mv :=
  issue i (specCmp f) fun c => finish c fun h => writeK h (f.d.toNat % 8) (allBits (condHolds code c.a c.b))

/-- A format I instruction that writes sD from A and sext(IMM13) (R109). -/
def scalarImm (i : Instr) (f : FI) (op : Word → Word → Word) : Mv :=
  issue i (specI f) fun c => finish c fun h => writeS h f.d.toNat (op c.a (sx f.imm))

/-- A shift by an immediate amount (R110). -/
def scalarShift (i : Instr) (f : FS) (op : Word → Nat → Word) : Mv :=
  issue i ⟨none, true, [⟨1, .s f.a.toNat, f.wa⟩], [.s f.d.toNat]⟩ fun c =>
    finish c fun h => writeS h f.d.toNat (op c.a f.amt.toNat)

/-- kD from kA and kB (R111). -/
def predAB (i : Instr) (f : FA) (op : Mask → Mask → Mask) : Mv :=
  issue i ⟨some f.k, true, [⟨1, .k (f.a.toNat % 8), f.wa⟩, ⟨2, .k (f.b.toNat % 8), f.wb⟩], [.k (f.d.toNat % 8)]⟩
    fun c => finish c fun h => writeK h (f.d.toNat % 8) (op (readK h (f.a.toNat % 8)) (readK h (f.b.toNat % 8)))

/-- sD from kA (R111). -/
def predToS (i : Instr) (f : FA) (op : Mask → Word) : Mv :=
  issue i ⟨some f.k, true, [⟨1, .k (f.a.toNat % 8), f.wa⟩], [.s f.d.toNat]⟩ fun c =>
    finish c fun h => writeS h f.d.toNat (op (readK h (f.a.toNat % 8)))

/-- A 64-bit slice of a predicate replaced (R111). -/
def setSlice (m : Mask) (j : Nat) (w : Word) : Mask :=
  (m &&& ~~~ ((BitVec.allOnes 64).setWidth 1024 <<< (64 * j))) ||| (w.setWidth 1024 <<< (64 * j))

/-- A 64-bit slice of a predicate (R111). -/
def slice (m : Mask) (j : Nat) : Word := m.extractLsb' (64 * j) 64

/-- R105. ADD. -/
def execAdd (f : FA) (s : State) : Host.Outcome State Fault Refusal :=
  perform (scalarAB (.add f) f fun a b => a + b) s

/-- R105. SUB. -/
def execSub (f : FA) (s : State) : Host.Outcome State Fault Refusal :=
  perform (scalarAB (.sub f) f fun a b => a - b) s

/-- R105. AND. -/
def execAnd (f : FA) (s : State) : Host.Outcome State Fault Refusal :=
  perform (scalarAB (.and f) f fun a b => a &&& b) s

/-- R105. OR. -/
def execOr (f : FA) (s : State) : Host.Outcome State Fault Refusal :=
  perform (scalarAB (.or f) f fun a b => a ||| b) s

/-- R105. XOR. -/
def execXor (f : FA) (s : State) : Host.Outcome State Fault Refusal :=
  perform (scalarAB (.xor f) f fun a b => a ^^^ b) s

/-- R105. ANDN. -/
def execAndn (f : FA) (s : State) : Host.Outcome State Fault Refusal :=
  perform (scalarAB (.andn f) f fun a b => a &&& ~~~b) s

/-- R105. SHL. -/
def execShl (f : FA) (s : State) : Host.Outcome State Fault Refusal :=
  perform (scalarAB (.shl f) f fun a b => a <<< wbits b 5 0) s

/-- R105. SHR. -/
def execShr (f : FA) (s : State) : Host.Outcome State Fault Refusal :=
  perform (scalarAB (.shr f) f fun a b => a >>> wbits b 5 0) s

/-- R105. SAR. -/
def execSar (f : FA) (s : State) : Host.Outcome State Fault Refusal :=
  perform (scalarAB (.sar f) f fun a b => a.sshiftRight (wbits b 5 0)) s

/-- R105. ROL. -/
def execRol (f : FA) (s : State) : Host.Outcome State Fault Refusal :=
  perform (scalarAB (.rol f) f fun a b => a <<< wbits b 5 0 ||| a >>> (64 - wbits b 5 0)) s

/-- R105. MIN. -/
def execMin (f : FA) (s : State) : Host.Outcome State Fault Refusal :=
  perform (scalarAB (.min f) f fun a b => if a.slt b then a else b) s

/-- R105. MAX. -/
def execMax (f : FA) (s : State) : Host.Outcome State Fault Refusal :=
  perform (scalarAB (.max f) f fun a b => if a.slt b then b else a) s

/-- R105. MINN. -/
def execMinn (f : FA) (s : State) : Host.Outcome State Fault Refusal :=
  perform (scalarAB (.minn f) f fun a b => if a.ult b then a else b) s

/-- R105. MAXN. -/
def execMaxn (f : FA) (s : State) : Host.Outcome State Fault Refusal :=
  perform (scalarAB (.maxn f) f fun a b => if a.ult b then b else a) s

/-- R106. MUL. -/
def execMul (f : FA) (s : State) : Host.Outcome State Fault Refusal :=
  perform (scalarLong (.mul f) f fun a b => a * b) s

/-- R106. MULH. -/
def execMulh (f : FA) (s : State) : Host.Outcome State Fault Refusal :=
  perform (scalarLong (.mulh f) f fun a b => wordI (a.toInt * b.toInt / 2 ^ 64)) s

/-- R106. MULHN. -/
def execMulhn (f : FA) (s : State) : Host.Outcome State Fault Refusal :=
  perform (scalarLong (.mulhn f) f fun a b => word (a.toNat * b.toNat / 2 ^ 64)) s

/-- R106. DIV. -/
def execDiv (f : FA) (s : State) : Host.Outcome State Fault Refusal :=
  perform (scalarLong (.div f) f fun a b => if b = 0 then BitVec.allOnes 64 else wordI (a.toInt.tdiv b.toInt)) s

/-- R106. DIVN. -/
def execDivn (f : FA) (s : State) : Host.Outcome State Fault Refusal :=
  perform (scalarLong (.divn f) f fun a b => if b = 0 then BitVec.allOnes 64 else word (a.toNat / b.toNat)) s

/-- R106. REM. -/
def execRem (f : FA) (s : State) : Host.Outcome State Fault Refusal :=
  perform (scalarLong (.rem f) f fun a b => if b = 0 then a else wordI (a.toInt.tmod b.toInt)) s

/-- R106. REMN. -/
def execRemn (f : FA) (s : State) : Host.Outcome State Fault Refusal :=
  perform (scalarLong (.remn f) f fun a b => if b = 0 then a else word (a.toNat % b.toNat)) s

/-- R105. CLZ. -/
def execClz (f : FA) (s : State) : Host.Outcome State Fault Refusal :=
  perform (scalarA (.clz f) f fun a => word (leadingZeros 64 a.toNat)) s

/-- R105. POPC. -/
def execPopc (f : FA) (s : State) : Host.Outcome State Fault Refusal :=
  perform (scalarA (.popc f) f fun a => word (popCount 64 a.toNat)) s

/-- R107. CEQ. -/
def execCeq (f : FA) (s : State) : Host.Outcome State Fault Refusal :=
  perform (scalarCmp (.ceq f) f 0) s

/-- R107. CNE. -/
def execCne (f : FA) (s : State) : Host.Outcome State Fault Refusal :=
  perform (scalarCmp (.cne f) f 1) s

/-- R107. CLT. -/
def execClt (f : FA) (s : State) : Host.Outcome State Fault Refusal :=
  perform (scalarCmp (.clt f) f 2) s

/-- R107. CLE. -/
def execCle (f : FA) (s : State) : Host.Outcome State Fault Refusal :=
  perform (scalarCmp (.cle f) f 3) s

/-- R107. CLTN. -/
def execCltn (f : FA) (s : State) : Host.Outcome State Fault Refusal :=
  perform (scalarCmp (.cltn f) f 4) s

/-- R107. CLEN. -/
def execClen (f : FA) (s : State) : Host.Outcome State Fault Refusal :=
  perform (scalarCmp (.clen f) f 5) s

/-- R107. CTST. -/
def execCtst (f : FA) (s : State) : Host.Outcome State Fault Refusal :=
  perform (scalarCmp (.ctst f) f 6) s

/-- R109. ADDI. -/
def execAddi (f : FI) (s : State) : Host.Outcome State Fault Refusal :=
  perform (scalarImm (.addi f) f fun a b => a + b) s

/-- R109. ANDI. -/
def execAndi (f : FI) (s : State) : Host.Outcome State Fault Refusal :=
  perform (scalarImm (.andi f) f fun a b => a &&& b) s

/-- R109. ORI. -/
def execOri (f : FI) (s : State) : Host.Outcome State Fault Refusal :=
  perform (scalarImm (.ori f) f fun a b => a ||| b) s

/-- R109. XORI. -/
def execXori (f : FI) (s : State) : Host.Outcome State Fault Refusal :=
  perform (scalarImm (.xori f) f fun a b => a ^^^ b) s

/-- R110. SHLI. -/
def execShli (f : FS) (s : State) : Host.Outcome State Fault Refusal :=
  perform (scalarShift (.shli f) f fun a n => a <<< n) s

/-- R110. SHRI. -/
def execShri (f : FS) (s : State) : Host.Outcome State Fault Refusal :=
  perform (scalarShift (.shri f) f fun a n => a >>> n) s

/-- R110. SARI. -/
def execSari (f : FS) (s : State) : Host.Outcome State Fault Refusal :=
  perform (scalarShift (.sari f) f fun a n => a.sshiftRight n) s

/-- R108. CMPI. -/
def execCmpi (f : FI) (s : State) : Host.Outcome State Fault Refusal :=
  perform (issue (.cmpi f) ⟨none, true, [⟨1, .s f.a.toNat, f.wa⟩], [.k (f.d.toNat % 8)]⟩ fun c =>
    finish c fun h => writeK h (f.d.toNat % 8)
      (allBits (condHolds (f.imm.extractLsb' 10 3).toNat c.a (sx (f.imm.extractLsb' 0 10))))) s

/-- R111. KAND. -/
def execKand (f : FA) (s : State) : Host.Outcome State Fault Refusal :=
  perform (predAB (.kand f) f fun x y => x &&& y) s

/-- R111. KOR. -/
def execKor (f : FA) (s : State) : Host.Outcome State Fault Refusal :=
  perform (predAB (.kor f) f fun x y => x ||| y) s

/-- R111. KXOR. -/
def execKxor (f : FA) (s : State) : Host.Outcome State Fault Refusal :=
  perform (predAB (.kxor f) f fun x y => x ^^^ y) s

/-- R111. KNOT. -/
def execKnot (f : FA) (s : State) : Host.Outcome State Fault Refusal :=
  perform (issue (.knot f) ⟨some f.k, true, [⟨1, .k (f.a.toNat % 8), f.wa⟩], [.k (f.d.toNat % 8)]⟩ fun c =>
    finish c fun h => writeK h (f.d.toNat % 8) (~~~ readK h (f.a.toNat % 8))) s

/-- R111. KMOVS. -/
def execKmovs (f : FA) (s : State) : Host.Outcome State Fault Refusal :=
  perform (issue (.kmovs f) ⟨some f.k, true, [⟨1, .s f.a.toNat, f.wa⟩], [.k (f.d.toNat % 8)]⟩ fun c =>
    finish c fun h => writeK h (f.d.toNat % 8) (setSlice (readK h (f.d.toNat % 8)) (f.b.toNat % 16) c.a)) s

/-- R111. KMOVK. -/
def execKmovk (f : FA) (s : State) : Host.Outcome State Fault Refusal :=
  perform (predToS (.kmovk f) f fun m => slice m (f.b.toNat % 16)) s

/-- R111. KPOPC. -/
def execKpopc (f : FA) (s : State) : Host.Outcome State Fault Refusal :=
  perform (predToS (.kpopc f) f fun m => word (popCount 1024 m.toNat)) s

/-- R111. KFIRST. -/
def execKfirst (f : FA) (s : State) : Host.Outcome State Fault Refusal :=
  perform (predToS (.kfirst f) f fun m =>
    match lowestSet 1024 m.toNat with | some i => word i | none => BitVec.allOnes 64) s

/-- R112. MOVL without `.hi`. -/
def execMovl (min : BitVec 4) (f : FX) (s : State) : Host.Outcome State Fault Refusal :=
  perform (issue (.movl min f) ⟨some f.l.r.k, true, [], [.s f.l.r.d.toNat]⟩ fun c =>
    finish c fun h => writeS h f.l.r.d.toNat (if f.l.t.toNat = 5 then sx f.lit else zx f.lit)) s

/-- R112. MOVL.hi. -/
def execMovlHi (min : BitVec 4) (f : FX) (s : State) : Host.Outcome State Fault Refusal :=
  perform (issue (.movlHi min f) ⟨some f.l.r.k, true, [], [.s f.l.r.d.toNat]⟩ fun c =>
    finish c fun h => writeS h f.l.r.d.toNat (f.lit ++ (readS h f.l.r.d.toNat).setWidth 32)) s

/-- What LEA reads: B only with M[0] (R113). -/
def specLea (f : FL) : Spec :=
  ⟨some f.r.k, true, ⟨1, .s f.r.a.toNat, f.r.wa⟩ :: (if f.m.getLsbD 0 then [⟨2, .s f.r.b.toNat, f.r.wb⟩] else []),
    [.s f.r.d.toNat]⟩

/-- R113. LEA, format L. -/
def execLeaL (min : BitVec 4) (f : FL) (s : State) : Host.Outcome State Fault Refusal :=
  perform (issue (.leaL min f) (specLea f) fun c =>
    finish c fun h => writeS h f.r.d.toNat (leaAddr f (sx f.obj) c.a c.b)) s

/-- R113. LEA, format X. -/
def execLeaX (min : BitVec 4) (f : FX) (s : State) : Host.Outcome State Fault Refusal :=
  perform (issue (.leaX min f) (specLea f.l) fun c =>
    finish c fun h => writeS h f.l.r.d.toNat (leaAddr f.l (sx f.lit) c.a c.b)) s

end Sys2Proof.Machine
end

