-- ==== Sys2Proof/Machine/Dispatch.lean ====
section
/-! DEFINITION. The meaning of every instruction and every event: one arm each. -/
namespace Sys2Proof.Machine

/-- What an instruction or an event does to the machine. -/
def exec (i : Instr) (s : State) : Host.Outcome State Fault Refusal :=
  match i with
  | .add f => Sys2Proof.Machine.execAdd f s
  | .sub f => Sys2Proof.Machine.execSub f s
  | .and f => Sys2Proof.Machine.execAnd f s
  | .or f => Sys2Proof.Machine.execOr f s
  | .xor f => Sys2Proof.Machine.execXor f s
  | .andn f => Sys2Proof.Machine.execAndn f s
  | .shl f => Sys2Proof.Machine.execShl f s
  | .shr f => Sys2Proof.Machine.execShr f s
  | .sar f => Sys2Proof.Machine.execSar f s
  | .rol f => Sys2Proof.Machine.execRol f s
  | .min f => Sys2Proof.Machine.execMin f s
  | .max f => Sys2Proof.Machine.execMax f s
  | .minn f => Sys2Proof.Machine.execMinn f s
  | .maxn f => Sys2Proof.Machine.execMaxn f s
  | .clz f => Sys2Proof.Machine.execClz f s
  | .popc f => Sys2Proof.Machine.execPopc f s
  | .mul f => Sys2Proof.Machine.execMul f s
  | .mulh f => Sys2Proof.Machine.execMulh f s
  | .mulhn f => Sys2Proof.Machine.execMulhn f s
  | .div f => Sys2Proof.Machine.execDiv f s
  | .divn f => Sys2Proof.Machine.execDivn f s
  | .rem f => Sys2Proof.Machine.execRem f s
  | .remn f => Sys2Proof.Machine.execRemn f s
  | .ceq f => Sys2Proof.Machine.execCeq f s
  | .cne f => Sys2Proof.Machine.execCne f s
  | .clt f => Sys2Proof.Machine.execClt f s
  | .cle f => Sys2Proof.Machine.execCle f s
  | .cltn f => Sys2Proof.Machine.execCltn f s
  | .clen f => Sys2Proof.Machine.execClen f s
  | .ctst f => Sys2Proof.Machine.execCtst f s
  | .addi f => Sys2Proof.Machine.execAddi f s
  | .andi f => Sys2Proof.Machine.execAndi f s
  | .ori f => Sys2Proof.Machine.execOri f s
  | .xori f => Sys2Proof.Machine.execXori f s
  | .shli f => Sys2Proof.Machine.execShli f s
  | .shri f => Sys2Proof.Machine.execShri f s
  | .sari f => Sys2Proof.Machine.execSari f s
  | .cmpi f => Sys2Proof.Machine.execCmpi f s
  | .kand f => Sys2Proof.Machine.execKand f s
  | .kor f => Sys2Proof.Machine.execKor f s
  | .kxor f => Sys2Proof.Machine.execKxor f s
  | .knot f => Sys2Proof.Machine.execKnot f s
  | .kmovs f => Sys2Proof.Machine.execKmovs f s
  | .kmovk f => Sys2Proof.Machine.execKmovk f s
  | .kpopc f => Sys2Proof.Machine.execKpopc f s
  | .kfirst f => Sys2Proof.Machine.execKfirst f s
  | .movl min f => Sys2Proof.Machine.execMovl min f s
  | .movlHi min f => Sys2Proof.Machine.execMovlHi min f s
  | .leaL min f => Sys2Proof.Machine.execLeaL min f s
  | .leaX min f => Sys2Proof.Machine.execLeaX min f s
  | .br f => Sys2Proof.Machine.execBr f s
  | .jmp f => Sys2Proof.Machine.execJmp f s
  | .call f => Sys2Proof.Machine.execCall f s
  | .loop f => Sys2Proof.Machine.execLoop f s
  | .vbr f => Sys2Proof.Machine.execVbr f s
  | .callr f => Sys2Proof.Machine.execCallr f s
  | .jr f => Sys2Proof.Machine.execJr f s
  | .ret f => Sys2Proof.Machine.execRet f s
  | .endT f => Sys2Proof.Machine.execEndT f s
  | .yield f => Sys2Proof.Machine.execYield f s
  | .trap f => Sys2Proof.Machine.execTrap f s
  | .tret f => Sys2Proof.Machine.execTret f s
  | .bkpt f => Sys2Proof.Machine.execBkpt f s
  | .crr f => Sys2Proof.Machine.execCrr f s
  | .crw f => Sys2Proof.Machine.execCrw f s
  | .crx f => Sys2Proof.Machine.execCrx f s
  | .gatew f => Sys2Proof.Machine.execGatew f s
  | .gater f => Sys2Proof.Machine.execGater f s
  | .objw f => Sys2Proof.Machine.execObjw f s
  | .objr f => Sys2Proof.Machine.execObjr f s
  | .grpw f => Sys2Proof.Machine.execGrpw f s
  | .qmap f => Sys2Proof.Machine.execQmap f s
  | .jbind f => Sys2Proof.Machine.execJbind f s
  | .jload f => Sys2Proof.Machine.execJload f s
  | .ssav f => Sys2Proof.Machine.execSsav f s
  | .srst f => Sys2Proof.Machine.execSrst f s
  | .ipi f => Sys2Proof.Machine.execIpi f s
  | .vadd f => Sys2Proof.Machine.execVadd f s
  | .vsub f => Sys2Proof.Machine.execVsub f s
  | .vmul f => Sys2Proof.Machine.execVmul f s
  | .vfma f => Sys2Proof.Machine.execVfma f s
  | .vmin f => Sys2Proof.Machine.execVmin f s
  | .vmax f => Sys2Proof.Machine.execVmax f s
  | .vabs f => Sys2Proof.Machine.execVabs f s
  | .vneg f => Sys2Proof.Machine.execVneg f s
  | .vand f => Sys2Proof.Machine.execVand f s
  | .vor f => Sys2Proof.Machine.execVor f s
  | .vxor f => Sys2Proof.Machine.execVxor f s
  | .vshl f => Sys2Proof.Machine.execVshl f s
  | .vshr f => Sys2Proof.Machine.execVshr f s
  | .vsar f => Sys2Proof.Machine.execVsar f s
  | .vsel f => Sys2Proof.Machine.execVsel f s
  | .vmulh f => Sys2Proof.Machine.execVmulh f s
  | .vwadd f => Sys2Proof.Machine.execVwadd f s
  | .vwsub f => Sys2Proof.Machine.execVwsub f s
  | .vwmul f => Sys2Proof.Machine.execVwmul f s
  | .vwfma f => Sys2Proof.Machine.execVwfma f s
  | .vnarrow f => Sys2Proof.Machine.execVnarrow f s
  | .vcvt f => Sys2Proof.Machine.execVcvt f s
  | .vdot4 f => Sys2Proof.Machine.execVdot4 f s
  | .vcmp f => Sys2Proof.Machine.execVcmp f s
  | .vtest f => Sys2Proof.Machine.execVtest f s
  | .vredsum f => Sys2Proof.Machine.execVredsum f s
  | .vredmax f => Sys2Proof.Machine.execVredmax f s
  | .vredmin f => Sys2Proof.Machine.execVredmin f s
  | .vredand f => Sys2Proof.Machine.execVredand f s
  | .vredor f => Sys2Proof.Machine.execVredor f s
  | .vscan f => Sys2Proof.Machine.execVscan f s
  | .vperm f => Sys2Proof.Machine.execVperm f s
  | .vslide f => Sys2Proof.Machine.execVslide f s
  | .vbcast f => Sys2Proof.Machine.execVbcast f s
  | .viota f => Sys2Proof.Machine.execViota f s
  | .vcompress f => Sys2Proof.Machine.execVcompress f s
  | .vexpand f => Sys2Proof.Machine.execVexpand f s
  | .vzip f => Sys2Proof.Machine.execVzip f s
  | .vunzip f => Sys2Proof.Machine.execVunzip f s
  | .vsort f => Sys2Proof.Machine.execVsort f s
  | .vmerge f => Sys2Proof.Machine.execVmerge f s
  | .vsearch f => Sys2Proof.Machine.execVsearch f s
  | .vsparse f => Sys2Proof.Machine.execVsparse f s
  | .vunsparse f => Sys2Proof.Machine.execVunsparse f s
  | .vexp2 f => Sys2Proof.Machine.execVexp2 f s
  | .vlog2 f => Sys2Proof.Machine.execVlog2 f s
  | .vrcp f => Sys2Proof.Machine.execVrcp f s
  | .vrsq f => Sys2Proof.Machine.execVrsq f s
  | .vtanh f => Sys2Proof.Machine.execVtanh f s
  | .vmov f => Sys2Proof.Machine.execVmov f s
  | .vsplat f => Sys2Proof.Machine.execVsplat f s
  | .vins f => Sys2Proof.Machine.execVins f s
  | .vext f => Sys2Proof.Machine.execVext f s
  | .mmaL f => Sys2Proof.Machine.execMmaL f s
  | .mmaX f => Sys2Proof.Machine.execMmaX f s
  | .mmarL f => Sys2Proof.Machine.execMmarL f s
  | .mmarX f => Sys2Proof.Machine.execMmarX f s
  | .mmagL f => Sys2Proof.Machine.execMmagL f s
  | .mmagX f => Sys2Proof.Machine.execMmagX f s
  | .mmagrL f => Sys2Proof.Machine.execMmagrL f s
  | .mmagrX f => Sys2Proof.Machine.execMmagrX f s
  | .mzero f => Sys2Proof.Machine.execMzero f s
  | .mload f => Sys2Proof.Machine.execMload f s
  | .mdrain f => Sys2Proof.Machine.execMdrain f s
  | .mexp f => Sys2Proof.Machine.execMexp f s
  | .mchk f => Sys2Proof.Machine.execMchk f s
  | .mside f => Sys2Proof.Machine.execMside f s
  | .mtrans f => Sys2Proof.Machine.execMtrans f s
  | .msmax f => Sys2Proof.Machine.execMsmax f s
  | .mscale f => Sys2Proof.Machine.execMscale f s
  | .mmask f => Sys2Proof.Machine.execMmask f s
  | .mtree f => Sys2Proof.Machine.execMtree f s
  | .ld f => Sys2Proof.Machine.execLd f s
  | .ldv f => Sys2Proof.Machine.execLdv f s
  | .ldr f => Sys2Proof.Machine.execLdr f s
  | .ldk f => Sys2Proof.Machine.execLdk f s
  | .st f => Sys2Proof.Machine.execSt f s
  | .stv f => Sys2Proof.Machine.execStv f s
  | .str f => Sys2Proof.Machine.execStr f s
  | .stk f => Sys2Proof.Machine.execStk f s
  | .lds f => Sys2Proof.Machine.execLds f s
  | .lda f => Sys2Proof.Machine.execLda f s
  | .ldsv f => Sys2Proof.Machine.execLdsv f s
  | .sts f => Sys2Proof.Machine.execSts f s
  | .strel f => Sys2Proof.Machine.execStrel f s
  | .stsv f => Sys2Proof.Machine.execStsv f s
  | .stsm f => Sys2Proof.Machine.execStsm f s
  | .atom f => Sys2Proof.Machine.execAtom f s
  | .red f => Sys2Proof.Machine.execRed f s
  | .atomr f => Sys2Proof.Machine.execAtomr f s
  | .redr f => Sys2Proof.Machine.execRedr f s
  | .fence min f => Sys2Proof.Machine.execFence min f s
  | .puthL f => Sys2Proof.Machine.execPuthL f s
  | .puthX f => Sys2Proof.Machine.execPuthX f s
  | .rot f => Sys2Proof.Machine.execRot f s
  | .pft f => Sys2Proof.Machine.execPft f s
  | .copy f => Sys2Proof.Machine.execCopy f s
  | .ecenc f => Sys2Proof.Machine.execEcenc f s
  | .ecrec f => Sys2Proof.Machine.execEcrec f s
  | .rlock f => Sys2Proof.Machine.execRlock f s
  | .runlock f => Sys2Proof.Machine.execRunlock f s
  | .alloc f => Sys2Proof.Machine.execAlloc f s
  | .free f => Sys2Proof.Machine.execFree f s
  | .send f => Sys2Proof.Machine.execSend f s
  | .sendm f => Sys2Proof.Machine.execSendm f s
  | .reply f => Sys2Proof.Machine.execReply f s
  | .recv f => Sys2Proof.Machine.execRecv f s
  | .pollq f => Sys2Proof.Machine.execPollq f s
  | .spawnL f => Sys2Proof.Machine.execSpawnL f s
  | .spawnX f => Sys2Proof.Machine.execSpawnX f s
  | .launchL f => Sys2Proof.Machine.execLaunchL f s
  | .launchX f => Sys2Proof.Machine.execLaunchX f s
  | .abort f => Sys2Proof.Machine.execAbort f s
  | .abortX f => Sys2Proof.Machine.execAbortX f s
  | .reef f => Sys2Proof.Machine.execReef f s
  | .reefx f => Sys2Proof.Machine.execReefx f s
  | .reefq f => Sys2Proof.Machine.execReefq f s
  | .bar f => Sys2Proof.Machine.execBar f s
  | .barw f => Sys2Proof.Machine.execBarw f s
  | .actrL f => Sys2Proof.Machine.execActrL f s
  | .actrX f => Sys2Proof.Machine.execActrX f s
  | .waitc f => Sys2Proof.Machine.execWaitc f s
  | .ctrr f => Sys2Proof.Machine.execCtrr f s
  | .ctrw f => Sys2Proof.Machine.execCtrw f s
  | .waitt f => Sys2Proof.Machine.execWaitt f s
  | .time f => Sys2Proof.Machine.execTime f s
  | .rlbegin f => Sys2Proof.Machine.execRlbegin f s
  | .rlrsv f => Sys2Proof.Machine.execRlrsv f s
  | .rlchk f => Sys2Proof.Machine.execRlchk f s
  | .rlld f => Sys2Proof.Machine.execRlld f s
  | .rlst f => Sys2Proof.Machine.execRlst f s
  | .rlend f => Sys2Proof.Machine.execRlend f s
  | .rlstat f => Sys2Proof.Machine.execRlstat f s
  | .jibA slot f => Sys2Proof.Machine.execJibA slot f s
  | .jibL slot f => Sys2Proof.Machine.execJibL slot f s
  | .nop => Sys2Proof.Machine.execNop s
  | .pfh off => Sys2Proof.Machine.execPfh off s
  | .prio n => Sys2Proof.Machine.execPrio n s
  | .alignh n => Sys2Proof.Machine.execAlignh n s
  | .hint1 p => Sys2Proof.Machine.execHint1 p s
  | .hint2 p q => Sys2Proof.Machine.execHint2 p q s
  | .hint3 p q r => Sys2Proof.Machine.execHint3 p q r s
  | .inboxAccept => Sys2Proof.Machine.execInboxAccept s
  | .taskActivation => Sys2Proof.Machine.execTaskActivation s
  | .jibSetResident => Sys2Proof.Machine.execJibSetResident s
  | .launchRequest => Sys2Proof.Machine.execLaunchRequest s
  | .spawnAccept => Sys2Proof.Machine.execSpawnAccept s
  | .abortRequest => Sys2Proof.Machine.execAbortRequest s
  | .taskPlacement => Sys2Proof.Machine.execTaskPlacement s
  | .launchEndSweep => Sys2Proof.Machine.execLaunchEndSweep s
  | .teamSwapOut => Sys2Proof.Machine.execTeamSwapOut s
  | .teamRestore => Sys2Proof.Machine.execTeamRestore s
  | .commitRequest => Sys2Proof.Machine.execCommitRequest s
  | .taskSafeSend => Sys2Proof.Machine.execTaskSafeSend s
  | .reefReexecution => Sys2Proof.Machine.execReefReexecution s
  | .slotSchedule => Sys2Proof.Machine.execSlotSchedule s
  | .overrun => Sys2Proof.Machine.execOverrun s
  | .queuePeriodStart => Sys2Proof.Machine.execQueuePeriodStart s
  | .launchQueueServe => Sys2Proof.Machine.execLaunchQueueServe s
  | .slotBusyTimeout => Sys2Proof.Machine.execSlotBusyTimeout s
  | .sliceEnd => Sys2Proof.Machine.execSliceEnd s
  | .pdlForcedSave => Sys2Proof.Machine.execPdlForcedSave s
  | .wdog => Sys2Proof.Machine.execWdog s
  | .saveComplete => Sys2Proof.Machine.execSaveComplete s
  | .restoreComplete => Sys2Proof.Machine.execRestoreComplete s
  | .quantumBoundary => Sys2Proof.Machine.execQuantumBoundary s
  | .registerFill => Sys2Proof.Machine.execRegisterFill s
  | .parityError => Sys2Proof.Machine.execParityError s
  | .codeFetch => Sys2Proof.Machine.execCodeFetch s
  | .trapDelivery => Sys2Proof.Machine.execTrapDelivery s
  | .translationRequest => Sys2Proof.Machine.execTranslationRequest s
  | .pageWalkComplete => Sys2Proof.Machine.execPageWalkComplete s
  | .pageFaultPost => Sys2Proof.Machine.execPageFaultPost s
  | .invpage => Sys2Proof.Machine.execInvpage s
  | .invasid => Sys2Proof.Machine.execInvasid s
  | .invall => Sys2Proof.Machine.execInvall s
  | .resume => Sys2Proof.Machine.execResume s
  | .rangew => Sys2Proof.Machine.execRangew s
  | .rangeinv => Sys2Proof.Machine.execRangeinv s
  | .probeRefusal => Sys2Proof.Machine.execProbeRefusal s
  | .homeAccess => Sys2Proof.Machine.execHomeAccess s
  | .pinGroupFailed => Sys2Proof.Machine.execPinGroupFailed s
  | .widen => Sys2Proof.Machine.execWiden s
  | .remoteScratchpadAccess => Sys2Proof.Machine.execRemoteScratchpadAccess s
  | .stsmMemberWrite => Sys2Proof.Machine.execStsmMemberWrite s
  | .stsmAnswerMerge => Sys2Proof.Machine.execStsmAnswerMerge s
  | .engineCommandStart => Sys2Proof.Machine.execEngineCommandStart s
  | .engineBytesLand => Sys2Proof.Machine.execEngineBytesLand s
  | .engineCommandComplete => Sys2Proof.Machine.execEngineCommandComplete s
  | .arrivalCounterZero => Sys2Proof.Machine.execArrivalCounterZero s
  | .atomicEngineRequest => Sys2Proof.Machine.execAtomicEngineRequest s
  | .atomrReply => Sys2Proof.Machine.execAtomrReply s
  | .heapRequest => Sys2Proof.Machine.execHeapRequest s
  | .gangStart => Sys2Proof.Machine.execGangStart s
  | .gangComplete => Sys2Proof.Machine.execGangComplete s
  | .ringStart => Sys2Proof.Machine.execRingStart s
  | .mmulLoadPhase => Sys2Proof.Machine.execMmulLoadPhase s
  | .mmulComputeDone => Sys2Proof.Machine.execMmulComputeDone s
  | .barrierGenerationComplete => Sys2Proof.Machine.execBarrierGenerationComplete s
  | .waittExpire => Sys2Proof.Machine.execWaittExpire s
  | .ratlineRequest => Sys2Proof.Machine.execRatlineRequest s
  | .ratlineWindowStart => Sys2Proof.Machine.execRatlineWindowStart s
  | .holdListBuild => Sys2Proof.Machine.execHoldListBuild s
  | .ratlineLoopEnd => Sys2Proof.Machine.execRatlineLoopEnd s
  | .vfReset => Sys2Proof.Machine.execVfReset s
  | .vsockPacket => Sys2Proof.Machine.execVsockPacket s
  | .hostSendRingService => Sys2Proof.Machine.execHostSendRingService s
  | .virtioFeatureNegotiation => Sys2Proof.Machine.execVirtioFeatureNegotiation s
  | .ethernetFrameReceive => Sys2Proof.Machine.execEthernetFrameReceive s
  | .ucieLaneRepair => Sys2Proof.Machine.execUcieLaneRepair s
  | .nimoshLaneLoss => Sys2Proof.Machine.execNimoshLaneLoss s
  | .coreSelfTest => Sys2Proof.Machine.execCoreSelfTest s
  | .computeDieLoss => Sys2Proof.Machine.execComputeDieLoss s
  | .mfDieLoss => Sys2Proof.Machine.execMfDieLoss s
  | .packageLoss => Sys2Proof.Machine.execPackageLoss s
  | .diagnosisVote => Sys2Proof.Machine.execDiagnosisVote s
  | .voteTimeout => Sys2Proof.Machine.execVoteTimeout s
  | .powerOnBringUp => Sys2Proof.Machine.execPowerOnBringUp s
  | .managementPagePoll => Sys2Proof.Machine.execManagementPagePoll s
  | .clockStepDown => Sys2Proof.Machine.execClockStepDown s
  | .inletOverLimit => Sys2Proof.Machine.execInletOverLimit s
  | .ptpMessage => Sys2Proof.Machine.execPtpMessage s
  | .ptpLockLoss => Sys2Proof.Machine.execPtpLockLoss s
  | .consoleCommand => Sys2Proof.Machine.execConsoleCommand s
  | .nimoshLinkRetry => Sys2Proof.Machine.execNimoshLinkRetry s
  | .partitionTeardown => Sys2Proof.Machine.execPartitionTeardown s

end Sys2Proof.Machine
end

