-- ==== Sys2Proof/Machine/Issuer.lean ====
section
/-! DEFINITION. Which half of a core issues (spec/02, R23). -/
namespace Sys2Proof.Machine

/-- The task of a half has an instruction ready: an attempt at its next instruction issues it, or traps, and does not leave the
half waiting. -/
def State.issuable (s : State) (hid : Nat) : Bool :=
  let s := { s with cur := hid, halves := tput s.halves hid { s.half hid with block := .none } }
  let s := (prepare hid).run s
  match nextTurn s hid with
  | .instr i =>
    (match exec i s with
     | .next t => decide ((t.half hid).seq ≠ (s.half hid).seq)
         || (decide ((t.half hid).block = .none) && decide (t.half hid ≠ s.half hid))
     | _ => false)
  | .act _ => false

/-- The half that issues at the turn of a half (R23): of two that have an instruction ready the older one, and of two of equal
age the one that did not issue last. -/
def State.issuer (s : State) (hid : Nat) : Nat :=
  let other := otherHalf hid
  let age := (s.half hid).age
  let age' := (s.half other).age
  if (decide (age' < age) || (age' == age && (s.core (coreOf hid)).issued == hid % 2)) && (s.half other).occ == .live
    && s.issuable hid && s.issuable other then other else hid

end Sys2Proof.Machine
end

