-- ==== Sys2Proof/Machine/Step.lean ====
section
/-! DEFINITION. One step of the machine: time passes, and one agent moves, a half issuing its next instruction or an
event of the table happening (log 2). -/
namespace Sys2Proof.Machine

/-- A half takes its turn, in which its core issues from the half that R23 gives. -/
def issueTurn (turn : Nat) (s : State) : Host.Outcome State Fault Refusal :=
  let hid := s.issuer turn
  let s' := (prepare hid).run { s with cur := hid }
  match nextTurn s' hid with
  | .instr i => exec i s'
  | .act m => .next (m.run s')

/-- One step. -/
def step (s : State) : Host.Outcome State Fault Refusal :=
  if s.package.lost then .fault .packageLost
  else
    match takeTurn (tick s) with
    | (.issue hid ecc, s') => issueTurn hid { s' with data := { EventData.none with ecc := ecc } }
    | (.event i d, s') => if i.isInstruction then .next s' else exec i { s' with data := d }

/-- The machine with an instruction placed where the next step fetches and runs it (log 4). -/
def State.withFetchWord (s : State) (nbits w : Nat) : State := placeWord nbits w s

end Sys2Proof.Machine
end

