-- ==== Sys2Proof/Safety.lean ====
section
/-! DEFINITION. What the claims speak of: the canonical form of a state, when an instruction is ready to run to its end,
the state after it has retired, and which instructions make each group of claims. -/
namespace Sys2Proof.Machine

/-! ### The canonical form -/

/-- The tables of the state rise by key and its memory is canonical: equal machines are equal data. -/
def State.canonical (s : State) : Bool :=
  Memory.wf s.mem && trising s.release && trising s.releases && trising s.tags && trising s.halves
    && trising s.cores && trising s.clusters && trising s.stations && trising s.parts && trising s.tasks

/-- No memory is in error: the code of the memory reports nothing now, no word of a scratchpad or bank stays uncorrectable, and
no frame is retired (R185, R347, R348). -/
def State.sound (s : State) : Bool :=
  decide (s.data.ecc = .clean) && s.spoilt.isEmpty && s.fabric.retired.isEmpty

/-! ### Ready to run -/

/-- The half at issue. -/
def State.curHalf (s : State) : Half := s.half s.cur

/-- The core at issue. -/
def State.curCore (s : State) : Nat := coreOf s.cur

/-- The instruction that follows stands in the block, or the parcel after the block begins a header (R57). -/
def State.continues (s : State) (len : Nat) : Bool :=
  decide (s.curHalf.roff + len ≠ hdrBlen s.curHalf.hdrWord)
    || (match fetchParcel s s.curCore (pcOf s.curHalf + word (4 * len)) with
        | .ok p => isHeaderParcel p
        | _ => false)

/-- A half with a live task that is between instructions: no trap pending, no header to enter, nothing to issue again,
a free replay entry, its quantum not ended, and while an exception is enabled no floating vector instruction in flight (R76,
R80, R127, R271, R341). -/
def State.between (s : State) : Bool :=
  let h := s.curHalf
  (s.task? h.tid).isSome && decide (h.occ = .live) && h.traps.isEmpty && !h.entering && h.hold.isNone
    && h.reissue.isNone && decide (h.replay.length < 8) && !s.quantumFull s.cur h
    && !(decide (h.ctl.ftrap ≠ 0) && s.floating h.tid)

/-- The instruction passes the checks of R17, R75 and R289 on the part and in this core. -/
def State.allowed (s : State) (i : Instr) : Bool :=
  let h := s.curHalf
  !s.absent h i && (!isSys i || isKernel s.curCore) && i.wf
    && (match s.task? h.tid with | some t => !s.illNow h t i | none => false)

/-- Every source is full and not in flight (R76, R78). -/
def sourcesReady (h : Half) (l : List Src) : Bool := l.all fun x => isFull h x.reg && !isBusy h x.reg

/-- The predicate register is full and not in flight, and bit 0 of a scalar instruction's predicate is set (R64, R76, R125). -/
def predicateOn (h : Half) (sp : Spec) : Bool :=
  (sp.k.getD 0 == 0 || (isFull h (.k (sp.k.getD 0).toNat) && !isBusy h (.k (sp.k.getD 0).toNat))) && (!sp.scalar || bit0 (readK h (sp.k.getD 0).toNat))

/-- Everything that R76 asks of an instruction before it runs: it is allowed, its predicate is on, its sources and
destinations are full with a spare version for each vector register that is pinned, no acquire of the task is outstanding
before an access, and code goes on after it. -/
def State.ready (s : State) (i : Instr) (sp : Spec) : Bool :=
  let h := s.curHalf
  s.between && s.allowed i && predicateOn h sp && sourcesReady h (s.reads s.cur i sp)
    && (destsReady h sp.dsts && decide (h.spares.length + (h.newVersions sp.vectors sp.dsts).length ≤ 8)) && !(isAccess i && s.acquiring h.tid) && (!fallsThrough i || s.continues (parcelCount i)) && !h.ctl.ss

/-- What the instruction at issue sees when it is ready: the values of its fields, k[K], and LANES and k[K]. -/
def State.ctx (s : State) (i : Instr) (sp : Spec) : Ctx :=
  match s.task? s.curHalf.tid with
  | some t => ctxOf s.cur s.curHalf t i sp
  | none => ctxOf s.cur s.curHalf (Task.fresh 0 0 0 Act.blank 0) i sp

/-! ### Retired -/

/-- The half after an instruction of `len` parcels has retired. -/
def Half.stepped (h : Half) (len : Nat) : Half :=
  { h with roff := h.roff + len, block := .none, refusedAt := none, seq := h.seq + 1 }

/-- A core after one of its instructions has retired: RET and QPOS (R332, R333). -/
def Core.counted (c : Core) (wraps : Bool) (quant : BitVec 32) (half : Nat) : Core :=
  { c with ret := c.ret + 1, qpos := if wraps && c.qpos + 1 == quant then 0 else c.qpos + 1, issued := half }

/-- A cluster after an event has happened n times: the counters that select it (R340). -/
def Cluster.counting (c : Cluster) (event n : Nat) : Cluster :=
  let hit (p : Perf) : Bool := p.sel.getLsbD 15 && wbits p.sel 7 0 == event
  { c with perf := tmap (fun _ p => if hit p then { p with count := p.count + BitVec.ofNat 64 n } else p) c.perf }

/-- A cluster after an instruction of one of its cores has retired: event 2 (R340). -/
def Cluster.counted (c : Cluster) : Cluster := c.counting 2 1

/-- The machine after the half at issue has become `h` and its instruction of `len` parcels has retired. -/
def State.retired (s : State) (len : Nat) (h : Half) : State :=
  { s with
    halves := tput s.halves s.cur (h.stepped len)
    cores := tput s.cores s.curCore
      ((s.core s.curCore).counted (!s.det ((s.partOf s.curCore).getD 0)) h.ctl.quant (s.cur % 2))
    clusters := tput s.clusters (clusterOf s.curCore) (s.cluster (clusterOf s.curCore)).counted }

/-- The machine after the half at issue has become `h` and its instruction of `len` parcels has issued, but not retired (R333). -/
def State.going (s : State) (len : Nat) (h : Half) : State :=
  { s with
    halves := tput s.halves s.cur (h.stepped len)
    cores := tput s.cores s.curCore { s.core s.curCore with issued := s.cur % 2 } }

/-! ### Running -/

/-- An instruction is ready to run to its end in the half at issue. -/
def State.runs (s : State) (i : Instr) : Bool := (operands i).isSome && s.ready i (operandsOf i)

/-- What an instruction that runs sees of the half at issue. -/
def State.seen (s : State) (i : Instr) : Ctx := s.ctx i (operandsOf i)

/-! ### Parts of a next state -/

/-- The machine with what is in flight changed. -/
def State.netted (s : State) (f : Net → Net) : State := { s with net := f s.net }

/-- The machine with a task changed. -/
def State.tasked (s : State) (tid : Nat) (f : Task → Task) : State :=
  { s with tasks := tset s.tasks tid ((s.task? tid).map f) }

/-- The machine with a core changed. -/
def State.cored (s : State) (n : Nat) (f : Core → Core) : State := { s with cores := tput s.cores n (f (s.core n)) }

/-- The machine with a cluster changed. -/
def State.clustered (s : State) (n : Nat) (f : Cluster → Cluster) : State :=
  { s with clusters := tput s.clusters n (f (s.cluster n)) }

/-- The machine with the half at issue changed. -/
def State.halved (s : State) (h : Half) : State := { s with halves := tput s.halves s.cur h }

/-- The machine with bytes written at package addresses from `a` up. -/
def State.poked (s : State) (a : Nat) : List Byte → State
  | [] => s
  | b :: l => State.poked { s with mem := memSet s.mem a b, spoilt := s.spoilt.filter (· != a / 8 * 8) } (a + 1) l

/-- The task at issue holds its commit slot, and has performed a direct operation (R38, R79, R229); in a deterministic
partition the operation has its place in the quantum's order (R44, R341). -/
def State.committing (s : State) : State :=
  let h := s.curHalf
  let d : Deferred := ⟨s.cur, h.tid, h.seq, false⟩
  { s.tasked h.tid fun t => { t with slot := !t.act.free, direct := true } with
    deferred := if s.detCore s.curCore && !s.deferred.contains d then s.deferred ++ [d] else s.deferred }

/-- The half at issue with a long-latency instruction kept in its replay queue (R80). -/
def Half.holding (h : Half) (e : Entry) : Half := { h with replay := h.replay ++ [e] }

/-- The half at issue after its instruction has written its destinations: what is outstanding keeps the old version of a vector
register that it has pinned, and produces none of those registers' values any more (R79, R80). -/
def State.written (s : State) (i : Instr) (h : Half) : Half := h.supersede s.curHalf.seq (operandsOf i).dsts

/-- The machine after an instruction that has left `h` has retired as it issued. -/
def State.ran (s : State) (i : Instr) (h : Half) : State := s.retired (parcelCount i) (s.written i h)

/-- The machine after an instruction that has left `h` has issued and is kept in the replay queue, with a mask, until it completes
(R80). -/
def State.begunWith (s : State) (i : Instr) (h : Half) (mask : Mask) : State :=
  s.going (parcelCount i) (s.written i (h.holding { (s.seen i).entry with seq := s.curHalf.seq, mask := mask }))

/-- The same with the mask that the instruction has. -/
def State.begun (s : State) (i : Instr) (h : Half) : State := s.begunWith i h (s.seen i).entry.mask

/-- A value on its way to a register of the task at issue, with flags (R78, R124). -/
def State.filled (s : State) (v : Value) (fl : Flags) : State :=
  s.netted fun n => { n with fills := n.fills ++ [⟨s.cur, s.curHalf.tid, s.curHalf.seq, v, fl, none, false, none, none⟩] }

/-- A value on its way to a register of the task at issue (R78). -/
def State.filling (s : State) (v : Value) : State := s.filled v 0

/-- The machine after a multi-clk instruction has issued: its results stand in `h`, in flight with its flags until it completes,
and it keeps a replay entry until then (R80, R104, R124, R125); `fp` for a floating vector instruction (R127). -/
def State.running (s : State) (i : Instr) (fl : Flags) (fp : Bool) (h : Half) : State :=
  let dsts := (operandsOf i).dsts
  (s.filled (.ready dsts fp) fl).begun i (dsts.foldl markBusy h)

/-- The machine after a read of FFLAGS or ORDST that has to wait has issued, with the control registers that it leaves: sD, in
flight until then, takes the register's value once what may change it is done (R82, R104). -/
def State.reading (s : State) (i : Instr) (c : Ctl) (d n : Nat) : State :=
  (s.netted fun x => { x with fills := x.fills ++ [⟨s.cur, s.curHalf.tid, s.curHalf.seq,
      .s d (if n = 6 then s.curHalf.ctl.fflags else s.curHalf.ctl.ordst), 0, none, false, none, some n⟩] }).begun i
    (markBusy { s.curHalf with ctl := c } (.s d))

/-! ### Traps and transfers -/

/-- Where the frame of a trap stands (R273): 0x1800 bytes below s30, on a 64-byte boundary. -/
def frameAt (h : Half) : Nat := ((readS h 30).toNat - 0x1800) / 64 * 64

/-- The half at issue after entering the block at an address: the comparison of R122 first, with the target it leaves. -/
def entered (h : Half) (addr w : Word) : Half :=
  let r := reconverge (2 * h.stack.length) addr h.lanes h.stack
  { h with hdr := r.1, hdrWord := w, roff := 0, entering := false, lanes := r.2.1, stack := r.2.2 }

/-- A transfer to an address is good: a header stands at it, and the header that is entered after the comparison of R122
can be fetched, with a BLEN and a kind that R57 admits. -/
def State.transfers (s : State) (addr w : Word) : Bool :=
  decide (wbits addr 1 0 = 0)
    && (match fetchParcel s s.curCore addr with | .ok p => isHeaderParcel p | _ => false)
    && decide (fetchHeader s s.curCore (reconverge (2 * s.curHalf.stack.length) addr s.curHalf.lanes s.curHalf.stack).1 = .ok w)
    && decide (hdrBlen w ≠ 0) && decide (hdrKind w < 5)

/-! ### Control registers -/

/-- The value of a control register that the half itself holds whole (R83 to R86). -/
def ctlValue (c : Ctl) : Nat → Option Word
  | 0 => some c.fmta
  | 1 => some c.fmtb
  | 2 => some c.fmtc
  | 3 => some c.scla
  | 4 => some c.sclb
  | 5 => some c.rmode
  | 6 => some c.fflags
  | 7 => some c.ftrap
  | 8 => some c.lc
  | 9 => some c.tvec
  | 16 => some c.stage
  | 17 => some c.ordst
  | 19 => some c.abftp
  | 24 => some c.dito
  | _ => none

/-- The bits of a control register that a write changes, where a write changes any (R83 to R86, R124). -/
def ctlMask : Nat → Option Word
  | 0 | 1 => some 0x1F
  | 2 => some 3
  | 3 | 4 => some 0x3FFFF
  | 5 => some 1
  | 6 => some 0x3F
  | 7 => some 0x1F
  | 8 => some (BitVec.allOnes 64)
  | 9 => some 0xFFFFFFFFFFFFFC
  | 24 => some 0xFF
  | _ => none

/-! ### Values of the scalar instructions, as numbers -/

/-- sD of the format A instructions with two scalar operands (R105, R106). -/
def scalar2 : Instr → Option (FA × (Word → Word → Word))
  | .add f => some (f, fun a b => word (a.toNat + b.toNat))
  | .sub f => some (f, fun a b => wordI (a.toInt - b.toInt))
  | .and f => some (f, fun a b => word (Nat.land a.toNat b.toNat))
  | .or f => some (f, fun a b => word (Nat.lor a.toNat b.toNat))
  | .xor f => some (f, fun a b => word (Nat.xor a.toNat b.toNat))
  | .andn f => some (f, fun a b => word (Nat.land a.toNat (2 ^ 64 - 1 - b.toNat)))
  | .shl f => some (f, fun a b => word (a.toNat * 2 ^ (b.toNat % 64)))
  | .shr f => some (f, fun a b => word (a.toNat / 2 ^ (b.toNat % 64)))
  | .sar f => some (f, fun a b => wordI (a.toInt / (2 ^ (b.toNat % 64) : Nat)))
  | .rol f => some (f, fun a b => word (a.toNat * 2 ^ (b.toNat % 64) % 2 ^ 64 + a.toNat / 2 ^ (64 - b.toNat % 64)))
  | .min f => some (f, fun a b => wordI (min a.toInt b.toInt))
  | .max f => some (f, fun a b => wordI (max a.toInt b.toInt))
  | .minn f => some (f, fun a b => word (min a.toNat b.toNat))
  | .maxn f => some (f, fun a b => word (max a.toNat b.toNat))
  | .mul f => some (f, fun a b => word (a.toNat * b.toNat))
  | .mulh f => some (f, fun a b => wordI (a.toInt * b.toInt / (2 ^ 64 : Nat)))
  | .mulhn f => some (f, fun a b => word (a.toNat * b.toNat / 2 ^ 64))
  | .div f => some (f, fun a b => if b = 0 then wordI (-1) else wordI (a.toInt.tdiv b.toInt))
  | .divn f => some (f, fun a b => if b = 0 then wordI (-1) else word (a.toNat / b.toNat))
  | .rem f => some (f, fun a b => if b = 0 then a else wordI (a.toInt - b.toInt * a.toInt.tdiv b.toInt))
  | .remn f => some (f, fun a b => if b = 0 then a else word (a.toNat % b.toNat))
  | _ => none

/-- The scalar instructions of more than one clk (R104, R106). -/
def longScalar : Instr → Bool
  | .mul _ | .mulh _ | .mulhn _ | .div _ | .divn _ | .rem _ | .remn _ => true
  | _ => false

/-- sD of the format A instructions with one scalar operand (R105). -/
def scalar1 : Instr → Option (FA × (Word → Nat))
  | .clz f => some (f, fun a => ((List.range 64).takeWhile fun i => !a.getLsbD (63 - i)).length)
  | .popc f => some (f, fun a => ((List.range 64).filter fun i => a.getLsbD i).length)
  | _ => none

/-- sD of the format I instructions with a 13-bit immediate, sign-extended (R109). -/
def scalarI : Instr → Option (FI × (Word → Int → Word))
  | .addi f => some (f, fun a n => wordI (a.toInt + n))
  | .andi f => some (f, fun a n => word (Nat.land a.toNat (wordI n).toNat))
  | .ori f => some (f, fun a n => word (Nat.lor a.toNat (wordI n).toNat))
  | .xori f => some (f, fun a n => word (Nat.xor a.toNat (wordI n).toNat))
  | _ => none

/-- sD of the shifts by an immediate amount (R110). -/
def scalarS : Instr → Option (FS × (Word → Nat → Word))
  | .shli f => some (f, fun a n => word (a.toNat * 2 ^ n))
  | .shri f => some (f, fun a n => word (a.toNat / 2 ^ n))
  | .sari f => some (f, fun a n => wordI (a.toInt / (2 ^ n : Nat)))
  | _ => none

/-- A condition on two words, by its code (R69, R107). -/
def condition : Nat → Word → Word → Bool
  | 0, a, b => decide (a.toNat = b.toNat)
  | 1, a, b => decide (a.toNat ≠ b.toNat)
  | 2, a, b => decide (a.toInt < b.toInt)
  | 3, a, b => decide (a.toInt ≤ b.toInt)
  | 4, a, b => decide (a.toNat < b.toNat)
  | 5, a, b => decide (a.toNat ≤ b.toNat)
  | 6, a, b => decide (Nat.land a.toNat b.toNat ≠ 0)
  | _, _, _ => false

/-- The code of a comparison instruction (R107). -/
def comparison : Instr → Option (FA × Nat)
  | .ceq f => some (f, 0)
  | .cne f => some (f, 1)
  | .clt f => some (f, 2)
  | .cle f => some (f, 3)
  | .cltn f => some (f, 4)
  | .clen f => some (f, 5)
  | .ctst f => some (f, 6)
  | _ => none

/-- Bit i of kD of KAND, KOR and KXOR (R111). -/
def predicate2 : Instr → Option (FA × (Bool → Bool → Bool))
  | .kand f => some (f, fun x y => x && y)
  | .kor f => some (f, fun x y => x || y)
  | .kxor f => some (f, fun x y => x != y)
  | _ => none

/-! ### Vectors -/

/-- The elements of a vector register of width w: those active below `count` are f's, the others the old ones (R125). -/
def lanesAre (v old : VReg) (w count : Nat) (m : Mask) (f : Nat → Nat) : Prop :=
  ∀ n, n < lanesOf w → elem v w n = if m.getLsbD n && decide (n < count) then f n % 2 ^ w else elem old w n

/-- The elements of a group of g registers (R132). -/
def groupIs (vs : List VReg) (old : Nat → VReg) (w g : Nat) (m : Mask) (f : Nat → Nat) : Prop :=
  vs.length = g ∧ ∀ n, n < g * lanesOf w →
    elem (vs.getD (n % g) 0) w (n / g) = if m.getLsbD n then f n % 2 ^ w else elem (old (n % g)) w (n / g)

/-- The flags of the active elements below n, ORed (R127). -/
def flagsOf (n : Nat) (m : Mask) (f : Nat → Flags) : Flags :=
  (List.range n).foldl (fun x i => x ||| if m.getLsbD i then f i else 0) 0

/-- LANES and k[K] of the half at issue: the active elements of a vector instruction (R120). -/
def State.lanesOn (s : State) (f : FL) : Mask := readK s.curHalf f.r.k.toNat &&& s.curHalf.lanes

/-- An enabled exception of a vector instruction traps FPX with the flags in INFO and writes nothing; otherwise the instruction
runs, with what it writes and the flags that it sets as it completes (R101, R124, R127). `fp` where it is floating. -/
def vectorEnds (s : State) (i : Instr) (fp : Bool) (fl : Flags) (writes : Half → Prop) : Prop :=
  (trapping s.curHalf.ctl fl ≠ 0 → exec i s = .next ((raiseIssue s.cur .fpx 0 (zx fl)).run s)) ∧
  (trapping s.curHalf.ctl fl = 0 → ∃ h' : Half, exec i s = .next (s.running i fl fp h') ∧ writes h')

/-- A vector instruction whose result goes to v[D] element by element, with flags. -/
def vectorResult (s : State) (i : Instr) (fp : Bool) (f : FL) (w count : Nat) (lane : Nat → Nat × Flags) : Prop :=
  vectorEnds s i fp (flagsOf (min count (lanesOf w)) (s.lanesOn f) fun n => (lane n).2) fun h' =>
    ∃ v, h' = writeV s.curHalf f.r.d.toNat v
      ∧ lanesAre v (readV s.curHalf f.r.d.toNat) w count (s.lanesOn f) fun n => (lane n).1

/-- A vector instruction that moves patterns to v[D] element by element, raising nothing (R127). -/
def vectorMoves (s : State) (i : Instr) (f : FL) (lane : Nat → Nat) : Prop :=
  ∃ v, exec i s = .next (s.running i 0 false (writeV s.curHalf f.r.d.toNat v)) ∧
    lanesAre v (readV s.curHalf f.r.d.toNat) (typeWidth f.t) (lanesOf (typeWidth f.t)) (s.lanesOn f) lane

/-- The operation of a VARITH minor but VSEL (R130). -/
def vectorOp : Instr → Option (FL × VOp)
  | .vadd f => some (f, .add)
  | .vsub f => some (f, .sub)
  | .vmul f => some (f, .mul)
  | .vfma f => some (f, .fma)
  | .vmin f => some (f, .min)
  | .vmax f => some (f, .max)
  | .vabs f => some (f, .abs)
  | .vneg f => some (f, .neg)
  | .vand f => some (f, .and)
  | .vor f => some (f, .or)
  | .vxor f => some (f, .xor)
  | .vshl f => some (f, .shl)
  | .vshr f => some (f, .shr)
  | .vsar f => some (f, .sar)
  | .vmulh f => some (f, .mulh)
  | _ => none

/-- The operation of a widening minor (R133). -/
def wideOp : Instr → Option (FL × VOp)
  | .vwadd f => some (f, .add)
  | .vwsub f => some (f, .sub)
  | .vwmul f => some (f, .mul)
  | .vwfma f => some (f, .fma)
  | _ => none

/-- The function of a VSFU minor (R149). -/
def sfuOp : Instr → Option (FL × Fun)
  | .vexp2 f => some (f, .exp2)
  | .vlog2 f => some (f, .log2)
  | .vrcp f => some (f, .rcp)
  | .vrsq f => some (f, .rsq)
  | .vtanh f => some (f, .tanh)
  | _ => none

/-- B[i] of a VARITH instruction: the low bits of sB with `.vs`, else the element of v[B] (R128). -/
def State.operandB (s : State) (f : FL) (w n : Nat) : Nat :=
  if f.m.getLsbD 1 then (readS s.curHalf f.r.b.toNat).toNat % 2 ^ w else elem (readV s.curHalf f.r.b.toNat) w n

/-- The rounding of element n (R98, R99). -/
def State.roundingOf (s : State) (f : FL) (n : Nat) : Fp :=
  ⟨ftzOf s.curHalf.ctl, rndOf f.sc (ditherElem s.curHalf.ctl.dito n)⟩

/-- The index operand of VBCAST, VINS and VEXT: sB with `.vs`, else OBJ16 (R141, R150). -/
def State.indexOf (s : State) (f : FL) : Nat := if f.m.getLsbD 1 then (readS s.curHalf f.r.b.toNat).toNat else f.obj.toNat

/-- The active elements of v[A] by rising index, as patterns. -/
def State.activeOf (s : State) (f : FL) (r : Nat) : List Nat :=
  ((List.range (lanesOf (typeWidth f.t))).filter fun n => (s.lanesOn f).getLsbD n).map (elem (readV s.curHalf r) (typeWidth f.t))

/-! ### Matrices -/

/-- The forms of an MMUL: its fields, its shape, its minor (R155, R158). -/
def mmulOf : Instr → Option (FL × (State → Nat → Option Shape) × MKind)
  | .mmaL f => some (f, fun s p => s.shapeL p f, ⟨false, false, false⟩)
  | .mmaX f => some (f.l, fun s p => s.shapeX p f, ⟨false, false, false⟩)
  | .mmarL f => some (f, fun s p => s.shapeL p f, ⟨true, true, false⟩)
  | .mmarX f => some (f.l, fun s p => s.shapeX p f, ⟨true, true, false⟩)
  | .mmagL f => some (f, fun s p => s.shapeL p f, ⟨false, true, true⟩)
  | .mmagX f => some (f.l, fun s p => s.shapeX p f, ⟨false, true, true⟩)
  | .mmagrL f => some (f, fun s p => s.shapeL p f, ⟨true, true, true⟩)
  | .mmagrX f => some (f.l, fun s p => s.shapeX p f, ⟨true, true, true⟩)
  | _ => none

/-- The objects that an MMUL names (R155). -/
def mmulObjs : Instr → List Nat
  | .mmaL f | .mmarL f | .mmagL f | .mmagrL f => [f.obj.toNat]
  | .mmaX f | .mmarX f | .mmagX f | .mmagrX f => [f.l.obj.toNat, f.lit.toNat % 2 ^ 16]
  | _ => []

/-- The task at issue. -/
def State.curTask (s : State) : Task := (s.task? s.curHalf.tid).getD (Task.fresh 0 0 0 Act.blank 0)

/-- The machine after an MMUL has gone to the matrix unit: its accumulator is empty, and it stays in the replay queue
(R80, R153). -/
def State.sentMop (s : State) (i : Instr) (o : MOp) (mask : Mask) : State :=
  (s.cored s.curCore fun x => { x with mops := x.mops ++ [o] }).begunWith i (markEmpty s.curHalf (.a o.acc)) mask

/-- An accumulator result that arrives later: the accumulator is empty until then (R167). -/
def State.sentAcc (s : State) (i : Instr) (f : FL) (a : Acc) (fl : Flags) : State :=
  (s.filled (.a (accD f) a) fl).begun i (markEmpty s.curHalf (.a (accD f)))

/-- The accumulator that D names, as it is. -/
def State.accAt (s : State) (f : FL) : Acc := readA s.curHalf (accD f)

/-- The ABFT compare of an instruction finds nothing (R165). -/
def State.abftClean (s : State) (f : FL) : Bool :=
  decide (abftCompare (s.curHalf.ctl.abftp.getLsbD 0) (s.accAt f) = ⟨s.accAt f, 0, false⟩)

/-- The half of a matrix operation's task once the operation has completed: its accumulator is full, and its replay entry has
left (R80, R153). -/
def accFilled (o : MOp) (h : Half) : Half := markFull { h.leave o.seq with block := h.block.woken } (.a o.acc)

/-! ### Memory -/

/-- The words that stay uncorrectable after bytes of a range have been written: all but those that have a byte of it (R347). -/
def State.unspoilt (s : State) (sp : List Nat) (a n : Nat) : Prop :=
  ∀ w, w ∈ sp ↔ w ∈ s.spoilt ∧ ∀ x, a ≤ x → x < a + n → x / 8 * 8 ≠ w

/-- The effective address of a memory instruction (R195). -/
def State.eaOf (s : State) (f : FL) : Word :=
  readS s.curHalf f.r.a.toNat + (sx f.obj + (if f.m.getLsbD 0 then readS s.curHalf f.r.b.toNat else 0))

/-- A local access of `size` bytes passes the checks of R195 and R197: aligned, inside the scratchpad, outside the staging
area, held by no lock, and with nothing of the task outstanding on its bytes. -/
def State.localOk (s : State) (i : Instr) (ea : Word) (size align : Nat) (write : Bool) : Bool :=
  decide (ea.toNat % align = 0) && decide (ea.toNat + size ≤ 0x40000) && !s.stagingHits s.curCore ea.toNat size
    && decide (s.lockCause s.curCore ea.toNat (ea.toNat + size - 1) write (whoOf (s.seen i)) = none)
    && !s.pendingScratch s.curHalf.tid s.curCore s.curCore ea.toNat size write

/-- The local accesses: fields, bytes, alignment, whether it stores (R198, R199). -/
def localAccess : Instr → Option (FL × Nat × Nat × Bool)
  | .ld f => some (f, 2 ^ f.sc.toNat, 2 ^ f.sc.toNat, false)
  | .st f => some (f, 2 ^ f.sc.toNat, 2 ^ f.sc.toNat, true)
  | .ldv f => some (f, 512, 64, false)
  | .stv f => some (f, 512, 64, true)
  | .ldk f => some (f, 128, 8, false)
  | .stk f => some (f, 128, 8, true)
  | _ => none

/-- The machine after an instruction has issued whose value is still to come: its register is empty until then, and it keeps a
replay entry with a mask (R78, R80). -/
def State.awaits (s : State) (i : Instr) (r : Reg) (mask : Mask) : State := s.begunWith i (markEmpty s.curHalf r) mask

/-- A remote access leaves the core (R196). -/
def State.remoted (s : State) (i : Instr) (ea : Word) (op : RemOp) (nore : Bool) : State :=
  let t := clusterAddr s.curCore ea
  s.netted fun n => { n with
    nextId := n.nextId + 1
    remotes := n.remotes ++ [⟨n.nextId, s.cur, s.curHalf.tid, s.curHalf.seq, s.curCore, t.1, t.2, ea, op,
      { (s.seen i).entry with nore := nore }⟩] }

/-- A cluster address of an aligned access lies in the cluster's window (R195), and nothing of the task is outstanding on
its bytes (R197). -/
def State.remoteOk (s : State) (ea : Word) (n : Nat) (write : Bool) : Bool :=
  decide (ea.toNat % n = 0) && decide (wbits ea 63 25 = 0)
    && !s.pendingScratch s.curHalf.tid s.curCore (clusterAddr s.curCore ea).1 (clusterAddr s.curCore ea).2 n write

/-- A shared access is aligned, below 2^56, and nothing of the task is outstanding on its bytes (R195, R197). -/
def State.sharedOk (s : State) (ea : Word) (align n : Nat) (write : Bool) : Bool :=
  decide (ea.toNat % align = 0) && decide (wbits ea 63 56 = 0) && !s.pendingShared s.curHalf.tid ea.toNat n write

/-- A shared request leaves the core (R187). -/
def State.requested (s : State) (i : Instr) (acc : Access) (reg : Nat) (ea : Word) (lines : List Nat) (touch : List (BitVec 64))
    (f : Req → Req) : State :=
  s.netted fun n => { n with
    nextId := n.nextId + 1
    reqs := n.reqs ++ [f (sharedReq s (s.seen i) n.nextId acc reg ea.toNat lines touch)] }

/-- The line of an address. -/
def lineAt (ea : Word) : Nat := ea.toNat / 64 * 64

/-- A request that waits for the quantum's end in a deterministic partition (R44, R341). -/
def State.deferring (s : State) (held : Bool) : State :=
  let d : Deferred := ⟨s.cur, s.curHalf.tid, s.curHalf.seq, true⟩
  { s with deferred := if held && s.detCore s.curCore && !s.deferred.contains d then s.deferred ++ [d] else s.deferred }

/-- The machine after pages have been looked up for clusters, each of a list of clusters with page addresses (R214). -/
def State.installed (s : State) (p : Party) : List (Nat × Nat) → State
  | [] => s
  | x :: l => State.installed ((install { p with cluster := x.1 } x.2).run s) p l

/-- The pages that hold a byte of a tile's rows in shared memory (R214). -/
def tilePages (a rows stride rowLen : Nat) : List Nat := ((List.range rows).flatMap fun r =>
  let x := a + r * stride
  if rowLen = 0 then [] else (List.range ((x + rowLen - 1) / 4096 + 1 - x / 4096)).map fun i => (x / 4096 + i) * 4096).eraseDups

/-- The writes in flight that a predicate takes have been seen at a scope since a number (R231, R232). -/
def markedSeen (scope id : Nat) (sel : Req → Bool) (l : List Req) : List Req :=
  l.map fun q => if q.acc.writes && sel q then { q with seen := (scope, id) :: q.seen } else q

/-- The same of the writes that atomic engines make. -/
def markedAtoms (scope id : Nat) (sel : AtomReq → Bool) (l : List AtomReq) : List AtomReq :=
  l.map fun q => if !q.widen && sel q then { q with seen := (scope, id) :: q.seen } else q

/-- An address and its line are translated by a range entry for the core at issue (R187). -/
def State.ranged (s : State) (ea : Word) : Bool := [ea.toNat, lineAt ea].all fun a =>
  (rangeHit (s.station (stationOf (clusterOf s.curCore) a)) (s.party s.curCore).asid a).isSome

/-- The task has no staged store (R181). -/
def Task.unstaged (t : Task) : Bool := t.lines.isEmpty && decide (t.writeSig = 0)

/-! ### Messages and tasks -/

/-- Where the status of the instruction at issue goes. -/
def State.destFor (s : State) (r : BitVec 5) : Dest := ⟨s.cur, s.curHalf.tid, s.curHalf.seq, r.toNat⟩

/-- A status word on its way to its register (R78, R255). -/
def State.answered (s : State) (d : Dest) (w : Word) : State := s.netted fun n =>
  { n with fills := n.fills ++ [⟨d.hid, d.tid, d.seq, .s d.reg w, 0, none, false, none, none⟩] }

/-- The tag that a message of the task at issue carries to cores of its cluster (R254). -/
def State.tagFor (s : State) (same : Bool) : Option Nat :=
  if same && !isKernel s.curCore then s.curTask.tag.map (·.toNat) else none

/-- The activation of a message that the task at issue sends (R242, R243, R254): its reef and timestamp, its core as
sender and reply endpoint, and C as the reply handler. -/
def State.messageOf (s : State) (f : FL) (tag : Option Nat) (engine : Bool) (haddr : Nat) : Act :=
  let n := f.m.toNat % 8
  { Act.blank with
    msg := ⟨h0Of n f.sc.toNat tag engine haddr, h1Of s.curTask.reef s.curTask.ts, h2Of (s.coreEndpoint s.curCore) (s.coreEndpoint s.curCore),
      word (wbits (readS s.curHalf f.c.toNat) 55 2), (List.range n).map fun j => readS s.curHalf (f.r.b.toNat + j)⟩
    launch := tag.map fun g => 8 * clusterOf s.curCore + g }

/-- The half at issue after an instruction whose status comes later: sD is empty (R78). -/
def State.emptied (s : State) (r : BitVec 5) : Half := markEmpty s.curHalf (.s r.toNat)

/-- A status word on its way to a destination stands among the values in flight. -/
def State.owes (s : State) (d : Dest) (w : Word) : Bool :=
  s.net.fills.any fun f => decide (f.hid = d.hid ∧ f.tid = d.tid ∧ f.seq = d.seq ∧ f.value = .s d.reg w)

/-- A status word stands in its register, full, where the task that asked for it is in the half (R78, R219). -/
def State.statusIn (s t : State) (d : Dest) (w : Word) : Prop :=
  (s.half d.hid).tid = d.tid → (s.half d.hid).occ = .live → s.floorOf d.tid ≤ d.seq → 1 ≤ d.reg → d.reg < 32 →
    readS (t.half d.hid) d.reg = w ∧ isFull (t.half d.hid) (.s d.reg) = true ∧ isBusy (t.half d.hid) (.s d.reg) = false

/-- The launch of the task at issue, by its tag (R22); none on a kernel core. -/
def State.launchOf (s : State) : Option Nat :=
  if isKernel s.curCore then none else s.curTask.tag.map fun g => 8 * clusterOf s.curCore + g.toNat

/-- The bytes of an object's range that lies in a scratchpad of the task's cluster (R291), none of them behind a store of the
task that has not landed, held by a lock, or in error (R185, R197, R296). -/
def State.rangeBytes (s : State) (o : Obj) (n : Nat) : Option (List Byte) :=
  let w := nth o.body 0
  let t := clusterAddr s.curCore (word (wbits w 55 0))
  if w.getLsbD 63 && wbits w 55 25 == 0 && decide (t.2 + n ≤ 0x40000) && s.ownsCore s.curTask.part t.1
      && !s.storesTo s.curHalf.tid none t.1 t.2 n && s.sound
      && decide (s.lockCause t.1 t.2 (t.2 + n - 1) false ⟨s.curHalf.tid, s.curTask.part, s.curTask.reef.toNat⟩ = none)
  then some (s.scratch t.1 t.2 n) else none

/-- An access of the task at issue to lines of the package does not wait behind what is held or on its way there (R230, R232,
R237). -/
def State.unheld (s : State) (pas : List Nat) : Bool :=
  !pas.any fun pa => s.homeHeld pa || s.behind s.curCore s.net.nextId pa true false

/-- The bytes that the task at issue reads of shared memory, nothing of it being staged, none of them behind a write or in error
(R185, R230, R289). -/
def State.sharedBytes (s : State) (i : Instr) (va n : Nat) : Option (List Byte) :=
  if 2 ^ 56 < va + n ∨ s.curTask.lines ≠ [] ∨ s.sound = false then none
  else match s.reachLines (s.party s.curCore) (whoOf (s.seen i)) .read (touchesOf va n) with
    | .ok pas => if s.unheld pas then some (((pas.flatMap fun a => memBytes s.mem a 64).drop (va % 64)).take n) else none
    | _ => none

/-! ### Ratline loops, jibs and system operations -/

/-- The machine with a partition changed. -/
def State.parted (s : State) (n : Nat) (f : Part → Part) : State := { s with parts := tset s.parts n ((s.part? n).map f) }

/-- The cell address of RLRSV, RLLD and RLST (R324). -/
def State.cellOf (s : State) (f : FL) : Word := readS s.curHalf f.r.a.toNat + readS s.curHalf f.r.b.toNat

/-- A list of words with one more, once. -/
def withWord (l : List Word) (a : Word) : List Word := if l.contains a then l else l ++ [a]

/-- The loop of a partition that runs (R318). -/
def State.loopOf (s : State) (n : Nat) : Option Loop := (s.part? n).bind (·.loop)

/-- The fields of a jib instruction (R303). -/
def jibOf : Instr → Option JibIns
  | .jibA slot f => some (jibInsA slot f)
  | .jibL slot f => some (jibInsL slot f)
  | _ => none

/-- The half at issue with a jib in progress, SSW.JST being 1 (R303). -/
def State.jibbed (s : State) (j : JibRun) : State :=
  s.halved { s.curHalf with jib := some j, ctl := { s.curHalf.ctl with jst := 1 } }

/-- A jib starts in a set that is resident: its cluster counts it, and the set's entry of the binding table has a new last start
(R314, R340). -/
def State.jibStarted (s : State) (n : Nat) : State := (s.clustered (clusterOf s.curCore) (·.counting 0x0C 1)).clustered (clusterOf s.curCore) fun k =>
  { k with jibs := tmap (fun _ r => if r.part == s.curTask.part && r.set == n then { r with lastStart := s.clock.clk } else r) k.jibs }

/-- The set that the jib of the half at issue runs in: the one found at its set check, or the one bound now (R303, R313). -/
def State.jibFound (s : State) : Option (Nat × JibSet) :=
  (s.curHalf.jib.bind (·.found)).orElse fun _ => s.jibSet s.curTask.part

/-- The jib with which the half at issue goes on in a set: the one in progress, or one at its first micro-op (R303, R315). -/
def State.jibGoes (s : State) (q : JibIns) (x : Nat × JibSet) : JibRun :=
  match s.curHalf.jib with
  | some j => if s.curHalf.ctl.jst = 1 then { j with found := some x } else JibRun.fresh q.slot x
  | none => JibRun.fresh q.slot x

/-- A jib of the half at issue is in progress. -/
def State.inJib (s : State) : Bool := s.curHalf.ctl.jst == 1 && s.curHalf.jib.isSome

/-- The machine, the set and the jib of the half at issue as its next micro-op starts, where it has a set that is
resident (R303, R313, R315): a jib that starts is recorded as the set's last start (R314). -/
def State.jibNow (s : State) (q : JibIns) : Option (State × JibSet × JibRun) :=
  match s.jibFound with
  | none => none
  | some x =>
    if !s.resident (clusterOf s.curCore) s.curTask.part x.1 then none
    else some (if s.inJib then s else (s.jibStarted x.1).jibbed (s.jibGoes q x), x.2, s.jibGoes q x)

/-- The machine once the jib of the half at issue has left: a set that is not bound any more leaves the cluster with the
last jib in it (R313). -/
def State.jibLeft (s : State) : State :=
  let s' := s.halved s.curHalf.leftJib
  match s.curHalf.jib.bind (·.found) with
  | some x => (dropSet (clusterOf s.curCore) s.curTask.part x.1).run s'
  | none => s'

/-- The value of a scalar micro-op of two sources (R306, 11 to 20): `x` is h[X], `y` is h[Y], `z` the second source. -/
def jibValue (op aux : Nat) (x y z : Word) : Word :=
  match op with
  | 11 => word (y.toNat + z.toNat)
  | 12 => wordI (y.toInt - z.toInt)
  | 13 => word (Nat.land y.toNat z.toNat)
  | 14 => word (Nat.lor y.toNat z.toNat)
  | 15 => word (Nat.xor y.toNat z.toNat)
  | 16 => (match aux % 4 with
    | 0 => word (y.toNat * 2 ^ (z.toNat % 64))
    | 1 => word (y.toNat / 2 ^ (z.toNat % 64))
    | 2 => wordI (y.toInt / (2 ^ (z.toNat % 64) : Nat))
    | _ => word (y.toNat * 2 ^ (z.toNat % 64) % 2 ^ 64 + y.toNat / 2 ^ (64 - z.toNat % 64)))
  | 17 => if condition (aux % 8) y z then 1 else 0
  | 18 => if x.toNat % 2 = 1 then y else z
  | 19 => if aux % 2 = 1 then word (min y.toNat z.toNat) else wordI (min y.toInt z.toInt)
  | _ => if aux % 2 = 1 then word (max y.toNat z.toNat) else wordI (max y.toInt z.toInt)

/-- The half at issue after a micro-op: the jib stands at the next one (R306). -/
def State.microed (s : State) (j : JibRun) (h : Half) : State :=
  s.halved { h with jib := some j, block := .none, refusedAt := none }

/-- A SYS instruction answers in sD: CODE in [7:0] and VALUE in [63:32] (R290). -/
def State.statused (s : State) (d : BitVec 5) (code value : Nat) : State :=
  s.retired 1 ((writeS s.curHalf d.toNat (word (value * 2 ^ 32 + code))).supersede s.curHalf.seq [.s d.toNat])

/-- The half at issue after a SYS instruction that answers in sD. -/
def State.statusHalf (s : State) (d : BitVec 5) (code value : Nat) : Half :=
  ((writeS s.curHalf d.toNat (word (value * 2 ^ 32 + code))).supersede s.curHalf.seq [.s d.toNat]).stepped 1

/-- Shared bytes at a line's address may be written by the task at issue, at these lines of the package, which lie apart,
each translated by a range entry (R187 to R191, R289). -/
def State.sharedRoom (s : State) (i : Instr) (va n : Nat) (pas : List Nat) : Bool :=
  decide (va % 64 = 0) && decide (va + n ≤ 2 ^ 56)
    && decide (s.reachLines (s.party s.curCore) (whoOf (s.seen i)) .write (touchesOf va n) = .ok pas)
    && (linesOf va n).all (fun l => (rangeHit (s.station (stationOf (clusterOf s.curCore) l)) (s.party s.curCore).asid l).isSome)
    && decide (pas.Pairwise fun a b => a + 64 ≤ b ∨ b + 64 ≤ a) && s.unheld pas

/-- Memory holds bytes at lines of the package, and is otherwise as it was. -/
def State.holdsAt (s t : State) (pas : List Nat) (bs : List Byte) : Prop :=
  (∀ j pa k, pas[j]? = some pa → k < 64 → 64 * j + k < bs.length → memGet t.mem (pa + k) = bs.getD (64 * j + k) 0)
  ∧ ∀ a, (∀ pa ∈ pas, a < pa ∨ pa + 64 ≤ a) → memGet t.mem a = memGet s.mem a

/-- A heap's map stands in memory of its own: the translation of its bytes does not depend on memory, and no two of them
share an address (R225). -/
def State.heapMapped (s : State) (part : Nat) (p : Image) : Prop :=
  ∀ g, g < heapGranules p.heapSize.toNat → ∃ a, (∀ m, { s with mem := m }.devicePa part (p.mapVa g) = some a) ∧
    s.inRatBank a = false ∧ ∀ i, i < heapGranules p.heapSize.toNat → s.devicePa part (p.mapVa i) = some a → p.mapVa i = p.mapVa g

/-- Words as bytes in memory order. -/
def bytesOf (l : List Word) : List Byte := l.flatMap fun w => toBytes 8 w.toNat

/-! ### Stations, homes and engines -/

/-- A message of one payload that a command asks for in its reply fields stands among the messages in flight (R189,
R246, R297): none where the command names no endpoint of a core of this package. -/
def State.replied (s t : State) (c : StCmd) (s1 : Word) : Prop :=
  let ep := word (wbits c.h2 63 32)
  wbits c.h2 63 32 ≠ noReply → epPkg ep = s.package.id.toNat → epKind ep ≤ 1 →
    ∃ act : Act, act.msg.pay = [s1] ∧ t.net.msgs = s.net.msgs ++ [⟨deviceSrc, epCore ep, 0, act, none, none⟩]

/-- A message of the device to a kernel core at priority 3 with these payload words. -/
def State.tells (s t : State) (core : Nat) (pay : List Word) : Prop :=
  ∃ act : Act, act.msg.pay = pay ∧ t.net.msgs = s.net.msgs ++ [⟨deviceSrc, core, 3, act, none, none⟩]

/-- The value that an integer atomic operation writes over `old`, words of n bytes as numbers; none where it writes
nothing (R206, operations 0 to 9). -/
def atomValue (op n : Nat) (old b c : Nat) : Option Nat :=
  match op with
  | 0 => some ((old + b) % 2 ^ (8 * n))
  | 1 => some (if sval (8 * n) old ≤ sval (8 * n) b then old else b)
  | 2 => some (if sval (8 * n) b ≤ sval (8 * n) old then old else b)
  | 3 => some (if old ≤ b then old else b)
  | 4 => some (if b ≤ old then old else b)
  | 5 => some (Nat.land old b)
  | 6 => some (Nat.lor old b)
  | 7 => some (Nat.xor old b)
  | 8 => some b
  | _ => if old = b then some c else none

/-- Memory holds a number of n bytes at an address, where one is given, and is otherwise as it was. -/
def State.wroteAt (s t : State) (a n : Nat) (v : Option Nat) : Prop :=
  memNat t.mem a n = v.getD (memNat s.mem a n) ∧ ∀ x, x < a ∨ a + n ≤ x → memGet t.mem x = memGet s.mem x

end Sys2Proof.Machine
end

