-- ==== Sys2Proof/Certificates/Slice0/Obligations.lean ====
section
/-! DEFINITION. The statements for the provers. -/
open Sys2Proof Sys2Proof.Machine

/-! ### Encoding -/

/-- R56, R59, R70 to R74. Decoding the parcels of any well-formed instruction, whatever parcels follow, gives back that
instruction with every field, and what follows. -/
def Obligations.DecodeEncode : Prop :=
  ∀ (i : Instr) (rest : List Parcel), i.isInstruction = true → i.wf = true → decode (encode i ++ rest) = .ok (i, rest)

/-- Words written out from the encoding tables (R59, R70 to R74, R213), one of most formats. -/
def Obligations.DecodeWords : Prop :=
  decode [0x002A2B00] = .ok (.add ⟨0, false, false, 10, 17, 11⟩, [])
    ∧ decode [0x000000F0] = .ok (.nop, [])
    ∧ decode [0x5000033C] = .ok (.trap ⟨0, false, false, 0, 0, 3⟩, [])
    ∧ decode [0x00000003] = .error .header
    ∧ decode [0x000000C4, 0] = .error .undefinedMajor
    ∧ decode [0x70000004] = .error .undefinedMinor

/-! ### A step -/

/-- R23, R56, R57, R76 (order of the checks before an instruction runs): when a half takes its turn, its core issues
from one of its two halves: the older where both have an instruction ready, and of two equally old ones the one that
did not issue last. Where that half stands, between instructions, before the parcels of a well-formed instruction
that its block holds, the step runs that instruction on the machine that the half's preparation leaves. The model's
choices in it: logs 2, 13. -/
def Obligations.StepRunsInstruction : Prop :=
  (∀ (s : State) (turn : Nat) (ecc : Ecc) (rest : List Sched) (i : Instr), s.package.lost = false →
    s.agenda = .issue turn ecc :: rest → i.isInstruction = true → i.wf = true →
    let u : State := { tick s with agenda := rest, data := { EventData.none with ecc := ecc } }
    let hid := u.issuer turn
    let t := (prepare hid).run { u with cur := hid }
    let h := t.half hid
    t.idleHalf hid h = false → h.reissue = none → h.roff + parcelCount i ≤ hdrBlen h.hdrWord →
    (∀ n, n < parcelCount i → fetchParcel t (coreOf hid) (pcOf h + word (4 * n)) = .ok ((encode i).getD n 0)) →
    step s = exec i t)
  ∧ (∀ (s : State) (hid : Nat), (s.half hid).occ = .live → (s.half (otherHalf hid)).occ = .live →
    s.issuable hid = true → s.issuable (otherHalf hid) = true →
    let age := (s.half hid).age
    let age' := (s.half (otherHalf hid)).age
    (age < age' ∨ age = age' ∧ (s.core (coreOf hid)).issued ≠ hid % 2) → (s.core (coreOf hid)).issued < 2 →
    s.issuer hid = hid ∧ s.issuer (otherHalf hid) = hid)
  ∧ (∀ (s : State) (hid : Nat), s.issuable (otherHalf hid) = false → s.issuer hid = hid)

/-- (spec/95) An event at the head of the agenda happens to the machine with the event's data, and an instruction
never happens as an event; a package that is lost does nothing more (R353). The model's choice in it: log 2. -/
def Obligations.StepRunsEvent : Prop :=
  ∀ (s : State) (i : Instr) (d : EventData) (rest : List Sched), s.agenda = .event i d :: rest →
    (s.package.lost = true → step s = .fault .packageLost) ∧
    (s.package.lost = false → i.isInstruction = false → step s = exec i { tick s with agenda := rest, data := d }) ∧
    (s.package.lost = false → i.isInstruction = true → step s = .next { tick s with agenda := rest })

/-- The invariant of the model's data (logs 7 and 2): every step keeps memory canonical and every table rising. The
model's choices in it: logs 2, 7. -/
def Obligations.StepKeepsCanonical : Prop :=
  ∀ s t : State, s.canonical = true → step s = .next t → t.canonical = true

/-- The invariant of StepKeepsCanonical holds at reset: no byte of memory is listed, every table is rising. The
model's choices in it: logs 1, 7. -/
def Obligations.ResetIsCanonical : Prop := State.reset.canonical = true

/-! ### Scalar instructions -/

/-- R104, R105, R106, R109, R110, R112, R113. A ready SALU, SMUL, immediate or shift instruction retires with sD holding
its value, s0 never changing (R62), and changes nothing else but the counts of a retirement; the value of a multiplication
or division is in flight until the instruction, which keeps a replay entry, completes. MOVL, MOVL.hi and LEA. The model's
choice in it: log 9. -/
def Obligations.ScalarResults : Prop :=
  (∀ (i : Instr) (f : FA) (op : Word → Word → Word) (s : State), scalar2 i = some (f, op) → s.runs i = true →
    let h := writeS s.curHalf f.d.toNat (op (readS s.curHalf f.a.toNat) (readS s.curHalf f.b.toNat))
    exec i s = .next (if longScalar i then s.running i 0 false h else s.ran i h))
  ∧ (∀ (i : Instr) (f : FA) (op : Word → Nat) (s : State), scalar1 i = some (f, op) → s.runs i = true →
    exec i s = .next (s.ran i (writeS s.curHalf f.d.toNat (word (op (readS s.curHalf f.a.toNat))))))
  ∧ (∀ (i : Instr) (f : FI) (op : Word → Int → Word) (s : State), scalarI i = some (f, op) → s.runs i = true →
    exec i s = .next (s.ran i (writeS s.curHalf f.d.toNat (op (readS s.curHalf f.a.toNat) f.imm.toInt))))
  ∧ (∀ (i : Instr) (f : FS) (op : Word → Nat → Word) (s : State), scalarS i = some (f, op) →
    s.runs i = true →
    exec i s = .next (s.ran i (writeS s.curHalf f.d.toNat (op (readS s.curHalf f.a.toNat) f.amt.toNat))))
  ∧ (∀ (min : BitVec 4) (f : FX) (s : State), s.runs (.movl min f) = true →
    exec (.movl min f) s = .next (s.ran (.movl min f) (writeS s.curHalf f.l.r.d.toNat
      (if f.l.t.toNat = 5 then wordI f.lit.toInt else word f.lit.toNat))))
  ∧ (∀ (min : BitVec 4) (f : FX) (s : State), s.runs (.movlHi min f) = true →
    exec (.movlHi min f) s = .next (s.ran (.movlHi min f) (writeS s.curHalf f.l.r.d.toNat
      (word (f.lit.toNat * 2 ^ 32 + (readS s.curHalf f.l.r.d.toNat).toNat % 2 ^ 32)))))
  ∧ (∀ (min : BitVec 4) (f : FL) (s : State), s.runs (.leaL min f) = true →
    exec (.leaL min f) s = .next (s.ran (.leaL min f) (writeS s.curHalf f.r.d.toNat (wordI
      ((readS s.curHalf f.r.a.toNat).toInt
        + (if f.m.getLsbD 0 then (readS s.curHalf f.r.b.toNat).toInt * (2 ^ f.sc.toNat : Nat) else 0) + f.obj.toInt)))))
  ∧ (∀ (min : BitVec 4) (f : FX) (s : State), s.runs (.leaX min f) = true →
    exec (.leaX min f) s = .next (s.ran (.leaX min f) (writeS s.curHalf f.l.r.d.toNat (wordI
      ((readS s.curHalf f.l.r.a.toNat).toInt
        + (if f.l.m.getLsbD 0 then (readS s.curHalf f.l.r.b.toNat).toInt * (2 ^ f.l.sc.toNat : Nat) else 0)
        + f.lit.toInt)))))

/-- R107, R108, R111. A comparison writes its result to every bit of kD, a write to k0 being discarded (R62), and CMPI with
condition 7 traps ILL; the predicate instructions, bit by bit. -/
def Obligations.ComparisonsAndPredicates : Prop :=
  (∀ (i : Instr) (f : FA) (code : Nat) (s : State), comparison i = some (f, code) → s.runs i = true →
    exec i s = .next (s.ran i (writeK s.curHalf (f.d.toNat % 8)
      (if condition code (readS s.curHalf f.a.toNat) (readS s.curHalf f.b.toNat) then BitVec.allOnes 1024 else 0))))
  ∧ (∀ (f : FI) (s : State), s.runs (.cmpi f) = true →
    exec (.cmpi f) s = .next (s.ran (.cmpi f) (writeK s.curHalf (f.d.toNat % 8)
      (if condition (f.imm.toNat / 1024) (readS s.curHalf f.a.toNat) (wordI (sval 10 (f.imm.toNat % 1024)))
       then BitVec.allOnes 1024 else 0))))
  ∧ (∀ (f : FI) (s : State), s.between = true → s.absent s.curHalf (.cmpi f) = false → f.imm.toNat / 1024 = 7 →
    exec (.cmpi f) s = .next ((raiseIssue s.cur .ill 0 0).run s))
  ∧ (∀ (i : Instr) (f : FA) (op : Bool → Bool → Bool) (s : State), predicate2 i = some (f, op) →
    s.runs i = true →
    ∃ m : Mask, exec i s = .next (s.ran i (writeK s.curHalf (f.d.toNat % 8) m)) ∧
      ∀ n, n < 1024 → m.getLsbD n =
        op ((readK s.curHalf (f.a.toNat % 8)).getLsbD n) ((readK s.curHalf (f.b.toNat % 8)).getLsbD n))
  ∧ (∀ (f : FA) (s : State), s.runs (.knot f) = true →
    ∃ m : Mask, exec (.knot f) s = .next (s.ran (.knot f) (writeK s.curHalf (f.d.toNat % 8) m)) ∧
      ∀ n, n < 1024 → m.getLsbD n = !(readK s.curHalf (f.a.toNat % 8)).getLsbD n)
  ∧ (∀ (f : FA) (s : State), s.runs (.kmovs f) = true →
    ∃ m : Mask, exec (.kmovs f) s = .next (s.ran (.kmovs f) (writeK s.curHalf (f.d.toNat % 8) m)) ∧
      ∀ n, n < 1024 → m.getLsbD n = if n / 64 = f.b.toNat % 16 then (readS s.curHalf f.a.toNat).getLsbD (n % 64)
        else (readK s.curHalf (f.d.toNat % 8)).getLsbD n)
  ∧ (∀ (f : FA) (s : State), s.runs (.kmovk f) = true →
    ∃ w : Word, exec (.kmovk f) s = .next (s.ran (.kmovk f) (writeS s.curHalf f.d.toNat w)) ∧
      ∀ n, n < 64 → w.getLsbD n = (readK s.curHalf (f.a.toNat % 8)).getLsbD (64 * (f.b.toNat % 16) + n))
  ∧ (∀ (f : FA) (s : State), s.runs (.kpopc f) = true →
    exec (.kpopc f) s = .next (s.ran (.kpopc f) (writeS s.curHalf f.d.toNat
      (word ((List.range 1024).filter fun n => (readK s.curHalf (f.a.toNat % 8)).getLsbD n).length))))
  ∧ (∀ (f : FA) (s : State), s.runs (.kfirst f) = true →
    ∃ w : Word, exec (.kfirst f) s = .next (s.ran (.kfirst f) (writeS s.curHalf f.d.toNat w)) ∧
      (w = wordI (-1) ∧ readK s.curHalf (f.a.toNat % 8) = 0 ∨
       w.toNat < 1024 ∧ (readK s.curHalf (f.a.toNat % 8)).getLsbD w.toNat = true ∧
         ∀ n, n < w.toNat → (readK s.curHalf (f.a.toNat % 8)).getLsbD n = false))

/-! ### Issue -/

/-- R17, R75, R76, R289, R57. Of a half between instructions, an instruction that needs an absent unit traps ABSENT;
else a system instruction in a compute core traps PRIV; else one that breaks a rule of its encoding, or of R75 in
this state, traps ILL. When the last instruction of a block falls through and the parcel after the block begins no
header, it does not run: it traps BADTGT with that parcel's address. The model's choices in it: logs 12, 99. -/
def Obligations.IssueTraps : Prop :=
  (∀ (i : Instr) (s : State), (operands i).isSome = true → s.between = true →
    let h := s.curHalf
    let priv := isSys i && !isKernel s.curCore
    let bad := !i.wf || (match s.task? h.tid with | some t => s.illNow h t i | none => false)
    (s.absent h i = true → exec i s = .next ((raiseIssue s.cur .absent 0 0).run s)) ∧
    (s.absent h i = false → priv = true → exec i s = .next ((raiseIssue s.cur .priv 0 0).run s)) ∧
    (s.absent h i = false → priv = false → bad = true → exec i s = .next ((raiseIssue s.cur .ill 0 0).run s)))
  ∧ (∀ (i : Instr) (s : State) (p : Parcel), (operands i).isSome = true → s.between = true → s.allowed i = true →
    fallsThrough i = true → predicateOn s.curHalf (operandsOf i) = true →
    sourcesReady s.curHalf (s.reads s.cur i (operandsOf i)) = true → destsReady s.curHalf (operandsOf i).dsts = true →
    s.curHalf.spares.length + (s.curHalf.newVersions (operandsOf i).vectors (operandsOf i).dsts).length ≤ 8 →
    (isAccess i && s.acquiring s.curHalf.tid) = false →
    s.curHalf.roff + parcelCount i = hdrBlen s.curHalf.hdrWord →
    fetchParcel s s.curCore (pcOf s.curHalf + word (4 * parcelCount i)) = .ok p → isHeaderParcel p = false →
    exec i s = .next ((raiseIssue s.cur .badtgt (pcOf s.curHalf + word (4 * parcelCount i)) 0).run s))

/-- R63, R64, R73, R76, R78, R279. A scalar instruction whose predicate has bit 0 clear retires and has no other effect,
where code goes on after it; a TRET so retired raises no BKPT of single-stepping. A predicate register that is empty or in
flight makes the half wait. With the predicate on, the first source that is empty traps EMPTY where its W bit is
set, INFO being 32 times the field and the register, and makes the half wait where it is clear; a source that is in flight
makes it wait; with every source ready, an empty destination makes it wait, and so does a write of a pinned vector register
when the eight spare versions are in use (R80). A half that waits changes nothing else. Every hint, named or not, retires and
changes no value; it needs nothing after it (log 12). The model's choices in it: logs 11, 12. -/
def Obligations.HintsAndWaits : Prop :=
  (∀ (i : Instr) (s : State), (operands i).isSome = true → s.between = true → s.allowed i = true →
    (operandsOf i).scalar = true → (s.curHalf.ctl.ss = false ∨ isTret i = true) → s.continues (parcelCount i) = true →
    isFull s.curHalf (.k ((operandsOf i).k.getD 0).toNat) = true → isBusy s.curHalf (.k ((operandsOf i).k.getD 0).toNat) = false →
    bit0 (readK s.curHalf ((operandsOf i).k.getD 0).toNat) = false →
    exec i s = .next (s.retired (parcelCount i) s.curHalf))
  ∧ (∀ (i : Instr) (s : State) (k : BitVec 3), (operands i).isSome = true → s.between = true → s.allowed i = true →
    (operandsOf i).k = some k → k ≠ 0 →
    (isFull s.curHalf (.k k.toNat) = false ∨ isBusy s.curHalf (.k k.toNat) = true) →
    exec i s = .next (s.halved { s.curHalf with block := .register }))
  ∧ (∀ (i : Instr) (s : State) (before after : List Src) (x : Src), (operands i).isSome = true → s.between = true →
    s.allowed i = true → predicateOn s.curHalf (operandsOf i) = true →
    s.reads s.cur i (operandsOf i) = before ++ x :: after → sourcesReady s.curHalf before = true →
    (isFull s.curHalf x.reg = false ∨ isBusy s.curHalf x.reg = true) →
    exec i s = .next (if x.w && !isFull s.curHalf x.reg then
        (raiseIssue s.cur .empty 0 (word (x.fld * 32 + match x.reg with | .s r => r | .v r => r | .k r => r | .a r => r))).run s
      else s.halved { s.curHalf with block := .register }))
  ∧ (∀ (i : Instr) (s : State), (operands i).isSome = true → s.between = true → s.allowed i = true →
    predicateOn s.curHalf (operandsOf i) = true → sourcesReady s.curHalf (s.reads s.cur i (operandsOf i)) = true →
    (destsReady s.curHalf (operandsOf i).dsts = false ∨
      8 < s.curHalf.spares.length + (s.curHalf.newVersions (operandsOf i).vectors (operandsOf i).dsts).length) →
    exec i s = .next (s.halved { s.curHalf with block := .register }))
  ∧ (∀ (i : Instr) (s : State), s.runs i = true →
    (match i with | .nop | .pfh _ | .prio _ | .alignh _ | .hint1 _ | .hint2 _ _ | .hint3 _ _ _ => true | _ => false) = true →
    exec i s = .next (s.retired (parcelCount i) s.curHalf))

/-! ### Traps -/

/-- R271 to R275. A pending trap is taken once nothing that R272 waits for is outstanding. The frame at frameAt holds the
status word, the cause and the numbers of entries and stack entries, the trapped address, the fault address, the resume point,
s30, the F/E bits and the control registers; LANES; the entries, in order, of what is outstanding and of what was to be issued
again; the reconvergence stack, bottom first; and of a jib in progress its micro-PC, slot, clk and hidden temporaries. s30 is
the frame's address, TRAPD is set, SS and JST are cleared, LANES is all ones, the stack is empty, no entry and no jib is left,
and the handler's header is entered. No other register and no byte outside the frame changes. -/
def Obligations.TakeTrap : Prop :=
  ∀ (s : State) (p : Pending) (w : Word),
    let h := s.curHalf
    let fa := frameAt h
    let ents := frameEntries h p (outstanding { h with traps := [p] } p)
    let t := (raise s.cur p).run s
    let h' := t.half s.cur
    let at_ (off n : Nat) : Nat := memNat t.mem (scratchAt s.curCore (fa + off)) n
    s.canonical = true → h.traps = [] → h.ctl.trapd = false → s.deliveryWaits s.curCore h p = false → ents.length ≤ 8 →
    h.stack.length ≤ 8 → (h.ctl.jst = 1 ↔ h.jib.isSome = true) → h.refusedAt = none →
    0x1800 ≤ (readS h 30).toNat → (readS h 30).toNat ≤ 0x40000 →
    stageHits h.ctl.stage fa 0x1800 = false →
    (∀ m : List Host.Cell, (∀ a, (a < scratchAt s.curCore fa ∨ scratchAt s.curCore fa + 0x1800 ≤ a) → memGet m a = memGet s.mem a) →
      fetchHeader { s with mem := m } s.curCore h.ctl.tvec = .ok w) → hdrKind w = 2 → hdrBlen w ≠ 0 →
    (t.localWord s.curCore fa = s.ssw s.cur h ∧
      t.localWord s.curCore (fa + 0x08) = word (h.stack.length * 2 ^ 12 + ents.length * 2 ^ 8 + causeCode p.cause) ∧
      t.localWord s.curCore (fa + 0x10) = p.iaddr ∧
      t.localWord s.curCore (fa + 0x18) = p.faddr ∧
      t.localWord s.curCore (fa + 0x20) = h.hdr ∧
      t.localWord s.curCore (fa + 0x28) = word h.roff ∧
      t.localWord s.curCore (fa + 0x30) = p.info ∧
      t.localWord s.curCore (fa + 0x38) = readS h 30 ∧
      t.localWord s.curCore (fa + 0x40) = word (h.fev.toNat * 2 ^ 32 + h.fes.toNat) ∧
      ((∀ j, h.jib = some j → j.loading = none) → t.localWord s.curCore (fa + 0x48) = word (h.fea.toNat * 2 ^ 8 + h.fek.toNat)) ∧
      (∀ k, k < 15 → t.localWord s.curCore (fa + 0x50 + 8 * k) = (ctlWords h.ctl).getD k 0) ∧
      at_ 0x100 128 = h.lanes.toNat) ∧
    (∀ k e, ents[k]? = some e →
      let o := 0x180 + 0x100 * k
      at_ o 8 = e.addr.toNat ∧ at_ (o + 0x08) 4 = e.p0.toNat ∧ at_ (o + 0x0C) 4 = e.p1.toNat ∧ at_ (o + 0x10) 4 = e.p2.toNat ∧
      at_ (o + 0x14) 4 = b2n e.nore ∧ at_ (o + 0x18) 8 = e.a.toNat ∧ at_ (o + 0x20) 8 = e.b.toNat ∧ at_ (o + 0x28) 8 = e.c.toNat ∧
      at_ (o + 0x80) 128 = e.mask.toNat) ∧
    (∀ k x, h.stack.reverse[k]? = some x →
      let o := 0x980 + 0x120 * k
      at_ o 8 = x.rc.toNat ∧ at_ (o + 0x08) 8 = x.tgt.toNat ∧ at_ (o + 0x10) 1 = b2n x.phase ∧
      at_ (o + 0x20) 128 = x.outer.toNat ∧ at_ (o + 0xA0) 128 = x.pend.toNat) ∧
    (∀ j, h.jib = some j → j.upc < 2 ^ 13 → j.slot < 2 ^ 6 → j.used < 2 ^ 32 →
      at_ 0x1280 8 = j.upc + j.slot * 2 ^ 13 + j.used * 2 ^ 32 ∧
      (∀ k : Fin 8, at_ (0x1288 + 8 * k.val) 8 = (j.h[k]).toNat) ∧ ∀ k : Fin 2, at_ (0x1300 + 512 * k.val) 512 = (j.hv[k]).toNat) ∧
    h'.ctl = { h.ctl with trapd := true, ss := false, jst := 0 } ∧
    h'.lanes = BitVec.allOnes 1024 ∧ h'.stack = [] ∧ h'.traps = [] ∧ h'.reinj = [] ∧ h'.replay = [] ∧ h'.jib = none ∧
    h'.hdr = h.ctl.tvec ∧ h'.hdrWord = w ∧ h'.roff = 0 ∧
    readS h' 30 = word fa ∧ (∀ r, r ≠ 30 → readS h' r = readS h r) ∧ h'.v = h.v ∧ h'.k = h.k ∧ h'.a = h.a ∧
    (∀ a, (a < scratchAt s.curCore fa ∨ scratchAt s.curCore fa + 0x1800 ≤ a) → memGet t.mem a = memGet s.mem a)

/-- R277. A trap that is raised while a handler runs terminates the task with cause DOUBLE: the frame's words are
those of the first trap, with CAUSE 0x16 and the second cause in INFO; the task is gone and its half is free. The
model's choice in it: log 39. -/
def Obligations.DoubleTrap : Prop :=
  ∀ (s : State) (p : Pending) (u : Task), s.curHalf.ctl.trapd = true → s.task? s.curHalf.tid = some u →
    2 * u.core + u.half = s.cur → s.curHalf.occ = .live →
    let f := s.curHalf.frame
    let words := f.take 1 ++ [putBits (nth f 1) 7 0 0x16] ++ (f.drop 2).take 4 ++ [word (causeCode p.cause)] ++ f.drop 7
    let t := (raise s.cur p).run s
    t = (terminate s.curHalf.tid words).run s ∧
    (trising s.tasks = true → t.task? s.curHalf.tid = none) ∧ t.half s.cur = Half.reset

/-- R279. TRAP and BKPT retire and then raise TRAPI with the code, or BKPT: the trapped address is the
instruction's, and the resume point is the parcel after it. While SSW.SS is set, an instruction that retires raises
BKPT with INFO 1 after it: a NOP shows it. The model's choice in it: log 40. -/
def Obligations.SoftwareTraps : Prop :=
  (∀ (f : FA) (s : State), s.runs (.trap f) = true → exec (.trap f) s =
    .next ((raise s.cur ⟨s.curHalf.seq, .trapi, pcOf s.curHalf, 0, word f.d.toNat, none, false⟩).run (s.retired 1 s.curHalf)))
  ∧ (∀ (f : FA) (s : State), s.runs (.bkpt f) = true → exec (.bkpt f) s =
    .next ((raise s.cur ⟨s.curHalf.seq, .bkpt, pcOf s.curHalf, 0, 0, none, false⟩).run (s.retired 1 s.curHalf)))
  ∧ (∀ (s : State), s.between = true → s.curHalf.ctl.ss = true → exec .nop s =
    .next ((raise s.cur ⟨s.curHalf.seq, .bkpt, pcOf s.curHalf, 0, 1, none, false⟩).run (s.retired 1 s.curHalf)))

/-- R280. TRET outside a handler traps TRETX. In one, with nothing outstanding and a frame at s30 that passes the checks,
it gives back the frame's s30, SS, JST, LANES, stack and resume point, clears TRAPD, and queues the frame's entries
that are to be issued again. -/
def Obligations.TrapReturn : Prop :=
  (∀ (f : FA) (s : State), s.runs (.tret f) = true → s.curHalf.ctl.trapd = false →
    exec (.tret f) s = .next ((raiseIssue s.cur .tretx 0 0).run s))
  ∧ (∀ (f : FA) (s : State) (w : Word), s.runs (.tret f) = true →
    let h := s.curHalf
    let n := s.curCore
    let fa := (readS h 30).toNat
    s.sound = true → h.ctl.trapd = true → s.quiet s.cur h = true → s.tretCheck n h.ctl.stage (readS h 30) = .ok w →
    let w0 := s.localWord n fa
    let w1 := s.localWord n (fa + 8)
    exec (.tret f) s = .next (s.retired 0 { writeS h 30 (s.localWord n (fa + 0x38)) with
      ctl := { h.ctl with ss := w0.getLsbD 7, jst := BitVec.ofNat 2 (wbits w0 9 8), trapd := false }
      lanes := BitVec.ofNat 1024 (memNat s.mem (scratchAt n (fa + 0x100)) 128)
      stack := ((List.range (wbits w1 15 12)).map fun i => s.readStack n (fa + 0x980 + 0x120 * i)).reverse
      hdr := s.localWord n (fa + 0x20)
      hdrWord := w
      roff := wbits (s.localWord n (fa + 0x28)) 8 0
      entering := false
      reinj := ((List.range (wbits w1 11 8)).map fun i => s.readEntry n (fa + 0x180 + 0x100 * i)).filter fun e => !e.nore
      reissue := none
      jib := if wbits w0 9 8 == 1 then some (s.readJib n fa) else none
      frame := [] }))

/-! ### Transfers -/

/-- R65, R115, R119. BR, JMP, CALL and LOOP: when taken, the target's block is entered; when not, the next parcel follows.
CALL writes s31, LOOP counts LC down to 0 and no further. -/
def Obligations.Branches : Prop :=
  (∀ (f : FJ) (s : State) (w : Word), s.runs (.br f) = true →
    let h := s.curHalf
    let go := jTarget (pcOf h) f.off
    (bit0 (readK h f.k.toNat) != f.clr) = true → s.transfers go w = true →
    exec (.br f) s = .next (s.retired 0 (entered h go w)))
  ∧ (∀ (f : FJ) (s : State), s.runs (.br f) = true → (bit0 (readK s.curHalf f.k.toNat) != f.clr) = false →
    s.continues 1 = true → exec (.br f) s = .next (s.retired 1 s.curHalf))
  ∧ (∀ (f : FJ) (s : State) (w : Word), s.runs (.jmp f) = true → s.transfers (jTarget (pcOf s.curHalf) f.off) w = true →
    exec (.jmp f) s = .next (s.retired 0 (entered s.curHalf (jTarget (pcOf s.curHalf) f.off) w)))
  ∧ (∀ (f : FJ) (s : State) (w : Word), s.runs (.call f) = true → s.transfers (jTarget (pcOf s.curHalf) f.off) w = true →
    exec (.call f) s = .next (s.retired 0 (entered (s.written (.call f) (writeS s.curHalf 31 (pcOf s.curHalf + 4))) (jTarget (pcOf s.curHalf) f.off) w)))
  ∧ (∀ (f : FJ) (s : State) (w : Word), s.runs (.loop f) = true →
    let h := s.curHalf
    let lc := if h.ctl.lc = 0 then 0 else h.ctl.lc - 1
    let h' := { h with ctl := { h.ctl with lc := lc } }
    let taken := lc ≠ 0 ∧ (bit0 (readK h f.k.toNat) != f.clr) = true
    (taken → s.transfers (jTarget (pcOf h) f.off) w = true →
      exec (.loop f) s = .next (s.retired 0 (entered h' (jTarget (pcOf h) f.off) w))) ∧
    (¬ taken → s.continues 1 = true → exec (.loop f) s = .next (s.retired 1 h')))

/-- R58, R114, R117. CALLR, JR and RET go to a register's address, CALLR reading sA before it writes s31; an address with
bits [63:56] set traps BADTGT with its low 56 bits. Any transfer that is taken, BR and LOOP included, to an address that is not
a multiple of 4, or at which no header stands, traps BADTGT with the target: no link is written and LC does not count. -/
def Obligations.RegisterTransfers : Prop :=
  (∀ (f : FA) (s : State) (w : Word), s.runs (.callr f) = true → wbits (readS s.curHalf f.a.toNat) 63 56 = 0 →
    s.transfers (readS s.curHalf f.a.toNat) w = true →
    exec (.callr f) s = .next (s.retired 0 (entered (s.written (.callr f) (writeS s.curHalf 31 (pcOf s.curHalf + 4))) (readS s.curHalf f.a.toNat) w)))
  ∧ (∀ (f : FA) (s : State) (w : Word), s.runs (.jr f) = true → wbits (readS s.curHalf f.a.toNat) 63 56 = 0 →
    s.transfers (readS s.curHalf f.a.toNat) w = true →
    exec (.jr f) s = .next (s.retired 0 (entered s.curHalf (readS s.curHalf f.a.toNat) w)))
  ∧ (∀ (f : FA) (s : State) (w : Word), s.runs (.ret f) = true → wbits (readS s.curHalf 31) 63 56 = 0 →
    s.transfers (readS s.curHalf 31) w = true →
    exec (.ret f) s = .next (s.retired 0 (entered s.curHalf (readS s.curHalf 31) w)))
  ∧ (∀ (i : Instr) (x : Word) (s : State), s.runs i = true →
    ((∃ f, (i = .jr f ∨ i = .callr f) ∧ x = readS s.curHalf f.a.toNat) ∨ ∃ f, i = .ret f ∧ x = readS s.curHalf 31) →
    wbits x 63 56 ≠ 0 → exec i s = .next ((raiseIssue s.cur .badtgt (x &&& word (2 ^ 56 - 1)) 0).run s))
  ∧ (∀ (i : Instr) (go : Word) (s : State) (p : Parcel), s.runs i = true →
    ((∃ f, (i = .jmp f ∨ i = .call f ∨ i = .br f ∧ (bit0 (readK s.curHalf f.k.toNat) != f.clr) = true
        ∨ i = .loop f ∧ 1 < s.curHalf.ctl.lc.toNat ∧ (bit0 (readK s.curHalf f.k.toNat) != f.clr) = true)
      ∧ go = jTarget (pcOf s.curHalf) f.off)
    ∨ wbits go 63 56 = 0 ∧ ((∃ f, (i = .jr f ∨ i = .callr f) ∧ go = readS s.curHalf f.a.toNat) ∨ ∃ f, i = .ret f ∧ go = readS s.curHalf 31)) →
    (wbits go 1 0 ≠ 0 ∨ fetchParcel s s.curCore go = .ok p ∧ isHeaderParcel p = false) →
    exec i s = .next ((raiseIssue s.cur .badtgt go 0).run s))

/-- R121, R122. VBR: no lane taken falls through; every lane taken transfers; a split leaves the lanes not taken, pushes
the others with the reconvergence address, and falls through; a split with eight entries traps BOUND. With a lane taken, a
target at which no header stands traps BADTGT with it, and then a reconvergence address at which none stands. At a header
whose address is the RC of the top entry, a first visit runs the pending lanes from the taken target, and a second
restores the outer mask and drops the entry; any other header changes nothing. -/
def Obligations.DivergentBranch : Prop :=
  (∀ (f : FJ) (s : State) (w : Word), s.runs (.vbr f) = true →
    let h := s.curHalf
    let k := readK h f.k.toNat
    let t := if f.clr then ~~~ k else k
    let taken := h.lanes &&& t
    let rest := h.lanes &&& ~~~ t
    let go := jTarget (pcOf h) f.off
    let rc := (h.hdr + (sx (hdrReconv h.hdrWord) <<< 2)) &&& word (2 ^ 56 - 1)
    (taken = 0 → s.continues 1 = true → exec (.vbr f) s = .next (s.retired 1 h)) ∧
    (taken ≠ 0 → s.headerAt s.curCore go = .no → exec (.vbr f) s = .next ((raiseIssue s.cur .badtgt go 0).run s)) ∧
    (taken ≠ 0 → s.headerAt s.curCore go = .yes → s.headerAt s.curCore rc = .no →
      exec (.vbr f) s = .next ((raiseIssue s.cur .badtgt rc 0).run s)) ∧
    (taken ≠ 0 → s.headerAt s.curCore go = .yes → s.headerAt s.curCore rc = .yes →
      (rest = 0 → s.transfers go w = true → exec (.vbr f) s = .next (s.retired 0 (entered h go w))) ∧
      (rest ≠ 0 → h.stack.length < 8 → s.continues 1 = true → exec (.vbr f) s =
        .next (s.retired 1 { h with lanes := rest, stack := ⟨rc, go, false, h.lanes, taken⟩ :: h.stack })) ∧
      (rest ≠ 0 → 8 ≤ h.stack.length → exec (.vbr f) s = .next ((raiseIssue s.cur .bound 0 0).run s))))
  ∧ (∀ (n : Nat) (a : Word) (l : Mask) (x : RcEntry) (st : List RcEntry),
    (a ≠ x.rc → reconverge (n + 1) a l (x :: st) = (a, l, x :: st)) ∧
    (a = x.rc → x.phase = false → reconverge (n + 1) a l (x :: st) = reconverge n x.tgt x.pend ({ x with phase := true } :: st)) ∧
    (a = x.rc → x.phase = true → reconverge (n + 1) a l (x :: st) = reconverge n a x.outer st) ∧
    reconverge n a l [] = (a, l, []))

/-! ### Control registers and hints -/

/-- R82 to R86, R104, R123, R124. CRR reads a control register of the half; a read of FFLAGS or ORDST by CRR or CRX
while something that can set it is outstanding issues all the same, and only what needs sD waits for
it; CRW changes the register's defined bits, and reading any of them afterwards gives what was written; CRX does
both. SSW, TRAPD, TASKID, TASKTS, TASKREEF, ASID, QUANT and CAP as CRR reads them in a compute core; a write of SSW
changes SS alone, and a write of a read-only register changes nothing. A write of STAGE with a size of 0 or more
than 64 pages, or an area past the scratchpad, or while the task has staged lines, traps BOUND; any other moves the
staging area. A write of GANG changes the group alone, and one of ABFTP clears UNC where it would be 3. The model's
choices in it: logs 20, 23, 44. -/
def Obligations.ControlRegisters : Prop :=
  (∀ (f : FA) (s : State) (w : Word), s.runs (.crr f) = true → ctlValue s.curHalf.ctl f.b.toNat = some w →
    s.ctlWait s.curHalf.tid f.b.toNat none = false → exec (.crr f) s = .next (s.ran (.crr f) (writeS s.curHalf f.d.toNat w)))
  ∧ (∀ (f : FA) (s : State), s.runs (.crr f) = true → s.ctlWait s.curHalf.tid f.b.toNat none = true →
    exec (.crr f) s = .next (s.reading (.crr f) s.curHalf.ctl f.d.toNat f.b.toNat))
  ∧ (∀ (f : FA) (s : State), s.runs (.crx f) = true → s.ctlWait s.curHalf.tid f.b.toNat none = true →
    ∃ c : Ctl, exec (.crx f) s = .next (s.reading (.crx f) c f.d.toNat f.b.toNat) ∧
      ∀ n w, ctlValue s.curHalf.ctl n = some w →
        ctlValue c n = some (if n = f.b.toNat ∧ n = 6 then readS s.curHalf f.a.toNat &&& 0x3F else w))
  ∧ (∀ (f : FA) (s : State) (m : Word), s.runs (.crw f) = true → ctlMask f.b.toNat = some m →
    ∃ c : Ctl, exec (.crw f) s = .next (s.retired 1 { s.curHalf with ctl := c }) ∧
      (∀ n w, ctlValue s.curHalf.ctl n = some w →
        ctlValue c n = some (if n = f.b.toNat then readS s.curHalf f.a.toNat &&& m else w)))
  ∧ (∀ (f : FA) (s : State) (m w : Word), s.runs (.crx f) = true → ctlMask f.b.toNat = some m →
    ctlValue s.curHalf.ctl f.b.toNat = some w → s.ctlWait s.curHalf.tid f.b.toNat none = false →
    ∃ c : Ctl, exec (.crx f) s = .next (s.ran (.crx f) (writeS { s.curHalf with ctl := c } f.d.toNat w)) ∧
      ctlValue c f.b.toNat = some (readS s.curHalf f.a.toNat &&& m))
  ∧ (∀ (f : FA) (s : State) (u : Task), s.runs (.crr f) = true → s.task? s.curHalf.tid = some u → isKernel s.curCore = false →
    let h := s.curHalf
    let part := (s.partOf s.curCore).getD 0
    let reads (w : Word) : Prop := exec (.crr f) s = .next (s.ran (.crr f) (writeS h f.d.toNat w))
    (f.b.toNat = 10 → reads (s.ssw s.cur h)) ∧
    (f.b.toNat = 11 → reads (if h.ctl.trapd then 1 else 0)) ∧
    (f.b.toNat = 12 → reads (word ((match u.tag with | some g => g.toNat | none => 0) * 2 ^ 32 + u.act.index.toNat))) ∧
    (f.b.toNat = 13 → reads (word u.ts.toNat)) ∧
    (f.b.toNat = 14 → reads (word u.reef.toNat)) ∧
    (f.b.toNat = 15 → reads (word (s.asidOf part))) ∧
    (f.b.toNat = 20 → reads (word h.ctl.quant.toNat)) ∧
    (f.b.toNat = 21 → reads (word h.ctl.pdl.toNat)) ∧
    (f.b.toNat = 22 → reads (word h.ctl.wdog.toNat)) ∧
    (f.b.toNat = 23 → reads s.package.cap))
  ∧ (∀ (f : FA) (s : State), s.runs (.crw f) = true → isKernel s.curCore = false →
    let h := s.curHalf
    (f.b.toNat = 10 → exec (.crw f) s = .next (s.retired 1 { h with ctl := { h.ctl with ss := (readS h f.a.toNat).getLsbD 7 } })) ∧
    ([11, 12, 13, 14, 15, 17, 20, 21, 22, 23].contains f.b.toNat = true → exec (.crw f) s = .next (s.retired 1 h)))
  ∧ (∀ (f : FA) (s : State) (u : Task), s.runs (.crw f) = true → s.task? s.curHalf.tid = some u →
    let w := readS s.curHalf f.a.toNat
    let size := wbits w 40 32
    let good := 1 ≤ size ∧ size ≤ 64 ∧ wbits w 17 12 * 4096 + size * 4096 ≤ 0x40000 ∧ u.lines = []
    let leaves (c : Ctl) : Prop := exec (.crw f) s = .next (s.retired 1 { s.curHalf with ctl := c })
    (f.b.toNat = 16 → ¬ good → exec (.crw f) s = .next ((raiseIssue s.cur .bound 0 0).run s)) ∧
    (f.b.toNat = 16 → good → leaves { s.curHalf.ctl with stage := w &&& 0x1FF0003F000 }) ∧
    (f.b.toNat = 18 → leaves { s.curHalf.ctl with gang := w.setWidth 8 }) ∧
    (f.b.toNat = 19 → leaves { s.curHalf.ctl with abftp := if wbits w 2 1 = 3 then w &&& 1 else w &&& 7 }))

/-! ### Vector instructions -/

/-- R98 to R101, R125, R127, R128, R130, R131, R149. The VARITH instructions, element by element. The special
functions, element by element: the result rounded to nearest even from the exact value as far as R149 gives it (log
15 says to what precision), NV and DZ where R149 has them. The model's choices in it: logs 9, 15, 19, 24, 102. -/
def Obligations.VectorArithmetic : Prop :=
  (∀ (i : Instr) (f : FL) (op : VOp) (s : State), vectorOp i = some (f, op) → s.runs i = true →
    let w := typeWidth f.t
    vectorResult s i (isFloatType f.t) f w (lanesOf w) fun n => arithElem op f.t (f.m.getLsbD 0) (s.roundingOf f n)
      (elem (readV s.curHalf f.r.a.toNat) w n) (s.operandB f w n) (elem (readV s.curHalf f.c.toNat) w n))
  ∧ (∀ (i : Instr) (f : FL) (g : Fun) (s : State), sfuOp i = some (f, g) → s.runs i = true →
    let w := typeWidth f.t
    vectorResult s i (isFloatType f.t) f w (lanesOf w) fun n =>
      let x := operand (ftzOf s.curHalf.ctl) f.t (elem (readV s.curHalf f.r.a.toNat) w n)
      let z := funNum g x
      let p := roundTo f.t (ftzOf s.curHalf.ctl) .rne z.1
      (p.1, z.2 ||| p.2))

/-- R68, R87, R89, R91, R98, R128. An integer result wraps modulo 2^w, and with `.sat` is the nearest value of the type.
In the formats of at most 8 bits, types 11 to 15, rounding the value of a pattern that is no NaN to its own type gives
the value back exactly, with no flag, in every rounding mode. -/
def Obligations.NumberFormats : Prop :=
  (∀ (t : BitVec 4) (x : Int), isIntType t = true →
    let w := typeWidth t
    fitInt t false x < 2 ^ w ∧ ((fitInt t false x : Int) - x) % (2 ^ w : Nat) = 0 ∧
    intOf t (fitInt t true x) = max (intMin t) (min (intMax t) x) ∧
    (intMin t ≤ x → x ≤ intMax t → intOf t (fitInt t false x) = x))
  ∧ (∀ (t : BitVec 4) (p : Nat) (r : Rnd), 11 ≤ t.toNat → p < 2 ^ typeWidth t →
    isNaN (valueOf t p) = false → (roundTo t false r (valueOf t p)).2 = 0 ∧
      valueOf t (roundTo t false r (valueOf t p)).1 = valueOf t p)

/-- R133, R134, R135. Widening arithmetic, conversions and dot products, element by element. The model's choices in it:
logs 9, 24. -/
def Obligations.WideningAndConversion : Prop :=
  (∀ (i : Instr) (f : FL) (op : VOp) (s : State), wideOp i = some (f, op) → s.runs i = true →
    let h := s.curHalf
    let w := typeWidth f.t
    let d := f.r.d.toNat
    let lane (n : Nat) := wideElem op f.t (f.m.getLsbD 0) (s.roundingOf f n) (elem (readV h f.r.a.toNat) w n)
      (elem (readV h f.r.b.toNat) w n) (elem (readV h (d + n % 2)) (2 * w) (n / 2))
    vectorEnds s i (isFloatType f.t) (flagsOf (2 * lanesOf (2 * w)) (s.lanesOn f) fun n => (lane n).2) fun h' =>
      ∃ vs, h' = writeGroup h d vs ∧ groupIs vs (fun r => readV h (d + r)) (2 * w) 2 (s.lanesOn f) fun n => (lane n).1)
  ∧ (∀ (f : FL) (s : State), s.runs (.vnarrow f) = true →
    let ws := typeWidth f.t
    let wd := typeWidth (cvtDst f)
    let g := ws / wd
    vectorResult s (.vnarrow f) (!(isIntType f.t && isIntType (cvtDst f))) f wd (lanesOf wd) fun n => convertElem f.t (cvtDst f) (f.m.getLsbD 0) (s.roundingOf f n)
      (elem (readV s.curHalf (f.r.a.toNat + n % g)) ws (n / g)))
  ∧ (∀ (f : FL) (s : State), s.runs (.vcvt f) = true →
    let h := s.curHalf
    let ws := typeWidth f.t
    let wd := typeWidth (cvtDst f)
    let g := wd / ws
    let d := f.r.d.toNat
    let lane (n : Nat) := convertElem f.t (cvtDst f) (f.m.getLsbD 0) (s.roundingOf f n) (elem (readV h f.r.a.toNat) ws n)
    vectorEnds s (.vcvt f) (!(isIntType f.t && isIntType (cvtDst f))) (flagsOf (g * lanesOf wd) (s.lanesOn f) fun n => (lane n).2) fun h' =>
      ∃ vs, h' = writeGroup h d vs ∧ groupIs vs (fun r => readV h (d + r)) wd g (s.lanesOn f) fun n => (lane n).1)
  ∧ (∀ (f : FL) (s : State), s.runs (.vdot4 f) = true →
    let h := s.curHalf
    let w := typeWidth f.t
    let wd := typeWidth (dotType f.t)
    let four (r n : Nat) : List Nat := (List.range 4).map fun j => elem (readV h r) w (4 * n + j)
    vectorResult s (.vdot4 f) (isFloatType f.t) f wd (dotCount f.t) fun n => dotElem f.t (f.m.getLsbD 0) (ftzOf h.ctl)
      (four f.r.a.toNat n) (four f.r.b.toNat n) (elem (readV h f.c.toNat) wd n))

/-- R136, R137, R138, R139. A comparison writes the bits of the active elements of kD, keeps those of the inactive
ones, and clears the bits beyond the elements; VSEL chooses by a predicate. Reductions of the active elements into
sD, with their value where none is active, and prefixes. The model's choices in it: logs 9, 24, 42. -/
def Obligations.ComparisonsAndReductions : Prop :=
  (∀ (i : Instr) (f : FL) (test : Nat → Nat → Bool × Flags) (s : State), s.runs i = true →
    (i = .vcmp f ∧ test = cmpElem (f.m.extractLsb' 0 3).toNat f.t (ftzOf s.curHalf.ctl)
      ∨ i = .vtest f ∧ test = fun a b => (decide (Nat.land a b ≠ 0), 0)) →
    let h := s.curHalf
    let w := typeWidth f.t
    let d := f.r.d.toNat % 8
    let lane (n : Nat) := test (elem (readV h f.r.a.toNat) w n) (elem (readV h f.r.b.toNat) w n)
    vectorEnds s i (isFloatType f.t) (flagsOf (lanesOf w) (s.lanesOn f) fun n => (lane n).2) fun h' =>
      ∃ m, h' = writeK h d m ∧ ∀ n, n < 1024 → m.getLsbD n =
        (decide (n < lanesOf w) && if (s.lanesOn f).getLsbD n then (lane n).1 else (readK h d).getLsbD n))
  ∧ (∀ (f : FL) (s : State), s.runs (.vsel f) = true →
    let w := typeWidth f.t
    vectorMoves s (.vsel f) f fun n => if (readK s.curHalf (f.c.toNat % 8)).getLsbD n
      then elem (readV s.curHalf f.r.a.toNat) w n else s.operandB f w n)
  ∧ (∀ (f : FL) (s : State), s.runs (.vredsum f) = true →
    let r := vecTree (s.seen (.vredsum f)) f.t f.r.a.toNat 1023
    (isIntType f.t = true → exec (.vredsum f) s = .next (s.running (.vredsum f) 0 false (writeS s.curHalf f.r.d.toNat
      (wordI (((s.activeOf f f.r.a.toNat).map (intOf f.t)).foldl (· + ·) 0))))) ∧
    (isIntType f.t = false → vectorEnds s (.vredsum f) true r.2 fun h' => h' = writeS s.curHalf f.r.d.toNat (word r.1)))
  ∧ (∀ (i : Instr) (f : FL) (top : Bool) (s : State), s.runs i = true → (i = .vredmax f ∧ top = true ∨ i = .vredmin f ∧ top = false) →
    let l := s.activeOf f f.r.a.toNat
    (isIntType f.t = true → ∃ x : Int, exec i s = .next (s.running i 0 false (writeS s.curHalf f.r.d.toNat (intWord f.t x))) ∧
      (l = [] → x = if top then intMin f.t else intMax f.t) ∧ (l ≠ [] → ∃ p ∈ l, x = intOf f.t p) ∧
      ∀ p ∈ l, if top then intOf f.t p ≤ x else x ≤ intOf f.t p) ∧
    (isIntType f.t = false → vectorEnds s i true (redExtreme top f.t (ftzOf s.curHalf.ctl) l).2 fun h' =>
      h' = writeS s.curHalf f.r.d.toNat (redExtreme top f.t (ftzOf s.curHalf.ctl) l).1))
  ∧ (∀ (f : FL) (s : State), s.runs (.vredand f) = true → exec (.vredand f) s = .next (s.running (.vredand f) 0 false (writeS s.curHalf f.r.d.toNat
      (patWord f.t ((s.activeOf f f.r.a.toNat).foldl Nat.land (2 ^ typeWidth f.t - 1))))))
  ∧ (∀ (f : FL) (s : State), s.runs (.vredor f) = true → exec (.vredor f) s = .next (s.running (.vredor f) 0 false (writeS s.curHalf f.r.d.toNat
      (patWord f.t ((s.activeOf f f.r.a.toNat).foldl Nat.lor 0)))))
  ∧ (∀ (f : FL) (s : State), s.runs (.vscan f) = true →
    let h := s.curHalf
    let w := typeWidth f.t
    let code := (f.m.extractLsb' 0 2).toNat
    let l := scanLanes (scanFirst f.t (ftzOf h.ctl)) (scanStep code f.t (ftzOf h.ctl)) (fun n => (s.lanesOn f).getLsbD n)
      ((List.range (lanesOf w)).map fun n => (n, elem (readV h f.r.a.toNat) w n)) none
    vectorResult s (.vscan f) (isFloatType f.t) f w (lanesOf w) fun n =>
      if isFloatType f.t && code == 0 then vecTree (s.seen (.vscan f)) f.t f.r.a.toNat n else l.getD n (0, 0))

/-- R140 to R143, R150. Permutations of patterns, VMOV, VSPLAT, VINS and VEXT; an index beyond the elements traps
BOUND, and an inactive element leaves sD of VEXT as it was. The model's choices in it: logs 9, 103. -/
def Obligations.Permutations : Prop :=
  (∀ (f : FL) (s : State), s.runs (.vperm f) = true →
    let w := typeWidth f.t
    vectorMoves s (.vperm f) f fun n =>
      let x := elem (readV s.curHalf (f.r.b.toNat + n / 256)) 16 (n % 256)
      if x < lanesOf w then elem (readV s.curHalf f.r.a.toNat) w x else 0)
  ∧ (∀ (f : FL) (s : State), s.runs (.vslide f) = true →
    let w := typeWidth f.t
    let by_ : Int := if f.m.getLsbD 1 then (readS s.curHalf f.r.b.toNat).toInt else f.obj.toInt
    vectorMoves s (.vslide f) f fun n => if 0 ≤ (n : Int) + by_ ∧ (n : Int) + by_ < lanesOf w
      then elem (readV s.curHalf f.r.a.toNat) w ((n : Int) + by_).toNat else 0)
  ∧ (∀ (f : FL) (s : State), s.runs (.vbcast f) = true →
    let w := typeWidth f.t
    (lanesOf w ≤ s.indexOf f → exec (.vbcast f) s = .next ((raiseIssue s.cur .bound 0 0).run s)) ∧
    (s.indexOf f < lanesOf w → vectorMoves s (.vbcast f) f fun _ => elem (readV s.curHalf f.r.a.toNat) w (s.indexOf f)))
  ∧ (∀ (f : FL) (s : State), s.runs (.viota f) = true →
    vectorMoves s (.viota f) f fun n => ((List.range n).filter fun j => (s.lanesOn f).getLsbD j).length)
  ∧ (∀ (f : FL) (s : State), (s.runs (.vcompress f) = true ∨ s.runs (.vexpand f) = true) →
    let h := s.curHalf
    let w := typeWidth f.t
    let on (n : Nat) : Bool := (s.lanesOn f).getLsbD n && (readK h (f.c.toNat % 8)).getLsbD n
    let sel := (List.range (lanesOf w)).filter on
    (s.runs (.vcompress f) = true → ∃ v, exec (.vcompress f) s = .next (s.running (.vcompress f) 0 false (writeV h f.r.d.toNat v)) ∧
      ∀ n, n < lanesOf w → elem v w n = if n < sel.length then elem (readV h f.r.a.toNat) w (sel.getD n 0)
        else elem (readV h f.r.d.toNat) w n) ∧
    (s.runs (.vexpand f) = true → ∃ v, exec (.vexpand f) s = .next (s.running (.vexpand f) 0 false (writeV h f.r.d.toNat v)) ∧
      ∀ n, n < lanesOf w → elem v w n = if on n then elem (readV h f.r.a.toNat) w ((List.range n).filter on).length
        else elem (readV h f.r.d.toNat) w n))
  ∧ (∀ (f : FL) (s : State), s.runs (.vzip f) = true →
    vectorMoves s (.vzip f) f fun n => elem (readV s.curHalf (if n % 2 = 0 then f.r.a.toNat else f.r.b.toNat)) (typeWidth f.t) (n / 2))
  ∧ (∀ (f : FL) (s : State), s.runs (.vunzip f) = true →
    let w := typeWidth f.t
    let half := lanesOf w / 2
    vectorMoves s (.vunzip f) f fun n => if n < half then elem (readV s.curHalf f.r.a.toNat) w (2 * n)
      else elem (readV s.curHalf f.r.b.toNat) w (2 * (n - half)))
  ∧ (∀ (f : FL) (s : State), s.runs (.vmov f) = true →
    vectorMoves s (.vmov f) f fun n => elem (readV s.curHalf f.r.a.toNat) (typeWidth f.t) n)
  ∧ (∀ (f : FL) (s : State), s.runs (.vsplat f) = true →
    vectorMoves s (.vsplat f) f fun _ => (readS s.curHalf f.r.a.toNat).toNat)
  ∧ (∀ (f : FL) (s : State), s.runs (.vins f) = true →
    let w := typeWidth f.t
    (lanesOf w ≤ s.indexOf f → exec (.vins f) s = .next ((raiseIssue s.cur .bound 0 0).run s)) ∧
    (s.indexOf f < lanesOf w → vectorMoves s (.vins f) f fun n =>
      if n = s.indexOf f then (readS s.curHalf f.r.a.toNat).toNat else elem (readV s.curHalf f.r.d.toNat) w n))
  ∧ (∀ (f : FL) (s : State), s.runs (.vext f) = true →
    let w := typeWidth f.t
    let x := s.indexOf f
    (lanesOf w ≤ x → exec (.vext f) s = .next ((raiseIssue s.cur .bound 0 0).run s)) ∧
    (x < lanesOf w → (s.lanesOn f).getLsbD x = true → exec (.vext f) s = .next (s.running (.vext f) 0 false (writeS s.curHalf f.r.d.toNat
      (patWord f.t (elem (readV s.curHalf f.r.a.toNat) w x))))) ∧
    (x < lanesOf w → (s.lanesOn f).getLsbD x = false → exec (.vext f) s = .next (s.running (.vext f) 0 false s.curHalf)))

/-- R144 to R148. VSORT, VMERGE, VSEARCH, VSPARSE and VUNSPARSE; and the sort of R145 is a permutation of its elements in
which no element precedes an earlier one and equal ones keep their order, and the merge of R146 of two ordered lists
such an order of both. The bytes of VSPARSE's result past the kept elements and their indices are 0. The model's choice in it:
log 9. -/
def Obligations.OrderedVectors : Prop :=
  (∀ (f : FL) (s : State), s.runs (.vsort f) = true →
    let w := typeWidth f.t
    let l := sortStable f.t (f.m.getLsbD 0) (s.activeOf f f.r.a.toNat)
    ∃ v, exec (.vsort f) s = .next (s.running (.vsort f) 0 false (writeV s.curHalf f.r.d.toNat v)) ∧
      ∀ n, n < lanesOf w → elem v w n = if n < l.length then l.getD n 0 % 2 ^ w else elem (readV s.curHalf f.r.d.toNat) w n)
  ∧ (∀ (f : FL) (s : State), s.runs (.vmerge f) = true →
    let w := typeWidth f.t
    let d := f.r.d.toNat
    let a := s.activeOf f f.r.a.toNat
    let b := s.activeOf f f.r.b.toNat
    let l := mergeLoop f.t (f.m.getLsbD 0) (a.length + b.length) a b
    ∃ lo hi, exec (.vmerge f) s = .next (s.running (.vmerge f) 0 false (writeV (writeV s.curHalf d lo) (d + 1) hi)) ∧
      ∀ n, n < 2 * lanesOf w → elem (if n < lanesOf w then lo else hi) w (n % lanesOf w) =
        if n < l.length then l.getD n 0 % 2 ^ w else elem (readV s.curHalf (d + n / lanesOf w)) w (n % lanesOf w))
  ∧ (∀ (f : FL) (s : State), s.runs (.vsearch f) = true →
    let w := typeWidth f.t
    vectorMoves s (.vsearch f) f fun n => min (2 ^ w - 1) (((List.range (lanesOf w)).filter fun j =>
      precedes f.t (f.m.getLsbD 0) (elem (readV s.curHalf f.r.a.toNat) w j) (elem (readV s.curHalf f.r.b.toNat) w n)).length))
  ∧ (∀ (f : FL) (s : State), s.runs (.vsparse f) = true →
    let w := typeWidth f.t
    let x (n : Nat) : Nat := if (s.lanesOn f).getLsbD n then elem (readV s.curHalf f.r.a.toNat) w n else 0
    let kept (g : Nat) := topTwo fun j => sparseMag f.t (x (4 * g + j))
    ∃ v, exec (.vsparse f) s = .next (s.running (.vsparse f) 0 false (writeV s.curHalf f.r.d.toNat v)) ∧
      ∀ g, g < lanesOf w / 4 → elem v w (2 * g) = x (4 * g + (kept g).1) ∧ elem v w (2 * g + 1) = x (4 * g + (kept g).2)
        ∧ elem v 4 (512 + g) = ((kept g).1 + 4 * (kept g).2) % 16 ∧ ∀ b, 512 + lanesOf w / 4 ≤ b → b < 1024 → elem v 4 b = 0)
  ∧ (∀ (f : FL) (s : State), s.runs (.vunsparse f) = true →
    let w := typeWidth f.t
    let a := readV s.curHalf f.r.a.toNat
    vectorMoves s (.vunsparse f) f fun n =>
      let meta_ := elem a 4 (512 + n / 4)
      if meta_ / 4 = n % 4 then elem a w (2 * (n / 4) + 1) else if meta_ % 4 = n % 4 then elem a w (2 * (n / 4)) else 0)
  ∧ (∀ (t : BitVec 4) (desc : Bool) (l : List Nat), (sortStable t desc l).Perm l ∧
    (sortStable t desc l).Pairwise (fun a b => precedes t desc b a = false) ∧
    ∀ x, (sortStable t desc l).filter (fun a => orderKey t a == orderKey t x) = l.filter (fun a => orderKey t a == orderKey t x))
  ∧ (∀ (t : BitVec 4) (desc : Bool) (a b : List Nat), a.Pairwise (fun x y => precedes t desc y x = false) →
    b.Pairwise (fun x y => precedes t desc y x = false) →
    (mergeLoop t desc (a.length + b.length) a b).Perm (a ++ b) ∧
    (mergeLoop t desc (a.length + b.length) a b).Pairwise (fun x y => precedes t desc y x = false))

/-! ### Matrix instructions -/

/-- R153, R155 to R158, R162. An MMUL whose objects are missing traps BOUND, one that fails a check traps as the
check says, and a ganged one whose core is not in the group, or whose group spans clusters, traps BOUND; any other
goes to the core's matrix unit with its parameters sampled, a ganged one into a gang of its group. The model's
choices in it: logs 10, 121. -/
def Obligations.MatrixMultiplyIssue : Prop :=
  ∀ (i : Instr) (f : FL) (shape : State → Nat → Option Shape) (k : MKind) (s : State), mmulOf i = some (f, shape, k) →
    s.runs i = true →
    let c := s.seen i
    let part := s.curTask.part
    let group := s.curHalf.ctl.gang.toNat
    let members := s.groupMask part group
    let leader := !k.ganged || popCount s.curCore members.toNat == 0
    let stray := !members.getLsbD s.curCore || (membersOf members).any fun m => clusterOf m != clusterOf s.curCore
    let id := s.net.nextId
    let mem : Member := ⟨s.curCore, s.cur, s.curHalf.tid, s.curHalf.seq, 0, 0, 0, 0, 0, 0, 0, false, c.entry⟩
    let one := s.netted fun n => { n with nextId := id + 1 }
    (shape s part = none → exec i s = .next ((raiseIssue s.cur .bound 0 0).run s)) ∧
    (∀ sh cause a, shape s part = some sh → mmulChecks s c sh (f.m.getLsbD 0) k.remA k.remB leader = .trap cause a →
      exec i s = .next ((raiseIssue s.cur cause a 0).run s)) ∧
    (∀ sh, shape s part = some sh → mmulChecks s c sh (f.m.getLsbD 0) k.remA k.remB leader = .ok →
      (k.ganged = false → exec i s = .next (one.sentMop i (mopOf c f (mmulObjs i) sh k leader id false) c.entry.mask)) ∧
      (k.ganged = true → stray = true → exec i s = .next ((raiseIssue s.cur .bound 0 0).run s)) ∧
      (k.ganged = true → stray = false → s.gangFor c group = none →
        exec i s = .next ((s.netted fun n => { n with nextId := id + 2, gangs := n.gangs ++ [⟨id + 1, part, group, membersOf members,
          [mem], [], false, if leader then some { mopOf c f (mmulObjs i) sh k leader id false with gang := some (id + 1) } else none⟩] }).sentMop i
            { mopOf c f (mmulObjs i) sh k leader id false with gang := some (id + 1) } c.entry.mask)) ∧
      (∀ g, k.ganged = true → stray = false → s.gangFor c group = some g → g.started = false →
        exec i s = .next ((one.netted fun n => { n with gangs := n.gangs.map fun x => if x.id = g.id then { x with
            joined := (x.joined.filter fun m => m.core != s.curCore) ++ [mem]
            lead := if leader then some { mopOf c f (mmulObjs i) sh k leader id false with gang := some g.id } else x.lead } else x }).sentMop i
            { mopOf c f (mmulObjs i) sh k leader id false with gang := some g.id } c.entry.mask)))

/-- R168, R171, R172, R174 to R176, R178. MZERO, MEXP, MCHK and MSIDE leave their results in flight until they complete, as any
multi-clk instruction does; MTRANS, MSMAX and MSCALE send theirs, which is empty until it arrives. What MZERO and MTRANS leave,
element by element. The model's choices in it: logs 9, 38, 47, 117, 118. -/
def Obligations.AccumulatorInstructions : Prop :=
  (∀ (f : FL) (s : State), s.runs (.mzero f) = true → exec (.mzero f) s = .next (s.running (.mzero f) 0 false (writeA s.curHalf (accD f)
    (if f.r.k = 0 then Acc.reset else mzeroSome (s.accAt f) (readK s.curHalf f.r.k.toNat)))))
  ∧ (∀ (f : FL) (s : State), s.runs (.mexp f) = true →
    let a := s.accAt f
    let v := sval 16 (wbits (readS s.curHalf f.r.a.toNat) 15 0)
    (a.isEmpty = true → exec (.mexp f) s = .next (s.running (.mexp f) 0 false (writeA s.curHalf (accD f) { a with e := BitVec.ofInt 16 v }))) ∧
    (a.isEmpty = false → a.e.toInt < v → s.abftClean f = true →
      exec (.mexp f) s = .next (s.running (.mexp f) 0 false (writeA s.curHalf (accD f) (rebase a v)))) ∧
    (a.isEmpty = false → v ≤ a.e.toInt → exec (.mexp f) s = .next (s.running (.mexp f) 0 false s.curHalf)))
  ∧ (∀ (f : FL) (s : State), s.runs (.mchk f) = true → s.abftClean f = true →
    exec (.mchk f) s = .next (s.running (.mchk f) 0 false (writeA s.curHalf (accD f) (s.accAt f))))
  ∧ (∀ (f : FL) (s : State), s.runs (.mside f) = true →
    let a := s.accAt f
    let side := match f.m.toNat % 4 with | 0 => a.m | 1 => a.l | _ => a.c
    let v := readV s.curHalf f.r.b.toNat
    (f.sc = 0 → ∃ x, exec (.mside f) s = .next (s.running (.mside f) 0 false (writeV s.curHalf f.r.b.toNat x)) ∧
      ∀ n, n < 128 → elem x 32 n = if n < 32 then (vget side n 0).toNat else elem v 32 n) ∧
    (f.sc ≠ 0 → ∃ y : Vector (BitVec 32) 32, (∀ n, n < 32 → (vget y n 0).toNat = elem v 32 n) ∧
      exec (.mside f) s = .next (s.running (.mside f) 0 false (writeA s.curHalf (accD f)
        (match f.m.toNat % 4 with | 0 => { a with m := y } | 1 => { a with l := y } | _ => { a with c := y })))))
  ∧ (∀ (f : FL) (s : State), s.runs (.mtrans f) = true → exec (.mtrans f) s = .next (s.sentAcc (.mtrans f) f (mtransAcc (s.accAt f)) 0))
  ∧ (∀ (f : FL) (s : State), s.runs (.msmax f) = true →
    exec (.msmax f) s = .next (s.sentAcc (.msmax f) f (msmaxAcc (s.accAt f) (readK s.curHalf f.r.k.toNat)) 0))
  ∧ (∀ (f : FL) (s : State), s.runs (.mscale f) = true →
    exec (.mscale f) s = .next (s.sentAcc (.mscale f) f (mscaleAcc (s.accAt f)
      (fun r => vget (readA s.curHalf (f.r.a.toNat % 4)).c r 0) (readK s.curHalf f.r.k.toNat)) 0))
  ∧ (∀ (a : Acc) (k : Mask) (i : Nat), i < 1024 →
    (mzeroSome a k).get i = (if k.getLsbD i then some 0 else a.get i) ∧
    (mzeroSome a k).mb.getLsbD i = (if k.getLsbD i then false else a.mb.getLsbD i) ∧
    (mtransAcc a).get i = a.get (32 * (i % 32) + i / 32) ∧
    (mtransAcc a).mb.getLsbD i = a.mb.getLsbD (32 * (i % 32) + i / 32) ∧
    Acc.reset.get i = some 0)

/-- R164, R165. An accumulator whose checksums have been rebuilt and whose MB parity is right compares clean; and when one
element of it has changed, with no NF in its block, the compare finds that element, gives it back, and counts one
event. -/
def Obligations.ChecksumCorrection : Prop :=
  ∀ (a : Acc) (strict : Bool), a.mbPar = mbParity a.mb →
    abftCompare strict (rebuild a) = ⟨rebuild a, 0, false⟩ ∧
    ∀ (b x y : Nat) (v : BitVec 48), b < 16 → x < 8 → y < 8 → trising a.elems = true →
      (∀ x' y', x' < 8 → y' < 8 → tgetD a.elems (blockElem false b x' y') 0 ≠ nfPattern) →
      v ≠ nfPattern → v ≠ tgetD a.elems (blockElem false b x y) 0 →
      let r := abftCompare false { rebuild a with elems := tput a.elems (blockElem false b x y) v }
      r.fixed = 1 ∧ r.bad = false ∧ ∀ i, r.acc.get i = a.get i

/-- R167, R169, R170, R195. MLOAD and MDRAIN: a tile that is missing, too large, outside the scratchpad, in the
staging area or held by a lock traps as accTile says; both wait for earlier accesses of the task to the tile; MLOAD,
of a memory without errors, sends the accumulator that its elements give, and MDRAIN stores the active elements of the tile,
each at its row's address, and no other byte; a word that stayed uncorrectable is sound once a byte of it is stored to; its
flags come as it completes. The model's choices in it: logs 9, 24, 46, 101, 126. -/
def Obligations.AccumulatorTransfers : Prop :=
  (∀ (i : Instr) (f : FL) (s : State) (cause : Cause) (a : Word), s.runs i = true →
    (i = .mload f ∧ s.accTile (s.seen i) f false = .error (cause, a) ∨ i = .mdrain f ∧ s.accTile (s.seen i) f true = .error (cause, a)) →
    exec i s = .next ((raiseIssue s.cur cause a 0).run s))
  ∧ (∀ (i : Instr) (f : FL) (write : Bool) (s : State) (t : TileObj) (base rl : Nat), s.runs i = true →
    (i = .mload f ∧ write = false ∨ i = .mdrain f ∧ write = true) → s.accTile (s.seen i) f write = .ok (t, base, rl) →
    s.tilePending (s.seen i) (tileRows base t.rows t.stride rl) write = true →
    exec i s = .next (s.halved { s.curHalf with block := .register }))
  ∧ (∀ (f : FL) (s : State) (t : TileObj) (base rl : Nat), s.runs (.mload f) = true →
    s.accTile (s.seen (.mload f)) f false = .ok (t, base, rl) → s.sound = true →
    s.tilePending (s.seen (.mload f)) (tileRows base t.rows t.stride rl) false = false →
    let k := readK s.curHalf f.r.k.toNat
    let r := mloadAcc f.t (s.curHalf.ctl.abftp.getLsbD 0) (s.accAt f) fun i =>
      if k.getLsbD i && decide (i / 32 < t.rows) && decide (i % 32 < t.cols)
      then some (elemPat f.t (((List.range t.rows).map fun r => s.scratch s.curCore (base + r * t.stride) rl).getD (i / 32) []) (i % 32)) else none
    r.fixed = 0 → r.bad = false →
    (trapping s.curHalf.ctl (flIf r.inexact flNX) ≠ 0 →
      exec (.mload f) s = .next ((raiseIssue s.cur .fpx 0 (zx (flIf r.inexact flNX))).run s)) ∧
    (trapping s.curHalf.ctl (flIf r.inexact flNX) = 0 → exec (.mload f) s = .next (s.sentAcc (.mload f) f r.acc (flIf r.inexact flNX))))
  ∧ (∀ (f : FL) (s : State) (t : TileObj) (base rl : Nat), s.runs (.mdrain f) = true → s.canonical = true →
    s.accTile (s.seen (.mdrain f)) f true = .ok (t, base, rl) → s.abftClean f = true →
    s.tilePending (s.seen (.mdrain f)) (tileRows base t.rows t.stride rl) true = false →
    let k := readK s.curHalf f.r.k.toNat
    let w := typeWidth f.t
    let n := max 1 (w / 8)
    let on (i : Nat) : Bool := k.getLsbD i && decide (i / 32 < t.rows) && decide (i % 32 < t.cols)
    let out (i : Nat) : Nat × Flags := drainElem (s.seen (.mdrain f)) f (s.accAt f) i
    let fl := flagsOf 1024 (maskOf on) fun i => (out i).2
    let at_ (i : Nat) : Nat := scratchAt s.curCore (base + i / 32 * t.stride) + i % 32 * w / 8
    (trapping s.curHalf.ctl fl ≠ 0 → exec (.mdrain f) s = .next ((raiseIssue s.cur .fpx 0 (zx fl)).run
      (s.halved { s.curHalf with a := vset s.curHalf.a (accD f) (s.accAt f) }))) ∧
    (trapping s.curHalf.ctl fl = 0 →
    ∃ (m : List Host.Cell) (sp : List Nat), exec (.mdrain f) s = .next ({ s with mem := m, spoilt := sp }.running (.mdrain f) fl false
        (writeA s.curHalf (accD f) (s.accAt f))) ∧
      (∀ x, x ∈ sp ↔ x ∈ s.spoilt ∧ ∀ i y, i < 1024 → on i = true → at_ i ≤ y → y < at_ i + n → y / 8 * 8 ≠ x) ∧
      (∀ x, (∀ i, i < 1024 → on i = true → x < at_ i ∨ at_ i + n ≤ x) → memGet m x = memGet s.mem x) ∧
      (w ≠ 4 → ∀ i, i < 1024 → on i = true →
        (∀ j, j < 1024 → on j = true → j ≠ i → at_ j + n ≤ at_ i ∨ at_ i + n ≤ at_ j) → memNat m (at_ i) n = (out i).1 % 2 ^ w)))

/-- R176, R177. MMASK sets the MB bits of the active elements that the descriptor masks; MTREE gives the empty accumulator
with the MB bits of every element that the tree masks, whatever its predicate. Their results are in flight until they complete.
The model's choices in it: logs 9, 119. -/
def Obligations.TreeMasks : Prop :=
  ∀ (i : Instr) (f : FL) (mode : Nat) (k : Mask) (a : Acc) (o : Obj) (s : State), s.runs i = true →
    (i = .mmask f ∧ mode = f.m.toNat % 4 ∧ k = readK s.curHalf f.r.k.toNat ∧ a = s.accAt f
      ∨ i = .mtree f ∧ mode = 2 ∧ k = BitVec.allOnes 1024 ∧ a = Acc.reset) →
    (s.liveObj s.curTask.part f.obj.toNat 5 = none → exec i s = .next ((raiseIssue s.cur .bound 0 0).run s)) ∧
    (s.liveObj s.curTask.part f.obj.toNat 5 = some o →
      let d := maskDesc o.body
      let n := maskBytes d mode
      let parent (x : Nat) : Nat := if mode = 2 then memNat s.mem (scratchAt s.curCore (d.addr + 2 * x)) 2 else 0
      let rows (r : Nat) : Nat := if mode = 3 then memNat s.mem (scratchAt s.curCore (d.addr + 4 * r)) 4 else 0
      (n ≠ 0 → 0x40000 < d.addr + n → exec i s = .next ((raiseIssue s.cur .bound (word d.addr) 0).run s)) ∧
      ((n ≠ 0 → d.addr + n ≤ 0x40000 ∧ s.lockCause s.curCore d.addr (d.addr + n - 1) false (whoOf (s.seen i)) = none ∧
          s.pendingScratch s.curHalf.tid s.curCore s.curCore d.addr n false = false ∧ s.sound = true) →
        (mode = 2 → ∀ x, x < d.nodes → parent x = 0xFFFF ∨ parent x < x) →
        ∃ mb : Mask, exec i s = .next (s.running i 0 false (writeA s.curHalf (accD f) (a.withMb mb))) ∧
          ∀ e, e < 1024 → mb.getLsbD e = (a.mb.getLsbD e || (k.getLsbD e && maskedAt d mode parent rows (e / 32) (e % 32)))))

/-- R153, R159, R160, R162, R163. The phases of a matrix operation: once it is next and its operands may be read, it
loads them, or, where a range of them is refused, is gone and traps with the cause and the first refused byte (R377), and where
it has joined its gang again and differs from the leader traps BOUND; when its gang starts, B and its scales are read once, as
the leader names them; once it is the oldest, it computes, its accumulator is full, and it leaves the replay queue and retires
(R333), or, in a gang, its portion is done; a gang whose portions are all done fills every accumulator at once and is gone. The
model's choices in it: logs 10, 49, 120. -/
def Obligations.MatrixPhases : Prop :=
  (∀ (s : State) (core : Nat) (o : MOp), s.mop? s.data.n = some (core, o) → s.mayLoad core o = true → o.gang = none →
    o.jib = false → 0 < o.bRows → s.sound = true →
    let rowA := if o.sp then sparseRowBytes (fmtOf o.fmta) o.kk else rowBytes (fmtOf o.fmta) o.kk
    let rowB := rowBytes (fmtOf o.fmtb) o.n
    let scales := (o.kk + 31) / 32
    (∀ x ∈ o.ranges core, s.operandCause o core x.1 x.2.1 x.2.2 = none) →
    exec .mmulLoadPhase s = .next (s.cored core fun c => { c with mops := c.mops.map fun x => if x.id = o.id then { x with
        loaded := true
        aBytes := s.tileBytes x.aCore x.aAddr x.m x.aStride rowA
        bBytes := s.tileBytes x.bCore x.bAddr x.kk x.bStride rowB
        aScale := if x.fmta.getLsbD 4 then s.scratch core (wbits x.scla 17 0) scales else []
        bScale := if x.fmtb.getLsbD 4 then s.scratch x.sCore (wbits x.sclb 17 0) scales else x.bScale } else x }))
  ∧ (∀ (s : State) (core : Nat) (o : MOp) (before after : List (Nat × Nat × Nat)) (x : Nat × Nat × Nat) (cause : Cause),
    s.mop? s.data.n = some (core, o) → s.mayLoad core o = true → o.gang = none → o.jib = false → o.ranges core = before ++ x :: after →
    (∀ y ∈ before, s.operandCause o core y.1 y.2.1 y.2.2 = none) → s.operandCause o core x.1 x.2.1 x.2.2 = some cause →
    let a := s.firstRefused o core x.1 x.2.1 x.2.2
    exec .mmulLoadPhase s = .next ((raiseAfter o.hid o.tid o.seq cause
      (if x.1 = core then word a else word (x.1 % 128 * 2 ^ 18 + a)) Entry.blank).run
        (s.cored core fun c => { c with mops := c.mops.filter fun y => y.id != o.id })))
  ∧ (∀ (s : State) (core : Nat) (o : MOp), s.mop? s.data.n = some (core, o) → s.mayLoad core o = true → o.jib = false →
    s.misfits o = true →
    exec .mmulLoadPhase s = .next ((raiseAfter o.hid o.tid o.seq .bound 0 Entry.blank).run
      (s.cored core fun c => { c with mops := c.mops.filter fun y => y.id != o.id })))
  ∧ (∀ (s : State) (o : MOp) (own core a n j : Nat), j < n → (s.operandCause o own core (a + j) 1).isSome = true →
    (∀ i, i < j → s.operandCause o own core (a + i) 1 = none) → s.firstRefused o own core a n = a + j)
  ∧ (∀ (s : State) (core : Nat) (o : MOp) (rest : List MOp), (s.core core).mops = o :: rest → s.mop? s.data.n = some (core, o) →
    o.loaded = true → o.done = false → s.data.yes = false → o.gang = none →
    (match s.part? ((s.partOf core).getD 0) with | some p => p.image.test | none => false) = false →
    let r := computeMmul o (readA (s.half o.hid) o.acc)
    r.fixed = 0 → r.bad = false → r.narrow = 0 →
    ∃ t, exec .mmulComputeDone s = .next t ∧ t.mem = s.mem ∧ (t.core core).mops = rest.filter (fun x => x.id != o.id) ∧
      t.half o.hid = accFilled o { s.half o.hid with a := vset (s.half o.hid).a o.acc r.acc } ∧
      (t.core (coreOf o.hid)).ret = (s.core (coreOf o.hid)).ret
        + (if ((s.half o.hid).replay.any fun e => e.seq == o.seq && !e.nore) = true then 1 else 0))
  ∧ (∀ (s : State) (g : Gang) (m : Member) (l o : MOp), s.net.gangs.find? (fun g => g.id == s.data.n) = some g →
    s.det g.part = false → g.lead = some l → g.started = false → g.joined = [m] → m.core = coreOf l.hid →
    (∀ x ∈ g.members, x = m.core ∨ x ∈ g.withdrawn) →
    (s.core m.core).mops.find? (fun o => o.gang == some g.id) = some o → s.sound = true →
    let reads := l.scalesB ++ l.rowsB
    (∀ x ∈ reads, s.storesTo l.tid (some l.seq) x.1 x.2.1 x.2.2 = false) → (∀ x ∈ reads, s.operandCause l m.core x.1 x.2.1 x.2.2 = none) →
    o.differs l = false →
    exec .gangStart s = .next ((s.netted fun n => { n with gangs := n.gangs.map fun x => if x.id = g.id then
        { x with started := true } else x }).cored m.core fun c => { c with mops := c.mops.map fun x => if x.id = o.id then { x with
          bBytes := s.tileBytes l.bCore l.bAddr l.kk l.bStride (rowBytes (fmtOf l.fmtb) l.n)
          bScale := if l.fmtb.getLsbD 4 then s.scratch l.sCore (wbits l.sclb 17 0) ((l.kk + 31) / 32) else []
          bRows := 0 } else x }))
  ∧ (∀ (s : State) (g : Gang) (m : Member) (o : MOp), s.net.gangs.find? (fun g => g.id == s.data.n) = some g → g.started = true →
    g.joined = [m] → m.done = true → (s.core m.core).mops.find? (fun o => o.gang == some g.id) = some o →
    ∃ t, exec .gangComplete s = .next t ∧ t.half o.hid = accFilled o (s.half o.hid) ∧
      t.net.gangs = s.net.gangs.filter fun x => x.id != g.id)

/-! ### Memory instructions -/

/-- R78, R80, R195, R198, R199. A local access that is not aligned traps ALIGN; one that leaves the scratchpad or
touches the staging area traps BOUND; one that a lock holds traps with the lock's cause; each with the address. LD,
LDV and LDK read the core's scratchpad, a memory without errors: the value goes to D, which is empty until it
arrives; LDV keeps the inactive elements. ST, STV and STK store at the effective address of the core's scratchpad:
the bytes there are those of the value, a word that stayed uncorrectable is sound once a byte of it is stored to (R347), and every
other byte of memory and every register stays as it was; the store keeps a replay entry until it completes (R80, R226). The
model's choices in it: logs 9, 104. -/
def Obligations.LocalAccesses : Prop :=
  (∀ (i : Instr) (f : FL) (size align : Nat) (write : Bool) (s : State), localAccess i = some (f, size, align, write) → s.runs i = true →
    let ea := s.eaOf f
    let traps (c : Cause) : Prop := exec i s = .next ((raiseIssue s.cur c ea 0).run s)
    (ea.toNat % align ≠ 0 → traps .align) ∧
    (ea.toNat % align = 0 → 0x40000 < ea.toNat + size → traps .bound) ∧
    (ea.toNat % align = 0 → ea.toNat + size ≤ 0x40000 → s.stagingHits s.curCore ea.toNat size = true → traps .bound) ∧
    (∀ c, ea.toNat % align = 0 → ea.toNat + size ≤ 0x40000 → s.stagingHits s.curCore ea.toNat size = false →
      s.lockCause s.curCore ea.toNat (ea.toNat + size - 1) write (whoOf (s.seen i)) = some c → traps c))
  ∧ (∀ (f : FL) (s : State), s.runs (.ld f) = true →
    let ea := s.eaOf f
    let n := 2 ^ f.sc.toNat
    s.localOk (.ld f) ea n n false = true → s.sound = true →
    let x := memNat s.mem (scratchAt s.curCore ea.toNat) n
    exec (.ld f) s = .next ((s.filling (.s f.r.d.toNat (if f.m.getLsbD 1 then wordI (sval (8 * n) x) else word x))).awaits
      (.ld f) (.s f.r.d.toNat) (s.seen (.ld f)).entry.mask))
  ∧ (∀ (f : FL) (s : State), s.runs (.ldv f) = true → s.localOk (.ldv f) (s.eaOf f) 512 64 false = true → s.sound = true →
    let w := typeWidth f.t
    ∃ v, exec (.ldv f) s = .next ((s.filling (.v f.r.d.toNat v)).awaits (.ldv f) (.v f.r.d.toNat) (s.lanesOn f)) ∧
      ∀ n, n < lanesOf w → elem v w n = if (s.lanesOn f).getLsbD n
        then memNat s.mem (scratchAt s.curCore (s.eaOf f).toNat) 512 / 2 ^ (w * n) % 2 ^ w
        else elem (readV s.curHalf f.r.d.toNat) w n)
  ∧ (∀ (f : FL) (s : State), s.runs (.ldk f) = true → s.localOk (.ldk f) (s.eaOf f) 128 8 false = true → s.sound = true →
    exec (.ldk f) s = .next ((s.filling (.k (f.r.d.toNat % 8)
        (BitVec.ofNat 1024 (memNat s.mem (scratchAt s.curCore (s.eaOf f).toNat) 128)))).awaits
      (.ldk f) (.k (f.r.d.toNat % 8)) (s.seen (.ldk f)).entry.mask))
  ∧ (∀ (f : FL) (s : State), s.runs (.st f) = true → s.canonical = true →
    let n := 2 ^ f.sc.toNat
    s.localOk (.st f) (s.eaOf f) n n true = true →
    let a := scratchAt s.curCore (s.eaOf f).toNat
    ∃ m sp, exec (.st f) s = .next ({ s with mem := m, spoilt := sp }.running (.st f) 0 false s.curHalf) ∧ s.unspoilt sp a n ∧
      memNat m a n = (readS s.curHalf f.c.toNat).toNat % 2 ^ (8 * n) ∧ ∀ x, x < a ∨ a + n ≤ x → memGet m x = memGet s.mem x)
  ∧ (∀ (f : FL) (s : State), s.runs (.stv f) = true → s.canonical = true → s.localOk (.stv f) (s.eaOf f) 512 64 true = true →
    let a := scratchAt s.curCore (s.eaOf f).toNat
    let w := typeWidth f.t
    ∃ m sp, exec (.stv f) s = .next ({ s with mem := m, spoilt := sp }.running (.stv f) 0 false s.curHalf) ∧ s.unspoilt sp a 512 ∧
      (∀ n, n < lanesOf w → memNat m a 512 / 2 ^ (w * n) % 2 ^ w = if (s.lanesOn f).getLsbD n
        then elem (readV s.curHalf f.c.toNat) w n else memNat s.mem a 512 / 2 ^ (w * n) % 2 ^ w) ∧
      ∀ x, x < a ∨ a + 512 ≤ x → memGet m x = memGet s.mem x)
  ∧ (∀ (f : FL) (s : State), s.runs (.stk f) = true → s.canonical = true → s.localOk (.stk f) (s.eaOf f) 128 8 true = true →
    let a := scratchAt s.curCore (s.eaOf f).toNat
    ∃ m sp, exec (.stk f) s = .next ({ s with mem := m, spoilt := sp }.running (.stk f) 0 false s.curHalf) ∧ s.unspoilt sp a 128 ∧
      memNat m a 128 = (readK s.curHalf (f.c.toNat % 8)).toNat ∧ ∀ x, x < a ∨ a + 128 ≤ x → memGet m x = memGet s.mem x)

/-- R195 to R199, R205, R212. LDR, STR and PUTH send an access to the scratchpad that a cluster address names: LDR
at once, its D empty until the value comes; STR and PUTH as direct operations, which wait until the task is safe.
STSM: an offset that is not a multiple of 256 or lies outside the scratchpad traps BOUND; else, when the task is
safe, 256 bytes go to every member of the group, and sD is empty until the answers have come. The model's choice in
it: log 106. -/
def Obligations.ClusterAccesses : Prop :=
  (∀ (f : FL) (s : State), s.runs (.ldr f) = true →
    let ea := s.eaOf f
    let n := 2 ^ f.sc.toNat
    (ea.toNat % n ≠ 0 → exec (.ldr f) s = .next ((raiseIssue s.cur .align ea 0).run s)) ∧
    (ea.toNat % n = 0 → wbits ea 63 25 ≠ 0 → exec (.ldr f) s = .next ((raiseIssue s.cur .bound ea 0).run s)) ∧
    (s.remoteOk ea n false = true → exec (.ldr f) s = .next ((s.remoted (.ldr f) ea (.ldr n f.r.d.toNat) false).awaits
      (.ldr f) (.s f.r.d.toNat) (s.seen (.ldr f)).entry.mask)))
  ∧ (∀ (i : Instr) (ea : Word) (n : Nat) (op : RemOp) (s : State), s.runs i = true →
    (∃ f : FL, i = .str f ∧ ea = s.eaOf f ∧ n = 2 ^ f.sc.toNat ∧ op = .str n (readS s.curHalf f.c.toNat)
      ∨ i = .puthL f ∧ ea = s.eaOf f ∧ n = 2 ^ f.sc.toNat ∧ op = .puth n (readS s.curHalf f.c.toNat) (f.r.d.toNat % 16)
      ∨ ∃ g : FX, i = .puthX g ∧ f = g.l ∧ n = 2 ^ f.sc.toNat ∧ op = .puth n (readS s.curHalf f.c.toNat) (f.r.d.toNat % 16) ∧
        ea = readS s.curHalf f.r.a.toNat + (sx g.lit + (if f.m.getLsbD 0 then readS s.curHalf f.r.b.toNat else 0))) →
    (ea.toNat % n ≠ 0 → exec i s = .next ((raiseIssue s.cur .align ea 0).run s)) ∧
    (s.remoteOk ea n true = true →
      (s.directReady s.curHalf.tid = true → exec i s = .next ((s.committing.remoted i ea op true).retired (parcelCount i) s.curHalf)) ∧
      (s.directReady s.curHalf.tid = false → exec i s = .next (s.halved { s.curHalf with block := .safe }))))
  ∧ (∀ (f : FL) (s : State), s.runs (.stsm f) = true →
    let off := readS s.curHalf f.r.a.toNat + readS s.curHalf f.r.b.toNat
    let members := membersOf (s.groupMask s.curTask.part (f.obj.toNat % 256))
    let d : Dest := ⟨s.cur, s.curHalf.tid, s.curHalf.seq, f.r.d.toNat⟩
    (off.toNat % 256 ≠ 0 ∨ 0x40000 ≤ off.toNat → exec (.stsm f) s = .next ((raiseIssue s.cur .bound off 0).run s)) ∧
    (off.toNat % 256 = 0 → off.toNat < 0x40000 →
      (∀ m ∈ members, s.pendingScratch s.curHalf.tid s.curCore m off.toNat 256 true = false) →
      (s.directReady s.curHalf.tid = true → exec (.stsm f) s = .next ((s.committing.netted fun n => { n with
        nextId := n.nextId + 1
        mcasts := n.mcasts ++ [⟨n.nextId, d, s.curCore, some ((readV s.curHalf f.c.toNat).extractLsb' 0 2048, off.toNat),
          f.obj.toNat % 256, members, 0, 0, 0xFFFF, 0, none⟩] }).ran (.stsm f) (markEmpty s.curHalf (.s f.r.d.toNat)))) ∧
      (s.directReady s.curHalf.tid = false → exec (.stsm f) s = .next (s.halved { s.curHalf with block := .safe }))))

/-- R36, R195, R197, R201, R202, R375. LDS, LDA and LDSV send a request for their lines, whose addresses join the task's
read signature; D is empty until the value comes; an LDSV with no active element gives D back. An LDSV any of whose 512 bytes a
reef guard refuses traps with the cause and the address of the first line refused, whether or not its element is active. The
model's choices in it: logs 104, 105. -/
def Obligations.SharedLoads : Prop :=
  (∀ (i : Instr) (f : FL) (acc : Access) (s : State), s.runs i = true →
    (i = .lds f ∧ acc = .load (2 ^ f.sc.toNat) false ∨ i = .lda f ∧ acc = .acquire (2 ^ f.sc.toNat) (f.m.toNat / 2 % 8)) →
    let ea := s.eaOf f
    let n := 2 ^ f.sc.toNat
    (ea.toNat % n ≠ 0 → exec i s = .next ((raiseIssue s.cur .align ea 0).run s)) ∧
    (ea.toNat % n = 0 → wbits ea 63 56 ≠ 0 → exec i s = .next ((raiseIssue s.cur .access ea 0).run s)) ∧
    (s.sharedOk ea n n false = true → exec i s = .next
      ((((s.tasked s.curHalf.tid fun t => { t with readSig := t.readSig ||| sigOf ea.toNat }).clustered (clusterOf s.curCore)
        (·.counting 5 1)).requested i acc f.r.d.toNat ea [lineAt ea] [(touchOf ea.toNat n).bytes] id).awaits
        i (.s f.r.d.toNat) (s.seen i).entry.mask)))
  ∧ (∀ (f : FL) (s : State), s.runs (.ldsv f) = true →
    let ea := s.eaOf f
    let w := typeWidth f.t
    let lines := activeLines ea.toNat w (s.lanesOn f)
    let old := readV s.curHalf f.r.d.toNat
    let base := (s.tasked s.curHalf.tid fun t => { t with readSig := lines.foldl (fun x l => x ||| sigOf l) t.readSig }).clustered
      (clusterOf s.curCore) (·.counting 5 1)
    let gives (t : State) : Prop := exec (.ldsv f) s = .next (t.awaits (.ldsv f) (.v f.r.d.toNat) (s.lanesOn f))
    (ea.toNat % 64 ≠ 0 → exec (.ldsv f) s = .next ((raiseIssue s.cur .align ea 0).run s)) ∧
    (ea.toNat % 64 = 0 → wbits ea 63 56 ≠ 0 → exec (.ldsv f) s = .next ((raiseIssue s.cur .access ea 0).run s)) ∧
    (∀ cause va, ea.toNat % 64 = 0 → wbits ea 63 56 = 0 → s.wideCause (s.seen (.ldsv f)) ea false = some (cause, va) →
      exec (.ldsv f) s = .next ((raiseIssue s.cur cause (word va) 0).run s)) ∧
    (s.sharedOk ea 64 512 false = true → s.wideCause (s.seen (.ldsv f)) ea false = none →
      (lines ≠ [] → gives (base.requested (.ldsv f) .vload f.r.d.toNat ea lines
        (lines.map (activeBytes ea.toNat w (s.lanesOn f))) fun q => { q with esize := w, data := old })) ∧
      (lines = [] → gives (base.filling (.v f.r.d.toNat old)))))

/-- R36, R181, R192, R203. STS and STSV, where the core's staging pool has room and the task has not overflowed: the
lines are staged, their addresses join the write signature, and a probe follows; no byte of memory changes. An STSV any of whose
512 bytes a reef guard refuses traps with the cause and the address of the first line refused (R375). The model's choice in it:
log 105. -/
def Obligations.BufferedStores : Prop :=
  ∀ (i : Instr) (f : FL) (align n : Nat) (l : List Piece) (u : Task) (s : State), s.runs i = true → s.task? s.curHalf.tid = some u →
    let ea := s.eaOf f
    (i = .sts f ∧ align = 2 ^ f.sc.toNat ∧ n = align ∧ l = [scalarPiece ea.toNat n (readS s.curHalf f.c.toNat)]
      ∨ i = .stsv f ∧ align = 64 ∧ n = 512 ∧ l = vectorPieces ea.toNat (typeWidth f.t) (s.lanesOn f) (readV s.curHalf f.c.toNat)) →
    (ea.toNat % align ≠ 0 → exec i s = .next ((raiseIssue s.cur .align ea 0).run s)) ∧
    (ea.toNat % align = 0 → wbits ea 63 56 ≠ 0 → exec i s = .next ((raiseIssue s.cur .access ea 0).run s)) ∧
    (∀ f cause va, i = .stsv f → ea.toNat % align = 0 → wbits ea 63 56 = 0 → s.wideCause (s.seen i) ea true = some (cause, va) →
      exec i s = .next ((raiseIssue s.cur cause (word va) 0).run s)) ∧
    let free : Prop := ∀ f, i = .stsv f → s.wideCause (s.seen i) ea true = none
    (free → s.sharedOk ea align n true = true → u.overflow = false →
      s.usedSlots s.curCore + (l.filter fun p => (tget u.lines p.1).isNone).length ≤ s.stageSlots s.curCore →
      let base := s.tasked s.curHalf.tid fun t => { t with
        lines := l.foldl (fun x p => tput x p.1 (mergeLine (tget x p.1) p.2)) t.lines
        writeSig := (l.map (·.1)).foldl (fun x a => x ||| sigOf a) t.writeSig }
      exec i s = .next ((if l.isEmpty then base else base.requested i .probe 0 ea (l.map (·.1)) (l.map fun p => nibbleBytes p.2.mask)
        fun q => { q with entry := { q.entry with nore := true, mask := (s.seen i).vmask } }).retired 2 s.curHalf)) ∧
    (free → s.sharedOk ea align n true = true → u.overflow = false → s.directReady s.curHalf.tid = false →
      s.stageSlots s.curCore < s.usedSlots s.curCore + (l.filter fun p => (tget u.lines p.1).isNone).length →
      exec i s = .next (s.halved { s.curHalf with block := .safe }))

/-- R204, R211, R231, R232, R236. STREL of a safe task with nothing staged, to a word that its address space lets it
write, waits while a line of it that has left is unseen at its scope; else the word leaves for its home as a release
of that scope, behind every line of the task, which is seen at the scope from then on, and no byte of memory
changes. FENCE of such a task completes when nothing earlier of the task is unseen at its scope and, with bit 3 of
its minor, no engine command of the task is outstanding: its writes in flight, those of atomic engines too, are seen at the scope
from then on; else it waits. The model's choice in it: log 8. -/
def Obligations.ReleasesAndFences : Prop :=
  (∀ (f : FL) (u : Task) (pas : List Nat) (s : State), s.runs (.strel f) = true →
    s.task? s.curHalf.tid = some u → u.unstaged = true → s.directReady s.curHalf.tid = true →
    let ea := s.eaOf f
    let n := 2 ^ f.sc.toNat
    let scope := f.m.toNat / 2 % 8
    s.sharedOk ea n n true = true → s.ranged ea = true →
    s.reachLines (s.party s.curCore) (whoOf (s.seen (.strel f))) .write [touchOf ea.toNat n] = .ok pas →
    (s.linesUnseen (s.seen (.strel f)) scope = true → exec (.strel f) s = .next (s.committing.halved { s.curHalf with block := .fence })) ∧
    (s.linesUnseen (s.seen (.strel f)) scope = false → exec (.strel f) s = .next (((s.committing.netted fun x => { x with
        nextId := x.nextId + 2
        reqs := markedSeen scope x.nextId (fun q => q.tid == s.curHalf.tid && q.acc.isLine) x.reqs ++ [
          { faultReq (x.nextId + 1) s.cur s.curHalf.tid s.curHalf.seq s.curCore (s.party s.curCore)
              (.release n scope (readS s.curHalf f.c.toNat)) 0 ea.toNat with pas := pas, phase := .home }] }).deferring true).retired 2 s.curHalf)))
  ∧ (∀ (min : BitVec 4) (f : FA) (u : Task) (s : State), s.runs (.fence min f) = true → s.task? s.curHalf.tid = some u →
    u.unstaged = true → s.directReady s.curHalf.tid = true →
    let scope := min.toNat % 8
    let busy := s.unseen (s.seen (.fence min f)) scope
    let engines := min.getLsbD 3 && s.net.cmds.any fun q => q.dest.tid == s.curHalf.tid
    (busy = false → engines = false → exec (.fence min f) s = .next ((s.committing.netted fun x => { x with
      nextId := x.nextId + 1
      reqs := markedSeen scope x.nextId (fun q => q.tid == s.curHalf.tid || (u.act.miss && q.core == s.curCore)) x.reqs
      atoms := markedAtoms scope x.nextId (fun q => q.dest.tid == s.curHalf.tid || (u.act.miss && q.core == s.curCore)) x.atoms }).retired
        1 s.curHalf)) ∧
    (busy = true ∨ engines = true → exec (.fence min f) s = .next (s.committing.halved { s.curHalf with block := .fence })))

/-- R38, R206 to R210. ATOM and RED send their request to the home, ATOMR and REDR, translated, to the atomic engine
of the home's die, in this package or another, when the task is safe; ATOM and ATOMR leave sD empty until the old
value comes. The model's choices in it: logs 6, 50, 107. -/
def Obligations.Atomics : Prop :=
  (∀ (i : Instr) (f : FL) (value : Bool) (s : State), s.runs i = true → (i = .atom f ∧ value = true ∨ i = .red f ∧ value = false) →
    let dbl := decide (f.sc.toNat = 3)
    let n := if dbl then 8 else 4
    let ea := readS s.curHalf f.r.a.toNat + sx f.obj
    let b := readS s.curHalf f.r.b.toNat
    let acc : Access := if value then .atom f.m.toNat dbl b (readS s.curHalf f.c.toNat) else .red f.m.toNat dbl b
    (ea.toNat % n ≠ 0 → exec i s = .next ((raiseIssue s.cur .align ea 0).run s)) ∧
    (s.sharedOk ea n n true = true →
      (s.directReady s.curHalf.tid = true → exec i s = .next
        (((s.committing.requested i acc f.r.d.toNat ea [lineAt ea] [(touchOf ea.toNat n).bytes] id).deferring
          (heldAtomic f.m.toNat value)).ran i (if value then markEmpty s.curHalf (.s f.r.d.toNat) else s.curHalf))) ∧
      (s.directReady s.curHalf.tid = false → exec i s = .next (s.halved { s.curHalf with block := .safe }))))
  ∧ (∀ (i : Instr) (f : FL) (value : Bool) (pa : Nat) (s : State), s.runs i = true →
    (i = .atomr f ∧ value = true ∨ i = .redr f ∧ value = false) → s.directReady s.curHalf.tid = true →
    let dbl := decide (f.sc.toNat = 3)
    let n := if dbl then 8 else 4
    let ea := readS s.curHalf f.r.a.toNat + sx f.obj
    let home := homeOf s.extent (pa % 2 ^ 40)
    let guard (read : Bool) : Option Cause :=
      s.guardCause (clusterOf s.curCore) (s.party s.curCore).asid (touchOf ea.toNat n) read true (whoOf (s.seen i))
    s.sharedOk ea n n true = true → s.ranged ea = true → (value = true → (s.core s.curCore).completions < completionEntries) →
    (value = true → guard true = none) →
    (s.awayPa (s.party s.curCore) ea.toNat = some pa ∧ guard false = none ∨
      s.awayPa (s.party s.curCore) ea.toNat = none ∧ ∃ line,
        s.reachLines (s.party s.curCore) (whoOf (s.seen i)) .atomic [touchOf ea.toNat n] = .ok [line] ∧ pa = line + ea.toNat % 64) →
    home ≠ .nowhere → (∀ c, home ≠ .scratch c) →
    exec i s = .next (((((s.committing.netted fun x => { x with nextId := x.nextId + 1, atoms := x.atoms ++ [
        { id := x.nextId, mf := dieOfHome home, widen := false, dest := ⟨s.cur, s.curHalf.tid, s.curHalf.seq, f.r.d.toNat⟩, core := s.curCore
          part := s.curTask.part, pa := pa, op := f.m.toNat, dbl := dbl, b := readS s.curHalf f.r.b.toNat
          c := if value then readS s.curHalf f.c.toNat else 0, value := value, waiting := false, pay := [], va := ea.toNat
          entry := (s.seen i).entry, owed := false, seen := [] }] }).deferring (heldAtomic f.m.toNat value)).cored s.curCore fun x =>
            { x with completions := x.completions + if value then 1 else 0 })).ran i
        (if value then markEmpty s.curHalf (.s f.r.d.toNat) else s.curHalf)))

/-- R213, R214, R223, R224. ROT and PFT without a tile trap BOUND, and so does ROT for no group, a group without the
core, or a tile above 64 KiB; a row of its tile that leaves the scratchpad, touches the staging area or is held by a lock, as
written or as read, traps with the cause and the tile's address; of a safe task, with room in the lock table, ROT locks the rows
of its tile and joins the ring of its group that waits for the core, or opens one, and it waits until the task is safe. PFT retires having looked up
the tile's pages for the cluster of each member, which changes cached translations, and of memory only the leaf
entries that the walks find. RLOCK: an empty range or one beyond the scratchpad traps BOUND; status 1 when the table
or the task's share is full, 2 when the range meets a lock of the core, else 0 and the lock is held; RUNLOCK frees
exactly such a lock of the task with status 0, and answers 3 where there is none. ALLOC of 0 bytes gives 0; any
other goes to the heap unit, and sD is in flight, but not empty, until it answers, and in deterministic operation
empty; FREE goes to the heap unit. The model's choices in it: logs 45, 125. -/
def Obligations.RingsLocksHeap : Prop :=
  (∀ (i : Instr) (f : FL) (s : State), (i = .rot f ∨ i = .pft f) → s.runs i = true → s.tileAt s.curTask.part f.obj.toNat = none →
    exec i s = .next ((raiseIssue s.cur .bound 0 0).run s))
  ∧ (∀ (f : FL) (t : TileObj) (s : State), s.runs (.rot f) = true → s.tileAt s.curTask.part f.obj.toNat = some t →
    let part := s.curTask.part
    let group := (readS s.curHalf f.r.b.toNat).toNat
    let members := s.groupMask part (group % 256)
    let base := readS s.curHalf f.r.a.toNat + word t.base
    let rl := rowBytes t.type t.cols
    let ext := tileExtent t.rows t.stride rl
    let waits (g : Ring) : Bool := g.part == part && g.group == group && g.members.contains s.curCore
      && !g.withdrawn.contains s.curCore && !g.joined.any fun m => m.core == s.curCore
    let mem : Member := ⟨s.curCore, s.cur, s.curHalf.tid, s.curHalf.seq, base.toNat, t.rows, rl, t.stride, f.r.d.toNat % 16,
      s.net.nextId, f.obj.toNat, false, (s.seen (.rot f)).entry⟩
    let rows := if ext = 0 then [] else tileRows base.toNat t.rows t.stride rl
    let c := s.seen (.rot f)
    let good := 256 > group ∧ members.getLsbD s.curCore = true ∧ t.rows * rl ≤ 0x10000
    let joins (rings : List Ring) : Prop := exec (.rot f) s = .next (((s.committing.netted fun n => { n with
        nextId := n.nextId + 2, rings := rings }).clustered (clusterOf s.curCore) fun x => if ext = 0 then x else
          { x with locks := x.locks ++ [⟨1, s.curCore, base.toNat, base.toNat + ext - 1, .tile s.net.nextId t.rows t.stride rl⟩] }).retired
            2 s.curHalf)
    (¬ good → exec (.rot f) s = .next ((raiseIssue s.cur .bound 0 0).run s)) ∧
    (∀ cause a, good → (s.rangesCheck c base rows true = .trap cause a ∨
        s.rangesCheck c base rows true = .ok ∧ s.rangesCheck c base rows false = .trap cause a) →
      exec (.rot f) s = .next ((raiseIssue s.cur cause a 0).run s)) ∧
    (good → s.rangesCheck c base rows true = .ok → s.rangesCheck c base rows false = .ok → s.tilePending c rows true = false →
      (s.cluster (clusterOf s.curCore)).locks.length < 64 →
      (s.directReady s.curHalf.tid = false → exec (.rot f) s = .next (s.halved { s.curHalf with block := .safe })) ∧
      (s.directReady s.curHalf.tid = true → s.net.rings.find? waits = none →
        joins (s.net.rings ++ [⟨s.net.nextId + 1, part, group, membersOf members, [mem], []⟩])) ∧
      (∀ g, s.directReady s.curHalf.tid = true → s.net.rings.find? waits = some g →
        joins (s.net.rings.map fun x => if x.id = g.id then { x with joined := x.joined ++ [mem] } else x))))
  ∧ (∀ (f : FL) (t : TileObj) (s : State), s.runs (.pft f) = true → s.tileAt s.curTask.part f.obj.toNat = some t →
    let a := readS s.curHalf f.r.a.toNat
    let members := membersOf (s.groupMask s.curTask.part ((readS s.curHalf f.r.b.toNat).toNat % 256))
    let places := (members.map clusterOf).eraseDups.flatMap fun n =>
      (tilePages a.toNat t.rows t.stride (rowBytes t.type t.cols)).map fun x => (n, x % 2 ^ 56)
    (wbits a 63 56 ≠ 0 → exec (.pft f) s = .next ((raiseIssue s.cur .access a 0).run s)) ∧
    (wbits a 63 56 = 0 → exec (.pft f) s = .next ((s.installed (s.party s.curCore) places).retired 2 s.curHalf)))
  ∧ (∀ (p : Party) (va : Nat) (s : State), s.canonical = true →
    let t := (install p va).run s
    t = { s with mem := t.mem, stations := t.stations, release := t.release, spoilt := t.spoilt } ∧
    (∀ a, tget t.release a = tget s.release a ∨ tget t.release a = none) ∧ (∀ a ∈ t.spoilt, a ∈ s.spoilt) ∧
    ∀ x, (∀ g, walk s p.secure p.asid va = .leaf g → x < g.leaf ∨ g.leaf + 8 ≤ x) → memGet t.mem x = memGet s.mem x)
  ∧ (∀ (i : Instr) (f : FL) (s : State), s.runs i = true → (i = .rlock f ∨ i = .runlock f) →
    let a := (readS s.curHalf f.r.a.toNat).toNat
    let n := (readS s.curHalf f.r.b.toNat).toNat
    let locks := (s.cluster (clusterOf s.curCore)).locks
    let mine (l : Lock) : Bool := decide (l.owner = .task s.curHalf.tid)
    let meets (l : Lock) : Bool := decide (l.core = s.curCore ∧ l.first < a + n ∧ a < l.first + (l.last + 1 - l.first))
    let same (l : Lock) : Bool := decide (l.core = s.curCore ∧ l.first = a ∧ l.last + 1 = a + n ∧ l.owner = .task s.curHalf.tid)
    let answers (t : State) (w : Word) : Prop := exec i s = .next (t.ran i (writeS s.curHalf f.r.d.toNat w))
    (n = 0 ∨ 0x40000 < a + n → exec i s = .next ((raiseIssue s.cur .bound (readS s.curHalf f.r.a.toNat) 0).run s)) ∧
    (n ≠ 0 → a + n ≤ 0x40000 →
      (i = .rlock f → (64 ≤ locks.length ∨ 8 ≤ (locks.filter mine).length) → answers s 1) ∧
      (i = .rlock f → locks.length < 64 → (locks.filter mine).length < 8 → locks.any meets = true → answers s 2) ∧
      (i = .rlock f → locks.length < 64 → (locks.filter mine).length < 8 → locks.any meets = false →
        answers (s.clustered (clusterOf s.curCore) fun x =>
          { x with locks := x.locks ++ [⟨2, s.curCore, a, a + n - 1, .task s.curHalf.tid⟩] }) 0) ∧
      (i = .runlock f → locks.any same = true →
        answers (s.clustered (clusterOf s.curCore) fun x => { x with locks := x.locks.filter fun l => !same l }) 0) ∧
      (i = .runlock f → locks.any same = false → answers s 3)))
  ∧ (∀ (f : FA) (s : State), s.runs (.alloc f) = true →
    let n := readS s.curHalf f.a.toNat
    let d : Dest := ⟨s.cur, s.curHalf.tid, s.curHalf.seq, f.d.toNat⟩
    (n = 0 → exec (.alloc f) s = .next (s.ran (.alloc f) (writeS s.curHalf f.d.toNat 0))) ∧
    (n ≠ 0 → exec (.alloc f) s = .next (((s.netted fun x => { x with heap := x.heap ++ [⟨d, s.curTask.part, true, n⟩] }).deferring true).begun (.alloc f)
      (if s.detCore s.curCore then markEmpty s.curHalf (.s f.d.toNat) else markBusy s.curHalf (.s f.d.toNat)))))
  ∧ (∀ (f : FA) (s : State), s.runs (.free f) = true → exec (.free f) s = .next (((s.netted fun x => { x with
      heap := x.heap ++ [⟨⟨s.cur, s.curHalf.tid, s.curHalf.seq, 0⟩, s.curTask.part, false, readS s.curHalf f.a.toNat⟩] }).deferring true).retired 1
        s.curHalf))

/-- R215 to R221. COPY, ECENC and ECREC: without a descriptor, or with one that fails the checks (for COPY those of
an end outside its scratchpad, in a staging area or over the other end among them), they trap BOUND; else a task
that is not safe waits, and of a safe task the command goes to the engine of the core's half, the descriptor is
held, and sD is empty until the command's status comes. The model's choices in it: logs 77, 78. -/
def Obligations.EngineCommands : Prop :=
  ∀ (i : Instr) (f : FL) (kind op : Nat) (s : State), s.runs i = true →
    (i = .copy f ∧ kind = 3 ∧ op = 0 ∨ i = .ecenc f ∧ kind = 4 ∧ op = 1 ∨ i = .ecrec f ∧ kind = 4 ∧ op = 2) →
    let part := s.curTask.part
    let a := readS s.curHalf f.r.a.toNat
    let b := readS s.curHalf f.r.b.toNat
    (s.liveObj part f.obj.toNat kind = none → exec i s = .next ((raiseIssue s.cur .bound 0 0).run s)) ∧
    (∀ o, s.liveObj part f.obj.toNat kind = some o →
      let d := copyDesc o.body
      let ok : Prop := if op = 0 then d.bad = false ∧ ∃ x y, d.source s.curCore a = some x ∧ d.dest s.curCore b = some y ∧
          s.endStaged d x d.sstride (d.runBytes d.stype) = false ∧ s.endStaged d y d.dstride (d.runBytes d.outType) = false ∧
          x.overlaps y = false ∧ s.locksFull [x, y] = false
        else ecBad o.body (op == 2) a b = false
      (op = 0 → d.bad = false → (d.source s.curCore a = none ∨ d.dest s.curCore b = none) →
        exec i s = .next ((raiseIssue s.cur .bound 0 0).run s)) ∧
      (∀ x y, op = 0 → d.bad = false → d.source s.curCore a = some x → d.dest s.curCore b = some y →
        (s.endStaged d x d.sstride (d.runBytes d.stype) = true ∨ s.endStaged d y d.dstride (d.runBytes d.outType) = true
          ∨ x.overlaps y = true) → exec i s = .next ((raiseIssue s.cur .bound 0 0).run s)) ∧
      (ok → s.directReady s.curHalf.tid = false → exec i s = .next (s.halved { s.curHalf with block := .safe })) ∧
      (op = 0 → d.bad = true → exec i s = .next ((raiseIssue s.cur .bound 0 0).run s)) ∧
      (op ≠ 0 → ecBad o.body (op == 2) a b = true → exec i s = .next ((raiseIssue s.cur .bound 0 0).run s)) ∧
      (ok → s.directReady s.curHalf.tid = true → ∃ t, exec i s = .next t ∧ t.mem = s.mem ∧
        t.net.cmds = s.net.cmds ++ [engCmd (s.seen i) f op s.net.nextId o.body (s.party s.curCore)] ∧
        (t.liveObj part f.obj.toNat kind).map (·.holds) = some (o.holds + 1) ∧
        t.half s.cur = (s.written i (markEmpty s.curHalf (.s f.r.d.toNat))).stepped 2))

/-! ### Reset and activation -/

/-- R77, R81 to R86. What reset leaves where the spec gives a value, and, where it gives none, what the model chose
(log 1): the registers, the control registers, the full bits; an activation gives a half exactly that, with the
handler of the message, TVEC from the core's gate and the partition's QUANT, PDL and WDOG, whenever a half is free. The model's
choices in it: logs 1, 54. -/
def Obligations.ResetAndActivation : Prop :=
  State.reset.canonical = true
  ∧ (∀ r, r < 32 → readS Half.reset r = (if r = 30 then 0x38000 else 0) ∧ readV Half.reset r = 0 ∧
      isFull Half.reset (.s r) = true ∧ isFull Half.reset (.v r) = true)
  ∧ (∀ r, r < 8 → readK Half.reset r = (if r = 0 then BitVec.allOnes 1024 else 0) ∧ isFull Half.reset (.k r) = true)
  ∧ (∀ r, r < 4 → readA Half.reset r = Acc.reset ∧ isFull Half.reset (.a r) = true)
  ∧ (∀ n w, ctlValue Ctl.reset n = some w → w = if n = 0 ∨ n = 1 then 9 else if n = 16 then 0x800038000 else 0)
  ∧ (∀ (s : State) (part pri : Nat) (p : Part) (a : Act),
    let hid := s.data.n
    let core := coreOf hid
    let c := s.coreNow core
    s.partOf core = some part → s.part? part = some p → c.head = some (pri, a) → (s.half hid).occ = .free →
    c.failed = false → p.running = true →
    ∃ t, exec .taskActivation s = .next t ∧
      t.half hid = { Half.reset with
        occ := .live
        tid := s.net.nextId + 1
        age := s.clock.clk
        hdr := a.handler
        entering := true
        ctl := { Ctl.reset with tvec := gateWord (s.core core) 48 &&& 0xFFFFFFFFFFFFFC, quant := p.quant, pdl := p.pdl, wdog := p.wdog } } ∧
      t.task? (s.net.nextId + 1) = some (s.startTask core (hid % 2) part pri a) ∧
      t.core core = c.setInbox pri (c.inbox pri).pop)

/-! ### Messages -/

/-- R242, R243, R253 to R257. SEND and REPLY of a safe task to a core send its message, or answer 0x0A where the
gate does not let it out and 0x0B where the endpoint is no unit of the partition; a REPLY to a message that names no
endpoint or no handler answers 0x0B; a SEND to a translation station sends its command, and one to another engine
answers 0x0B; SENDM sends a copy to every member that the gate reaches; each leaves sD empty. A task that is not
safe waits. RECV empties s1 to s7 and sends the payload, and zeros after it, to them; POLLQ counts the inboxes, in a
deterministic partition at the quantum's end, sD being empty until then. A message of the network joins its inbox,
and its sender has its status, when the inbox has room, entries that a slice's end has saved counted, and the core's ingress holds none for it, and is held at
ingress otherwise. The model's choices in it: logs 52, 54. -/
def Obligations.Messages : Prop :=
  (∀ (i : Instr) (f : FL) (ep : Word) (haddr : Nat) (s : State), s.runs i = true →
    (i = .send f ∧ ep = readS s.curHalf f.r.a.toNat ∧ haddr = wbits (handlerAt (pcOf s.curHalf) (sx f.obj)) 55 2
      ∨ i = .reply f ∧ ep = word (wbits s.curTask.act.msg.h2 63 32) ∧ haddr = wbits s.curTask.act.msg.h3 53 0 ∧
        ep.toNat ≠ 0xFFFFFFFF ∧ haddr ≠ 0 ∧ s.curTask.act.msg.h3.getLsbD 63 = false) → epKind ep ≤ 1 →
    let same := epKind ep == 0 && clusterOf (epUnit ep) == clusterOf s.curCore
    let sends (t : State) : Prop := exec i s = .next (t.ran i (s.emptied f.r.d))
    (s.directReady s.curHalf.tid = false → exec i s = .next (s.halved { s.curHalf with block := .safe })) ∧
    (s.directReady s.curHalf.tid = true → gateAllows (s.core s.curCore) 62 (wbits ep 31 0) = false →
      sends (s.committing.answered (s.destFor f.r.d) 0x0A)) ∧
    (s.directReady s.curHalf.tid = true → gateAllows (s.core s.curCore) 62 (wbits ep 31 0) = true → s.unitIn s.curTask.part ep = false →
      sends (s.committing.answered (s.destFor f.r.d) 0x0B)) ∧
    (s.directReady s.curHalf.tid = true → gateAllows (s.core s.curCore) 62 (wbits ep 31 0) = true → s.unitIn s.curTask.part ep = true →
      sends (s.committing.netted fun n => { n with
        msgs := n.msgs ++ [⟨s.curCore, epCore ep, f.sc.toNat, s.messageOf f (s.tagFor same) false haddr, some (s.destFor f.r.d), none⟩] })))
  ∧ (∀ (f : FL) (s : State), s.runs (.reply f) = true → s.directReady s.curHalf.tid = true →
    let m := s.curTask.act.msg
    (wbits m.h2 63 32 = 0xFFFFFFFF ∨ m.h3.getLsbD 63 = false ∧ wbits m.h3 53 0 = 0) →
      exec (.reply f) s = .next ((s.committing.answered (s.destFor f.r.d) 0x0B).ran (.reply f) (s.emptied f.r.d)))
  ∧ (∀ (f : FL) (s : State), s.runs (.send f) = true → s.directReady s.curHalf.tid = true →
    let ep := readS s.curHalf f.r.a.toNat
    let a := s.messageOf f none true f.obj.toNat
    let opcode := wbits a.msg.h0 15 0
    let sends (t : State) : Prop := exec (.send f) s = .next (t.ran (.send f) (s.emptied f.r.d))
    2 ≤ epKind ep → gateAllows (s.core s.curCore) 62 (wbits ep 31 0) = true → s.unitIn s.curTask.part ep = true →
    (epKind ep = 5 ∧ 1 ≤ opcode ∧ opcode ≤ 6 → sends (s.committing.netted fun n => { n with
      stCmds := n.stCmds ++ [(epUnit ep, ⟨opcode, a.msg.pay, s.curCore, a.msg.h2, a.msg.h3, s.curTask.part⟩, some (s.destFor f.r.d))] })) ∧
    (¬ (epKind ep = 5 ∧ 1 ≤ opcode ∧ opcode ≤ 6) → sends (s.committing.answered (s.destFor f.r.d) 0x0B)))
  ∧ (∀ (f : FL) (s : State), s.runs (.sendm f) = true → s.directReady s.curHalf.tid = true →
    let members := membersOf (s.groupMask s.curTask.part (f.obj.toNat % 256))
    let reached := members.filter fun m => gateAllows (s.core s.curCore) 62 (s.coreEndpoint m)
    let tag := s.tagFor (members.all fun m => clusterOf m == clusterOf s.curCore)
    let act := s.messageOf f tag false (wbits (readS s.curHalf f.r.a.toNat) 55 2)
    ∃ m : Mcast, exec (.sendm f) s = .next ((s.committing.netted fun n => { n with
        nextId := n.nextId + 1
        mcasts := n.mcasts ++ [m]
        msgs := n.msgs ++ reached.map fun x => ⟨s.curCore, x, f.sc.toNat, act, none, some s.net.nextId⟩ }).ran (.sendm f) (s.emptied f.r.d)) ∧
      m.id = s.net.nextId ∧ m.dest = s.destFor f.r.d ∧ m.data = none ∧ m.group = f.obj.toNat % 256 ∧ m.tag = act.tag ∧
      m.waiting = reached ∧ m.pos = 0 ∧ m.neg = members.length - reached.length)
  ∧ (∀ (f : FL) (s : State), s.runs (.recv f) = true → exec (.recv f) s = .next ((s.netted fun n => { n with
      fills := n.fills ++ (List.range 7).map fun j =>
        ⟨s.cur, s.curHalf.tid, s.curHalf.seq, .s (j + 1) (nth s.curTask.act.msg.pay j), 0, none, false, none, none⟩ }).begun (.recv f)
      ((List.range 7).foldl (fun h j => markEmpty h (.s (j + 1))) s.curHalf)))
  ∧ (∀ (f : FL) (s : State), s.runs (.pollq f) = true → s.detCore s.curCore = true →
    exec (.pollq f) s = .next ((s.deferring true).begun (.pollq f) (s.emptied f.r.d)))
  ∧ (∀ (f : FL) (s : State), s.runs (.pollq f) = true → s.detCore s.curCore = false →
    let c := s.core s.curCore
    let count (b : Inbox) : Nat := b.ret.length + b.q.length
    exec (.pollq f) s = .next (s.ran (.pollq f) (writeS s.curHalf f.r.d.toNat (word (count c.inbox0 + count c.inbox1 * 2 ^ 8
      + count c.inbox2 * 2 ^ 16 + count c.inbox3 * 2 ^ 24 + min c.ingress.length 255 * 2 ^ 32)))))
  ∧ (∀ (s : State) (m : NetMsg), s.data.yes = false → ith s.net.msgs s.data.n = some m → s.detCore m.core = false →
    (s.net.msgs.take s.data.n).all (fun x => x.src != m.src || x.core != m.core || x.pri != m.pri) = true → s.copyRefused m = false →
    let c := s.core m.core
    let queued := (c.inbox m.pri).q
    let taken := queued.length + (tgetD c.aside m.pri []).length
    ((taken < 16 ∧ c.ingress.all (fun x => x.pri != m.pri) = true) → ∃ t, exec .inboxAccept s = .next t ∧
      ((t.core m.core).inbox m.pri).q = queued ++ [m.act] ∧ t.net.msgs = ldel s.net.msgs s.data.n ∧
      ∀ d, m.status = some d → t.owes d 0 = true) ∧
    ((16 ≤ taken ∨ c.ingress.all (fun x => x.pri != m.pri) = false) → ∃ t, exec .inboxAccept s = .next t ∧
      (t.core m.core).ingress = c.ingress ++ [m] ∧ (t.core m.core).inbox m.pri = c.inbox m.pri ∧ t.net.msgs = ldel s.net.msgs s.data.n))

/-! ### Counters and time -/

/-- R269, R270, R334 to R336, R338. ACTR arms a counter with its count, handler and the identity of the task, or
disarms it with a register that holds 0; a count of the instruction that is not above 0, or one of a register beyond
32 bits, traps BOUND. WAITC waits while the counter is armed. A counter that has reached 0 starts its handler. CTRR
reads a counter, CTRW reads it too, and in a kernel core clears or selects it, a new selection leaving the count, which is a free
value where only timing fixes it (R340); the time in ns and, asked for, its
fraction and lock; WAITT waits until package time has reached what it took of sA when it began to wait, and then
goes on by itself. The model's choice in it: log 3. -/
def Obligations.CountersAndTime : Prop :=
  (∀ (i : Instr) (f : FL) (n : Option Nat) (handler : Option Word) (s : State), s.runs i = true →
    (i = .actrL f ∧ handler = none ∧ n = (if f.m.getLsbD 0 then some (readS s.curHalf f.r.a.toNat).toNat
        else if 0 < f.obj.toInt then some f.obj.toNat else none)
      ∨ ∃ g : FX, i = .actrX g ∧ f = g.l ∧ handler = (if f.obj = 0 then none else some (handlerAt (pcOf s.curHalf) (sx f.obj))) ∧
        n = (if f.m.getLsbD 0 then some (readS s.curHalf f.r.a.toNat).toNat else if g.lit.toNat = 0 then none else some g.lit.toNat)) →
    let ac := f.r.d.toNat % 16
    let u := s.curTask
    let leaves (a : Arrival) : Prop := exec i s = .next ((s.cored s.curCore fun x =>
      { x with arrivals := tput x.arrivals ac a }).retired (parcelCount i) s.curHalf)
    ((n = none ∨ ∃ k, n = some k ∧ 2 ^ 32 ≤ k) → exec i s = .next ((raiseIssue s.cur .bound 0 0).run s)) ∧
    (n = some 0 → leaves Arrival.reset) ∧
    (∀ k, n = some k → 0 < k → k < 2 ^ 32 → leaves ⟨BitVec.ofNat 32 k, true, handler, u.pri, u.reef, u.ts, u.tag, u.act.index,
      u.tag.map fun g => 8 * clusterOf s.curCore + g.toNat⟩))
  ∧ (∀ (f : FL) (s : State), s.runs (.waitc f) = true →
    let ac := f.r.d.toNat % 16
    ((s.core s.curCore).armed ac = false → exec (.waitc f) s = .next (s.retired 2 s.curHalf)) ∧
    ((s.core s.curCore).armed ac = true → exec (.waitc f) s = .next (s.halved { s.curHalf with block := .waitc ac })))
  ∧ (∀ (s : State) (a : Arrival),
    let core := s.data.n
    s.detCore core = false → (s.core core).due.find? (fun x => x.1 == s.data.m) = some (s.data.m, a) →
    ∃ t, exec .arrivalCounterZero s = .next t ∧ (t.core core).due = (s.core core).due.eraseP (fun x => x.1 == s.data.m) ∧
      (a.handler = none → t.net = s.net) ∧
      (∀ x, a.handler = some x → ∃ act : Act, t.net.msgs = s.net.msgs ++ [⟨core, core, a.pri, act, none, none⟩] ∧
        act.handler = word (wbits x 55 2 * 4) ∧ act.msg.pay = [word s.data.m, zx a.index] ∧ act.reef = a.reef ∧ act.ts = a.ts ∧
        act.launch = a.launch))
  ∧ (∀ (i : Instr) (f : FA) (s : State), s.runs i = true → (i = .ctrr f ∨ i = .ctrw f) →
    let code := f.b.toNat % 32
    let x := readS s.curHalf f.a.toNat
    let k := s.core s.curCore
    let cl := clusterOf s.curCore
    let perf (n : Nat) : Perf := tgetD (s.cluster cl).perf n ⟨0, 0⟩
    let reads (w : Word) : Prop := (i = .ctrr f ∨ isKernel s.curCore = false ∨ code < 8) →
      exec i s = .next (s.ran i (writeS s.curHalf f.d.toNat w))
    (code = 0 → reads (word (s.clock.clk - max k.cycBase (match s.part? s.curTask.part with | some p => p.since | none => 0)))) ∧
    (code = 1 → reads k.ret) ∧
    (code = 2 → reads (zx k.qpos)) ∧
    (code = 3 → reads (word ((s.curTask.wdBase + (s.clock.clk - s.curTask.wdFrom)) % 2 ^ 32))) ∧
    (code = 4 → reads (word (if (s.half (2 * s.curCore)).preq || (s.half (2 * s.curCore + 1)).preq
      then min (s.clock.clk - k.preqFrom) (2 ^ 32 - 1) else 0))) ∧
    (code = 5 → (s.curTask.act.launch.bind s.launch?).bind (·.desc.queue) = none → reads 0xFFFFFFFF) ∧
    (∀ q x, code = 5 → (s.curTask.act.launch.bind s.launch?).bind (·.desc.queue) = some q → tget s.mf0.queues q = some x →
      reads (word (s.budgetLeft q x / 1000))) ∧
    (code = 6 → reads (word ((tgetD k.recv (x.toNat % 8) 0).toNat * 2 ^ 32 + (tgetD k.sent (x.toNat % 8) 0).toNat))) ∧
    (code = 7 → reads (let a := tgetD k.arrivals (x.toNat % 16) Arrival.reset
      word (b2n a.handler.isSome * 2 ^ 33 + b2n a.armed * 2 ^ 32 + a.count.toNat))) ∧
    (code = 8 → s.timedCounter (s.seen i) 8 x = false → reads (perf (x.toNat % 16)).count) ∧
    (code = 9 → s.timedCounter (s.seen i) 9 x = false → reads (perf (wbits x 51 48)).sel) ∧
    (code = 10 → reads (match s.part? s.curTask.part with | some p => tgetD p.errors (x.toNat % 8) 0 | none => 0)))
  ∧ (∀ (f : FA) (s : State), s.runs (.ctrw f) = true → isKernel s.curCore = true →
    let code := f.b.toNat % 32
    let x := readS s.curHalf f.a.toNat
    let cl := clusterOf s.curCore
    let perf (n : Nat) : Perf := tgetD (s.cluster cl).perf n ⟨0, 0⟩
    let leaves (t : State) (w : Word) : Prop := exec (.ctrw f) s = .next (t.ran (.ctrw f) (writeS s.curHalf f.d.toNat w))
    (code = 8 → s.timedCounter (s.seen (.ctrw f)) 8 x = false → leaves (s.clustered cl fun y =>
      { y with perf := tput y.perf (x.toNat % 16) { perf (x.toNat % 16) with count := 0 } }) (perf (x.toNat % 16)).count) ∧
    (code = 9 →
      let p := perf (wbits x 51 48)
      let timed := s.timedCounter (s.seen (.ctrw f)) 9 x
      leaves ((if timed then { s with free := s.free + 1 } else s).clustered cl fun y => { y with
        perf := tput y.perf (wbits x 51 48) ⟨if timed then Config.freeWord s.free else p.count, x &&& 0x80FF⟩ }) p.sel) ∧
    (∀ p, code = 10 → s.part? s.curTask.part = some p →
      leaves { s with parts := tput s.parts s.curTask.part { p with errors := tput p.errors (x.toNat % 8) 0 } } (tgetD p.errors (x.toNat % 8) 0)))
  ∧ (∀ (f : FA) (s : State), s.runs (.time f) = true →
    let h := writeS s.curHalf f.d.toNat (word s.clock.ns)
    exec (.time f) s = .next (s.ran (.time f) (if f.b.getLsbD 0
      then writeS h (f.d.toNat + 1) (word (b2n s.clock.locked * 2 ^ 16 + s.clock.frac % 2 ^ 16)) else h)))
  ∧ (∀ (f : FA) (s : State), s.runs (.waitt f) = true →
    let x := s.curHalf.waitt.getD (readS s.curHalf f.a.toNat)
    (x.toNat ≤ s.clock.ns % 2 ^ 64 → exec (.waitt f) s = .next (s.retired 1 { s.curHalf with waitt := none })) ∧
    (s.clock.ns % 2 ^ 64 < x.toNat → exec (.waitt f) s = .next (s.halved { s.curHalf with block := .waitt x, waitt := some x })))
  ∧ (∀ (s : State) (x : Word),
    let h := s.half s.data.n
    h.block = .waitt x → h.occ = .live → x.toNat ≤ s.clock.ns % 2 ^ 64 → h.traps = [] → h.ctl.ss = false → h.reissue = none →
    ∃ t, exec .waittExpire s = .next t ∧ t.half s.data.n = { h.stepped 1 with waitt := none } ∧ t.mem = s.mem)

/-! ### Tasks -/

/-- R258, R259, R261, R262. LAUNCH without a descriptor object of 64 bytes traps BOUND; of a safe task, with its
descriptor in a scratchpad, it sends the request that the descriptor and its own operands give. SPAWN and ABORT of a
safe task send theirs. Each leaves sD empty; a task that is not safe waits. -/
def Obligations.LaunchInstructions : Prop :=
  (∀ (i : Instr) (f : FL) (over_ : Option Word) (s : State), s.runs i = true →
    (i = .launchL f ∧ over_ = (if f.m.getLsbD 1 then some (word (wbits (readS s.curHalf f.c.toNat) 55 2 * 4)) else none)
      ∨ ∃ g : FX, i = .launchX g ∧ f = g.l ∧ over_ = some (handlerAt (pcOf s.curHalf) (sx g.lit))) →
    let part := s.curTask.part
    (s.liveObj part f.obj.toNat 6 = none → exec i s = .next ((raiseIssue s.cur .bound 0 0).run s)) ∧
    (∀ o, s.liveObj part f.obj.toNat 6 = some o → (nth o.body 1).toNat ≠ 64 → exec i s = .next ((raiseIssue s.cur .bound 0 0).run s)) ∧
    (∀ o bs, s.liveObj part f.obj.toNat 6 = some o → (nth o.body 1).toNat = 64 → s.directReady s.curHalf.tid = true →
      s.rangeBytes o 64 = some bs →
      let w := wordsOf bs
      ∃ d : LDesc, exec i s = .next ((s.committing.netted fun n => { n with
          launches := n.launches ++ [⟨d, some (s.destFor f.r.d)⟩] }).ran i (s.emptied f.r.d)) ∧
        d.n = wbits (nth w 0) 63 32 ∧ d.cluster = wbits (nth w 0) 4 0 ∧ d.members = s.groupMask part (wbits (nth w 0) 31 24) ∧
        d.reef.toNat = (if f.r.a.toNat ≠ 0 then (readS s.curHalf f.r.a.toNat).toNat % 2 ^ 12 else wbits (nth w 0) 23 12) ∧
        d.handler = over_.getD (word (wbits (nth w 1) 55 0)) ∧ d.arg = nth w 2 ∧
        d.base.toNat = (if f.m.getLsbD 0 then (readS s.curHalf f.r.b.toNat).toNat % 2 ^ 48 else (nth w 3).toNat % 2 ^ 48) ∧
        d.stride.toNat = (nth w 4).toNat % 2 ^ 48 ∧ d.reply.toNat = (nth w 5).toNat % 2 ^ 32 ∧ d.pri = f.sc.toNat ∧ d.part = part ∧ d.vf = s.curTask.act.vf ∧ d.reset = false))
  ∧ (∀ (i : Instr) (f : FL) (over_ : Option Word) (s : State), s.runs i = true →
    (i = .spawnL f ∧ over_ = (if f.m.getLsbD 1 then some (word (wbits (readS s.curHalf f.c.toNat) 55 2 * 4)) else none)
      ∨ ∃ g : FX, i = .spawnX g ∧ f = g.l ∧ over_ = some (handlerAt (pcOf s.curHalf) (sx g.lit))) →
    let u := s.curTask
    let b := (readS s.curHalf f.r.b.toNat).setWidth 48
    let ts := if f.m.getLsbD 0 then (if b.toNat < u.ts.toNat then u.ts else b) else u.ts
    (s.directReady s.curHalf.tid = true → exec i s = .next (((s.committing.netted fun n => { n with
        spawns := n.spawns ++ [⟨s.destFor f.r.d, s.launchOf, over_, readS s.curHalf f.r.a.toNat, f.sc.toNat, ts, u.spawned⟩] }).deferring true).ran
      i (s.emptied f.r.d))) ∧
    (s.directReady s.curHalf.tid = false → exec i s = .next (s.halved { s.curHalf with block := .safe })))
  ∧ (∀ (i : Instr) (f : FL) (s : State), s.runs i = true → (i = .abort f ∨ ∃ g : FX, i = .abortX g ∧ f = g.l) →
    (s.directReady s.curHalf.tid = true → exec i s = .next ((s.committing.netted fun n => { n with
        aborts := n.aborts ++ [⟨some (s.destFor f.r.d), (readS s.curHalf f.r.a.toNat).setWidth 9, s.curTask.part⟩] }).ran
      i (s.emptied f.r.d))) ∧
    (s.directReady s.curHalf.tid = false → exec i s = .next (s.halved { s.curHalf with block := .safe })))

/-- R30, R268. BAR and BARW without a launch, or in a group that is empty or has not the core, trap BOUND. Else the
arrival of the task at its next generation is recorded, once; BAR retires, and BARW retires when its generation has
completed and waits otherwise. A generation completes when its event finds every task of the launch arrived. A team
that is blocked is swapped out: each of its tasks is saved, its half is free, and the launch's record notes the
team. A task that may return comes back to a free half of its core, with its registers and the partition's QUANT,
PDL and WDOG: it may once a wait of any task of its team is over, and then every task of the team may. The model's choices in it:
logs 56, 109. -/
def Obligations.BarriersAndTeams : Prop :=
  (∀ (i : Instr) (f : FL) (waits : Bool) (s : State), s.runs i = true → (i = .bar f ∧ waits = false ∨ i = .barw f ∧ waits = true) →
    let u := s.curTask
    let group := f.obj.toNat
    let mask := s.groupMask u.part group
    let seen := tgetD u.bars group 0
    let k := seen / 2 + (if seen % 2 = 1 then 0 else 1)
    ((s.launchOf = none ∨ 256 ≤ group ∨ mask = 0 ∨ mask.getLsbD s.curCore = false) → exec i s = .next ((raiseIssue s.cur .bound 0 0).run s)) ∧
    (∀ lid, s.launchOf = some lid → group < 256 → mask ≠ 0 → mask.getLsbD s.curCore = true →
      let complete := waits = false ∨ ∃ b, s.barrier? lid group = some b ∧ k ≤ b.generation
      ∃ t, exec i s = .next t ∧
        (seen % 2 = 0 → ∃ b ∈ t.net.barriers, b.lid = lid ∧ b.group = group ∧ k ≤ tgetD b.arrived (u.act.arrivalKey s.curHalf.tid) 0) ∧
        (seen % 2 = 1 → t.net = s.net) ∧
        (complete → t.half s.cur = s.curHalf.stepped 2) ∧
        (¬ complete → t.half s.cur = { s.curHalf with block := .barw group })))
  ∧ (∀ (s : State) (b : Barrier), ith s.net.barriers s.data.n = some b → s.det (s.barrierPart b) = false → s.generationDone b = true →
    exec .barrierGenerationComplete s = .next (s.netted fun n => { n with
      barriers := lset n.barriers s.data.n { b with generation := b.generation + 1 } }))
  ∧ (∀ (s : State) (l : Launch), s.canonical = true → s.launch? s.data.n = some l → s.teamBlocked s.data.n l = true →
    (∀ x ∈ s.teamOf s.data.n, (s.half (2 * x.2.core + x.2.half)).tid = x.1) →
    ∃ t, exec .teamSwapOut s = .next t ∧
      (∃ l' o, t.launch? s.data.n = some l' ∧ l'.outs = l.outs ++ [o] ∧ o.tasks = (s.teamOf s.data.n).map (·.1) ∧ o.back = false) ∧
      ∀ x ∈ s.teamOf s.data.n, t.half (2 * x.2.core + x.2.half) = Half.reset ∧
        ∃ u, t.task? x.1 = some u ∧ u.life = .saved ∧ u.saved.isSome = true)
  ∧ (∀ (s : State) (u : Task) (lid : Nat) (l : Launch) (p : Part) (x : Half), s.task? s.data.n = some u → u.act.launch = some lid →
    s.launch? lid = some l → coreOf s.data.m = u.core → (s.half s.data.m).occ = .free →
    s.mayReturn lid l s.data.n = true → u.saved = some x → s.part? u.part = some p →
    ∃ t, exec .teamRestore s = .next t ∧
      t.half s.data.m = { x with
        occ := .live
        tid := s.data.n
        block := .none
        preq := (s.half s.data.m).preq
        ctl := { x.ctl with quant := p.quant, pdl := p.pdl, wdog := p.wdog } } ∧
      ∃ v, t.task? s.data.n = some v ∧ v.life = .resident ∧ v.core = u.core ∧ v.half = s.data.m % 2 ∧ v.saved = none)

/-- R25 to R29, R250, R260 to R262. A LAUNCH request that the dispatcher accepts gets a launch record and the status
0x10000 + its number x 256, one of no index the status 0, and a refused one its code; a SPAWN that is within the quota, or the task's reserved
one, becomes the launch's next child, one beyond the quota, without a launch or beyond the last index has its code;
an ABORT ends every task of the launch; the dispatcher places the next index of a launch on the least loaded member
with room, with the timestamp base + index x stride; and two sweeps in a row that find the launch idle with the same
sums send its completion. The model's choices in it: logs 29, 58, 108. -/
def Obligations.LaunchEvents : Prop :=
  (∀ (s : State) (q : LaunchReq) (d : Dest), ith s.net.launches s.data.n = some q → q.dest = some d →
    (s.launchCheck q.desc = .empty → ∃ t, exec .launchRequest s = .next t ∧ t.owes d 0 = true) ∧
    (∀ g, s.launchCheck q.desc = .tag g → q.desc.reset = false → ∃ t, exec .launchRequest s = .next t ∧ t.net.launches = ldel s.net.launches s.data.n ∧
      t.launch? (8 * q.desc.cluster + g) = some (Launch.fresh q.desc) ∧ t.owes d (word (0x10000 + (8 * q.desc.cluster + g) * 256)) = true) ∧
    (∀ code, s.launchCheck q.desc = .refused code → ∃ t, exec .launchRequest s = .next t ∧
      t.net.launches = ldel s.net.launches s.data.n ∧ t.owes d (word code) = true ∧ ∀ lid, t.launch? lid = s.launch? lid))
  ∧ (∀ (s : State) (q : SpawnReq), ith s.net.spawns s.data.n = some q → s.isDeferred q.dest.tid q.dest.seq = false →
    let answers (w : Word) (t : State) : Prop := exec .spawnAccept s = .next t ∧ t.owes q.dest w = true
    (q.launch.bind s.launch? = none → ∃ t, answers 0x33 t ∧ t.net.spawns = ldel s.net.spawns s.data.n) ∧
    (∀ lid l p, q.launch = some lid → s.launch? lid = some l → s.part? l.desc.part = some p →
      let child : Child := ⟨l.desc.n + l.spawnCount, q.ts, q.handler.getD l.desc.handler, q.arg, q.pri, q.used⟩
      let used (x : SpawnReq) : SpawnReq := if x.dest.tid = q.dest.tid then { x with used := true } else x
      (0xFFFFFFFF ≤ l.desc.n + l.spawnCount → ∃ t, answers 0x36 t ∧ t.launch? lid = some l) ∧
      (l.desc.n + l.spawnCount < 0xFFFFFFFF → (q.used = false ∨ p.spawnedCount < p.quotaOf) → ∃ t, answers 0 t ∧
        t.launch? lid = some { l with children := l.children ++ [child], spawnCount := l.spawnCount + 1 } ∧
        t.net.spawns = (ldel s.net.spawns s.data.n).map used ∧
        (t.part? l.desc.part).map (·.spawnedCount) = some (p.spawnedCount + b2n q.used)) ∧
      (l.desc.n + l.spawnCount < 0xFFFFFFFF → q.used = true → p.quotaOf ≤ p.spawnedCount →
        ∃ t, answers 0x30 t ∧ t.launch? lid = some l)))
  ∧ (∀ (s : State) (q : AbortReq) (l : Launch) (d : Dest), s.canonical = true → ith s.net.aborts s.data.n = some q → q.dest = some d →
    s.launch? (q.handle.toNat % 256) = some l → q.handle.getLsbD 8 = true → l.desc.part = q.part → s.det q.part = false →
    ∃ t, exec .abortRequest s = .next t ∧ t.net.aborts = ldel s.net.aborts s.data.n ∧ t.owes d 0 = true ∧
      ∀ tid u, t.task? tid = some u → u.act.launch ≠ some (q.handle.toNat % 256))
  ∧ (∀ (s : State) (l : Launch) (r : Reef) (core : Nat), s.data.n < 256 → s.launch? s.data.n = some l → s.det l.desc.part = false →
    l.next < l.desc.n → s.reef? l.desc.part l.desc.reef.toNat = some r → r.state = 1 →
    s.leastLoaded ((membersOf l.desc.members).filter fun c => clusterOf c == l.desc.cluster && s.eligible l.desc.part c l.desc.pri
      && !s.returning s.data.n l c) = some core →
    ∃ t act, exec .taskPlacement s = .next t ∧ t.net.msgs = s.net.msgs ++ [⟨deviceSrc, core, l.desc.pri, act, none, none⟩] ∧
      (∃ l', t.launch? s.data.n = some l' ∧ l'.next = l.next + 1) ∧ act.launch = some s.data.n ∧ act.index = BitVec.ofNat 32 l.next ∧
      act.ts.toNat = (l.desc.base.toNat + l.next * l.desc.stride.toNat) % 2 ^ 48 ∧ act.reef = l.desc.reef ∧
      act.msg.pay = [l.desc.arg, word l.next, word l.desc.n])
  ∧ (∀ (s : State) (l : Launch), s.launch? s.data.n = some l → s.launchIdle s.data.n l = true → (s.tagSums s.data.n).1 = (s.tagSums s.data.n).2 →
    let sum := (s.tagSums s.data.n).1
    (l.sweep ≠ some sum → ∃ t, exec .launchEndSweep s = .next t ∧ t.launch? s.data.n = some { l with sweep := some sum } ∧ t.net = s.net) ∧
    (l.sweep = some sum → epPkg (zx l.desc.reply) = s.package.id.toNat → epKind (zx l.desc.reply) ≤ 1 →
      ∃ t act, exec .launchEndSweep s = .next t ∧
        t.net.msgs = s.net.msgs ++ [⟨deviceSrc, epCore (zx l.desc.reply), l.desc.pri, act, none, none⟩] ∧
        nth act.msg.pay 0 = word (s.data.n % 8 + (if l.withdrawn then 3 else if l.error then 1 else 0) * 2 ^ 8 + l.desc.cluster * 2 ^ 16) ∧ nth act.msg.pay 1 = word l.committed))

/-! ### Reefs -/

/-- R263 to R266, R33 to R35. REEF of a safe task, its range list in a scratchpad: -3 for a list that is too short
or malformed, -1 with no free record, depth or room, -2 for a conflict, else the lowest free id, whose record is
open inside the task's reef with its ranges and whose error record is cleared, once its page is there. REEFX answers
-2 for the root, -1 for a reef that is not open, -2 where the root would be re-executed, and else the reef whose
re-execution it starts; where that reef holds its own task, sD stays empty and the task issues nothing more. REEFQ
gives the record's word, with state 2 until the launches that a re-execution relaunched have ended, and of a free id whether its
error record holds an entry. A re-execution discards every task of the reef, which is open again while a launch of it is launched
again. The model's choices in it: logs 30, 60, 67, 134. -/
def Obligations.Reefs : Prop :=
  (∀ (f : FL) (s : State), s.runs (.reef f) = true → s.directReady s.curHalf.tid = true →
    let part := s.curTask.part
    let answers (n : Int) : Prop := exec (.reef f) s = .next (s.committing.ran (.reef f) (writeS s.curHalf f.r.d.toNat (wordI n)))
    ∀ o, s.liveObj part f.obj.toNat 6 = some o →
    ((nth o.body 1).toNat < 8 → answers (-3)) ∧
    (∀ b0, 8 ≤ (nth o.body 1).toNat → s.rangeBytes o 8 = some b0 →
      let pres := wbits (nth (wordsOf b0) 0) 3 0
      let n := pres + wbits (nth (wordsOf b0) 0) 7 4
      ((8 < pres ∨ 8 < wbits (nth (wordsOf b0) 0) 7 4 ∨ (nth o.body 1).toNat < 8 + 16 * n) → answers (-3)) ∧
      (∀ bs, pres ≤ 8 → wbits (nth (wordsOf b0) 0) 7 4 ≤ 8 → 8 + 16 * n ≤ (nth o.body 1).toNat → s.rangeBytes o (8 + 16 * n) = some bs →
        (reefRanges pres 0 ((wordsOf bs).drop 1) = none → answers (-3)) ∧
        (∀ l p, reefRanges pres 0 ((wordsOf bs).drop 1) = some l → s.part? part = some p →
          let parent := s.curTask.reef.toNat
          let depth := match tget p.reefs parent with | some r => r.depth + 1 | none => 1
          let held := (l.filter (·.held)).map (spanOf s.curCore)
          let kept := (l.filter fun r => !r.held).map (spanOf s.curCore)
          let room := decide (depth ≤ 8) && s.reefRoom part s.curCore (kept ++ held)
          (p.freeReef = none → answers (-1)) ∧
          (∀ id, p.freeReef = some id → room = false → answers (-1)) ∧
          (∀ id, p.freeReef = some id → room = true → s.reefConflict part parent kept held = true → answers (-2)) ∧
          (∀ id, p.freeReef = some id → room = true → s.reefConflict part parent kept held = false → s.recordFaults part id = true →
            s.curHalf.refusedAt = none → exec (.reef f) s = .next
              ((syncFault s.cur (s.party s.curCore) .write (p.image.errBase.toNat + 128 * id)).run s.committing)) ∧
          (∀ id, p.freeReef = some id → room = true → s.reefConflict part parent kept held = false → s.recordFaults part id = false →
            ∃ t r, exec (.reef f) s = .next t ∧ t.half s.cur = (s.written (.reef f) (writeS s.curHalf f.r.d.toNat (word id))).stepped 2 ∧
              t.reef? part id = some r ∧ r.rerun = false ∧ r.state = 1 ∧ r.parent = parent ∧ r.depth = depth ∧ r.pres = kept ∧ r.held = held ∧
              r.opener = some s.curHalf.tid ∧ r.launches = [] ∧
              (s.canonical = true → ∀ a k, s.deviceWrites part (p.image.errBase.toNat + 128 * id) = some a → k < 128 →
                memGet t.mem (a + k) = 0))))))
  ∧ (∀ (f : FL) (s : State), s.runs (.reefx f) = true → s.directReady s.curHalf.tid = true →
    let part := s.curTask.part
    let id := (readS s.curHalf f.r.a.toNat).toNat % 2 ^ 12
    let answers (t : State) (n : Int) : Prop := exec (.reefx f) s = .next (t.ran (.reefx f) (writeS s.curHalf f.r.d.toNat (wordI n)))
    (id = 0 → answers s.committing (-2)) ∧
    (id ≠ 0 → (∀ r, s.reef? part id = some r → r.state ≠ 1) → answers s.committing (-1)) ∧
    (∀ r, id ≠ 0 → s.reef? part id = some r → r.state = 1 →
      (s.selectReef part id = none → answers s.committing (-2)) ∧
      (∀ x, s.selectReef part id = some x →
        let z := s.reexecTarget part x
        let reruns (t : State) : Prop := t.mem = s.mem ∧ ∃ w, t.reef? part z = some w ∧ w.state = 2
        (s.inReef part s.curTask.reef.toNat z = false → ∃ t, reruns t ∧ t.halves = s.halves ∧
          exec (.reefx f) s = .next (t.ran (.reefx f) (writeS s.curHalf f.r.d.toNat (word z)))) ∧
        (s.inReef part s.curTask.reef.toNat z = true → 2 * s.curTask.core + s.curTask.half = s.cur → ∃ t, reruns t ∧
          exec (.reefx f) s = .next t ∧ t.half s.cur = { (s.written (.reefx f) (s.emptied f.r.d)).stepped 2 with hold := some abandoned }))))
  ∧ (∀ (f : FL) (s : State), s.runs (.reefq f) = true →
    let part := s.curTask.part
    let id := (readS s.curHalf f.r.a.toNat).toNat % 2 ^ 12
    exec (.reefq f) s = .next (s.ran (.reefq f) (writeS s.curHalf f.r.d.toNat (match s.reef? part id with
      | none => word (b2n (decide (s.errorCount part id ≠ 0)) * 2 ^ 3)
      | some r => word ((if r.reexecuting then 2 else r.state) + b2n (decide (s.errorCount part id ≠ 0)) * 2 ^ 3 + min (s.openTasks part id) 0xFFFFFF * 2 ^ 8
          + min r.launches.length 255 * 2 ^ 32 + r.depth * 2 ^ 48 + r.parent * 2 ^ 52)))))
  ∧ (∀ (s : State) (r : Reef), s.canonical = true → s.reef? s.data.n s.data.m = some r → r.state = 2 → s.det s.data.n = false →
    (r.taken = false ∨ s.data.yes = false) →
    ∃ t, exec .reefReexecution s = .next t ∧ (∀ r', t.reef? s.data.n s.data.m = some r' → r'.state = 1 ∧ r'.rerun = true) ∧
      ((r.launches.any fun l => !l.desc.inside && l.desc.n != 0) = true → (t.reef? s.data.n s.data.m).isSome = true) ∧
      ∀ tid u, t.task? tid = some u → u.part = s.data.n → u.reef.toNat ≠ s.data.m)

/-! ### The life of a task -/

/-- R36 to R39, R41 to R43, R79, R118, R235, R282. END of a task whose stores have been probed frees its half and
leaves the task, with its staged lines and its signature, to its arbiter; before that it waits. YIELD does nothing
while PREQ is clear; with it set, the task is saved: the registers of the groups that the next header names, s30,
and the resume point at that header. An ended task that may commit is gone with its commit, and its one staged line,
in a range page, is at its home, no other byte changing where no heap block is given back; a direct operation that
waited is sent as if issued once the task is safe; a slice's end sets PREQ in each half of the tenant on a core that is not
already being left, and takes the tenant's entries out of its inboxes; past PDL the task is saved by force, past WDOG it is terminated; a drained half is free, and a free or
filling half takes the core's waiting task of highest priority. The model's choices in it: logs 54, 55, 95, 109. -/
def Obligations.LivesOfTasks : Prop :=
  (∀ (f : FA) (s : State) (u : Task), s.runs (.endT f) = true → s.task? s.curHalf.tid = some u → 2 * u.core + u.half = s.cur →
    let wait := s.probing s.curHalf.tid || (u.act.body.isSome && s.reserving s.curHalf.tid)
    (wait = false → ∃ t v, exec (.endT f) s = .next t ∧ t.half s.cur = Half.reset ∧ t.task? s.curHalf.tid = some v ∧ v.life = .ended ∧
      v.lines = u.lines ∧ v.writeSig = u.writeSig ∧ v.ts = u.ts ∧ t.mem = s.mem) ∧
    (u.act.body = none → s.probing s.curHalf.tid = true → exec (.endT f) s = .next (s.halved { s.curHalf with block := .register })))
  ∧ (∀ (f : FA) (s : State), s.runs (.yield f) = true → s.curHalf.preq = false → s.continues 1 = true →
    exec (.yield f) s = .next (s.retired 1 s.curHalf))
  ∧ (∀ (f : FA) (s : State) (w : Word), s.runs (.yield f) = true → s.curHalf.preq = true →
    let next := pcOf s.curHalf + 4
    fetchHeader s s.curCore next = .ok w → s.quiet s.cur s.curHalf = true →
    ∃ t u x, exec (.yield f) s = .next t ∧ (t.half s.cur).occ = .draining ∧ (t.half s.cur).tid = s.curHalf.tid ∧
      t.task? s.curHalf.tid = some u ∧ u.life = .saved ∧ u.saved = some x ∧ x.hdr = next ∧ x.roff = 0 ∧ x.entering = true ∧
      (∀ r, r < 32 → readS x r = if (hdrLiveS w).testBit (r / 4) || r == 30 then readS s.curHalf r else 0) ∧
      (∀ r, r < 32 → readV x r = if (hdrLiveV w).testBit (r / 4) then readV s.curHalf r else 0) ∧
      (∀ r, r < 8 → readK x r = if r = 0 ∨ hdrLiveK w = true then readK s.curHalf r else 0) ∧
      (∀ r, r < 4 → readA x r = if (hdrLiveA w).testBit r then readA s.curHalf r else Acc.zero) ∧
      x.lanes = s.curHalf.lanes ∧ x.stack = s.curHalf.stack)
  ∧ (∀ (s : State) (u : Task) (pas : List Nat), s.canonical = true → s.sound = true → s.task? s.data.n = some u → s.mayCommit s.data.n u = true →
    s.detCore u.core = false → s.detConflict u = false → s.reachLines (s.party u.core) (u.whoAs s.data.n) .write u.touches = .ok pas →
    pas.any (fun pa => s.homeHeld pa || s.behindAt u.core pa) = false →
    ∃ t, exec .commitRequest s = .next t ∧ t.task? s.data.n = none ∧
      ∀ va ln pa, u.lines = [(va, ln)] → pas = [pa] → u.frees = [] → (s.tasks.all fun x => x.2.allocs.isEmpty) = true →
        (rangeHit (s.station (stationOf (clusterOf u.core) va)) (s.party u.core).asid va).isSome = true →
        (∀ k, k < 64 → memGet t.mem (pa + k) = (overlayLine (memBytes s.mem pa 64) ln).getD k 0) ∧
        ∀ a, a < pa ∨ pa + 64 ≤ a → memGet t.mem a = memGet s.mem a)
  ∧ (∀ (s : State) (i : Instr), (s.half s.data.n).block = .safe → s.directReady (s.half s.data.n).tid = true → nextTurn s s.data.n = .instr i →
    (match i with
      | .str _ | .puthL _ | .puthX _ | .sts _ | .stsv _ | .strel _ | .stsm _ | .atom _ | .red _ | .atomr _ | .redr _ | .fence _ _ | .rot _
      | .copy _ | .ecenc _ | .ecrec _ | .send _ | .reply _ | .sendm _ | .launchL _ | .launchX _ | .spawnL _ | .spawnX _ | .abort _
      | .abortX _ | .rlbegin _ | .reef _ | .reefx _ => true
      | _ => false) = true → ∃ t, exec .taskSafeSend s = .next t ∧ exec i { s with cur := s.data.n } = .next t)
  ∧ (∀ (s : State) (hid : Nat) (h : Half), tget s.halves hid = some h → s.canonical = true → h.occ = .live ∨ h.occ = .filling →
    s.partOf (coreOf hid) = some s.data.n → s.leaving (coreOf hid) = false →
    ∃ t, exec .sliceEnd s = .next t ∧ t.half hid = { h with preq := true } ∧ t.mem = s.mem ∧ t.tasks = s.tasks ∧
      (∀ x, t.half x = s.half x ∨ s.partOf (coreOf x) = some s.data.n ∧ t.half x = { s.half x with preq := true }) ∧
      t.core (coreOf hid) = { (s.core (coreOf hid)).setAside with preqFrom := s.clock.clk } ∧
      ∀ n, s.partOf n ≠ some s.data.n → t.core n = s.core n)
  ∧ (∀ (s : State) (u : Task),
    let hid := s.data.n
    let h := s.half hid
    s.task? h.tid = some u → h.occ = .live → h.preq = true → h.ctl.pdl.toNat ≤ s.pdlc (coreOf hid) →
    (h.traps = [] ∨ h.ctl.trapd = true) → s.saveWaits h (groupsOf h.hdrWord) = false →
    ∃ t v, exec .pdlForcedSave s = .next t ∧ (t.half hid).occ = .draining ∧ (t.half hid).tid = h.tid ∧ t.task? h.tid = some v ∧
      v.life = .saved ∧ v.saved = some (savedHalf (groupsOf h.hdrWord) h))
  ∧ (∀ (s : State) (u : Task),
    let h := s.half s.data.n
    s.canonical = true → s.task? h.tid = some u → 2 * u.core + u.half = s.data.n → h.occ = .live → h.ctl.wdog.toNat ≤ s.wdc u →
    ∃ t, exec .wdog s = .next t ∧ t.task? h.tid = none ∧ t.half s.data.n = Half.reset)
  ∧ (∀ (s : State), (s.half s.data.n).occ = .draining →
    exec .saveComplete s = .next { s with halves := tput s.halves s.data.n Half.reset })
  ∧ (∀ (s : State) (tid : Nat), (s.half s.data.n).occ = .free → s.waitingTask (coreOf s.data.n) = some tid → (s.core (coreOf s.data.n)).failed = false →
    exec .restoreComplete s = .next { s.cored (coreOf s.data.n) Core.takeBack with
      halves := tput s.halves s.data.n { Half.reset with occ := .filling, tid := tid } })
  ∧ (∀ (s : State) (u : Task) (p : Part) (x : Half),
    let hid := s.data.n
    let tid := (s.half hid).tid
    (s.half hid).occ = .filling → s.waitingTask (coreOf hid) = none → s.task? tid = some u → u.saved = some x → s.part? u.part = some p →
    ∃ t v, exec .restoreComplete s = .next t ∧
      t.half hid = { x with occ := .live, tid := tid, block := .none, preq := (s.half hid).preq, ctl := { x.ctl with quant := p.quant, pdl := p.pdl, wdog := p.wdog } } ∧
      t.task? tid = some v ∧ v.life = .resident ∧ v.saved = none)

/-! ### Ratline loops -/

/-- R318 to R320, R325, R330. RLBEGIN traps BOUND for a count of more than 32 bits, a window size of 0 or above
16384 and a group that is empty, and BADTGT for a body without a header of kind 3; of a safe task it sends its
request. A loop that runs refuses another with 0x31, and a request accepted starts a loop that has run no window and
clears the report. A window takes the failed iterations first, then new ones, up to W, and the counter's next value;
when every body of round one has ended, an iteration holds the cells whose tag carries its window and key; when
every body of round two has ended the window completes, and a loop that leaves nothing ends with its status word. Each
of the three waits while a reservation or a write of a cell by a body of the partition is not applied. The model's
choices in it: logs 59, 131. -/
def Obligations.RatlineLoops : Prop :=
  (∀ (f : FL) (s : State), s.runs (.rlbegin f) = true →
    let a := readS s.curHalf f.r.a.toNat
    let b := readS s.curHalf f.r.b.toNat
    let members := s.groupMask s.curTask.part (wbits b 23 16)
    let body := handlerAt (pcOf s.curHalf) (sx f.obj)
    let bad := wbits a 63 32 ≠ 0 ∨ wbits b 14 0 = 0 ∨ 16384 < wbits b 14 0 ∨ members = 0
    (bad → exec (.rlbegin f) s = .next ((raiseIssue s.cur .bound 0 0).run s)) ∧
    (∀ w, ¬ bad → fetchHeader s s.curCore body = .ok w →
      (hdrKind w ≠ 3 → exec (.rlbegin f) s = .next ((raiseIssue s.cur .badtgt body 0).run s)) ∧
      (hdrKind w = 3 → s.directReady s.curHalf.tid = false → exec (.rlbegin f) s = .next (s.halved { s.curHalf with block := .safe })) ∧
      (hdrKind w = 3 → s.directReady s.curHalf.tid = true → exec (.rlbegin f) s = .next ((s.committing.netted fun n => { n with
        loops := n.loops ++ [⟨s.destFor f.r.d, s.curTask.part, Loop.fresh (wbits a 31 0) (wbits b 14 0) (wbits b 23 16) members
          (wbits b 25 24) (readS s.curHalf f.c.toNat) body s.curTask.reef (s.destFor f.r.d)⟩] }).ran (.rlbegin f) (s.emptied f.r.d)))))
  ∧ (∀ (s : State) (q : LoopReq) (p : Part), ith s.net.loops s.data.n = some q → s.part? q.part = some p →
    ((s.net.loops.take s.data.n).any fun x => x.part == q.part) = false →
    (p.loop.isSome = true → ∃ t p', exec .ratlineRequest s = .next t ∧ t.owes q.dest 0x31 = true ∧ t.part? q.part = some p' ∧
      p'.loop = p.loop ∧ p'.report = p.report) ∧
    (p.loop = none → ∃ t, exec .ratlineRequest s = .next t ∧ t.net.loops = ldel s.net.loops s.data.n ∧
      t.part? q.part = some { p with loop := some q.loop, report := ⟨0, 0, 0, 0, 0⟩ }))
  ∧ (∀ (s : State) (p : Part) (l : Loop), s.part? s.data.n = some p → p.loop = some l → l.active = false → l.error = false →
    s.det s.data.n = false → l.retry ≠ [] ∨ l.next < l.n → l.retry.length ≤ l.w → s.cellsOut s.data.n = false →
    ∃ (t : State) (p' : Part) (l' : Loop), exec .ratlineWindowStart s = .next t ∧ t.part? s.data.n = some p' ∧ p'.loop = some l' ∧ p'.window = p.window + 1 ∧
      l'.active = true ∧ l'.retry = [] ∧ l'.next = l.next + min (l.n - l.next) (l.w - l.retry.length) ∧
      l'.iters.map (fun i => i.index) = l.retry ++ (List.range (l'.next - l.next)).map (l.next + ·) ∧
      l'.iters.map (fun i => i.key) = List.range l'.iters.length ∧
      (∀ i ∈ l'.iters, i.rsv = [] ∧ i.phase = 0 ∧ i.failed = false) ∧
      (p.window + 1 ≠ 0 → t.tags = s.tags) ∧ t.mem = s.mem)
  ∧ (∀ (s : State) (p : Part) (l : Loop) (x : Iter) (core : Nat), s.part? (s.data.n - 256) = some p → p.loop = some l → 256 ≤ s.data.n →
    s.det (s.data.n - 256) = false → l.active = true → l.iters.find? (fun i => i.phase == 0 || i.phase == 3) = some x →
    s.leastLoaded ((membersOf l.members).filter fun c => s.eligible (s.data.n - 256) c l.pri) = some core →
    ∃ t act b, exec .taskPlacement s = .next t ∧ t.net.msgs = s.net.msgs ++ [⟨deviceSrc, core, l.pri, act, none, none⟩] ∧
      act.body = some b ∧ b.index = x.index ∧ b.round = decide (x.phase = 3) ∧ b.key = x.key ∧ b.window = p.window.toNat ∧
      act.free = true ∧ act.launch = none ∧ act.reef = l.reef ∧ act.ts.toNat = x.index % 2 ^ 48 ∧
      act.msg.pay = [l.arg, word x.index, word (b2n (decide (x.phase = 3))), word x.key, zx p.window])
  ∧ (∀ (s : State) (p : Part) (l : Loop), s.part? s.data.n = some p → p.loop = some l → s.det s.data.n = false → l.active = true →
    (∀ i ∈ l.iters, i.phase = 2) → s.cellsOut s.data.n = false →
    ∃ (t : State) (l' : Loop), exec .holdListBuild s = .next t ∧ t.loopOf s.data.n = some l' ∧ l'.iters.length = l.iters.length ∧
      ∀ (n : Nat) (i : Iter), l.iters[n]? = some i → ∃ j : Iter, l'.iters[n]? = some j ∧ j.index = i.index ∧ j.key = i.key ∧ j.failed = i.failed ∧
        j.rsv = i.rsv.filter (s.holdsCell p.window i.key) ∧ (j.holdsAll = true ↔ j.rsv = i.rsv) ∧ j.phase = 3)
  ∧ (∀ (s : State) (p : Part) (l : Loop), s.part? s.data.n = some p → p.loop = some l → s.det s.data.n = false → l.active = true →
    (∀ i ∈ l.iters, i.phase = 5) → s.cellsOut s.data.n = false →
    let failed := (l.iters.filter fun i => i.failed).map fun i => i.index
    let done := l.done + (l.iters.length - failed.length)
    let ends := l.error = true ∨ (failed ++ l.retry = [] ∧ l.n ≤ l.next)
    ∃ t p', exec .ratlineLoopEnd s = .next t ∧ t.part? s.data.n = some p' ∧ p'.report.wnum = p.window.toNat ∧
      p'.report.commits = l.iters.length - failed.length ∧ p'.report.retries = failed.length ∧
      (ends → p'.loop = none ∧ t.owes ⟨l.hid, l.tid, l.seq, l.reg⟩
        (word (min (l.windows + 1) 0xFFFFFF * 2 ^ 40 + done % 2 ^ 32 * 2 ^ 8 + (if l.error then 1 else 0))) = true) ∧
      (¬ ends → t.net = s.net ∧ ∃ l', p'.loop = some l' ∧ l'.active = false ∧ l'.windows = l.windows + 1 ∧ l'.done = done ∧
        l'.retry = failed ++ l.retry ∧ l'.iters = []))
  ∧ (∀ (i : Instr) (s : State) (p : Part) (l : Loop), (i = .ratlineWindowStart ∨ i = .holdListBuild ∨ i = .ratlineLoopEnd) →
    s.part? s.data.n = some p → p.loop = some l → l.ended = false → s.cellsOut s.data.n = true →
    ∃ t, exec i s = .next t ∧ t.loopOf s.data.n = some l ∧ t.mem = s.mem ∧ t.net = s.net)

/-- R324, R326 to R330. In a ratline body, RLRSV records the cell's address and sends the window and the key to its
tag in round one, traps BOUND for a ninth address, and does nothing in round two; RLCHK writes every bit of kD; RLLD
and RLST access the cell, and trap RESMISS in round two for a cell that is not held, RLST in round one too; RLEND
ends the task, as END does, once its reservations, writes of cells and probes are done; RLSTAT writes the report.
The model's choice in it: log 59. -/
def Obligations.RatlineBodies : Prop :=
  (∀ (f : FL) (s : State) (b : Body), s.runs (.rlrsv f) = true → s.curTask.act.body = some b →
    let ea := s.cellOf f
    let traps (c : Cause) : Prop := exec (.rlrsv f) s = .next ((raiseIssue s.cur c ea 0).run s)
    (b.round = true → exec (.rlrsv f) s = .next (s.retired 2 s.curHalf)) ∧
    (b.round = false → ea.toNat % 8 ≠ 0 → traps .align) ∧
    (b.round = false → ea.toNat % 8 = 0 → wbits ea 63 56 ≠ 0 → traps .access) ∧
    (b.round = false → ea.toNat % 8 = 0 → wbits ea 63 56 = 0 → s.curTask.rsv.contains ea = false → 8 ≤ s.curTask.rsv.length → traps .bound) ∧
    (b.round = false → ea.toNat % 8 = 0 → wbits ea 63 56 = 0 → s.curTask.rsv.contains ea = true ∨ s.curTask.rsv.length < 8 →
      exec (.rlrsv f) s = .next
        (((s.requested (.rlrsv f) (.cellReserve b.window b.key) 0 ea [lineAt ea] [(touchOf ea.toNat 8).bytes] id).tasked s.curHalf.tid
          fun u => { u with rsv := withWord u.rsv ea }).retired 2 s.curHalf)))
  ∧ (∀ (f : FL) (s : State) (b : Body), s.runs (.rlchk f) = true → s.curTask.act.body = some b →
    exec (.rlchk f) s = .next (s.ran (.rlchk f) (writeK s.curHalf (f.r.d.toNat % 8) (if b.round && b.holdsAll then BitVec.allOnes 1024 else 0))))
  ∧ (∀ (i : Instr) (f : FL) (store : Bool) (s : State) (b : Body), s.runs i = true → s.curTask.act.body = some b →
    (i = .rlld f ∧ store = false ∨ i = .rlst f ∧ store = true) →
    let ea := s.cellOf f
    let miss := if b.round then b.holds.contains ea = false else store = true
    let traps (c : Cause) : Prop := exec i s = .next ((raiseIssue s.cur c ea 0).run s)
    (ea.toNat % 8 ≠ 0 → traps .align) ∧ (ea.toNat % 8 = 0 → miss → traps .resmiss) ∧
    (ea.toNat % 8 = 0 → ¬ miss → wbits ea 63 56 ≠ 0 → traps .access) ∧
    (¬ miss → s.sharedOk ea 8 8 store = true → exec i s = .next (if store
      then (s.requested i (.cellWrite (readS s.curHalf f.c.toNat)) 0 ea [lineAt ea] [(touchOf ea.toNat 8).bytes] id).retired 2 s.curHalf
      else (s.requested i .cellRead f.r.d.toNat ea [lineAt ea] [(touchOf ea.toNat 8).bytes] id).begun i (markBusy s.curHalf (.s f.r.d.toNat)))))
  ∧ (∀ (f : FL) (s : State) (b : Body) (u : Task), s.runs (.rlend f) = true → s.task? s.curHalf.tid = some u → u.act.body = some b →
    2 * u.core + u.half = s.cur →
    (s.reserving s.curHalf.tid = true ∨ s.probing s.curHalf.tid = true →
      ∃ t, exec (.rlend f) s = .next t ∧ t.half s.cur = { s.curHalf with block := .register }) ∧
    (s.reserving s.curHalf.tid = false → s.probing s.curHalf.tid = false →
      ∃ t v, exec (.rlend f) s = .next t ∧ t.half s.cur = Half.reset ∧ t.task? s.curHalf.tid = some v ∧ v.life = .ended ∧
        v.rlFail = f.m.getLsbD 0 ∧ v.lines = u.lines ∧ v.act.body = some b ∧ t.mem = s.mem))
  ∧ (∀ (f : FL) (s : State) (p : Part), s.runs (.rlstat f) = true → s.part? s.curTask.part = some p →
    let r := p.report
    exec (.rlstat f) s = .next (s.ran (.rlstat f) (writeS s.curHalf f.r.d.toNat (if (readS s.curHalf f.r.a.toNat).getLsbD 0
      then word (r.done % 2 ^ 32 * 2 ^ 32 + r.retried)
      else word (r.wnum * 2 ^ 56 + r.commits % 2 ^ 16 * 2 ^ 16 + r.retries % 2 ^ 16)))))

/-! ### Jibs -/

/-- R303 to R306, R309 to R315. A jib traps ILL where no set is bound, its slot is not valid or its micro-PC is past
the sequence, and waits for a set that is not resident; JEND retires it; a micro-op that would take `used` above 256
traps JIBLIM; a scalar micro-op writes h[X], JSIN reads a full register and JSOUT writes one, JSKIP passes over
micro-ops, and each counts its cost. The loader makes a wanted set resident. JBIND binds a set to an ASID of the
partition; JLOAD answers ACCESS for an image it cannot read, checks one that it reads and registers the set. The
model's choices in it: logs 79, 80, 110. -/
def Obligations.Jibs : Prop :=
  (∀ (i : Instr) (q : JibIns) (s : State), jibOf i = some q → s.runs i = true →
    let h := s.curHalf
    let part := s.curTask.part
    let cl := clusterOf s.curCore
    (s.jibFound = none → exec i s = .next ((raiseIssue s.cur .ill 0 0).run (s.halved h.leftJib))) ∧
    (∀ x, s.jibFound = some x → s.resident cl part x.1 = false →
      ∃ t, exec i s = .next t ∧ (t.cluster cl).jibWanted.contains (part, x.1) = true ∧
        t.half s.cur = { h with block := .jibSet, jib := some (s.jibGoes q x), ctl := { h.ctl with jst := if s.inJib then 1 else 2 } }) ∧
    (∀ s' x j, s.jibNow q = some (s', x, j) →
      (tget x.slots q.slot = none →
        exec i s = .next ((raiseIssue s.cur .ill 0 0).run s'.jibLeft)) ∧
      (∀ start n, tget x.slots q.slot = some (start, n) → n ≤ j.upc →
        exec i s = .next ((raiseIssue s.cur .ill 0 0).run s'.jibLeft)) ∧
      (∀ start n, tget x.slots q.slot = some (start, n) → j.upc < n →
        let m := microOf (nth x.body (start + j.upc))
        let next : JibRun := { j with upc := j.upc + 1, used := j.used + m.cost }
        let z := if m.zi then sx m.imm else j.hs m.z
        let r := (q.field m.y).1
        let sets (w : Word) : Prop := exec i s = .next (s'.microed (next.setH m.x w) s'.curHalf)
        (256 < j.used + m.cost → exec i s = .next ((raiseIssue s.cur .jiblim 0 0).run s')) ∧
        (j.used + m.cost ≤ 256 →
          (m.op = 31 → exec i s = .next (s'.jibLeft.retired (parcelCount i) s'.curHalf.leftJib)) ∧
          (11 ≤ m.op → m.op ≤ 20 → sets (jibValue m.op m.aux (j.hs m.x) (j.hs m.y) z)) ∧
          (m.op = 0 → isFull h (.s r) = true → isBusy h (.s r) = false → sets (readS h r)) ∧
          (m.op = 0 → isFull h (.s r) = false → (q.field m.y).2 = true →
            exec i s = .next ((raiseIssue s.cur .empty 0 (word (m.y * 32 + r))).run s')) ∧
          (m.op = 1 → isFull h (.s (q.field m.x).1) = true → isBusy h (.s (q.field m.x).1) = false →
            exec i s = .next (s'.microed next (writeS s'.curHalf (q.field m.x).1 (j.hs m.y)))) ∧
          (m.op = 6 → sets (sx m.imm)) ∧
          (m.op = 7 → sets (word (m.imm.toNat * 2 ^ 32 + (j.hs m.x).toNat % 2 ^ 32))) ∧
          (m.op = 30 → exec i s = .next (s'.microed
            (if m.aux % 2 = 0 ∨ (j.hs m.y).toNat % 2 ≠ m.aux / 2 % 2 then { next with upc := j.upc + 1 + m.imm.toNat % 64 } else next)
            s'.curHalf))))))
  ∧ (∀ (s : State) (w : Nat × Nat) (p : Part) (x : JibSet),
    let c := s.cluster s.data.n
    c.jibWanted.find? (fun w => w.1 == s.data.m) = some w → s.part? s.data.m = some p → tget p.jibSets w.2 = some x →
    s.resident s.data.n s.data.m w.2 = false → setFits c.jibs (s.storeWords / 64) x.pages = true →
    (c.jibs.all fun r => s.bound r.2.part r.2.set || s.inUse s.data.n r.2.part r.2.set) = true →
    exec .jibSetResident s = .next (s.clustered s.data.n fun c => { c with
      jibWanted := c.jibWanted.filter (· != w), jibs := tput c.jibs (freeEntry c.jibs) ⟨s.data.m, w.2, x.pages, s.clock.clk⟩ }))
  ∧ (∀ (f : FA) (s : State) (p : Part), s.runs (.jbind f) = true → s.part? s.curTask.part = some p →
    let a := readS s.curHalf f.a.toNat
    let asid := wbits a 15 0
    let set := wbits a 23 16
    let unbind := a.getLsbD 24
    (p.image.asids.contains asid = false → exec (.jbind f) s = .next (s.statused f.d 0x0B 0)) ∧
    (p.image.asids.contains asid = true → unbind = false → set = 255 → exec (.jbind f) s = .next (s.statused f.d 0x40 0)) ∧
    (p.image.asids.contains asid = true → unbind = false → set ≠ 255 → tget p.jibSets set = none → exec (.jbind f) s = .next (s.statused f.d 0x41 0)) ∧
    (p.image.asids.contains asid = true → unbind = true ∨ set ≠ 255 ∧ (tget p.jibSets set).isSome = true →
      ∃ t p', exec (.jbind f) s = .next t ∧ t.part? s.curTask.part = some p' ∧ t.half s.cur = s.statusHalf f.d 0 0 ∧
        p'.jibMap = if unbind then tdel p.jibMap asid else tput p.jibMap asid set))
  ∧ (∀ (f : FA) (s : State) (p : Part), s.runs (.jload f) = true → s.part? s.curTask.part = some p →
    let a := readS s.curHalf f.a.toNat
    let b := readS s.curHalf f.b.toNat
    let set := wbits a 7 0
    let words := wbits a 31 16
    (words = 0 ∨ s.storeWords < words → exec (.jload f) s = .next ((raiseIssue s.cur .bound 0 0).run s)) ∧
    (words ≠ 0 → words ≤ s.storeWords →
      (set = 255 → exec (.jload f) s = .next (s.statused f.d 0x40 0)) ∧
      (set ≠ 255 → (p.jibMap.any fun m => m.2 == set) = true → exec (.jload f) s = .next (s.statused f.d 0x44 0)) ∧
      (set ≠ 255 → (p.jibMap.any fun m => m.2 == set) = false →
        b.toNat % 64 ≠ 0 ∨ 2 ^ 56 < b.toNat + 8 * (65 + words) ∨
          (∃ a, s.reachLines (s.party s.curCore) (whoOf (s.seen (.jload f))) .read (touchesOf b.toNat (8 * (65 + words))) = .refused .access a) →
        exec (.jload f) s = .next (s.statused f.d 0x0B 0)) ∧
      (∀ bs, set ≠ 255 → (p.jibMap.any fun m => m.2 == set) = false → b.toNat % 64 = 0 →
        s.sharedBytes (.jload f) b.toNat (8 * (65 + words)) = some bs →
        (∀ reason place, checkImage (wordsOf bs) words = some (reason, place) → ∃ t, exec (.jload f) s = .next t ∧
          t.half s.cur = s.statusHalf f.d 0x41 (reason * 2 ^ 16 + place) ∧ t.parts = s.parts) ∧
        (checkImage (wordsOf bs) words = none → ∃ t p', exec (.jload f) s = .next t ∧ t.half s.cur = s.statusHalf f.d 0 0 ∧
          t.part? s.curTask.part = some p' ∧ tget p'.jibSets set = some (setOf (wordsOf bs) (Config.sha3 bs))))))

/-! ### The tables of a partition -/

/-- R290 to R294. GATEW writes the bits of a word of a gate of the partition and GATER reads one, 0 for a core
outside it. OBJW writes an entry live from its image, or frees it, and changes nothing where it refuses; OBJR stores
the header and the body. GRPW writes a group that the partition's other groups allow. Each of the three writes waits
for the requests accepted under the old entry. The model's choices in it: logs 81, 83. -/
def Obligations.GatesObjectsGroups : Prop :=
  (∀ (f : FA) (s : State), s.runs (.gatew f) = true →
    let a := readS s.curHalf f.a.toNat
    let core := if a.getLsbD 28 then 4096 + wbits a 27 16 else wbits a 27 16
    let sel := wbits a 5 0
    let has := sel < 50 ∨ isKernel core = true ∧ sel ≤ 52
    (s.ownsCore s.curTask.part core = false → exec (.gatew f) s = .next (s.statused f.d 0x0B 0)) ∧
    (s.ownsCore s.curTask.part core = true → ¬ has → exec (.gatew f) s = .next (s.statused f.d 0x40 0)) ∧
    (s.ownsCore s.curTask.part core = true → has → s.gateBusy core sel = true →
      exec (.gatew f) s = .next (s.halved { s.curHalf with block := .register })) ∧
    (s.ownsCore s.curTask.part core = true → has → s.gateBusy core sel = false → exec (.gatew f) s = .next ((s.cored core fun x => { x with
      gate := tput x.gate sel (readS s.curHalf f.b.toNat &&& gateMask sel) }).statused f.d 0 0)))
  ∧ (∀ (f : FA) (s : State), s.runs (.gater f) = true →
    let a := readS s.curHalf f.a.toNat
    let core := if a.getLsbD 28 then 4096 + wbits a 27 16 else wbits a 27 16
    let sel := wbits a 5 0
    exec (.gater f) s = .next (s.ran (.gater f) (writeS s.curHalf f.d.toNat
      (if s.ownsCore s.curTask.part core && (decide (sel < 50) || (isKernel core && decide (sel ≤ 52))) then gateWord (s.core core) sel else 0))))
  ∧ (∀ (f : FA) (s : State), s.runs (.objw f) = true →
    let a := readS s.curHalf f.a.toNat
    let b := readS s.curHalf f.b.toNat
    let idx := wbits a 15 0
    let part := s.curTask.part
    let o := s.objAt part idx
    let names := if a.getLsbD 32 then o.state = 0 else o.state = 1 ∧ o.gen.toNat = wbits a 31 16
    (a.getLsbD 32 = true → o.state ≠ 0 → exec (.objw f) s = .next (s.statused f.d 0x44 0)) ∧
    (a.getLsbD 32 = false → ¬ names → exec (.objw f) s = .next ((raiseIssue s.cur .stale 0 (word (wbits a 31 0))).run s)) ∧
    (names → b.toNat % 64 ≠ 0 → exec (.objw f) s = .next (s.statused f.d 0x0B 0)) ∧
    (∀ bs p, names → b.toNat % 64 = 0 → s.sharedBytes (.objw f) b.toNat 512 = some bs → s.part? part = some p →
      let kind := wbits (nth (wordsOf bs) 0) 2 0
      let body := objBody kind (wordsOf bs)
      let value := o.gen.toNat * 2 ^ 16 + idx
      let answers (code value : Nat) (x : Obj) : Prop := ∃ t, exec (.objw f) s = .next t ∧ t.half s.cur = s.statusHalf f.d code value ∧ t.objAt part idx = x
      let plain := o.banks = [] ∧ ¬ (kind = 6 ∧ (nth body 2).getLsbD 0 = true)
      (kind = 7 → answers 0x41 0 o) ∧
      (kind ≠ 7 → kind ≠ 0 → o.holds ≠ 0 → answers 0x44 0 o) ∧
      (plain → kind = 0 ∨ kind ≠ 7 ∧ o.holds = 0 → s.objBusy part idx = true → ∃ t, exec (.objw f) s = .next t ∧
        t.half s.cur = { s.curHalf with block := .register } ∧ t.objAt part idx = o) ∧
      (plain → s.objBusy part idx = false →
        (kind = 0 → o.holds ≠ 0 → answers 0 value { o with state := 2, banks := [] }) ∧
        (kind = 0 → o.holds = 0 → answers 0 ((o.gen + 1).toNat * 2 ^ 16 + idx) { Obj.reset with gen := o.gen + 1 }) ∧
        (kind ≠ 7 → kind ≠ 0 → o.holds = 0 → answers 0 value { o with state := 1, kind := kind, body := body, banks := [] }))))
  ∧ (∀ (f : FA) (s : State), s.runs (.objr f) = true → s.canonical = true →
    let a := readS s.curHalf f.a.toNat
    let b := readS s.curHalf f.b.toNat
    let o := s.objAt s.curTask.part (wbits a 15 0)
    let live := o.state = 1 ∧ o.gen.toNat = wbits a 31 16
    (¬ live → exec (.objr f) s = .next ((raiseIssue s.cur .stale 0 (word (wbits a 31 0))).run s)) ∧
    (live → b.toNat % 64 ≠ 0 → exec (.objr f) s = .next (s.statused f.d 0x0B 0)) ∧
    (∀ pas, live → s.sharedRoom (.objr f) b.toNat 512 pas = true → ∃ t, exec (.objr f) s = .next t ∧ t.half s.cur = s.statusHalf f.d 0 0 ∧
      s.holdsAt t pas (bytesOf (word (o.gen.toNat * 2 ^ 48 + o.holds % 2 ^ 16 * 2 ^ 32 + o.state.toNat * 8 + o.kind)
        :: (List.range 63).map fun i => nth o.body i))))
  ∧ (∀ (f : FA) (s : State) (p : Part) (bs : List Byte), s.runs (.grpw f) = true → s.part? s.curTask.part = some p →
    (readS s.curHalf f.b.toNat).toNat % 64 = 0 → s.sharedBytes (.grpw f) (readS s.curHalf f.b.toNat).toNat 520 = some bs →
    let idx := wbits (readS s.curHalf f.a.toNat) 7 0
    let mask := BitVec.ofNat 4096 (ofBytes (bs.take 512))
    let others := p.groups.filter fun g => g.1 != idx && g.2 != 0
    let code := if (membersOf mask).any fun m => !s.ownsCore s.curTask.part m then 0x0B
      else if mask ≠ 0 ∧ (others.any fun g => strictSubset mask g.2 || strictSubset g.2 mask) = true then 0x42
      else if (membersOf mask).any fun m => decide (4 ≤ (others.filter fun g => g.2.getLsbD m).length) then 0x43 else 0
    let busy := code = 0 ∧ s.groupBusy s.curTask.part idx = true
    ∃ t p', exec (.grpw f) s = .next t ∧ t.part? s.curTask.part = some p' ∧
      t.half s.cur = (if busy then { s.curHalf with block := .register } else s.statusHalf f.d code 0) ∧
      p'.groups = if code ≠ 0 ∨ busy then p.groups else if mask = 0 then tdel p.groups idx else tput p.groups idx mask)

/-- R281 to R284, R298, R299. QMAP writes a queue entry whose image the checks admit, once a command taken from it has been
accepted, a queue's next period and budget, or those of an unassigned one at once, and an arbiter of the list, and stores a queue's words, where the queue is the partition's or unassigned.
SSAV of a live half stores the image, parks the task and frees the half; SRST puts the parked task into a free half
with the registers of its image. IPI sends the message, and sD comes with its acceptance. The model's choices in it:
logs 32, 84, 85. -/
def Obligations.QueuesSavesInterrupts : Prop :=
  (∀ (f : FA) (s : State), s.runs (.qmap f) = true →
    let a := readS s.curHalf f.a.toNat
    let b := (readS s.curHalf f.b.toNat).toNat
    let form := wbits a 61 60
    let i := wbits a 9 0
    let part := s.curTask.part
    let q := tgetD s.mf0.queues i Queue.reset
    let own := q.kind == 0 || q.part == part
    (form ≠ 3 → b % 64 ≠ 0 → exec (.qmap f) s = .next (s.statused f.d 0x0B 0)) ∧
    (∀ bs, form ≠ 3 → b % 64 = 0 → s.sharedBytes (.qmap f) b 32 = some bs →
      let ws := wordsOf bs
      (∀ o, form = 0 → tget s.mf0.queues i = some o → o.kind ≠ 0 → o.part ≠ part →
        ∃ t, exec (.qmap f) s = .next t ∧ t.half s.cur = s.statusHalf f.d 0x0B 0 ∧ t.mf0 = s.mf0) ∧
      (∀ q, form = 0 → q = queueOf s.clock.ns ws → (∀ o, tget s.mf0.queues i = some o → o.kind = 0 ∨ o.part = part) →
        let served := s.mf0.queues.any fun o => o.1 == i && o.2.inFlight
        (s.queueCheck part i q = 0 → served = false → ∃ t, exec (.qmap f) s = .next t ∧ t.half s.cur = s.statusHalf f.d 0 0 ∧
          t.mf0.queues = tput s.mf0.queues i q) ∧
        (s.queueCheck part i q = 0 → served = true → ∃ t, exec (.qmap f) s = .next t ∧
          t.half s.cur = { s.curHalf with block := .register } ∧ t.mf0 = s.mf0) ∧
        (s.queueCheck part i q ≠ 0 → ∃ t, exec (.qmap f) s = .next t ∧ t.half s.cur = s.statusHalf f.d (s.queueCheck part i q) 0 ∧ t.mf0 = s.mf0)) ∧
      (form = 1 → own = false → ∃ t, exec (.qmap f) s = .next t ∧ t.half s.cur = s.statusHalf f.d 0x0B 0 ∧ t.mf0 = s.mf0) ∧
      (form = 1 → own = true →
        let period := wbits (nth ws 2) 31 0
        let budget := wbits (nth ws 2) 63 32
        (period = 0 ∨ period < budget → ∃ t, exec (.qmap f) s = .next t ∧ t.half s.cur = s.statusHalf f.d 0x41 0 ∧ t.mf0 = s.mf0) ∧
        (period ≠ 0 → budget ≤ period → ∃ t, exec (.qmap f) s = .next t ∧ t.half s.cur = s.statusHalf f.d 0 0 ∧
          tget t.mf0.queues i = some (if q.kind = 0 then { q with period := period, budget := budget }
            else { q with next := some (period, budget) }))) ∧
      (∀ p, form = 2 → s.part? part = some p →
        let arb := wbits (nth ws 0) 7 0
        (p.arbiters.contains arb = false → ∃ t, exec (.qmap f) s = .next t ∧ t.half s.cur = s.statusHalf f.d 0x0B 0 ∧ t.parts = s.parts) ∧
        (p.arbiters.contains arb = true → ∃ t p', exec (.qmap f) s = .next t ∧ t.half s.cur = s.statusHalf f.d 0 0 ∧
          t.part? part = some p' ∧ tget p'.arbList (wbits a 5 0) = some (BitVec.ofNat 8 arb)))) ∧
    (form = 3 → own = false → exec (.qmap f) s = .next (s.statused f.d 0x0B 0)) ∧
    (∀ pas, form = 3 → s.canonical = true → own = true → s.sharedRoom (.qmap f) b 32 pas = true →
      ∃ t, exec (.qmap f) s = .next t ∧ t.half s.cur = s.statusHalf f.d 0 0 ∧
        ∀ pa k, pas[0]? = some pa → k < 32 → memGet t.mem (pa + k) = (bytesOf (s.queueWords i q)).getD k 0))
  ∧ (∀ (f : FA) (s : State), s.runs (.ssav f) = true → s.canonical = true →
    let a := readS s.curHalf f.a.toNat
    let b := readS s.curHalf f.b.toNat
    let core := wbits a 11 0
    let hid := 2 * core + wbits a 12 12
    let h := s.half hid
    (s.ownsCore s.curTask.part core = false → exec (.ssav f) s = .next (s.statused f.d 0x0B 0)) ∧
    (s.ownsCore s.curTask.part core = true → h.occ ≠ .live → exec (.ssav f) s = .next (s.statused f.d 0x45 0)) ∧
    (∀ pas u, s.ownsCore s.curTask.part core = true → h.occ = .live → hid ≠ s.cur → s.task? h.tid = some u →
      s.saveWaits h Groups.all = false → h.traps = [] → s.sharedRoom (.ssav f) b.toNat 58016 pas = true →
      ∃ t v x, exec (.ssav f) s = .next t ∧ t.half hid = Half.reset ∧ t.half s.cur = s.statusHalf f.d 0 0 ∧
        t.task? h.tid = some v ∧ v.life = .parked ∧ v.saved = some x ∧ x.hdr = h.hdr ∧ x.roff = h.roff ∧ x.lanes = h.lanes ∧
        (∀ r, r < 32 → readS x r = readS h r) ∧
        ∀ j pa k, pas[j]? = some pa → k < 64 → 64 * j + k < 58016 →
          memGet t.mem (pa + k) = (s.saveFrame hid h ++ imageBytes Groups.all h).getD (64 * j + k) 0))
  ∧ (∀ (f : FA) (s : State), s.runs (.srst f) = true →
    let a := readS s.curHalf f.a.toNat
    let b := readS s.curHalf f.b.toNat
    let core := wbits a 11 0
    let hid := if (s.half (2 * core)).occ = .free then 2 * core else 2 * core + 1
    (s.ownsCore s.curTask.part core = false → exec (.srst f) s = .next (s.statused f.d 0x0B 0)) ∧
    (s.ownsCore s.curTask.part core = true → (s.half hid).occ ≠ .free → exec (.srst f) s = .next (s.statused f.d 0x44 0)) ∧
    (∀ l, s.ownsCore s.curTask.part core = true → (s.half hid).occ = .free → b.toNat % 64 = 0 →
      s.sharedBytes (.srst f) b.toNat 58016 = some l → s.parkedFor s.curTask.part l = none →
      ∃ t, exec (.srst f) s = .next t ∧ t.half s.cur = s.statusHalf f.d 0x41 0) ∧
    (∀ tid u l w, s.ownsCore s.curTask.part core = true → (s.half hid).occ = .free → hid ≠ s.cur → b.toNat % 64 = 0 →
      s.sharedBytes (.srst f) b.toNat 58016 = some l → s.parkedFor s.curTask.part l = some (tid, u) →
      s.task? tid = some u → u.savedFrame = [] →
      s.imageCheck core l (halfFrom l (u.saved.getD Half.reset)) = .ok w →
      s.ranged b = true → (∀ x ∈ linesOf b.toNat 58016, s.ranged (word x) = true) →
      ∃ t v, exec (.srst f) s = .next t ∧ t.half s.cur = s.statusHalf f.d 0 0 ∧ (t.half hid).occ = .live ∧ (t.half hid).tid = tid ∧
        (t.half hid).hdr = word (ofBytes ((l.drop 0x20).take 8)) ∧
        (∀ r, 1 ≤ r → r < 32 → r ≠ 30 → readS (t.half hid) r = word (ofBytes ((l.drop (0x1800 + 8 * r)).take 8))) ∧
        t.task? tid = some v ∧ v.life = .resident ∧ v.core = core ∧ v.half = hid % 2))
  ∧ (∀ (f : FA) (s : State), s.runs (.ipi f) = true →
    let core := 4096 + wbits (readS s.curHalf f.a.toNat) 5 0
    (s.ownsCore s.curTask.part core = false → exec (.ipi f) s = .next (s.statused f.d 0x0B 0)) ∧
    (s.ownsCore s.curTask.part core = true → ∃ act : Act,
      exec (.ipi f) s = .next ((s.netted fun n => { n with msgs := n.msgs ++ [⟨s.curCore, core, 3, act, some (s.destFor f.d), none⟩] }).begun (.ipi f)
        { s.curHalf with hold := some s.curHalf.seq }) ∧
      nth act.msg.pay 0 = readS s.curHalf f.b.toNat ∧ nth act.msg.pay 1 = word (s.curCore - 4096)))

/-! ### Events of a core -/

/-- R57, R78 to R80, R82, R166, R184, R185, R271 to R273, R280, R333. A value that arrives is written to its register, which is
full, with its flags; with the last one its replay entry leaves and its instruction counts as retired; a read of FFLAGS or
ORDST waits for what may change it, and takes it in. A second mismatch of a residue drops the multiply, and is a hard fault of
the core besides an uncorrectable event. A parity error in a value whose producer can issue again changes no value and is counted; in another, of
a task that is not safe, the task is discarded and queued again. The parcels at the resume point arrive with no
effect, fault, are refused, or hold an error that the code of the memory reports. A pending trap is delivered: the
frame has its cause, the status has TRAPD, and the handler at TVEC is entered. The model's choices in it: logs 39, 136. -/
def Obligations.CoreEvents : Prop :=
  (∀ (s : State) (f : Fill), ith s.net.fills s.data.n = some f → f.completion = false → f.sent = none →
    let base := s.netted fun n => { n with fills := ldel n.fills s.data.n }
    let h := s.half f.hid
    let waits := f.ctl.any fun n => s.ctlWait f.tid n (some f.seq)
    let last := !base.net.fills.any fun x => x.tid == f.tid && x.seq == f.seq
    let counts := last && h.replay.any fun e => e.seq == f.seq && !e.nore
    (waits = true → exec .registerFill s = .next s) ∧
    (waits = false → h.tid = f.tid → h.occ = .live → s.floorOf f.tid ≤ f.seq → ∃ t, exec .registerFill s = .next t ∧
      t.net = base.net.sees f.tid f.seq (f.flags.setWidth 64) f.ordst ∧ t.mem = s.mem ∧ t.tasks = s.tasks ∧
      t.halves = tput s.halves f.hid (arrive f (if last then h.leave f.seq else h)) ∧
      (t.core (coreOf f.hid)).ret = (s.core (coreOf f.hid)).ret + if counts then 1 else 0) ∧
    (waits = false → h.tid ≠ f.tid ∨ h.occ ≠ .live ∨ f.seq < s.floorOf f.tid → exec .registerFill s = .next base))
  ∧ (∀ (s : State) (u : Task),
    let h := s.half s.data.n
    let core := coreOf s.data.n
    s.task? h.tid = some u → h.occ = .live → (s.core core).replayed ≠ some (s.data.n, s.data.gran) →
    (h.replays s.data.gran = true → ∃ t, exec .parityError s = .next t ∧ t.mem = s.mem ∧ t.halves = s.halves ∧ t.tasks = s.tasks ∧
      (t.core core).replayed = some (s.data.n, s.data.gran) ∧
      ∀ p, s.part? u.part = some p → ∃ p', t.part? u.part = some p' ∧
        tgetD p'.errors 5 0 = if tgetD p.errors 5 0 = BitVec.allOnes 64 then tgetD p.errors 5 0 else tgetD p.errors 5 0 + 1) ∧
    (s.canonical = true → h.replays s.data.gran = false → s.safe h.tid = false → 2 * u.core + u.half = s.data.n →
      ∃ t, exec .parityError s = .next t ∧ t.task? h.tid = none ∧ t.half s.data.n = Half.reset ∧ (u.allocs = [] → t.mem = s.mem) ∧
        ((t.core u.core).inbox u.pri).ret.head? = some { u.act with again := some (u.act.again.getD h.tid) }))
  ∧ (∀ (s : State),
    let h := s.half s.data.n
    let core := coreOf s.data.n
    let fetch := (fetchFrom s core (pcOf h) (hdrBlen h.hdrWord - h.roff)).2
    let pa? := s.reach (translate s (s.party core) .fetch (pcOf h).toNat)
    s.idleHalf s.data.n h = false → h.traps = [] → h.reissue = none → h.reinj = [] → h.roff ≠ hdrBlen h.hdrWord →
    (∀ q ∈ s.net.reqs, q.hid = s.data.n → q.acc ≠ .sync) →
    (∀ pa, s.data.yes = false → pa? = some pa → s.eccAt (pa / 8 * 8) 8 = .uncorrectable →
      exec .codeFetch s = .next ((reportDue h.tid (s.party core).part (pcOf h).toNat pa).run s)) ∧
    (s.sound = true → fetch = none → exec .codeFetch s = .next s) ∧
    (∀ a, s.sound = true → fetch = some (a, false) → exec .codeFetch s = .next ((raiseIssue s.data.n .access a 0).run s)) ∧
    (∀ a, s.sound = true → fetch = some (a, true) → h.refusedAt ≠ some a →
      exec .codeFetch s = .next ((syncFault s.data.n (s.party core) .fetch a.toNat).run s)))
  ∧ (∀ (s : State) (core : Nat) (o : MOp), s.canonical = true → s.mop? s.data.n = some (core, o) → o.loaded = true → o.done = false → s.data.yes = true →
    (∀ x ∈ (s.core core).mops.takeWhile fun x => x.id != o.id, x.done = true) →
    (o.repeated = false → ∃ t, exec .mmulComputeDone s = .next t ∧ t.halves = s.halves ∧ t.mem = s.mem ∧ t.tasks = s.tasks ∧
      (t.core core).mops = (s.core core).mops.map fun x => if x.id = o.id then { x with repeated := true } else x) ∧
    (o.repeated = true → exec .mmulComputeDone s = .next ((hardFaultOf core [] false).run
      ((escalate core o.tid ((s.partOf core).getD 0) o.abftp).run
        (s.cored core fun c => { c with mops := c.mops.filter fun x => x.id != o.id })))))
  ∧ (∀ (s : State) (p : Pending) (w : Word),
    let h := s.half s.data.n
    let core := coreOf s.data.n
    let fa := frameAt h
    s.canonical = true → h.occ = .live → h.traps = [p] → h.ctl.trapd = false → h.replay = [] → h.reinj = [] → p.entry = none → h.jib = none →
    h.stack = [] → 0x1800 ≤ (readS h 30).toNat → (readS h 30).toNat ≤ 0x40000 → stageHits h.ctl.stage fa 0x1800 = false →
    (∀ m : List Host.Cell, (∀ a, (a < scratchAt core fa ∨ scratchAt core fa + 0x1800 ≤ a) → memGet m a = memGet s.mem a) →
      fetchHeader { s with mem := m } core h.ctl.tvec = .ok w) → hdrKind w = 2 → hdrBlen w ≠ 0 →
    ∃ t, exec .trapDelivery s = .next t ∧ t.localWord core (fa + 0x08) = word (causeCode p.cause) ∧ t.localWord core (fa + 0x10) = p.iaddr ∧
      t.localWord core (fa + 0x18) = p.faddr ∧ t.localWord core (fa + 0x20) = h.hdr ∧ t.localWord core (fa + 0x30) = p.info ∧
      (t.half s.data.n).ctl = { h.ctl with trapd := true, ss := false, jst := 0 } ∧ (t.half s.data.n).traps = [] ∧
      (t.half s.data.n).hdr = h.ctl.tvec ∧ (t.half s.data.n).hdrWord = w ∧ (t.half s.data.n).roff = 0 ∧
      readS (t.half s.data.n) 30 = word fa)

/-! ### Translation stations -/

/-- R187 to R192, R251, R252, R297. A request whose line a range or a cached page translates goes on to its home, a
probe being done with it, and is refused where the translation or the home refuses it; without a translation it
walks where the station has room for its miss, and waits in the network where not; a translation that a retired frame
stops faults, one that an instruction, a commit or a command waits for stands ready for it; a request waits for those of
its page that a fault has held, and while a RESUME walks its page. A walk among the station's first eight caches the leaf or faults. A fault joins the
page's entry or takes a free one and posts it. INVPAGE, INVASID and INVALL drop the cached pages that they name,
RANGEW and RANGEINV change a range entry, RESUME fails the requests of an entry, or has its page walked again,
translates them again where the walk finds it and posts the entry again where not. A refused probe drops the store's
lines and traps. The model's choices in it: logs 28, 51, 66, 97, 128. -/
def Obligations.StationEvents : Prop :=
  (∀ (s : State) (q : Req), ith s.net.reqs s.data.n = some q → q.phase = .translate ∨ q.phase = .missing →
    s.resuming q = false → s.replaysFirst q = false → q.lines.length = q.pas.length + 1 →
    (q.acc.waits = true ∨ s.guardCause (clusterOf q.core) q.asid q.touching q.acc.reads q.acc.kind.writes (s.whoReq q) = none) →
    let pa := (lookup s q.party q.acc.kind q.line).bind s.reach
    let goes (q' : Req) : Prop := ∃ t, exec .translationRequest s = .next t ∧ t.net = { s.net with reqs := lset s.net.reqs s.data.n q' } ∧ t.mem = s.mem
    (lookup s q.party q.acc.kind q.line = none → ∃ t stamp, exec .translationRequest s = .next t ∧ t.mem = s.mem ∧
      (q.stamp ≠ 0 → stamp = q.stamp) ∧ t.net.reqs = lset s.net.reqs s.data.n
        { q with stamp := stamp, phase := if s.missRoom q then .walk else .missing }) ∧
    (lookup s q.party q.acc.kind q.line = some .fault → goes { q with phase := .fault }) ∧
    (∀ x, q.acc.waits = true → lookup s q.party q.acc.kind q.line = some x → x ≠ .fault →
      goes { q with pas := q.pas ++ [(s.reach x).getD 0], phase := .home }) ∧
    (∀ a, q.acc.waits = false → pa = some a → s.homeTakes q.acc a = true → q.acc ≠ .probe → goes { q with pas := q.pas ++ [a], phase := .home }) ∧
    (∀ a, pa = some a → s.homeTakes q.acc a = true → q.acc = .probe →
      ∃ t, exec .translationRequest s = .next t ∧ t.net = { s.net with reqs := ldel s.net.reqs s.data.n } ∧ t.mem = s.mem) ∧
    (∀ x, lookup s q.party q.acc.kind q.line = some x → x ≠ .fault → pa = none ∨ (∃ a, pa = some a ∧ s.homeTakes q.acc a = false) →
      q.acc = .probe → goes { q with phase := .refused .access, va := q.touching.va }))
  ∧ (∀ (s : State) (q : Req), ith s.net.reqs s.data.n = some q → q.phase = .translate ∨ q.phase = .missing →
    s.replaysFirst q = true ∨ s.resuming q = true → exec .translationRequest s = .next s)
  ∧ (∀ (s : State) (q : Req), ith s.net.reqs s.data.n = some q → q.phase = .walk →
    ((s.records q.station true).take stationWalks).contains q.record = false ∨ s.resuming q = true → exec .pageWalkComplete s = .next s)
  ∧ (∀ (s : State) (q : Req), ith s.net.reqs s.data.n = some q → q.phase = .walk → s.sound = true → s.resuming q = false →
    ((s.records q.station true).take stationWalks).contains q.record = true →
    (∀ g, walk s q.world q.asid q.line = .leaf g → ∃ t, exec .pageWalkComplete s = .next t ∧
      t.net = { s.net with reqs := lset s.net.reqs s.data.n { q with phase := .translate } } ∧
      (lookup s q.party .read q.line = none → g ∈ (t.station (stationOf q.party.cluster q.line)).cache)) ∧
    (walk s q.world q.asid q.line = .invalid → exec .pageWalkComplete s =
      .next (s.netted fun n => { n with reqs := lset n.reqs s.data.n { q with phase := .fault } })))
  ∧ (∀ (s : State) (q : Req), ith s.net.reqs s.data.n = some q → q.phase = .fault → s.resuming q = true → exec .pageFaultPost s = .next s)
  ∧ (∀ (s : State) (q : Req), ith s.net.reqs s.data.n = some q → q.phase = .fault → s.resuming q = false →
    let station := stationOf (clusterOf q.core) q.line
    let kind := if q.acc = .sync then q.reg else q.acc.kind.code
    let found := s.mf0.pages.find? fun e => e.2.asid == q.asid && e.2.va / 4096 == q.line / 4096 && e.2.station == station
    (∀ e, found = some e → ∃ t, exec .pageFaultPost s = .next t ∧
      t.net.reqs = lset s.net.reqs s.data.n { q with phase := .held, page := some e.1 } ∧
      tget t.mf0.pages e.1 = some { e.2 with held := e.2.held + 1, kind := max e.2.kind kind }) ∧
    (∀ i, found = none → (postPlaces q.part).find? (fun i => (tget s.mf0.pages i).isNone) = some i → ∃ t act p, exec .pageFaultPost s = .next t ∧
      t.net.reqs = lset s.net.reqs s.data.n { q with phase := .held, page := some i } ∧ tget t.mf0.pages i = some p ∧ p.va = q.line / 4096 * 4096 ∧
      p.asid = q.asid ∧ p.part = q.part ∧ p.kind = kind ∧ p.held = 1 ∧ p.state = 1 ∧
      t.net.msgs = s.net.msgs ++ [⟨deviceSrc, 4096 + 2 * (station / 2), 3, act, none, none⟩] ∧ nth act.msg.pay 0 = word i))
  ∧ (∀ (s : State) (i : Instr) (c : StCmd) (rest : List StCmd), (s.station s.data.n).cmds = c :: rest →
    let asid := (nth c.pay 0).toNat
    let va := (nth c.pay 1).toNat
    let x := s.station s.data.n
    (i = .invpage ∧ c.opcode = 1 ∨ i = .invasid ∧ c.opcode = 2 ∨ i = .invall ∧ c.opcode = 3) →
    s.translated s.data.n (if i = .invall then none else some asid) = false →
    ∃ t, exec i s = .next t ∧ (t.station s.data.n).cmds = rest ∧ (t.station s.data.n).ranges = x.ranges ∧ s.replied t c 0 ∧
      (t.station s.data.n).cache = x.cache.filter fun p => !(match i with
        | .invpage => p.asid == asid && p.va / 2 ^ p.bits == va / 2 ^ p.bits
        | .invasid => p.asid == asid
        | _ => true))
  ∧ (∀ (s : State) (c : StCmd) (rest : List StCmd), (s.station s.data.n).cmds = c :: rest → s.translated s.data.n none = false →
    let idx := (nth c.pay 0).toNat
    let base := (nth c.pay 1).toNat % 2 ^ 56
    let limit := (nth c.pay 2).toNat % 2 ^ 56
    let bad := base % 4096 ≠ 0 ∨ (limit + 1) % 4096 ≠ 0 ∨ limit < base ∨ 256 ≤ idx
    let x := s.station s.data.n
    let changes (i : Instr) (ranges : Table Range) (answer : Word) : Prop := ∃ t, exec i s = .next t ∧ s.replied t c answer ∧
      t.station s.data.n = { x with cmds := rest, ranges := ranges }
    (c.opcode = 5 → bad → changes .rangew x.ranges 1) ∧
    (c.opcode = 5 → ¬ bad → changes .rangew (tput x.ranges idx ⟨base, limit, (nth c.pay 3).toNat, nth c.pay 4 &&& 0xFFFF007D⟩) 0) ∧
    (c.opcode = 6 → changes .rangeinv (tdel x.ranges idx) 0))
  ∧ (∀ (s : State) (c : StCmd) (rest : List StCmd), (s.station s.data.n).cmds = c :: rest → c.opcode = 4 →
    let idx := (nth c.pay 0).toNat
    let cancels (e : PageReq) : Prop := e.part ≠ c.part ∨ e.state ≠ 2 ∧ ¬ (e.state = 3 ∧ e.resumer = s.data.n)
    (tget s.mf0.pages idx = none → ∃ t, exec .resume s = .next t ∧ s.replied t c 1 ∧ t.mf0 = s.mf0 ∧ t.net.reqs = s.net.reqs) ∧
    (∀ e, tget s.mf0.pages idx = some e → cancels e → ∃ t, exec .resume s = .next t ∧ s.replied t c 1 ∧ t.mf0 = s.mf0 ∧ t.net.reqs = s.net.reqs) ∧
    (∀ e, tget s.mf0.pages idx = some e → ¬ cancels e → e.state = 2 → nth c.pay 1 = 1 → s.retiredPage e.asid e.va = none → (∀ q ∈ s.net.reqs, q.waitsOn e = true → q.acc = .probe) →
      ∃ t, exec .resume s = .next t ∧ t.mf0.pages = tdel s.mf0.pages idx ∧
        ∀ q ∈ s.net.reqs, q.waitsOn e = true → ∃ r ∈ t.net.reqs, r.id = q.id ∧ r.phase = .refused .access) ∧
    (∀ e, tget s.mf0.pages idx = some e → ¬ cancels e → e.state = 2 → nth c.pay 1 ≠ 1 →
      exec .resume s = .next { s with mf0 := { s.mf0 with pages := tput s.mf0.pages idx { e with state := 3, resumer := s.data.n } } }) ∧
    (∀ e, tget s.mf0.pages idx = some e → ¬ cancels e → e.state = 3 → walk s (s.secure e.part) e.asid e.va = .invalid →
      ∃ t, exec .resume s = .next t ∧ t.net.reqs = s.net.reqs ∧ (t.station s.data.n).cmds = rest ∧
        t.mf0.pages = tput s.mf0.pages idx { e with state := 1 }) ∧
    (∀ e, tget s.mf0.pages idx = some e → ¬ cancels e → e.state = 3 → walk s (s.secure e.part) e.asid e.va ≠ .invalid →
      ∃ t, exec .resume s = .next t ∧ t.mf0.pages = tdel s.mf0.pages idx ∧
        t.net.reqs = (s.net.reqs.filter fun q => !(q.waitsOn e && q.acc.retried)).map fun q =>
          if q.waitsOn e then { q with phase := .translate } else q))
  ∧ (∀ (s : State) (q : Req) (cause : Cause) (u : Task), ith s.net.reqs s.data.n = some q → q.phase = .refused cause → s.task? q.tid = some u →
    exec .probeRefusal s = .next ((raiseAfter q.hid q.tid q.seq cause (word q.va) q.entry).run
      ((s.netted fun n => { n with reqs := ldel n.reqs s.data.n }).tasked q.tid fun t =>
        { t with lines := q.lines.foldl (fun l a => tdel l a) t.lines })))

/-! ### Homes, scratchpads and the units behind them -/

/-- R194, R201, R202, R206 to R210, R236, R247, R326, R328, R347. The accesses at a home, whose code has heard no
error: a load and a cell read give their bytes to the register, an atomic of the integer operations writes the new
value and gives the old one, where no release is narrower, a cell's tag becomes the lesser of the old and the new in the
window that runs and stays as it is for another, a cell write stores its word and leaves no release record, and a
releasing store stores its word and leaves one; nothing else in memory changes. A load that its bank does not take any
more is refused with ACCESS. A pin group with 256 corrections fails once, with an advisory. A WIDEN that its engine has
accepted widens a record whose tag matches, and the entry that it leaves goes to the WIDEN that waits first; atomic engines
act as homes do, one of another package leaving this memory as it is, and their replies go on to their registers. The
model's choices in it: logs 6, 8, 62. -/
def Obligations.HomeEvents : Prop :=
  (∀ (s : State) (q : Req), s.canonical = true → ith s.net.reqs s.data.n = some q → q.phase = .home → q.lines.length = 1 → q.got = 0 →
    s.homeTurn s.data.n q = true → s.isDeferred q.tid q.seq = false → s.sound = true →
    let takes := s.homeTakes q.acc (q.pas.getD 0 0)
    let pa := q.pas.headD 0 + q.va % 64
    let gone := ldel s.net.reqs s.data.n
    let own (n : Nat) : Nat := ofBytes (match s.task? q.tid with
      | some t => ownBytes t q.va (memBytes s.mem pa n) | none => memBytes s.mem pa n)
    let gives (t : State) (w : Word) (o : Option Word) : Prop := t.net = { s.net with reqs := gone, fills := s.net.fills ++ [⟨q.hid, q.tid, q.seq, .s q.reg w, 0, o, false, none, none⟩] }
    (∀ n sgn, q.acc = .load n sgn → takes = false → q.seq < abandoned → exec .homeAccess s = .next
      ((raiseAfter q.hid q.tid q.seq .access (word (max q.va (q.lines.getD 0 q.va))) q.entry).run (s.netted fun n => { n with reqs := gone }))) ∧
    (∀ n sgn, takes = true → q.acc = .load n sgn → ∃ t, exec .homeAccess s = .next t ∧ t.mem = s.mem ∧
      gives t (if sgn then wordI (sval (8 * n) (own n)) else word (own n)) none) ∧
    (∀ n scope, takes = true → q.acc = .acquire n scope → tget s.release (pa / 8 * 8) = none →
      ∃ t, exec .homeAccess s = .next t ∧ t.mem = s.mem ∧ gives t (word (own n)) (some 0)) ∧
    (takes = true → q.acc = .cellRead → ∃ t, exec .homeAccess s = .next t ∧ t.mem = s.mem ∧ gives t (word (memNat s.mem pa 8)) none) ∧
    (∀ w, takes = true → q.acc = .cellWrite w → ∃ t, exec .homeAccess s = .next t ∧ t.net = { s.net with reqs := gone } ∧ s.wroteAt t pa 8 (some w.toNat) ∧ t.tags = s.tags ∧
      ∀ b, homeOf s.extent pa = .abm b → tget t.release (pa / 8 * 8) = none) ∧
    (∀ n scope w, takes = true → q.acc = .release n scope w → ∃ t r, exec .homeAccess s = .next t ∧ t.net = { s.net with reqs := gone } ∧
      s.wroteAt t pa n (some (w.toNat % 2 ^ (8 * n))) ∧ tget t.release (pa / 8 * 8) = some r ∧ r.core = q.core ∧ r.scope = scope ∧ r.missed = false) ∧
    (∀ window key p, takes = true → q.acc = .cellReserve window key → s.part? q.part = some p → window < 256 → key < 2 ^ 24 →
      ∃ t, exec .homeAccess s = .next t ∧ t.net = { s.net with reqs := gone } ∧ t.mem = s.mem ∧
      (p.window.toNat ≠ window → t.tags = s.tags) ∧
      (p.window.toNat = window → tget t.tags pa = some (match tget s.tags pa with
        | some x => if x.toNat / 2 ^ 24 = window ∧ x.toNat % 2 ^ 24 ≤ key then x else BitVec.ofNat 32 (window * 2 ^ 24 + key)
        | none => BitVec.ofNat 32 (window * 2 ^ 24 + key)))) ∧
    (∀ op dbl b, takes = true → q.acc = .red op dbl b → op ≤ 8 → (rangeHit (s.station (stationOf q.party.cluster q.va)) q.party.asid q.va).isSome = true →
      let n := if dbl then 8 else 4
      ∃ t, exec .homeAccess s = .next t ∧ t.net = { s.net with reqs := gone } ∧
        s.wroteAt t pa n (atomValue op n (memNat s.mem pa n) (b.toNat % 2 ^ (8 * n)) 0)) ∧
    (∀ op dbl b c, takes = true → q.acc = .atom op dbl b c → op ≤ 9 → tget s.release (pa / 8 * 8) = none →
      (rangeHit (s.station (stationOf q.party.cluster q.va)) q.party.asid q.va).isSome = true →
      let n := if dbl then 8 else 4
      ∃ t, exec .homeAccess s = .next t ∧ gives t (word (memNat s.mem pa n)) (some 0) ∧
        s.wroteAt t pa n (atomValue op n (memNat s.mem pa n) (b.toNat % 2 ^ (8 * n)) (c.toNat % 2 ^ (8 * n)))))
  ∧ (∀ (s : State), s.data.m < 64 →
    let key := 64 * s.data.n + s.data.m
    256 ≤ tgetD s.fabric.corrections key 0 → s.fabric.failedGroups.contains key = false →
    ∃ t, exec .pinGroupFailed s = .next t ∧ t.fabric.failedGroups = key :: s.fabric.failedGroups ∧ t.mem = s.mem ∧
      ∀ n p, s.parts = [(n, p)] → p.image.channels.contains s.data.n = true → s.tells t (4096 + p.image.mgmtCore) [1, 0xFFFFFFFF, word s.data.n])
  ∧ (∀ (s : State) (q : AtomReq), ith s.net.atoms s.data.n = some q → q.widen = true → q.owed = true → exec .widen s = .next s)
  ∧ (∀ (s : State) (q : AtomReq) (r : Release), ith s.net.atoms s.data.n = some q → q.widen = true → q.owed = false →
    s.atomTurn s.data.n q = true →
    let pa := wbits (nth q.pay 0) 39 0
    tget s.release (pa / 8 * 8) = some r →
    let gone := s.netted fun n => { n with atoms := ldel n.atoms s.data.n }
    let waits := gone.net.atoms.find? fun x => x.mf == q.mf && x.owed
    (waits = none → r.tag.toNat = wbits (nth q.pay 2) 31 0 → exec .widen s = .next { gone with
      release := tput s.release (pa / 8 * 8) { r with scope := max r.scope (wbits (nth q.pay 1) 2 0), missed := false } }) ∧
    (waits = none → r.tag.toNat ≠ wbits (nth q.pay 2) 31 0 → exec .widen s = .next gone) ∧
    (∀ x, waits = some x → gone.engineRoom q.mf = true → ∃ t, exec .widen s = .next t ∧ t.owes x.dest 0 = true ∧
      t.net.atoms = gone.net.atoms.map fun y => if y.id = x.id then { y with owed := false } else y))
  ∧ (∀ (s : State) (q : AtomReq), s.canonical = true → ith s.net.atoms s.data.n = some q → q.widen = false → s.atomTurn s.data.n q = true →
    s.isDeferred q.dest.tid q.dest.seq = false → s.sound = true → (∀ x ∈ s.net.atoms, x.owed = false) → q.pa < 2 ^ 40 → q.op ≤ 9 → q.value = true ∧ tget s.release (q.pa / 8 * 8) = none ∨ q.value = false ∧ q.op ≤ 8 →
    let n := if q.dbl then 8 else 4
    ∃ t, exec .atomicEngineRequest s = .next t ∧ t.net.atoms = ldel s.net.atoms s.data.n ∧
      t.net.replies = s.net.replies ++ (if q.value then [⟨q.dest, word (memNat s.mem q.pa n), some 0⟩] else []) ∧
      s.wroteAt t q.pa n (atomValue q.op n (memNat s.mem q.pa n) (q.b.toNat % 2 ^ (8 * n)) (q.c.toNat % 2 ^ (8 * n))))
  ∧ (∀ (s : State) (q : AtomReq), ith s.net.atoms s.data.n = some q → q.widen = false → s.atomTurn s.data.n q = true →
    s.isDeferred q.dest.tid q.dest.seq = false → (∀ x ∈ s.net.atoms, x.owed = false) → 2 ^ 40 ≤ q.pa →
    ∃ t w o, exec .atomicEngineRequest s = .next t ∧ t.net.atoms = ldel s.net.atoms s.data.n ∧ t.mem = s.mem ∧
      t.net.replies = s.net.replies ++ (if q.value then [⟨q.dest, w, o⟩] else []))
  ∧ (∀ (s : State) (r : AtomReply), ith s.net.replies s.data.n = some r → exec .atomrReply s = .next (s.netted fun n => { n with
      replies := ldel n.replies s.data.n
      fills := n.fills ++ [⟨r.dest.hid, r.dest.tid, r.dest.seq, .s r.dest.reg r.old, 0, r.ordst, true, none, none⟩] }))

/-- R196, R198, R205, R212, R213, R224, R225, R269, R385. A remote access at its target: refused by the gate, the
staging area or a lock, it traps at its instruction; else a load's bytes go to its register, a store writes, and a
PUTH counts down its counter too, which disarms at 0. A member of an STSM writes the line or refuses it, the router
refusing with ACCESS for a die slot that is not valid or whose package is lost, and the answers merge into one status. The heap unit, over a map of its own, answers the address of the lowest run of free
granules that suffices, which it marks in the map, or 0 with the heap flag, and takes a block back, at once or when
the task commits. A ring of two moves each tile to the other core. The model's choices in it: logs 26, 96. -/
def Obligations.ScratchpadEvents : Prop :=
  (∀ (s : State) (r : Remote), s.canonical = true → ith s.net.remotes s.data.n = some r →
    (s.net.remotes.take s.data.n).any (fun x => x.core == r.core && x.target == r.target) = false →
    s.net.mcasts.any (fun m => m.core == r.core && decide (m.id < r.id) && m.data.isSome && m.waiting.contains r.target) = false →
    s.detCore r.target = false → s.sound = true →
    let base := s.netted fun x => { x with remotes := ldel x.remotes s.data.n }
    let a := scratchAt r.target r.off
    let refused := s.remoteCause r.core r.target r.off r.op.size r.op.writes (s.whoTid r.tid) r.id
    (∀ cause, refused = some cause → exec .remoteScratchpadAccess s = .next ((raiseAfter r.hid r.tid r.seq cause r.ea r.entry).run base)) ∧
    (∀ n reg, refused = none → r.op = .ldr n reg → exec .remoteScratchpadAccess s = .next ((base.clustered (clusterOf r.core) (·.counting 9 1)).netted fun x =>
      { x with fills := x.fills ++ [⟨r.hid, r.tid, r.seq, .s reg (word (memNat s.mem a n)), 0, none, false, none, none⟩] })) ∧
    (∀ n w, refused = none → r.op = .str n w → ∃ t, exec .remoteScratchpadAccess s = .next t ∧ t.net = base.net ∧
      s.wroteAt t a n (some (w.toNat % 2 ^ (8 * n)))) ∧
    (∀ n w ac, refused = none → r.op = .puth n w ac → 0 < n → ∃ t, exec .remoteScratchpadAccess s = .next t ∧ t.net = base.net ∧
      s.wroteAt t a n (some (w.toNat % 2 ^ (8 * n))) ∧
      ∀ x, tget (s.core r.target).arrivals ac = some x → tget (t.core r.target).arrivals ac = some
        (if x.armed then { x with count := BitVec.ofNat 32 (x.count.toNat - n), armed := decide (n < x.count.toNat) } else x)))
  ∧ (∀ (s : State) (m : Mcast) (d : BitVec 2048) (off : Nat), s.canonical = true → s.net.mcasts.find? (fun m => m.id == s.data.n) = some m →
    m.waiting.contains s.data.m = true → s.detCore s.data.m = false → m.data = some (d, off) →
    let core := s.data.m
    s.net.mcasts.any (fun x => x.core == m.core && decide (x.id < m.id) && x.data.isSome && x.waiting.contains core) = false →
    s.net.remotes.any (fun r => r.core == m.core && decide (r.id < m.id) && r.target == core) = false →
    let rest := m.waiting.filter (· != core)
    (s.cutOff core = true → s.memberCause m core off = some .access) ∧
    (s.cutOff core = false → s.memberCause m core off = s.remoteCause m.core core off 256 true (s.whoTid m.dest.tid) m.id) ∧
    (s.memberCause m core off = none → ∃ t, exec .stsmMemberWrite s = .next t ∧
      s.wroteAt t (scratchAt core off) 256 (some d.toNat) ∧
      t.net.mcasts.find? (fun x => x.id == m.id) = some { m with waiting := rest, pos := m.pos + 1 }) ∧
    (∀ cause, s.memberCause m core off = some cause → ∃ t, exec .stsmMemberWrite s = .next t ∧ t.mem = s.mem ∧
      t.net.mcasts.find? (fun x => x.id == m.id) = some { m with
        waiting := rest
        neg := m.neg + 1
        reason := if core < m.first then causeCode cause else m.reason
        first := if core < m.first then core else m.first }))
  ∧ (∀ (s : State) (m : Mcast), s.net.mcasts.find? (fun m => m.id == s.data.n) = some m → m.waiting = [] →
    exec .stsmAnswerMerge s = .next (s.netted fun n => { n with
      mcasts := n.mcasts.filter fun x => x.id != m.id
      fills := n.fills ++ [⟨m.dest.hid, m.dest.tid, m.dest.seq, .s m.dest.reg (word (m.reason * 2 ^ 48 + m.first * 2 ^ 32 + m.neg * 2 ^ 16 + m.pos)),
        0, none, false, m.tag.map fun g => (g, m.pos), none⟩] }))
  ∧ (∀ (s : State) (q : HeapReq) (p : Part) (u : Task), s.canonical = true → ith s.net.heap s.data.n = some q →
    s.part? q.part = some p → s.task? q.dest.tid = some u → s.isDeferred q.dest.tid q.dest.seq = false →
    (s.net.heap.take s.data.n).any (fun x => !s.isDeferred x.dest.tid x.dest.seq) = false →
    s.sound = true → s.heapFault q.part p.image = none → s.heapMapped q.part p.image →
    let total := heapGranules p.image.heapSize.toNat
    let n := (q.arg.toNat + 63) / 64
    let run := if total < n then none else s.freeRun q.part p.image n total 0 0
    let first := (q.arg - p.image.heapBase).toNat / 64
    (∀ g, q.alloc = true → run = some g → ∃ t v, exec .heapRequest s = .next t ∧ t.net.heap = ldel s.net.heap s.data.n ∧
      t.owes q.dest (p.image.heapBase + word (64 * g)) = true ∧ t.task? q.dest.tid = some v ∧
      v.allocs = (p.image.heapBase + word (64 * g)) :: u.allocs ∧
      ∀ i, i < total → t.granule q.part p.image i = if i < g ∨ g + n ≤ i then s.granule q.part p.image i else if i = g then 3 else 1) ∧
    (q.alloc = true → run = none → (s.half q.dest.hid).tid = q.dest.tid → ∃ t, exec .heapRequest s = .next t ∧ t.owes q.dest 0 = true ∧ t.mem = s.mem ∧
      (t.half q.dest.hid).ctl.fflags = (s.half q.dest.hid).ctl.fflags ||| 0x20) ∧
    (q.alloc = false → u.allocs.contains q.arg = true → q.arg.toNat % 64 = 0 → p.image.heapBase.toNat ≤ q.arg.toNat → first < total →
      s.granule q.part p.image first = 3 → ∃ t v, exec .heapRequest s = .next t ∧ t.granule q.part p.image first = 0 ∧
        (∀ i, i < first → t.granule q.part p.image i = s.granule q.part p.image i) ∧ t.task? q.dest.tid = some v ∧
        v.allocs = u.allocs.filter (· != q.arg)) ∧
    (q.alloc = false → u.allocs.contains q.arg = false → ∃ t v, exec .heapRequest s = .next t ∧ t.mem = s.mem ∧
      t.task? q.dest.tid = some v ∧ v.frees = u.frees ++ [q.arg]))
  ∧ (∀ (s : State) (g : Ring) (x y : Member), s.canonical = true → s.net.rings.find? (fun g => g.id == s.data.n) = some g → g.id = s.data.n →
    s.det g.part = false → s.sound = true → (g.joined = [x, y] ∨ g.joined = [y, x]) → g.members = [x.core, y.core] → x.core < y.core →
    x.rows = y.rows → x.rowBytes = y.rowBytes → x.rowBytes ≤ x.stride → y.rowBytes ≤ y.stride → 0 < x.rowBytes → 0 < x.rows →
    x.base + (x.rows - 1) * x.stride + x.rowBytes ≤ 0x40000 → y.base + (y.rows - 1) * y.stride + y.rowBytes ≤ 0x40000 →
    s.hopCause x y = none → s.hopCause y x = none →
    let at_ (m : Member) (r k : Nat) : Nat := scratchAt m.core (m.base + r * m.stride + k)
    ∃ t, exec .ringStart s = .next t ∧ t.net.rings = s.net.rings.filter (fun r => r.id != g.id) ∧
      (∀ l ∈ (t.cluster (clusterOf x.core)).locks, l.owner.isTile x.op = false) ∧
      ∀ r k, r < x.rows → k < x.rowBytes → memGet t.mem (at_ y r k) = memGet s.mem (at_ x r k) ∧ memGet t.mem (at_ x r k) = memGet s.mem (at_ y r k))

/-! ### Engines and the mapper -/

/-- R215 to R220, R246, R269. The first command that waits for an engine starts. A byte-wide element of a copy
without conversion, between scratchpads that admit it, moves whole, counts its bytes, and ends the command with the
last one. A command that has failed or is complete ends: its locks are released and its status stands in sD. The
model's choices in it: logs 74, 75. -/
def Obligations.EngineEvents : Prop :=
  (∀ (s : State) (q : EngCmd), s.engineNext s.data.n = some q → exec .engineCommandStart s = .next (s.netted fun n => { n with
      cmds := n.cmds.map fun c => if c.id = q.id then { c with started := true } else c }))
  ∧ (∀ (s : State) (q : EngCmd) (x y : CopyEnd) (src dst : List Nat), s.cmd? s.data.n = some q →
    let d := copyDesc q.desc
    let e := s.data.m
    let n := typeWidth d.stype / 8
    let i := e % d.runLength
    let off (strides : List Int) : Int := runOffset (e / d.runLength) (d.sizes.drop 1) strides + ((i * typeWidth d.stype / 8 : Nat) : Int)
    s.canonical = true → q.started = true → q.code = 0 → s.detCore q.core = false → s.sound = true → s.data.yes = false → s.data.k = 1 →
    q.erasure = false → d.conv = false → 8 ≤ typeWidth d.stype → e < d.elements → q.hasLanded e = false → q.buf = [] → q.retain = false →
    d.source q.core q.sA = some x → d.dest q.core q.sB = some y → x.shared = false → y.shared = false →
    s.endBytes q x (off d.sstride) n false = .ok src → s.endBytes q y (off d.dstride) n true = .ok dst → dst.Nodup →
    ∃ t, exec .engineBytesLand s = .next t ∧
      (∀ (k a b : Nat), src[k]? = some a → dst[k]? = some b → memGet t.mem b = memGet s.mem a) ∧ (∀ a, a ∉ dst → memGet t.mem a = memGet s.mem a) ∧
      (q.landed.foldl (fun n r => n + r.2) 0 + 1 ≠ d.elements →
        ∃ q', t.cmd? q.id = some q' ∧ q'.hasLanded e = true ∧ q'.bytes = q.bytes + n ∧ q'.flags = q.flags) ∧
      (q.landed.foldl (fun n r => n + r.2) 0 + 1 = d.elements → t.cmd? q.id = none ∧
        s.statusIn t q.dest (word (min (q.bytes + n) (2 ^ 32 - 1) * 2 ^ 32 + q.flags.toNat * 2 ^ 8))) ∧
      ∀ ac r, q.ac = some ac → tget (s.core y.core).arrivals ac = some r → r.armed = true →
        tget (t.core y.core).arrivals ac = some { r with count := BitVec.ofNat 32 (r.count.toNat - n), armed := decide (n < r.count.toNat) })
  ∧ (∀ (s : State) (q : EngCmd), s.cmd? s.data.n = some q → s.canonical = true → q.started = true → s.detCore q.core = false → q.retain = false →
    q.code ≠ 0 ∨ q.complete = true →
    ∃ t, exec .engineCommandComplete s = .next t ∧ t.cmd? q.id = none ∧ t.mem = s.mem ∧
      s.statusIn t q.dest (word (min q.bytes (2 ^ 32 - 1) * 2 ^ 32 + q.flags.toNat * 2 ^ 8 + q.code)) ∧
      ∀ n, ∀ l ∈ (t.cluster n).locks, l.owner ≠ .command q.id)

/-- R40, R44, R248, R295, R298, R341. A free slot takes a queue that may be served and that no other comes before. A
queue out of budget leaves its slot, and the management core is told; a period that is over starts the next one,
with its budget. A launch queue's head entry goes to its dispatcher with the queue's class, one at a time. A slot
that has met BUSY for 1 us goes to the next queue. A boundary at which nothing is deferred begins the next quantum
of every core. The model's choices in it: logs 37, 86, 87. -/
def Obligations.MapperEvents : Prop :=
  (∀ (s : State) (i : Nat), s.data.n < 32 → tget s.mf0.slots s.data.n = none → s.nextQueue = some i →
    exec .slotSchedule s = .next { s with mf0 := { s.mf0 with slots := tput s.mf0.slots s.data.n ⟨i, s.clock.ns, none⟩ } } ∧
    ∃ q, (i, q) ∈ s.mf0.queues ∧ s.mayServe i q = true ∧ ∀ x ∈ s.mf0.queues, s.mayServe x.1 x.2 = true →
      (∀ y ∈ s.mf0.slots, y.2.queue ≠ x.1) → Queue.before x.1 x.2 i q = false)
  ∧ (∀ (s : State) (x : Slot) (q : Queue) (p : Part), s.canonical = true → trising s.mf0.slots = true → tget s.mf0.slots s.data.n = some x →
    tget s.mf0.queues x.queue = some q → s.part? q.part = some p → s.budgetLeft x.queue q = 0 →
    ∃ t, exec .overrun s = .next t ∧ tget t.mf0.slots s.data.n = none ∧
      s.tells t (4096 + p.image.mgmtCore) [word x.queue, word q.start, word q.budget, word q.period])
  ∧ (∀ (s : State) (q : Queue), tget s.mf0.queues s.data.n = some q → q.kind ≠ 0 → 1000 * (q.start + q.period) ≤ s.clock.ns →
    let period := match q.next with | some x => x.1 | none => q.period
    let budget := match q.next with | some x => x.2 | none => q.budget
    ∃ t, exec .queuePeriodStart s = .next t ∧ tget t.mf0.queues s.data.n = some { q with
      start := q.start + q.period, period := period, budget := budget, left := 1000 * budget, next := none })
  ∧ (∀ (s : State) (i a : Nat) (q : Queue) (p : Part) (prod cons : Word), s.served s.data.n = some (i, q, p) → q.kind = 2 → q.inFlight = false →
    s.deviceWord q.part q.base.toNat = some prod → s.deviceWord q.part (q.base.toNat + 8) = some cons → prod ≠ cons →
    s.devicePa q.part (q.base.toNat + 64 + 64 * (cons.toNat % q.size)) = some a → s.sound = true →
    let w (n : Nat) : Word := memWord s.mem (a + 8 * n)
    ∃ t d, exec .launchQueueServe s = .next t ∧ t.net.launches = s.net.launches ++ [⟨d, none⟩] ∧ tget t.mf0.queues i = some { q with inFlight := true } ∧
      d.part = q.part ∧ d.pri = q.cls ∧ d.n = wbits (w 0) 63 32 ∧ d.cluster = wbits (w 0) 4 0 ∧ d.reef.toNat = wbits (w 0) 23 12 ∧
      d.handler = word (wbits (w 1) 55 0) ∧ d.arg = w 2 ∧ d.base.toNat = (w 3).toNat % 2 ^ 48 ∧ d.stride.toNat = (w 4).toNat % 2 ^ 48)
  ∧ (∀ (s : State) (x : Slot) (t0 : Nat), tget s.mf0.slots s.data.n = some x → x.busyAt = some t0 → t0 + 1000 ≤ s.clock.ns →
    ∃ t, exec .slotBusyTimeout s = .next t ∧ tget t.mf0.slots s.data.n = some
      (match s.nextQueue with | some j => ⟨j, s.clock.ns, none⟩ | none => { x with busyAt := none }))
  ∧ (∀ (s : State) (p : Part), s.canonical = true → s.part? s.data.n = some p → s.boundaryDue s.data.n p = true → p.loop = none → (∀ x ∈ p.reefs, x.2.state ≠ 2) → s.deferred = [] →
    s.tasks = [] → s.net = { Net.reset with nextId := s.net.nextId } → (∀ x ∈ s.cores, x.2.ingress = [] ∧ x.2.due = []) → (∀ x ∈ s.clusters, x.2.launches = []) →
    ∃ t p', exec .quantumBoundary s = .next t ∧ t.part? s.data.n = some p' ∧ p'.quanta = p.quanta + 1 ∧ t.mem = s.mem ∧
      ∀ x ∈ s.cores, s.partOf x.1 = some s.data.n → (t.core x.1).qpos = 0)

/-! ### The host's side -/

/-- R249, R287, R359 to R363, R366, R367. A virtual function that is reset loses its features, connections, queues
and messages; its copy commands end with RESET, and so do the launches that its traffic led to. A vsock packet for
another context is answered RST, a request for a port opens a connection there, and so does the host's response to a request of
the kernel's; a data packet lands in the port's ring and is announced by a message where the ring has room, and waits where
not; a packet of no connection is answered RST, and RST closes one; the mapper's answers go to the host, and then the send ring's
head entry, while the rx queue is served. Negotiation keeps the offered features. A frame lands in the network ring, and is lost
where the ring has no room. A console line is answered once its driver has accepted VERSION_1, and a request in a management
page is, with word 0 cleared. The model's choices in it: logs 33, 35, 88, 89, 111, 133. -/
def Obligations.HostEvents : Prop :=
  (∀ (s : State), s.data.n ≠ 0 → s.data.n ≤ 1024 → s.canonical = true →
    (∀ q ∈ s.net.cmds, q.vf = some s.data.n → q.erasure = true) →
    let part := ((s.vf s.data.n).part).getD 32
    ∃ t, exec .vfReset s = .next t ∧ t.vf s.data.n = { Vf.reset with part := (s.vf s.data.n).part } ∧ (∀ m ∈ t.net.msgs, m.act.vf ≠ some s.data.n) ∧
      (∀ x ∈ t.mf0.queues, ¬ (x.2.kind = 1 ∧ x.2.vf = s.data.n)) ∧
      (∀ q ∈ t.net.launches, q.desc.vf = some s.data.n → q.desc.reset = true) ∧
      ((∀ x ∈ s.parts, ∀ w ∈ x.2.reefs, ∀ l ∈ w.2.launches, l.again = false) →
        ∀ lid l, s.launch? lid = some l → l.desc.vf = some s.data.n → t.launch? lid = none ∧ ∀ tid u, t.task? tid = some u → u.act.launch ≠ some lid) ∧
      ((∀ lid l, s.launch? lid = some l → l.desc.vf ≠ some s.data.n) → ∀ lid l, s.launch? lid = some l → t.launch? lid = some { l with
        withdrawn := l.withdrawn || (l.desc.part == part && l.desc.reply.toNat != noReply && epPkg (zx l.desc.reply) != s.package.id.toNat) }))
  ∧ (∀ (s : State) (q : EngCmd), s.data.n ≠ 0 → s.data.n ≤ 1024 → s.canonical = true → s.net.cmds = [q] → q.vf = some s.data.n → q.erasure = false →
    (∀ lid l, s.launch? lid = some l → l.desc.vf ≠ some s.data.n) →
    ∃ t, exec .vfReset s = .next t ∧ t.net.cmds = [] ∧ t.mem = s.mem ∧
      s.statusIn t q.dest (word (min q.bytes (2 ^ 32 - 1) * 2 ^ 32 + q.flags.toNat * 2 ^ 8 + 0x21)))
  ∧ (∀ (s : State) (pkt : VsockPkt) (q : Queue) (p : Part), s.data.pkt = some pkt → s.virtqueue s.data.n 1 = some (q, p) →
    let vf := s.vf s.data.n
    let mine := pkt.dstCid = word (0x10000 * (s.package.id.toNat + 1) + q.part)
    let asked := vf.asked.contains pkt.key = true
    let leaves (v : Vf) : Prop := ∃ t, exec .vsockPacket s = .next t ∧ t.vf s.data.n = v ∧ t.mem = s.mem ∧ t.net.msgs = s.net.msgs
    let reply (op buf fwd : Nat) (v : Vf) : Prop := leaves { v with answers := vf.answers ++
      [vsockHeader pkt.dstCid pkt.srcCid pkt.dstPort pkt.srcPort 0 pkt.stream op buf fwd] }
    let opens := pkt.op = 1 ∨ pkt.op = 2 ∧ asked
    (¬ mine → reply 3 0 0 vf) ∧
    (mine → opens → s.portEntry q.part p pkt.dstPort = none → reply 3 0 0 vf) ∧
    (∀ ws i, mine → opens → s.portEntry q.part p pkt.dstPort = some ws → pkt.stream = true ∨ (nth ws 0).getLsbD 62 = true → vf.conn pkt = none →
      (List.range 4096).find? (fun i => (tget vf.conns i).isNone) = some i →
      ∃ c : Conn, c.srcCid = pkt.srcCid ∧ c.srcPort = pkt.srcPort ∧ c.dstPort = pkt.dstPort ∧ c.stream = pkt.stream ∧
        c.ringBytes = 1024 * wbits (nth ws 0) 47 32 ∧ c.fwd = 0 ∧
        (let v := { vf with conns := tput vf.conns i c, asked := vf.asked.erase pkt.key }
         if pkt.op = 1 then reply 2 c.ringBytes 0 v else leaves v)) ∧
    (mine → ¬ opens → pkt.op ≠ 3 → vf.conn pkt = none → reply 3 0 0 vf) ∧
    (mine → pkt.op = 3 → vf.conn pkt = none → leaves { vf with asked := vf.asked.erase pkt.key }) ∧
    (∀ i c, mine → vf.conn pkt = some (i, c) →
      (pkt.op = 3 → leaves { vf with conns := tdel vf.conns i }) ∧
      (pkt.op = 4 → reply 3 0 0 { vf with conns := tdel vf.conns i }) ∧
      (pkt.op = 7 → reply 6 c.ringBytes (c.fwd % 2 ^ 32) vf) ∧
      (let ring := s.ringOf q.part c.ring
       let n := pkt.payload.length
       (pkt.op = 5 → ring.fits c.ringBytes n = false → exec .vsockPacket s = .next s) ∧
       (∀ pas, pkt.op = 5 → s.canonical = true → ring.fits c.ringBytes n = true →
        s.ringPas q.part c.ring c.ringBytes ring.head n = some pas → pas.Nodup →
        epPkg (zx c.endpoint) = s.package.id.toNat → epKind (zx c.endpoint) ≤ 1 →
        ∃ t act, exec .vsockPacket s = .next t ∧ (∀ (k a : Nat), pas[k]? = some a → memGet t.mem a = pkt.payload.getD k 0) ∧
          t.vf s.data.n = vf ∧ t.ringOf q.part c.ring = ⟨ring.head + n, ring.live ++ [(ring.head, n)]⟩ ∧
          t.net.msgs = s.net.msgs ++ [⟨deviceSrc, epCore (zx c.endpoint), c.pri, act, none, none⟩] ∧
          act.msg.pay = [pkt.srcCid, word (pkt.srcPort.toNat * 2 ^ 32 + pkt.dstPort.toNat), c.ring + word (ring.head % c.ringBytes),
            word n, word i]))))
  ∧ (∀ (s : State), (s.virtqueue s.data.n 0).isNone = true → exec .hostSendRingService s = .next s)
  ∧ (∀ (s : State) (pkt : List Byte) (rest : List (List Byte)), (s.virtqueue s.data.n 0).isSome = true → s.data.yes = true →
    (s.vf s.data.n).answers = pkt :: rest → ∃ t, exec .hostSendRingService s = .next t ∧ t.mem = s.mem ∧
      t.vf s.data.n = { s.vf s.data.n with answers := rest, toHost := (s.vf s.data.n).toHost ++ [pkt] })
  ∧ (∀ (s : State) (q : Queue) (p : Part) (prod cons : Word) (ctl a : Nat) (pas : List Nat), s.canonical = true → s.virtqueue s.data.n 0 = some (q, p) →
    s.data.yes = true → (s.vf s.data.n).answers = [] → s.sound = true →
    s.deviceWord q.part q.base.toNat = some prod → s.deviceWord q.part (q.base.toNat + 8) = some cons →
    s.devicePa q.part (q.base.toNat + 8) = some ctl → prod ≠ cons → s.devicePa q.part (q.base.toNat + 64 + 64 * (cons.toNat % q.size)) = some a →
    s.ringPas q.part (memWord s.mem (a + 48)) (2 ^ 56) 0 (memNat s.mem (a + 24) 4) = some pas →
    ∃ t, exec .hostSendRingService s = .next t ∧ t.vf s.data.n = { (s.vf s.data.n).sends (memBytes s.mem a 44) with
        toHost := (s.vf s.data.n).toHost ++ [memBytes s.mem a 44 ++ pas.map (memGet s.mem)] } ∧
      s.wroteAt t ctl 8 (some ((cons.toNat + 1) % 2 ^ 64)))
  ∧ (∀ (s : State), s.data.n ≠ 0 → s.data.n ≤ 1024 → ∃ t, exec .virtioFeatureNegotiation s = .next t ∧
    t.vf s.data.n = { s.vf s.data.n with features := s.data.word &&& 0x720000000, featuresOk := s.data.word.getLsbD 32 })
  ∧ (∀ (s : State) (part : Nat) (p : Part), (s.port s.data.n).part = some part → s.part? part = some p →
    let ring := s.ringOf part p.image.netRing
    let n := s.data.bytes.length
    let ep : Word := zx p.image.netEndpoint
    (ring.fits p.image.netBytes n = false → exec .ethernetFrameReceive s = .next s) ∧
    (∀ pas, s.canonical = true → (s.port s.data.n).ethernet = true → (s.port s.data.n).up = true → p.running = true →
      ring.fits p.image.netBytes n = true → epKind ep ≤ 1 → epPkg ep = s.package.id.toNat → s.ownsCore part (epCore ep) = true →
      s.ringPas part p.image.netRing p.image.netBytes ring.head n = some pas → pas.Nodup →
      ∃ t act, exec .ethernetFrameReceive s = .next t ∧ t.ringOf part p.image.netRing = ⟨ring.head + n, ring.live ++ [(ring.head, n)]⟩ ∧
        t.net.msgs = s.net.msgs ++ [⟨deviceSrc, epCore ep, p.image.netPri, act, none, none⟩] ∧
        act.msg.pay = [0, 0, p.image.netRing + word (ring.head % p.image.netBytes), word n, 0] ∧
        ∀ (k a : Nat), pas[k]? = some a → memGet t.mem a = s.data.bytes.getD k 0))
  ∧ (∀ (s : State), (s.fabric.consoleFeatures.getLsbD 32 = false → exec .consoleCommand s = .next s) ∧
    (s.fabric.consoleFeatures.getLsbD 32 = true → exec .consoleCommand s = .next { s with fabric := { s.fabric with console := s.fabric.console ++
      [match Config.consoleRequest s.data.bytes with | some nonce => s.attest nonce | none => Config.consoleAnswer s.data.bytes] } }))
  ∧ (∀ (s : State) (p : Part) (a : Nat), s.canonical = true → s.part? s.data.n = some p → p.running = true → p.polled + 10000 ≤ s.clock.ns →
    s.devicePa s.data.n p.image.mgmtPage.toNat = some a → memNat s.mem a 8 ≠ 0 →
    let page := memBytes s.mem a 4096
    let off := 8 + Config.mgmtPlace page % 4088
    let reply := match Config.mgmtRequest page with
      | .report nonce => s.attest nonce
      | .power => toBytes 8 (s.fabric.watts % 2 ^ 16 * 2 ^ 48 + s.fabric.inlet % 256 * 2 ^ 40 + s.fabric.step * 2 ^ 32)
      | _ => []
    ∃ t p', exec .managementPagePoll s = .next t ∧ t.part? s.data.n = some p' ∧ p'.polled = s.clock.ns ∧ memNat t.mem a 8 = 0 ∧
      (Config.mgmtRequest page ≠ .heapReset → ∀ k, k < 4096 - off → memGet t.mem (a + off + k) = if k < reply.length then reply.getD k 0 else memGet s.mem (a + off + k)))

/-! ### Forms that complete in their units -/

/-- R33, R35, R38, R159 to R163, R213, R214, R223, R224, R264 to R266. Each of these forms completes: ROT of a safe
task joins a ring with its tile; PFT retires; RLOCK and RUNLOCK of a range in the scratchpad answer a status in sD;
ALLOC and FREE go to the heap unit; REEF of a safe task opens its reef; REEFX starts a re-execution; REEFQ answers a
word; an operation that waited for its task to be safe is sent; a reef is re-executed; a matrix operation loads its
operands, computes and fills its accumulator; a gang starts and completes. The model's choices in it: logs 10, 30,
45, 49, 60. -/
def Obligations.UnitsComplete : Prop :=
  (∀ (f : FL) (x : TileObj) (s : State), s.runs (.rot f) = true → s.tileAt s.curTask.part f.obj.toNat = some x →
    s.directReady s.curHalf.tid = true →
    let group := (readS s.curHalf f.r.b.toNat).toNat
    let base := readS s.curHalf f.r.a.toNat + word x.base
    let rl := rowBytes x.type x.cols
    let ext := tileExtent x.rows x.stride rl
    let rows := if ext = 0 then [] else tileRows base.toNat x.rows x.stride rl
    let c := s.seen (.rot f)
    group < 256 → (s.groupMask s.curTask.part (group % 256)).getLsbD s.curCore = true → x.rows * rl ≤ 0x10000 →
    s.rangesCheck c base rows true = .ok → s.rangesCheck c base rows false = .ok → s.tilePending c rows true = false → (s.cluster (clusterOf s.curCore)).locks.length < 64 →
    ∃ t g m, exec (.rot f) s = .next t ∧ t.half s.cur = s.curHalf.stepped 2 ∧ g ∈ t.net.rings ∧ m ∈ g.joined ∧
      m.core = s.curCore ∧ m.base = base.toNat ∧ m.rows = x.rows ∧ m.rowBytes = rl ∧ m.stride = x.stride)
  ∧ (∀ (f : FL) (x : TileObj) (s : State), s.runs (.pft f) = true → s.tileAt s.curTask.part f.obj.toNat = some x →
    wbits (readS s.curHalf f.r.a.toNat) 63 56 = 0 →
    ∃ t, exec (.pft f) s = .next t ∧ t.half s.cur = s.curHalf.stepped 2 ∧ t.net = s.net)
  ∧ (∀ (i : Instr) (f : FL) (s : State), (i = .rlock f ∨ i = .runlock f) → s.runs i = true →
    0 < (readS s.curHalf f.r.b.toNat).toNat → (readS s.curHalf f.r.a.toNat).toNat + (readS s.curHalf f.r.b.toNat).toNat ≤ 0x40000 →
    ∃ t w, exec i s = .next t ∧ t.half s.cur = (s.written i (writeS s.curHalf f.r.d.toNat w)).stepped 2 ∧ w.toNat < 4 ∧ t.mem = s.mem)
  ∧ (∀ (f : FA) (s : State), s.runs (.alloc f) = true →
    let n := readS s.curHalf f.a.toNat
    ∃ t, exec (.alloc f) s = .next t ∧ (t.half s.cur).roff = s.curHalf.roff + 1 ∧ t.mem = s.mem ∧ t.net.heap = s.net.heap ++
      (if n = 0 then [] else [⟨⟨s.cur, s.curHalf.tid, s.curHalf.seq, f.d.toNat⟩, s.curTask.part, true, n⟩]))
  ∧ (∀ (f : FA) (s : State), s.runs (.free f) = true →
    ∃ t, exec (.free f) s = .next t ∧ t.half s.cur = s.curHalf.stepped 1 ∧ t.mem = s.mem ∧ t.net.heap = s.net.heap ++
      [⟨⟨s.cur, s.curHalf.tid, s.curHalf.seq, 0⟩, s.curTask.part, false, readS s.curHalf f.a.toNat⟩])
  ∧ (∀ (f : FL) (s : State) (o : Obj) (b0 bs : List Byte) (l : List ReefRange) (p : Part) (id : Nat), s.runs (.reef f) = true →
    s.directReady s.curHalf.tid = true → s.liveObj s.curTask.part f.obj.toNat 6 = some o → 8 ≤ (nth o.body 1).toNat →
    s.rangeBytes o 8 = some b0 →
    let part := s.curTask.part
    let pres := wbits (nth (wordsOf b0) 0) 3 0
    let n := pres + wbits (nth (wordsOf b0) 0) 7 4
    pres ≤ 8 → wbits (nth (wordsOf b0) 0) 7 4 ≤ 8 → 8 + 16 * n ≤ (nth o.body 1).toNat → s.rangeBytes o (8 + 16 * n) = some bs →
    reefRanges pres 0 ((wordsOf bs).drop 1) = some l → s.part? part = some p → p.freeReef = some id →
    let depth := match tget p.reefs s.curTask.reef.toNat with | some r => r.depth + 1 | none => 1
    let held := (l.filter (·.held)).map (spanOf s.curCore)
    let kept := (l.filter fun r => !r.held).map (spanOf s.curCore)
    depth ≤ 8 → s.reefRoom part s.curCore (kept ++ held) = true → s.reefConflict part s.curTask.reef.toNat kept held = false →
    s.recordFaults part id = false →
    ∃ t r, exec (.reef f) s = .next t ∧ t.half s.cur = (s.written (.reef f) (writeS s.curHalf f.r.d.toNat (word id))).stepped 2 ∧ t.reef? part id = some r ∧
      r.state = 1 ∧ r.parent = s.curTask.reef.toNat ∧ r.depth = depth ∧ r.pres = kept ∧ r.held = held)
  ∧ (∀ (f : FL) (s : State) (r : Reef) (x : Nat), s.runs (.reefx f) = true → s.directReady s.curHalf.tid = true →
    let part := s.curTask.part
    let id := (readS s.curHalf f.r.a.toNat).toNat % 2 ^ 12
    id ≠ 0 → s.reef? part id = some r → r.state = 1 → s.selectReef part id = some x →
    s.inReef part s.curTask.reef.toNat (s.reexecTarget part x) = false →
    ∃ t w, exec (.reefx f) s = .next t ∧ t.half s.cur = (s.written (.reefx f) (writeS s.curHalf f.r.d.toNat (word (s.reexecTarget part x)))).stepped 2 ∧
      t.reef? part (s.reexecTarget part x) = some w ∧ w.state = 2)
  ∧ (∀ (f : FL) (s : State), s.runs (.reefq f) = true →
    ∃ t w, exec (.reefq f) s = .next t ∧ t.half s.cur = (s.written (.reefq f) (writeS s.curHalf f.r.d.toNat w)).stepped 2 ∧ t.mem = s.mem ∧ t.parts = s.parts)
  ∧ (∀ (s : State) (f : FL), (s.half s.data.n).block = .safe → s.directReady (s.half s.data.n).tid = true →
    nextTurn s s.data.n = .instr (.str f) →
    ∃ t, exec .taskSafeSend s = .next t ∧ exec (.str f) { s with cur := s.data.n } = .next t)
  ∧ (∀ (s : State) (r : Reef), s.canonical = true → s.reef? s.data.n s.data.m = some r → r.state = 2 → s.det s.data.n = false →
    (r.taken = false ∨ s.data.yes = false) → (r.launches.any fun l => !l.desc.inside && l.desc.n != 0) = true →
    ∃ t w, exec .reefReexecution s = .next t ∧ t.reef? s.data.n s.data.m = some w ∧ w.state = 1)
  ∧ (∀ (s : State) (core : Nat) (o : MOp), s.mop? s.data.n = some (core, o) → s.mayLoad core o = true → o.gang = none → o.jib = false →
    0 < o.bRows → s.sound = true → (∀ x ∈ o.ranges core, s.operandCause o core x.1 x.2.1 x.2.2 = none) →
    ∃ t o', exec .mmulLoadPhase s = .next t ∧ t.mem = s.mem ∧ o' ∈ (t.core core).mops ∧ o'.id = o.id ∧ o'.loaded = true)
  ∧ (∀ (s : State) (core : Nat) (o : MOp) (rest : List MOp), (s.core core).mops = o :: rest → s.mop? s.data.n = some (core, o) →
    o.loaded = true → o.done = false → s.data.yes = false → o.gang = none →
    (match s.part? ((s.partOf core).getD 0) with | some p => p.image.test | none => false) = false →
    let r := computeMmul o (readA (s.half o.hid) o.acc)
    r.fixed = 0 → r.bad = false → r.narrow = 0 →
    ∃ t, exec .mmulComputeDone s = .next t ∧ t.mem = s.mem ∧ ∀ x ∈ (t.core core).mops, x.id ≠ o.id)
  ∧ (∀ (s : State) (g : Gang) (m : Member) (l o : MOp), s.net.gangs.find? (fun g => g.id == s.data.n) = some g →
    s.det g.part = false → g.lead = some l → g.started = false → g.joined = [m] → m.core = coreOf l.hid →
    (∀ x ∈ g.members, x = m.core ∨ x ∈ g.withdrawn) →
    (s.core m.core).mops.find? (fun o => o.gang == some g.id) = some o → s.sound = true →
    let reads := l.scalesB ++ l.rowsB
    (∀ x ∈ reads, s.storesTo l.tid (some l.seq) x.1 x.2.1 x.2.2 = false) → (∀ x ∈ reads, s.operandCause l m.core x.1 x.2.1 x.2.2 = none) →
    o.differs l = false →
    ∃ t, exec .gangStart s = .next t ∧ t.mem = s.mem ∧ t.net.gangs.find? (fun x => x.id == g.id) = some { g with started := true })
  ∧ (∀ (s : State) (g : Gang) (m : Member) (o : MOp), s.net.gangs.find? (fun g => g.id == s.data.n) = some g → g.started = true →
    g.joined = [m] → m.done = true → (s.core m.core).mops.find? (fun o => o.gang == some g.id) = some o →
    ∃ t, exec .gangComplete s = .next t ∧ ∀ x ∈ t.net.gangs, x.id ≠ g.id)

/-! ### The package -/

/-- R8 to R16, R241, R337, R339, R345 to R356, R364, R365, R368. What the Stays and the package do: link repair,
lane loss and retries are counted, a port running on with the widest width that its healthy lanes give; a core that fails
its test is replaced by a spare of its cluster, or stops and the loss of its compute die is put to the vote; a lost die, MF
die or package is taken over, by this package where it is the standby, stops its users or is the machine's own end; votes
are counted, decide and time out; bring-up starts the images and takes the group; power, temperature and time samples are
taken, and a partition stops or is torn down. The model's choices in it: logs 90, 91, 92, 93, 135, 137, 138. -/
def Obligations.PackageEvents : Prop :=
  (∀ (s : State), (s.data.yes = false → exec .ucieLaneRepair s = .next s) ∧
    (s.data.yes = true → s.canonical = true → ∃ t, exec .ucieLaneRepair s = .next t ∧ t.mem = s.mem ∧ t.halves = s.halves ∧
      let more (x : BitVec 64) : BitVec 64 := if x = BitVec.allOnes 64 then x else x + 1
      let unit := (Source.link s.data.n).key + 6
      tgetD t.fabric.unitErrors unit 0 = more (tgetD s.fabric.unitErrors unit 0) ∧
      ∀ n p, s.part? n = some p → ∃ p', t.part? n = some p' ∧
        tgetD p'.errors 6 0 = if s.usesLink s.data.n p then more (tgetD p.errors 6 0) else tgetD p.errors 6 0))
  ∧ (∀ (s : State), s.data.n < portCount s.package.fj20 → (s.port s.data.n).up = true →
    let x := s.port s.data.n
    (∃ t, exec .nimoshLaneLoss s = .next t ∧ t.port s.data.n = { x with
        lanes := x.lanes - 1, up := decide (1 < x.lanes), resends := x.resends + if x.ethernet then 0 else min s.data.m 64 } ∧
      (t.port s.data.n).width = if 5 ≤ x.lanes then 4 else if 3 ≤ x.lanes then 2 else x.lanes - 1) ∧
    (x.ethernet = false → ∃ t, exec .nimoshLinkRetry s = .next t ∧ t.port s.data.n = { x with resends := x.resends + 1 }))
  ∧ (∀ (s : State) (part : Nat), s.data.yes = false → s.partOf s.data.n = some part → (s.core s.data.n).failed = false →
    (∀ x ∈ s.tasks, ¬ (x.2.core = s.data.n ∧ x.2.life = .resident)) → s.twins s.data.n = [s.data.n] →
    let spares := (s.cluster (clusterOf s.data.n)).spares
    let die := s.dieOf s.data.n
    (isKernel s.data.n = true ∨ s.data.m ≠ 0 ∨ spares = 0 → s.fabric.lostStays = [] → s.fabric.votes = [] →
      s.fabric.decided.contains (8, die) = false →
      ∃ t, exec .coreSelfTest s = .next t ∧ (t.core s.data.n).failed = true ∧ t.mem = s.mem ∧
        (s.fabric.spareDie.isSome = true → t.fabric.votes = [] ∧ t.fabric.decided = s.fabric.decided ++ [(8, die)]) ∧
        (s.fabric.spareDie = none → s.fabric.group = Group.none → t.fabric.decided = s.fabric.decided ∧
          t.fabric.votes = [⟨8, die, s.clock.clk, [(s.package.id.toNat, false), (s.package.id.toNat, true)], s.clock.ns⟩])) ∧
    (isKernel s.data.n = false → s.data.m = 0 → spares ≠ 0 → s.canonical = true → ∃ t, exec .coreSelfTest s = .next t ∧
      (t.cluster (clusterOf s.data.n)).spares = spares - 1 ∧ (t.core s.data.n).failed = false ∧
      ∀ w ∈ pairsOf s.data.bytes, w < 0x8000 → memNat t.mem (scratchAt s.data.n (8 * w)) 8 = 0))
  ∧ (∀ (s : State), s.fabric.decided.head? = some (8, s.data.n) → s.data.n < s.package.dies → s.detImage = none → s.canonical = true →
    ∃ t, exec .computeDieLoss s = .next t ∧
      (∀ x ∈ s.halves, s.dieOf (coreOf x.1) = s.data.n → t.half x.1 = Half.reset) ∧
      (s.parts = [] → t.fabric.decided = s.fabric.decided.drop 1 ∧ t.fabric.spareDie = none ∧
        tget t.fabric.spar s.data.n = some (match s.fabric.spareDie with
          | some phys => ⟨true, false, s.package.id, phys⟩
          | none => ⟨true, true, BitVec.ofNat 12 s.data.m, s.data.k⟩)))
  ∧ (∀ (s : State), s.fabric.decided.head? = some (9, s.data.n) → s.data.n < s.package.mfDies → s.canonical = true →
    (s.data.n = 0 → ∃ t, exec .mfDieLoss s = .next t ∧ t.package = { s.package with lost := true }) ∧
    (∀ n p, s.data.n ≠ 0 → s.parts = [(n, p)] → usesMf s.extent s.data.n p = true → ∃ t p', exec .mfDieLoss s = .next t ∧
      t.part? n = some p' ∧ p'.running = false ∧ ∀ tid u, t.task? tid = some u → u.part ≠ n))
  ∧ (∀ (s : State), s.fabric.decided.head? = some (10, s.data.n) →
    (s.data.n = s.package.id.toNat → ∃ t, exec .packageLoss s = .next t ∧ t.package = { s.package with lost := true }) ∧
    (∀ y, s.data.n ≠ s.package.id.toNat → s.fabric.standby = some y → s.canonical = true →
      (∀ q ∈ s.net.atoms, q.widen = true ∨ q.package s.package.id.toNat ≠ s.data.n) → ∃ t, exec .packageLoss s = .next t ∧
      t.fabric.lostPackages = s.fabric.lostPackages ++ [s.data.n] ∧ t.fabric.standby = none ∧
      (y ≠ s.package.id.toNat → t.package = s.package ∧
        t.fabric = { s.fabric with decided := s.fabric.decided.drop 1, standby := none, lostPackages := s.fabric.lostPackages ++ [s.data.n] } ∧
        ∀ n c g l, tget s.clusters n = some c → tget c.launches g = some l →
          tget (t.cluster n).launches g = some { l with
            withdrawn := l.withdrawn || (l.desc.reply.toNat != noReply && epPkg (zx l.desc.reply) == s.data.n) }) ∧
      (y = s.package.id.toNat → t.package = { s.package with id := BitVec.ofNat 12 s.data.n } ∧
        ∀ x reefs, tget s.fabric.peers s.data.n = some ⟨[x], [reefs]⟩ → s.accepts x = true →
          (∃ p, t.part? s.freePart = some p ∧ p.image = x ∧ p.running = true) ∧
          ∀ id w, id ≠ 0 → tget reefs id = some w → ∃ w', t.reef? s.freePart id = some w' ∧ w'.state = 2 ∧ w'.taken = true ∧ w'.pres = w.pres)) ∧
    (s.data.n ≠ s.package.id.toNat → s.fabric.standby = none → ∃ t, exec .packageLoss s = .next t ∧
      t.fabric = { s.fabric with decided := s.fabric.decided.drop 1 }))
  ∧ (∀ (s : State) (d : Diagnosis), s.data.vote = some d → s.isVoter d = false ∨ s.fabric.lostStays.contains (d.package, d.backstay) = true →
    exec .diagnosisVote s = .next s)
  ∧ (∀ (s : State) (d : Diagnosis), s.data.vote = some d → s.isVoter d = true → s.fabric.lostStays.contains (d.package, d.backstay) = false →
    let same (v : Vote) : Bool := v.cls == d.cls && v.unit == d.unit && v.epoch == d.epoch
    let old : Vote := (s.fabric.votes.find? same).getD ⟨d.cls, d.unit, d.epoch, [], s.clock.ns⟩
    let v : Vote := { old with voters := old.voters ++ [(d.package, d.backstay)] }
    let rest := s.fabric.votes.filter fun x => !same x
    (old.voters.contains (d.package, d.backstay) = true → exec .diagnosisVote s = .next s) ∧
    (old.voters.contains (d.package, d.backstay) = false →
      (s.expired old = true → ∃ t, exec .diagnosisVote s = .next t ∧ t.fabric = { s.fabric with votes := rest }) ∧
      (s.expired old = false → s.reached v = false → exec .diagnosisVote s = .next { s with fabric := { s.fabric with votes := rest ++ [v] } }) ∧
      (s.expired old = false → s.reached v = true → 8 ≤ d.cls → d.cls ≤ 10 → exec .diagnosisVote s = .next { s with fabric := { s.fabric with
        votes := rest, decided := s.fabric.decided ++ [(d.cls, d.unit)] } })))
  ∧ (∀ (s : State) (v : Vote), ith s.fabric.votes s.data.n = some v → v.since + 10000000 ≤ s.clock.ns →
    ∃ t, exec .voteTimeout s = .next t ∧ t.fabric = { s.fabric with votes := ldel s.fabric.votes s.data.n } ∧
      ∀ n p, s.parts = [(n, p)] → p.running = true → s.tells t (4096 + p.image.mgmtCore) [7, 0xFFFFFFFF, word v.cls])
  ∧ (∀ (s : State), s.fabric.booted = false → s.parts = [] →
    (s.fabric.flash = [] → ∃ t, exec .powerOnBringUp s = .next t ∧ t.fabric.booted = true ∧ t.clock.locked = true ∧
      t.fabric.spar = sparMap s.package ∧
      (s.fabric.config.1.ok = true → t.fabric.group = s.fabric.config.1 ∧ t.fabric.standby = s.fabric.config.2) ∧
      (s.fabric.config.1.ok = false → t.fabric.group = s.fabric.group ∧ t.fabric.standby = s.fabric.standby)) ∧
    (∀ x, s.fabric.flash = [x] → s.accepts x = true → ∃ t, exec .powerOnBringUp s = .next t ∧ t.fabric.booted = true ∧
      t.part? 0 = some { Part.created x with since := s.clock.clk } ∧ ∀ c ∈ x.clusters, (t.cluster c).part = some 0 ∧
        (t.core (4096 + 2 * c)).inbox3 = ⟨[], [deviceAct 3 x.entry []]⟩ ∧ (t.core (4097 + 2 * c)).inbox3 = ⟨[], [deviceAct 3 x.entry []]⟩))
  ∧ (∀ (s : State),
    let hot := (if s.package.fj20 then 1450 else 2800) < s.data.n ∨ s.data.m < 20 ∨ 40 < s.data.k
    exec .clockStepDown s = .next { s with fabric := { s.fabric with
      watts := s.data.n, inlet := s.data.k, step := if hot then min 3 (s.fabric.step + 1) else s.fabric.step } })
  ∧ (∀ (s : State) (n : Nat) (p : Part), 60 < s.data.n → s.canonical = true → s.parts = [(n, p)] → ∃ t p', exec .inletOverLimit s = .next t ∧
    t.fabric.inlet = s.data.n ∧ t.part? n = some p' ∧ p'.running = false ∧ ∀ tid u, t.task? tid = some u → u.part ≠ n)
  ∧ (∀ (s : State), (s.fabric.booted = true → exec .ptpMessage s = .next { s with clock := { s.clock with locked := true } }) ∧
    (s.fabric.booted = false → exec .ptpMessage s = .next { s with clock := { s.clock with
      ns := s.data.n, frac := s.data.m % 2 ^ 16, locked := true } }) ∧
    exec .ptpLockLoss s = .next { s with clock := { s.clock with locked := false } })
  ∧ (∀ (s : State) (p : Part), s.canonical = true → s.part? s.data.n = some p → ∃ t, exec .partitionTeardown s = .next t ∧ t.part? s.data.n = none ∧
    (∀ c ∈ p.image.shape, (t.cluster c).part = none) ∧ (∀ x ∈ t.mf0.queues, x.2.part ≠ s.data.n) ∧
    (∀ tid u, t.task? tid = some u → u.part ≠ s.data.n) ∧ ∀ x ∈ t.fabric.ports, x.2.part ≠ some s.data.n)
end

