-- ==== Sys2Proof/Laws/Encoding.lean ====
section
/-! SUPPORT. Fields of encoded parcels: what the decoder reads back from each layout of R59, R66 and R74. -/
namespace Sys2Proof

/-! ### The layouts as concatenations -/

theorem parcelA_cast (maj : BitVec 6) (len : BitVec 2) (min : BitVec 4) (f : FA) : parcelA maj len min f =
    BitVec.cast (by rfl : 4 + 3 + 1 + 1 + 5 + 5 + 5 + 6 + 2 = 32)
      (min ++ f.k ++ BitVec.ofBool f.wb ++ BitVec.ofBool f.wa ++ f.b ++ f.a ++ f.d ++ maj ++ len) := rfl

theorem parcel1_cast (f : FL) : parcel1 f =
    BitVec.cast (by rfl : 2 + 16 + 4 + 4 + 1 + 5 = 32)
      (f.sc ++ f.obj ++ f.m ++ f.t ++ BitVec.ofBool f.wc ++ f.c) := rfl

theorem parcelI_cast (maj : BitVec 6) (f : FI) : parcelI maj f =
    BitVec.cast (by rfl : 13 + 1 + 5 + 5 + 6 + 2 = 32)
      (f.imm ++ BitVec.ofBool f.wa ++ f.a ++ f.d ++ maj ++ 0#2) := rfl

theorem parcelS_cast (maj : BitVec 6) (op : BitVec 2) (f : FS) : parcelS maj op f =
    BitVec.cast (by rfl : 2 + 5 + 6 + 1 + 5 + 5 + 6 + 2 = 32)
      (op ++ f.rsv ++ f.amt ++ BitVec.ofBool f.wa ++ f.a ++ f.d ++ maj ++ 0#2) := rfl

theorem parcelJ_cast (maj : BitVec 6) (f : FJ) : parcelJ maj f =
    BitVec.cast (by rfl : 19 + 1 + 1 + 3 + 6 + 2 = 32)
      (f.off ++ BitVec.ofBool f.tk ++ BitVec.ofBool f.clr ++ f.k ++ maj ++ 0#2) := rfl

/-! ### Formats A, L and X, parcel 0 -/

/-- MAJ of parcel 0. -/
theorem majBits_parcelA (maj : BitVec 6) (len : BitVec 2) (min : BitVec 4) (f : FA) :
    (parcelA maj len min f).extractLsb' 2 6 = maj := by
  apply BitVec.eq_of_getLsbD_eq
  intro i hi
  simp only [parcelA_cast, BitVec.getLsbD_extractLsb', BitVec.getLsbD_cast, BitVec.getLsbD_append]
  interval_cases i <;> simp

/-- LEN of parcel 0. -/
theorem lenBits_parcelA (maj : BitVec 6) (len : BitVec 2) (min : BitVec 4) (f : FA) :
    (parcelA maj len min f).extractLsb' 0 2 = len := by
  apply BitVec.eq_of_getLsbD_eq
  intro i hi
  simp only [parcelA_cast, BitVec.getLsbD_extractLsb', BitVec.getLsbD_cast, BitVec.getLsbD_append]
  interval_cases i <;> simp

/-- MIN of parcel 0. -/
theorem minBits_parcelA (maj : BitVec 6) (len : BitVec 2) (min : BitVec 4) (f : FA) :
    (parcelA maj len min f).extractLsb' 28 4 = min := by
  apply BitVec.eq_of_getLsbD_eq
  intro i hi
  simp only [parcelA_cast, BitVec.getLsbD_extractLsb', BitVec.getLsbD_cast, BitVec.getLsbD_append]
  interval_cases i <;> simp

@[simp] theorem majOf_parcelA (maj : BitVec 6) (len : BitVec 2) (min : BitVec 4) (f : FA) : majOf (parcelA maj len min f) = maj.toNat := by
  simp only [majOf, majBits_parcelA]

@[simp] theorem lenOf_parcelA (maj : BitVec 6) (len : BitVec 2) (min : BitVec 4) (f : FA) : lenOf (parcelA maj len min f) = len.toNat := by
  simp only [lenOf, lenBits_parcelA]

@[simp] theorem minOf_parcelA (maj : BitVec 6) (len : BitVec 2) (min : BitVec 4) (f : FA) : minOf (parcelA maj len min f) = min.toNat := by
  simp only [minOf, minBits_parcelA]

/-- K of parcel 0. -/
theorem k_parcelA (maj : BitVec 6) (len : BitVec 2) (min : BitVec 4) (f : FA) :
    (parcelA maj len min f).extractLsb' 25 3 = f.k := by
  apply BitVec.eq_of_getLsbD_eq
  intro i hi
  simp only [parcelA_cast, BitVec.getLsbD_extractLsb', BitVec.getLsbD_cast, BitVec.getLsbD_append]
  interval_cases i <;> simp

/-- B of parcel 0. -/
theorem b_parcelA (maj : BitVec 6) (len : BitVec 2) (min : BitVec 4) (f : FA) :
    (parcelA maj len min f).extractLsb' 18 5 = f.b := by
  apply BitVec.eq_of_getLsbD_eq
  intro i hi
  simp only [parcelA_cast, BitVec.getLsbD_extractLsb', BitVec.getLsbD_cast, BitVec.getLsbD_append]
  interval_cases i <;> simp

/-- A of parcel 0. -/
theorem a_parcelA (maj : BitVec 6) (len : BitVec 2) (min : BitVec 4) (f : FA) :
    (parcelA maj len min f).extractLsb' 13 5 = f.a := by
  apply BitVec.eq_of_getLsbD_eq
  intro i hi
  simp only [parcelA_cast, BitVec.getLsbD_extractLsb', BitVec.getLsbD_cast, BitVec.getLsbD_append]
  interval_cases i <;> simp

/-- D of parcel 0. -/
theorem d_parcelA (maj : BitVec 6) (len : BitVec 2) (min : BitVec 4) (f : FA) :
    (parcelA maj len min f).extractLsb' 8 5 = f.d := by
  apply BitVec.eq_of_getLsbD_eq
  intro i hi
  simp only [parcelA_cast, BitVec.getLsbD_extractLsb', BitVec.getLsbD_cast, BitVec.getLsbD_append]
  interval_cases i <;> simp

/-- WB of parcel 0. -/
theorem wb_parcelA (maj : BitVec 6) (len : BitVec 2) (min : BitVec 4) (f : FA) : (parcelA maj len min f).getLsbD 24 = f.wb := by
  simp only [parcelA_cast, BitVec.getLsbD_cast, BitVec.getLsbD_append]
  simp

/-- WA of parcel 0. -/
theorem wa_parcelA (maj : BitVec 6) (len : BitVec 2) (min : BitVec 4) (f : FA) : (parcelA maj len min f).getLsbD 23 = f.wa := by
  simp only [parcelA_cast, BitVec.getLsbD_cast, BitVec.getLsbD_append]
  simp

@[simp] theorem faOf_parcelA (maj : BitVec 6) (len : BitVec 2) (min : BitVec 4) (f : FA) : faOf (parcelA maj len min f) = f := by
  simp only [faOf, k_parcelA, wb_parcelA, wa_parcelA, b_parcelA, a_parcelA, d_parcelA]

/-! ### Format L and X, parcel 1 -/

/-- SC of parcel 1. -/
theorem sc_parcel1 (f : FL) :
    (parcel1 f).extractLsb' 30 2 = f.sc := by
  apply BitVec.eq_of_getLsbD_eq
  intro i hi
  simp only [parcel1_cast, BitVec.getLsbD_extractLsb', BitVec.getLsbD_cast, BitVec.getLsbD_append]
  interval_cases i <;> simp

/-- OBJ16 of parcel 1. -/
theorem obj_parcel1 (f : FL) :
    (parcel1 f).extractLsb' 14 16 = f.obj := by
  apply BitVec.eq_of_getLsbD_eq
  intro i hi
  simp only [parcel1_cast, BitVec.getLsbD_extractLsb', BitVec.getLsbD_cast, BitVec.getLsbD_append]
  interval_cases i <;> simp

/-- M of parcel 1. -/
theorem m_parcel1 (f : FL) :
    (parcel1 f).extractLsb' 10 4 = f.m := by
  apply BitVec.eq_of_getLsbD_eq
  intro i hi
  simp only [parcel1_cast, BitVec.getLsbD_extractLsb', BitVec.getLsbD_cast, BitVec.getLsbD_append]
  interval_cases i <;> simp

/-- T of parcel 1. -/
theorem t_parcel1 (f : FL) :
    (parcel1 f).extractLsb' 6 4 = f.t := by
  apply BitVec.eq_of_getLsbD_eq
  intro i hi
  simp only [parcel1_cast, BitVec.getLsbD_extractLsb', BitVec.getLsbD_cast, BitVec.getLsbD_append]
  interval_cases i <;> simp

/-- C of parcel 1. -/
theorem c_parcel1 (f : FL) :
    (parcel1 f).extractLsb' 0 5 = f.c := by
  apply BitVec.eq_of_getLsbD_eq
  intro i hi
  simp only [parcel1_cast, BitVec.getLsbD_extractLsb', BitVec.getLsbD_cast, BitVec.getLsbD_append]
  interval_cases i <;> simp

/-- WC of parcel 1. -/
theorem wc_parcel1 (f : FL) : (parcel1 f).getLsbD 5 = f.wc := by
  simp only [parcel1_cast, BitVec.getLsbD_cast, BitVec.getLsbD_append]
  simp

@[simp] theorem flOf_parcels (maj : BitVec 6) (len : BitVec 2) (min : BitVec 4) (f : FL) :
    flOf (parcelA maj len min f.r) (parcel1 f) = f := by
  simp only [flOf, faOf_parcelA, sc_parcel1, obj_parcel1, m_parcel1, t_parcel1, c_parcel1, wc_parcel1]

@[simp] theorem fxOf_parcels (maj : BitVec 6) (len : BitVec 2) (min : BitVec 4) (f : FX) :
    fxOf (parcelA maj len min f.l.r) (parcel1 f.l) f.lit = f := by
  simp only [fxOf, flOf_parcels]

/-! ### Format I -/

/-- MAJ. -/
theorem majBits_parcelI (maj : BitVec 6) (f : FI) :
    (parcelI maj f).extractLsb' 2 6 = maj := by
  apply BitVec.eq_of_getLsbD_eq
  intro i hi
  simp only [parcelI_cast, BitVec.getLsbD_extractLsb', BitVec.getLsbD_cast, BitVec.getLsbD_append]
  interval_cases i <;> simp

/-- LEN. -/
theorem lenBits_parcelI (maj : BitVec 6) (f : FI) :
    (parcelI maj f).extractLsb' 0 2 = 0#2 := by
  apply BitVec.eq_of_getLsbD_eq
  intro i hi
  simp only [parcelI_cast, BitVec.getLsbD_extractLsb', BitVec.getLsbD_cast, BitVec.getLsbD_append]
  interval_cases i <;> simp

@[simp] theorem majOf_parcelI (maj : BitVec 6) (f : FI) : majOf (parcelI maj f) = maj.toNat := by
  simp only [majOf, majBits_parcelI]

@[simp] theorem lenOf_parcelI (maj : BitVec 6) (f : FI) : lenOf (parcelI maj f) = 0 := by
  simp only [lenOf, lenBits_parcelI, BitVec.toNat_ofNat, Nat.zero_mod]

/-- imm of the parcel. -/
theorem imm_parcelI (maj : BitVec 6) (f : FI) :
    (parcelI maj f).extractLsb' 19 13 = f.imm := by
  apply BitVec.eq_of_getLsbD_eq
  intro i hi
  simp only [parcelI_cast, BitVec.getLsbD_extractLsb', BitVec.getLsbD_cast, BitVec.getLsbD_append]
  interval_cases i <;> simp

/-- a of the parcel. -/
theorem a_parcelI (maj : BitVec 6) (f : FI) :
    (parcelI maj f).extractLsb' 13 5 = f.a := by
  apply BitVec.eq_of_getLsbD_eq
  intro i hi
  simp only [parcelI_cast, BitVec.getLsbD_extractLsb', BitVec.getLsbD_cast, BitVec.getLsbD_append]
  interval_cases i <;> simp

/-- d of the parcel. -/
theorem d_parcelI (maj : BitVec 6) (f : FI) :
    (parcelI maj f).extractLsb' 8 5 = f.d := by
  apply BitVec.eq_of_getLsbD_eq
  intro i hi
  simp only [parcelI_cast, BitVec.getLsbD_extractLsb', BitVec.getLsbD_cast, BitVec.getLsbD_append]
  interval_cases i <;> simp

/-- wa of the parcel. -/
theorem wa_parcelI (maj : BitVec 6) (f : FI) : (parcelI maj f).getLsbD 18 = f.wa := by
  simp only [parcelI_cast, BitVec.getLsbD_cast, BitVec.getLsbD_append]
  simp

@[simp] theorem fiOf_parcelI (maj : BitVec 6) (f : FI) : fiOf (parcelI maj f) = f := by
  simp only [fiOf, imm_parcelI, a_parcelI, d_parcelI, wa_parcelI]

/-! ### Format S -/

/-- MAJ. -/
theorem majBits_parcelS (maj : BitVec 6) (op : BitVec 2) (f : FS) :
    (parcelS maj op f).extractLsb' 2 6 = maj := by
  apply BitVec.eq_of_getLsbD_eq
  intro i hi
  simp only [parcelS_cast, BitVec.getLsbD_extractLsb', BitVec.getLsbD_cast, BitVec.getLsbD_append]
  interval_cases i <;> simp

/-- LEN. -/
theorem lenBits_parcelS (maj : BitVec 6) (op : BitVec 2) (f : FS) :
    (parcelS maj op f).extractLsb' 0 2 = 0#2 := by
  apply BitVec.eq_of_getLsbD_eq
  intro i hi
  simp only [parcelS_cast, BitVec.getLsbD_extractLsb', BitVec.getLsbD_cast, BitVec.getLsbD_append]
  interval_cases i <;> simp

@[simp] theorem majOf_parcelS (maj : BitVec 6) (op : BitVec 2) (f : FS) : majOf (parcelS maj op f) = maj.toNat := by
  simp only [majOf, majBits_parcelS]

@[simp] theorem lenOf_parcelS (maj : BitVec 6) (op : BitVec 2) (f : FS) : lenOf (parcelS maj op f) = 0 := by
  simp only [lenOf, lenBits_parcelS, BitVec.toNat_ofNat, Nat.zero_mod]

/-- rsv of the parcel. -/
theorem rsv_parcelS (maj : BitVec 6) (op : BitVec 2) (f : FS) :
    (parcelS maj op f).extractLsb' 25 5 = f.rsv := by
  apply BitVec.eq_of_getLsbD_eq
  intro i hi
  simp only [parcelS_cast, BitVec.getLsbD_extractLsb', BitVec.getLsbD_cast, BitVec.getLsbD_append]
  interval_cases i <;> simp

/-- amt of the parcel. -/
theorem amt_parcelS (maj : BitVec 6) (op : BitVec 2) (f : FS) :
    (parcelS maj op f).extractLsb' 19 6 = f.amt := by
  apply BitVec.eq_of_getLsbD_eq
  intro i hi
  simp only [parcelS_cast, BitVec.getLsbD_extractLsb', BitVec.getLsbD_cast, BitVec.getLsbD_append]
  interval_cases i <;> simp

/-- a of the parcel. -/
theorem a_parcelS (maj : BitVec 6) (op : BitVec 2) (f : FS) :
    (parcelS maj op f).extractLsb' 13 5 = f.a := by
  apply BitVec.eq_of_getLsbD_eq
  intro i hi
  simp only [parcelS_cast, BitVec.getLsbD_extractLsb', BitVec.getLsbD_cast, BitVec.getLsbD_append]
  interval_cases i <;> simp

/-- d of the parcel. -/
theorem d_parcelS (maj : BitVec 6) (op : BitVec 2) (f : FS) :
    (parcelS maj op f).extractLsb' 8 5 = f.d := by
  apply BitVec.eq_of_getLsbD_eq
  intro i hi
  simp only [parcelS_cast, BitVec.getLsbD_extractLsb', BitVec.getLsbD_cast, BitVec.getLsbD_append]
  interval_cases i <;> simp

/-- wa of the parcel. -/
theorem wa_parcelS (maj : BitVec 6) (op : BitVec 2) (f : FS) : (parcelS maj op f).getLsbD 18 = f.wa := by
  simp only [parcelS_cast, BitVec.getLsbD_cast, BitVec.getLsbD_append]
  simp

@[simp] theorem fsOf_parcelS (maj : BitVec 6) (op : BitVec 2) (f : FS) : fsOf (parcelS maj op f) = f := by
  simp only [fsOf, rsv_parcelS, amt_parcelS, a_parcelS, d_parcelS, wa_parcelS]

/-- The operation of a shift by an immediate. -/
theorem op_parcelS (maj : BitVec 6) (op : BitVec 2) (f : FS) :
    (parcelS maj op f).extractLsb' 30 2 = op := by
  apply BitVec.eq_of_getLsbD_eq
  intro i hi
  simp only [parcelS_cast, BitVec.getLsbD_extractLsb', BitVec.getLsbD_cast, BitVec.getLsbD_append]
  interval_cases i <;> simp

/-! ### Format J -/

/-- MAJ. -/
theorem majBits_parcelJ (maj : BitVec 6) (f : FJ) :
    (parcelJ maj f).extractLsb' 2 6 = maj := by
  apply BitVec.eq_of_getLsbD_eq
  intro i hi
  simp only [parcelJ_cast, BitVec.getLsbD_extractLsb', BitVec.getLsbD_cast, BitVec.getLsbD_append]
  interval_cases i <;> simp

/-- LEN. -/
theorem lenBits_parcelJ (maj : BitVec 6) (f : FJ) :
    (parcelJ maj f).extractLsb' 0 2 = 0#2 := by
  apply BitVec.eq_of_getLsbD_eq
  intro i hi
  simp only [parcelJ_cast, BitVec.getLsbD_extractLsb', BitVec.getLsbD_cast, BitVec.getLsbD_append]
  interval_cases i <;> simp

@[simp] theorem majOf_parcelJ (maj : BitVec 6) (f : FJ) : majOf (parcelJ maj f) = maj.toNat := by
  simp only [majOf, majBits_parcelJ]

@[simp] theorem lenOf_parcelJ (maj : BitVec 6) (f : FJ) : lenOf (parcelJ maj f) = 0 := by
  simp only [lenOf, lenBits_parcelJ, BitVec.toNat_ofNat, Nat.zero_mod]

/-- off of the parcel. -/
theorem off_parcelJ (maj : BitVec 6) (f : FJ) :
    (parcelJ maj f).extractLsb' 13 19 = f.off := by
  apply BitVec.eq_of_getLsbD_eq
  intro i hi
  simp only [parcelJ_cast, BitVec.getLsbD_extractLsb', BitVec.getLsbD_cast, BitVec.getLsbD_append]
  interval_cases i <;> simp

/-- k of the parcel. -/
theorem k_parcelJ (maj : BitVec 6) (f : FJ) :
    (parcelJ maj f).extractLsb' 8 3 = f.k := by
  apply BitVec.eq_of_getLsbD_eq
  intro i hi
  simp only [parcelJ_cast, BitVec.getLsbD_extractLsb', BitVec.getLsbD_cast, BitVec.getLsbD_append]
  interval_cases i <;> simp

/-- tk of the parcel. -/
theorem tk_parcelJ (maj : BitVec 6) (f : FJ) : (parcelJ maj f).getLsbD 12 = f.tk := by
  simp only [parcelJ_cast, BitVec.getLsbD_cast, BitVec.getLsbD_append]
  simp

/-- clr of the parcel. -/
theorem clr_parcelJ (maj : BitVec 6) (f : FJ) : (parcelJ maj f).getLsbD 11 = f.clr := by
  simp only [parcelJ_cast, BitVec.getLsbD_cast, BitVec.getLsbD_append]
  simp

@[simp] theorem fjOf_parcelJ (maj : BitVec 6) (f : FJ) : fjOf (parcelJ maj f) = f := by
  simp only [fjOf, off_parcelJ, k_parcelJ, tk_parcelJ, clr_parcelJ]

/-! ### Named hints -/

/-- LEN of PFH. -/
theorem lenOf_pfh (off : BitVec 19) : lenOf (off ++ 0xF4#13 : Parcel) = 0 := by
  have e : (off ++ 0xF4#13 : Parcel) = BitVec.cast (by rfl : 19 + 13 = 32) (off ++ 0xF4#13) := rfl
  have h : (off ++ 0xF4#13 : Parcel).extractLsb' 0 2 = 0#2 := by
    rw [e]
    apply BitVec.eq_of_getLsbD_eq
    intro i hi
    simp only [BitVec.getLsbD_extractLsb', BitVec.getLsbD_cast, BitVec.getLsbD_append]
    interval_cases i <;> simp
  simp only [lenOf, h, BitVec.toNat_ofNat, Nat.zero_mod]

/-- LEN of PRIO. -/
theorem lenOf_prio (n : BitVec 2) : lenOf (0#2 ++ n ++ 0xF8#28 : Parcel) = 0 := by
  have e : (0#2 ++ n ++ 0xF8#28 : Parcel) = BitVec.cast (by rfl : 2 + 2 + 28 = 32) (0#2 ++ n ++ 0xF8#28) := rfl
  have h : (0#2 ++ n ++ 0xF8#28 : Parcel).extractLsb' 0 2 = 0#2 := by
    rw [e]
    apply BitVec.eq_of_getLsbD_eq
    intro i hi
    simp only [BitVec.getLsbD_extractLsb', BitVec.getLsbD_cast, BitVec.getLsbD_append]
    interval_cases i <;> simp
  simp only [lenOf, h, BitVec.toNat_ofNat, Nat.zero_mod]

/-- LEN of ALIGNH. -/
theorem lenOf_alignh (n : BitVec 4) : lenOf (n ++ 0xFC#28 : Parcel) = 0 := by
  have e : (n ++ 0xFC#28 : Parcel) = BitVec.cast (by rfl : 4 + 28 = 32) (n ++ 0xFC#28) := rfl
  have h : (n ++ 0xFC#28 : Parcel).extractLsb' 0 2 = 0#2 := by
    rw [e]
    apply BitVec.eq_of_getLsbD_eq
    intro i hi
    simp only [BitVec.getLsbD_extractLsb', BitVec.getLsbD_cast, BitVec.getLsbD_append]
    interval_cases i <;> simp
  simp only [lenOf, h, BitVec.toNat_ofNat, Nat.zero_mod]

end Sys2Proof
end

