-- ==== Sys2Proof/Laws/Table.lean ====
section
/-! SUPPORT. Tables and memory: reading after writing, and that every operation keeps the keys rising and the memory
canonical. -/
namespace Sys2Proof.Machine

variable {α : Type}

/-! ### Bounds -/

/-- A table whose keys lie above a bound keeps them above a smaller one. -/
theorem tabove_mono {lo lo' : Nat} (h : lo' ≤ lo) : ∀ {t : Table α}, tabove lo t = true → tabove lo' t = true
  | [], _ => rfl
  | (k, v) :: t, ht => by
    simp only [tabove, Bool.and_eq_true, decide_eq_true_eq] at ht ⊢
    exact ⟨by omega, ht.2⟩

/-- A key below the bound of a table is not in it. -/
theorem tget_of_above {lo i : Nat} (h : i < lo) : ∀ {t : Table α}, tabove lo t = true → tget t i = none
  | [], _ => rfl
  | (k, v) :: t, ht => by
    simp only [tabove, Bool.and_eq_true, decide_eq_true_eq] at ht
    simp only [tget]
    rw [if_neg (by omega), if_pos (by omega)]

/-! ### Putting -/

/-- A put keeps the keys above a bound that its key respects. -/
theorem tabove_tput {i : Nat} (x : α) :
    ∀ {lo : Nat} {t : Table α}, lo ≤ i → tabove lo t = true → tabove lo (tput t i x) = true
  | lo, [], hi, _ => by simp [tput, tabove, hi]
  | lo, (k, v) :: t, hi, ht => by
    simp only [tabove, Bool.and_eq_true, decide_eq_true_eq] at ht
    simp only [tput]
    split
    · simp only [tabove, Bool.and_eq_true, decide_eq_true_eq]
      exact ⟨hi, by omega, ht.2⟩
    · split
      · simp only [tabove, Bool.and_eq_true, decide_eq_true_eq]
        exact ⟨hi, by subst_vars; exact ht.2⟩
      · simp only [tabove, Bool.and_eq_true, decide_eq_true_eq]
        exact ⟨ht.1, tabove_tput x (by omega) ht.2⟩

/-- A put keeps the keys rising. -/
theorem trising_tput {t : Table α} (i : Nat) (x : α) (h : trising t = true) : trising (tput t i x) = true :=
  tabove_tput x (Nat.zero_le i) h

/-- Reading the key that was put. -/
@[simp] theorem tget_tput_same (i : Nat) (x : α) : ∀ t : Table α, tget (tput t i x) i = some x
  | [] => by simp [tput, tget]
  | (k, v) :: t => by
    simp only [tput]
    split
    · simp [tget]
    · split
      · simp [tget]
      · simp only [tget]
        rw [if_neg ‹_›, if_neg ‹_›]
        exact tget_tput_same i x t

/-- Reading another key than the one that was put. -/
theorem tget_tput_other {i j : Nat} (h : j ≠ i) (x : α) : ∀ t : Table α, tget (tput t i x) j = tget t j
  | [] => by simp [tput, tget, h]
  | (k, v) :: t => by
    simp only [tput]
    split
    · simp only [tget, if_neg h]
      by_cases hj : j < i
      · rw [if_pos hj]
        rw [if_neg (by omega), if_pos (by omega)]
      · rw [if_neg hj]
    · split
      · subst_vars
        simp only [tget, if_neg h]
      · simp only [tget]
        rw [tget_tput_other h x t]

/-- Reading any key after a put. -/
theorem tget_tput (t : Table α) (i j : Nat) (x : α) : tget (tput t i x) j = if j = i then some x else tget t j := by
  split
  · subst_vars; simp
  · exact tget_tput_other ‹_› x t

/-- A put over a put at the same key. -/
@[simp] theorem tput_tput (i : Nat) (x y : α) : ∀ t : Table α, tput (tput t i x) i y = tput t i y
  | [] => by simp [tput]
  | (k, v) :: t => by
    simp only [tput]
    split
    · simp [tput]
    · split
      · simp [tput]
      · simp only [tput]
        rw [if_neg ‹_›, if_neg ‹_›, tput_tput i x y t]

/-- Putting back what is there changes nothing. -/
theorem tput_tget {i : Nat} {x : α} : ∀ {t : Table α}, tget t i = some x → tput t i x = t
  | [], h => by simp [tget] at h
  | (k, v) :: t, h => by
    simp only [tget] at h
    simp only [tput]
    split at h
    · rename_i hk
      obtain rfl := hk
      simp only [Option.some.injEq] at h
      subst h
      simp
    · rename_i hk
      split at h
      · exact absurd h (by simp)
      · rename_i hl
        rw [if_neg hl, if_neg hk, tput_tget h]

/-! ### Deleting -/

/-- A deletion keeps the keys above a bound. -/
theorem tabove_tdel (i : Nat) : ∀ {lo : Nat} {t : Table α}, tabove lo t = true → tabove lo (tdel t i) = true
  | _, [], _ => rfl
  | lo, (k, v) :: t, ht => by
    have ht' := ht
    simp only [tabove, Bool.and_eq_true, decide_eq_true_eq] at ht
    simp only [tdel]
    split
    · exact ht'
    · split
      · exact tabove_mono (by omega) ht.2
      · simp only [tabove, Bool.and_eq_true, decide_eq_true_eq]
        exact ⟨ht.1, tabove_tdel i ht.2⟩

/-- A deletion keeps the keys rising. -/
theorem trising_tdel {t : Table α} (i : Nat) (h : trising t = true) : trising (tdel t i) = true := tabove_tdel i h

/-- Reading the key that was deleted. -/
theorem tget_tdel_same (i : Nat) : ∀ {lo : Nat} {t : Table α}, tabove lo t = true → tget (tdel t i) i = none
  | _, [], _ => rfl
  | lo, (k, v) :: t, ht => by
    simp only [tabove, Bool.and_eq_true, decide_eq_true_eq] at ht
    simp only [tdel]
    split
    · rename_i hl
      simp only [tget]
      rw [if_neg (by omega), if_pos hl]
    · split
      · rename_i hk
        exact tget_of_above (by omega) ht.2
      · rename_i hl hk
        simp only [tget]
        rw [if_neg hk, if_neg hl]
        exact tget_tdel_same i ht.2

/-- Reading another key than the one that was deleted. -/
theorem tget_tdel_other {i j : Nat} (h : j ≠ i) :
    ∀ {lo : Nat} {t : Table α}, tabove lo t = true → tget (tdel t i) j = tget t j
  | _, [], _ => rfl
  | lo, (k, v) :: t, ht => by
    simp only [tabove, Bool.and_eq_true, decide_eq_true_eq] at ht
    simp only [tdel]
    split
    · rfl
    · split
      · rename_i hk
        subst hk
        simp only [tget, if_neg h]
        split
        · exact tget_of_above (by omega) ht.2
        · rfl
      · simp only [tget]
        rw [tget_tdel_other h ht.2]

/-- A set keeps the keys rising. -/
theorem trising_tset {t : Table α} (i : Nat) (x : Option α) (h : trising t = true) : trising (tset t i x) = true := by
  cases x with
  | none => exact trising_tdel i h
  | some x => exact trising_tput i x h

/-- Changing the values keeps the keys above a bound. -/
theorem tabove_tmap (f : Nat → α → α) : ∀ {lo : Nat} {t : Table α}, tabove lo t = true → tabove lo (tmap f t) = true
  | _, [], _ => rfl
  | lo, (k, v) :: t, ht => by
    simp only [tabove, Bool.and_eq_true, decide_eq_true_eq] at ht
    simp only [tmap, List.map, tabove, Bool.and_eq_true, decide_eq_true_eq]
    exact ⟨ht.1, tabove_tmap f ht.2⟩

/-- Changing the values keeps the keys rising. -/
theorem trising_tmap {t : Table α} (f : Nat → α → α) (h : trising t = true) : trising (tmap f t) = true :=
  tabove_tmap f h

/-- Reading a value after every value has changed. -/
theorem tget_tmap (f : Nat → α → α) (i : Nat) : ∀ t : Table α, tget (tmap f t) i = (tget t i).map (f i)
  | [] => rfl
  | (k, v) :: t => by
    simp only [tmap, List.map, tget]
    split
    · subst_vars; rfl
    · split
      · rfl
      · exact tget_tmap f i t

/-! ### Reading with a default -/

/-- Reading, with a default, the key that was put. -/
@[simp] theorem tgetD_tput_same (t : Table α) (i : Nat) (x d : α) : tgetD (tput t i x) i d = x := by simp [tgetD]

/-- Reading, with a default, another key than the one that was put. -/
theorem tgetD_tput_other {i j : Nat} (h : j ≠ i) (t : Table α) (x d : α) :
    tgetD (tput t i x) j d = tgetD t j d := by simp [tgetD, tget_tput_other h]

/-! ### Memory -/

/-- Every value of a table after a put satisfies what every value and the new one did. -/
theorem all_tput {p : Nat × α → Bool} {i : Nat} {x : α} (hx : p (i, x) = true) :
    ∀ {t : Table α}, t.all p = true → (tput t i x).all p = true
  | [], _ => by simp [tput, hx]
  | (k, v) :: t, ht => by
    simp only [List.all_cons, Bool.and_eq_true] at ht
    simp only [tput]
    split
    · simp [hx, ht.1, ht.2]
    · split
      · simp [hx, ht.2]
      · simp [ht.1, all_tput hx ht.2]

/-- Every value of a table after a deletion was there before. -/
theorem all_tdel {p : Nat × α → Bool} (i : Nat) : ∀ {t : Table α}, t.all p = true → (tdel t i).all p = true
  | [], _ => rfl
  | (k, v) :: t, ht => by
    have ht' := ht
    simp only [List.all_cons, Bool.and_eq_true] at ht
    simp only [tdel]
    split
    · exact ht'
    · split
      · exact ht.2
      · simp [ht.1, all_tdel i ht.2]

/-- Writing a byte keeps memory canonical. -/
theorem memSet_wf {m : List Host.Cell} (a : Nat) (b : Byte) (h : Memory.wf m = true) :
    Memory.wf (memSet m a b) = true := by
  simp only [Memory.wf, Bool.and_eq_true] at h ⊢
  simp only [memSet]
  split
  · exact ⟨trising_tdel a h.1, all_tdel a h.2⟩
  · exact ⟨trising_tput a b h.1, all_tput (by simpa using ‹_›) h.2⟩

/-- Reading the byte that was written. -/
theorem memGet_memSet_same {m : List Host.Cell} (a : Nat) (b : Byte) (h : trising m = true) :
    memGet (memSet m a b) a = b := by
  simp only [memSet]
  split
  · subst_vars
    simp [memGet, tgetD, tget_tdel_same a h]
  · simp [memGet]

/-- Reading another byte than the one that was written. -/
theorem memGet_memSet_other {m : List Host.Cell} {a a' : Nat} (b : Byte) (h : trising m = true) (hne : a' ≠ a) :
    memGet (memSet m a b) a' = memGet m a' := by
  simp only [memSet]
  split
  · simp [memGet, tgetD, tget_tdel_other hne h]
  · simp [memGet, tgetD_tput_other hne]

/-- Reading any byte after a write. -/
theorem memGet_memSet {m : List Host.Cell} (a a' : Nat) (b : Byte) (h : trising m = true) :
    memGet (memSet m a b) a' = if a' = a then b else memGet m a' := by
  split
  · subst_vars; exact memGet_memSet_same _ _ h
  · exact memGet_memSet_other _ h ‹_›

/-- A canonical memory rises. -/
theorem Memory.wf_rising {m : List Host.Cell} (h : Memory.wf m = true) : trising m = true := by
  simp only [Memory.wf, Bool.and_eq_true] at h
  exact h.1

end Sys2Proof.Machine
end

