-- ==== Sys2Proof/Laws/State.lean ====
section
/-! SUPPORT. What each primitive effect does to each field of the state, and what the accessors read after it. -/
namespace Sys2Proof.Machine

/-! ### byte -/

@[simp] theorem byte_package (s : State) (a : Nat) (b : Byte) :
    ((Eff.byte a b).apply s).package = s.package := rfl
@[simp] theorem byte_clock (s : State) (a : Nat) (b : Byte) :
    ((Eff.byte a b).apply s).clock = s.clock := rfl
@[simp] theorem byte_mem (s : State) (a : Nat) (b : Byte) :
    ((Eff.byte a b).apply s).mem = memSet s.mem a b := rfl
@[simp] theorem byte_spoilt (s : State) (a : Nat) (b : Byte) :
    ((Eff.byte a b).apply s).spoilt = s.spoilt.filter (· != a / 8 * 8) := rfl
@[simp] theorem byte_release (s : State) (a : Nat) (b : Byte) :
    ((Eff.byte a b).apply s).release = s.release := rfl
@[simp] theorem byte_releases (s : State) (a : Nat) (b : Byte) :
    ((Eff.byte a b).apply s).releases = s.releases := rfl
@[simp] theorem byte_ratBanks (s : State) (a : Nat) (b : Byte) :
    ((Eff.byte a b).apply s).ratBanks = s.ratBanks := rfl
@[simp] theorem byte_tags (s : State) (a : Nat) (b : Byte) :
    ((Eff.byte a b).apply s).tags = s.tags := rfl
@[simp] theorem byte_halves (s : State) (a : Nat) (b : Byte) :
    ((Eff.byte a b).apply s).halves = s.halves := rfl
@[simp] theorem byte_cores (s : State) (a : Nat) (b : Byte) :
    ((Eff.byte a b).apply s).cores = s.cores := rfl
@[simp] theorem byte_clusters (s : State) (a : Nat) (b : Byte) :
    ((Eff.byte a b).apply s).clusters = s.clusters := rfl
@[simp] theorem byte_stations (s : State) (a : Nat) (b : Byte) :
    ((Eff.byte a b).apply s).stations = s.stations := rfl
@[simp] theorem byte_parts (s : State) (a : Nat) (b : Byte) :
    ((Eff.byte a b).apply s).parts = s.parts := rfl
@[simp] theorem byte_tasks (s : State) (a : Nat) (b : Byte) :
    ((Eff.byte a b).apply s).tasks = s.tasks := rfl
@[simp] theorem byte_deferred (s : State) (a : Nat) (b : Byte) :
    ((Eff.byte a b).apply s).deferred = s.deferred := rfl
@[simp] theorem byte_net (s : State) (a : Nat) (b : Byte) :
    ((Eff.byte a b).apply s).net = s.net := rfl
@[simp] theorem byte_mf0 (s : State) (a : Nat) (b : Byte) :
    ((Eff.byte a b).apply s).mf0 = s.mf0 := rfl
@[simp] theorem byte_fabric (s : State) (a : Nat) (b : Byte) :
    ((Eff.byte a b).apply s).fabric = s.fabric := rfl
@[simp] theorem byte_agenda (s : State) (a : Nat) (b : Byte) :
    ((Eff.byte a b).apply s).agenda = s.agenda := rfl
@[simp] theorem byte_cur (s : State) (a : Nat) (b : Byte) :
    ((Eff.byte a b).apply s).cur = s.cur := rfl
@[simp] theorem byte_data (s : State) (a : Nat) (b : Byte) :
    ((Eff.byte a b).apply s).data = s.data := rfl
@[simp] theorem byte_free (s : State) (a : Nat) (b : Byte) :
    ((Eff.byte a b).apply s).free = s.free := rfl

/-! ### half -/

@[simp] theorem half_package (s : State) (n : Nat) (x : Half) :
    ((Eff.half n x).apply s).package = s.package := rfl
@[simp] theorem half_clock (s : State) (n : Nat) (x : Half) :
    ((Eff.half n x).apply s).clock = s.clock := rfl
@[simp] theorem half_mem (s : State) (n : Nat) (x : Half) :
    ((Eff.half n x).apply s).mem = s.mem := rfl
@[simp] theorem half_spoilt (s : State) (n : Nat) (x : Half) :
    ((Eff.half n x).apply s).spoilt = s.spoilt := rfl
@[simp] theorem half_release (s : State) (n : Nat) (x : Half) :
    ((Eff.half n x).apply s).release = s.release := rfl
@[simp] theorem half_releases (s : State) (n : Nat) (x : Half) :
    ((Eff.half n x).apply s).releases = s.releases := rfl
@[simp] theorem half_ratBanks (s : State) (n : Nat) (x : Half) :
    ((Eff.half n x).apply s).ratBanks = s.ratBanks := rfl
@[simp] theorem half_tags (s : State) (n : Nat) (x : Half) :
    ((Eff.half n x).apply s).tags = s.tags := rfl
@[simp] theorem half_halves (s : State) (n : Nat) (x : Half) :
    ((Eff.half n x).apply s).halves = tput s.halves n x := rfl
@[simp] theorem half_cores (s : State) (n : Nat) (x : Half) :
    ((Eff.half n x).apply s).cores = s.cores := rfl
@[simp] theorem half_clusters (s : State) (n : Nat) (x : Half) :
    ((Eff.half n x).apply s).clusters = s.clusters := rfl
@[simp] theorem half_stations (s : State) (n : Nat) (x : Half) :
    ((Eff.half n x).apply s).stations = s.stations := rfl
@[simp] theorem half_parts (s : State) (n : Nat) (x : Half) :
    ((Eff.half n x).apply s).parts = s.parts := rfl
@[simp] theorem half_tasks (s : State) (n : Nat) (x : Half) :
    ((Eff.half n x).apply s).tasks = s.tasks := rfl
@[simp] theorem half_deferred (s : State) (n : Nat) (x : Half) :
    ((Eff.half n x).apply s).deferred = s.deferred := rfl
@[simp] theorem half_net (s : State) (n : Nat) (x : Half) :
    ((Eff.half n x).apply s).net = s.net := rfl
@[simp] theorem half_mf0 (s : State) (n : Nat) (x : Half) :
    ((Eff.half n x).apply s).mf0 = s.mf0 := rfl
@[simp] theorem half_fabric (s : State) (n : Nat) (x : Half) :
    ((Eff.half n x).apply s).fabric = s.fabric := rfl
@[simp] theorem half_agenda (s : State) (n : Nat) (x : Half) :
    ((Eff.half n x).apply s).agenda = s.agenda := rfl
@[simp] theorem half_cur (s : State) (n : Nat) (x : Half) :
    ((Eff.half n x).apply s).cur = s.cur := rfl
@[simp] theorem half_data (s : State) (n : Nat) (x : Half) :
    ((Eff.half n x).apply s).data = s.data := rfl
@[simp] theorem half_free (s : State) (n : Nat) (x : Half) :
    ((Eff.half n x).apply s).free = s.free := rfl

/-! ### core -/

@[simp] theorem core_package (s : State) (n : Nat) (x : Core) :
    ((Eff.core n x).apply s).package = s.package := rfl
@[simp] theorem core_clock (s : State) (n : Nat) (x : Core) :
    ((Eff.core n x).apply s).clock = s.clock := rfl
@[simp] theorem core_mem (s : State) (n : Nat) (x : Core) :
    ((Eff.core n x).apply s).mem = s.mem := rfl
@[simp] theorem core_spoilt (s : State) (n : Nat) (x : Core) :
    ((Eff.core n x).apply s).spoilt = s.spoilt := rfl
@[simp] theorem core_release (s : State) (n : Nat) (x : Core) :
    ((Eff.core n x).apply s).release = s.release := rfl
@[simp] theorem core_releases (s : State) (n : Nat) (x : Core) :
    ((Eff.core n x).apply s).releases = s.releases := rfl
@[simp] theorem core_ratBanks (s : State) (n : Nat) (x : Core) :
    ((Eff.core n x).apply s).ratBanks = s.ratBanks := rfl
@[simp] theorem core_tags (s : State) (n : Nat) (x : Core) :
    ((Eff.core n x).apply s).tags = s.tags := rfl
@[simp] theorem core_halves (s : State) (n : Nat) (x : Core) :
    ((Eff.core n x).apply s).halves = s.halves := rfl
@[simp] theorem core_cores (s : State) (n : Nat) (x : Core) :
    ((Eff.core n x).apply s).cores = tput s.cores n x := rfl
@[simp] theorem core_clusters (s : State) (n : Nat) (x : Core) :
    ((Eff.core n x).apply s).clusters = s.clusters := rfl
@[simp] theorem core_stations (s : State) (n : Nat) (x : Core) :
    ((Eff.core n x).apply s).stations = s.stations := rfl
@[simp] theorem core_parts (s : State) (n : Nat) (x : Core) :
    ((Eff.core n x).apply s).parts = s.parts := rfl
@[simp] theorem core_tasks (s : State) (n : Nat) (x : Core) :
    ((Eff.core n x).apply s).tasks = s.tasks := rfl
@[simp] theorem core_deferred (s : State) (n : Nat) (x : Core) :
    ((Eff.core n x).apply s).deferred = s.deferred := rfl
@[simp] theorem core_net (s : State) (n : Nat) (x : Core) :
    ((Eff.core n x).apply s).net = s.net := rfl
@[simp] theorem core_mf0 (s : State) (n : Nat) (x : Core) :
    ((Eff.core n x).apply s).mf0 = s.mf0 := rfl
@[simp] theorem core_fabric (s : State) (n : Nat) (x : Core) :
    ((Eff.core n x).apply s).fabric = s.fabric := rfl
@[simp] theorem core_agenda (s : State) (n : Nat) (x : Core) :
    ((Eff.core n x).apply s).agenda = s.agenda := rfl
@[simp] theorem core_cur (s : State) (n : Nat) (x : Core) :
    ((Eff.core n x).apply s).cur = s.cur := rfl
@[simp] theorem core_data (s : State) (n : Nat) (x : Core) :
    ((Eff.core n x).apply s).data = s.data := rfl
@[simp] theorem core_free (s : State) (n : Nat) (x : Core) :
    ((Eff.core n x).apply s).free = s.free := rfl

/-! ### cluster -/

@[simp] theorem cluster_package (s : State) (n : Nat) (x : Cluster) :
    ((Eff.cluster n x).apply s).package = s.package := rfl
@[simp] theorem cluster_clock (s : State) (n : Nat) (x : Cluster) :
    ((Eff.cluster n x).apply s).clock = s.clock := rfl
@[simp] theorem cluster_mem (s : State) (n : Nat) (x : Cluster) :
    ((Eff.cluster n x).apply s).mem = s.mem := rfl
@[simp] theorem cluster_spoilt (s : State) (n : Nat) (x : Cluster) :
    ((Eff.cluster n x).apply s).spoilt = s.spoilt := rfl
@[simp] theorem cluster_release (s : State) (n : Nat) (x : Cluster) :
    ((Eff.cluster n x).apply s).release = s.release := rfl
@[simp] theorem cluster_releases (s : State) (n : Nat) (x : Cluster) :
    ((Eff.cluster n x).apply s).releases = s.releases := rfl
@[simp] theorem cluster_ratBanks (s : State) (n : Nat) (x : Cluster) :
    ((Eff.cluster n x).apply s).ratBanks = s.ratBanks := rfl
@[simp] theorem cluster_tags (s : State) (n : Nat) (x : Cluster) :
    ((Eff.cluster n x).apply s).tags = s.tags := rfl
@[simp] theorem cluster_halves (s : State) (n : Nat) (x : Cluster) :
    ((Eff.cluster n x).apply s).halves = s.halves := rfl
@[simp] theorem cluster_cores (s : State) (n : Nat) (x : Cluster) :
    ((Eff.cluster n x).apply s).cores = s.cores := rfl
@[simp] theorem cluster_clusters (s : State) (n : Nat) (x : Cluster) :
    ((Eff.cluster n x).apply s).clusters = tput s.clusters n x := rfl
@[simp] theorem cluster_stations (s : State) (n : Nat) (x : Cluster) :
    ((Eff.cluster n x).apply s).stations = s.stations := rfl
@[simp] theorem cluster_parts (s : State) (n : Nat) (x : Cluster) :
    ((Eff.cluster n x).apply s).parts = s.parts := rfl
@[simp] theorem cluster_tasks (s : State) (n : Nat) (x : Cluster) :
    ((Eff.cluster n x).apply s).tasks = s.tasks := rfl
@[simp] theorem cluster_deferred (s : State) (n : Nat) (x : Cluster) :
    ((Eff.cluster n x).apply s).deferred = s.deferred := rfl
@[simp] theorem cluster_net (s : State) (n : Nat) (x : Cluster) :
    ((Eff.cluster n x).apply s).net = s.net := rfl
@[simp] theorem cluster_mf0 (s : State) (n : Nat) (x : Cluster) :
    ((Eff.cluster n x).apply s).mf0 = s.mf0 := rfl
@[simp] theorem cluster_fabric (s : State) (n : Nat) (x : Cluster) :
    ((Eff.cluster n x).apply s).fabric = s.fabric := rfl
@[simp] theorem cluster_agenda (s : State) (n : Nat) (x : Cluster) :
    ((Eff.cluster n x).apply s).agenda = s.agenda := rfl
@[simp] theorem cluster_cur (s : State) (n : Nat) (x : Cluster) :
    ((Eff.cluster n x).apply s).cur = s.cur := rfl
@[simp] theorem cluster_data (s : State) (n : Nat) (x : Cluster) :
    ((Eff.cluster n x).apply s).data = s.data := rfl
@[simp] theorem cluster_free (s : State) (n : Nat) (x : Cluster) :
    ((Eff.cluster n x).apply s).free = s.free := rfl

/-! ### station -/

@[simp] theorem station_package (s : State) (n : Nat) (x : Station) :
    ((Eff.station n x).apply s).package = s.package := rfl
@[simp] theorem station_clock (s : State) (n : Nat) (x : Station) :
    ((Eff.station n x).apply s).clock = s.clock := rfl
@[simp] theorem station_mem (s : State) (n : Nat) (x : Station) :
    ((Eff.station n x).apply s).mem = s.mem := rfl
@[simp] theorem station_spoilt (s : State) (n : Nat) (x : Station) :
    ((Eff.station n x).apply s).spoilt = s.spoilt := rfl
@[simp] theorem station_release (s : State) (n : Nat) (x : Station) :
    ((Eff.station n x).apply s).release = s.release := rfl
@[simp] theorem station_releases (s : State) (n : Nat) (x : Station) :
    ((Eff.station n x).apply s).releases = s.releases := rfl
@[simp] theorem station_ratBanks (s : State) (n : Nat) (x : Station) :
    ((Eff.station n x).apply s).ratBanks = s.ratBanks := rfl
@[simp] theorem station_tags (s : State) (n : Nat) (x : Station) :
    ((Eff.station n x).apply s).tags = s.tags := rfl
@[simp] theorem station_halves (s : State) (n : Nat) (x : Station) :
    ((Eff.station n x).apply s).halves = s.halves := rfl
@[simp] theorem station_cores (s : State) (n : Nat) (x : Station) :
    ((Eff.station n x).apply s).cores = s.cores := rfl
@[simp] theorem station_clusters (s : State) (n : Nat) (x : Station) :
    ((Eff.station n x).apply s).clusters = s.clusters := rfl
@[simp] theorem station_stations (s : State) (n : Nat) (x : Station) :
    ((Eff.station n x).apply s).stations = tput s.stations n x := rfl
@[simp] theorem station_parts (s : State) (n : Nat) (x : Station) :
    ((Eff.station n x).apply s).parts = s.parts := rfl
@[simp] theorem station_tasks (s : State) (n : Nat) (x : Station) :
    ((Eff.station n x).apply s).tasks = s.tasks := rfl
@[simp] theorem station_deferred (s : State) (n : Nat) (x : Station) :
    ((Eff.station n x).apply s).deferred = s.deferred := rfl
@[simp] theorem station_net (s : State) (n : Nat) (x : Station) :
    ((Eff.station n x).apply s).net = s.net := rfl
@[simp] theorem station_mf0 (s : State) (n : Nat) (x : Station) :
    ((Eff.station n x).apply s).mf0 = s.mf0 := rfl
@[simp] theorem station_fabric (s : State) (n : Nat) (x : Station) :
    ((Eff.station n x).apply s).fabric = s.fabric := rfl
@[simp] theorem station_agenda (s : State) (n : Nat) (x : Station) :
    ((Eff.station n x).apply s).agenda = s.agenda := rfl
@[simp] theorem station_cur (s : State) (n : Nat) (x : Station) :
    ((Eff.station n x).apply s).cur = s.cur := rfl
@[simp] theorem station_data (s : State) (n : Nat) (x : Station) :
    ((Eff.station n x).apply s).data = s.data := rfl
@[simp] theorem station_free (s : State) (n : Nat) (x : Station) :
    ((Eff.station n x).apply s).free = s.free := rfl

/-! ### part -/

@[simp] theorem part_package (s : State) (n : Nat) (x : Option Part) :
    ((Eff.part n x).apply s).package = s.package := rfl
@[simp] theorem part_clock (s : State) (n : Nat) (x : Option Part) :
    ((Eff.part n x).apply s).clock = s.clock := rfl
@[simp] theorem part_mem (s : State) (n : Nat) (x : Option Part) :
    ((Eff.part n x).apply s).mem = s.mem := rfl
@[simp] theorem part_spoilt (s : State) (n : Nat) (x : Option Part) :
    ((Eff.part n x).apply s).spoilt = s.spoilt := rfl
@[simp] theorem part_release (s : State) (n : Nat) (x : Option Part) :
    ((Eff.part n x).apply s).release = s.release := rfl
@[simp] theorem part_releases (s : State) (n : Nat) (x : Option Part) :
    ((Eff.part n x).apply s).releases = s.releases := rfl
@[simp] theorem part_ratBanks (s : State) (n : Nat) (x : Option Part) :
    ((Eff.part n x).apply s).ratBanks = s.ratBanks := rfl
@[simp] theorem part_tags (s : State) (n : Nat) (x : Option Part) :
    ((Eff.part n x).apply s).tags = s.tags := rfl
@[simp] theorem part_halves (s : State) (n : Nat) (x : Option Part) :
    ((Eff.part n x).apply s).halves = s.halves := rfl
@[simp] theorem part_cores (s : State) (n : Nat) (x : Option Part) :
    ((Eff.part n x).apply s).cores = s.cores := rfl
@[simp] theorem part_clusters (s : State) (n : Nat) (x : Option Part) :
    ((Eff.part n x).apply s).clusters = s.clusters := rfl
@[simp] theorem part_stations (s : State) (n : Nat) (x : Option Part) :
    ((Eff.part n x).apply s).stations = s.stations := rfl
@[simp] theorem part_parts (s : State) (n : Nat) (x : Option Part) :
    ((Eff.part n x).apply s).parts = tset s.parts n x := rfl
@[simp] theorem part_tasks (s : State) (n : Nat) (x : Option Part) :
    ((Eff.part n x).apply s).tasks = s.tasks := rfl
@[simp] theorem part_deferred (s : State) (n : Nat) (x : Option Part) :
    ((Eff.part n x).apply s).deferred = s.deferred := rfl
@[simp] theorem part_net (s : State) (n : Nat) (x : Option Part) :
    ((Eff.part n x).apply s).net = s.net := rfl
@[simp] theorem part_mf0 (s : State) (n : Nat) (x : Option Part) :
    ((Eff.part n x).apply s).mf0 = s.mf0 := rfl
@[simp] theorem part_fabric (s : State) (n : Nat) (x : Option Part) :
    ((Eff.part n x).apply s).fabric = s.fabric := rfl
@[simp] theorem part_agenda (s : State) (n : Nat) (x : Option Part) :
    ((Eff.part n x).apply s).agenda = s.agenda := rfl
@[simp] theorem part_cur (s : State) (n : Nat) (x : Option Part) :
    ((Eff.part n x).apply s).cur = s.cur := rfl
@[simp] theorem part_data (s : State) (n : Nat) (x : Option Part) :
    ((Eff.part n x).apply s).data = s.data := rfl
@[simp] theorem part_free (s : State) (n : Nat) (x : Option Part) :
    ((Eff.part n x).apply s).free = s.free := rfl

/-! ### task -/

@[simp] theorem task_package (s : State) (n : Nat) (x : Option Task) :
    ((Eff.task n x).apply s).package = s.package := rfl
@[simp] theorem task_clock (s : State) (n : Nat) (x : Option Task) :
    ((Eff.task n x).apply s).clock = s.clock := rfl
@[simp] theorem task_mem (s : State) (n : Nat) (x : Option Task) :
    ((Eff.task n x).apply s).mem = s.mem := rfl
@[simp] theorem task_spoilt (s : State) (n : Nat) (x : Option Task) :
    ((Eff.task n x).apply s).spoilt = s.spoilt := rfl
@[simp] theorem task_release (s : State) (n : Nat) (x : Option Task) :
    ((Eff.task n x).apply s).release = s.release := rfl
@[simp] theorem task_releases (s : State) (n : Nat) (x : Option Task) :
    ((Eff.task n x).apply s).releases = s.releases := rfl
@[simp] theorem task_ratBanks (s : State) (n : Nat) (x : Option Task) :
    ((Eff.task n x).apply s).ratBanks = s.ratBanks := rfl
@[simp] theorem task_tags (s : State) (n : Nat) (x : Option Task) :
    ((Eff.task n x).apply s).tags = s.tags := rfl
@[simp] theorem task_halves (s : State) (n : Nat) (x : Option Task) :
    ((Eff.task n x).apply s).halves = s.halves := rfl
@[simp] theorem task_cores (s : State) (n : Nat) (x : Option Task) :
    ((Eff.task n x).apply s).cores = s.cores := rfl
@[simp] theorem task_clusters (s : State) (n : Nat) (x : Option Task) :
    ((Eff.task n x).apply s).clusters = s.clusters := rfl
@[simp] theorem task_stations (s : State) (n : Nat) (x : Option Task) :
    ((Eff.task n x).apply s).stations = s.stations := rfl
@[simp] theorem task_parts (s : State) (n : Nat) (x : Option Task) :
    ((Eff.task n x).apply s).parts = s.parts := rfl
@[simp] theorem task_tasks (s : State) (n : Nat) (x : Option Task) :
    ((Eff.task n x).apply s).tasks = tset s.tasks n x := rfl
@[simp] theorem task_deferred (s : State) (n : Nat) (x : Option Task) :
    ((Eff.task n x).apply s).deferred = s.deferred := rfl
@[simp] theorem task_net (s : State) (n : Nat) (x : Option Task) :
    ((Eff.task n x).apply s).net = s.net := rfl
@[simp] theorem task_mf0 (s : State) (n : Nat) (x : Option Task) :
    ((Eff.task n x).apply s).mf0 = s.mf0 := rfl
@[simp] theorem task_fabric (s : State) (n : Nat) (x : Option Task) :
    ((Eff.task n x).apply s).fabric = s.fabric := rfl
@[simp] theorem task_agenda (s : State) (n : Nat) (x : Option Task) :
    ((Eff.task n x).apply s).agenda = s.agenda := rfl
@[simp] theorem task_cur (s : State) (n : Nat) (x : Option Task) :
    ((Eff.task n x).apply s).cur = s.cur := rfl
@[simp] theorem task_data (s : State) (n : Nat) (x : Option Task) :
    ((Eff.task n x).apply s).data = s.data := rfl
@[simp] theorem task_free (s : State) (n : Nat) (x : Option Task) :
    ((Eff.task n x).apply s).free = s.free := rfl

/-! ### release -/

@[simp] theorem release_package (s : State) (n : Nat) (x : Option Release) :
    ((Eff.release n x).apply s).package = s.package := rfl
@[simp] theorem release_clock (s : State) (n : Nat) (x : Option Release) :
    ((Eff.release n x).apply s).clock = s.clock := rfl
@[simp] theorem release_mem (s : State) (n : Nat) (x : Option Release) :
    ((Eff.release n x).apply s).mem = s.mem := rfl
@[simp] theorem release_spoilt (s : State) (n : Nat) (x : Option Release) :
    ((Eff.release n x).apply s).spoilt = s.spoilt := rfl
@[simp] theorem release_release (s : State) (n : Nat) (x : Option Release) :
    ((Eff.release n x).apply s).release = tset s.release n x := rfl
@[simp] theorem release_releases (s : State) (n : Nat) (x : Option Release) :
    ((Eff.release n x).apply s).releases = s.releases := rfl
@[simp] theorem release_ratBanks (s : State) (n : Nat) (x : Option Release) :
    ((Eff.release n x).apply s).ratBanks = s.ratBanks := rfl
@[simp] theorem release_tags (s : State) (n : Nat) (x : Option Release) :
    ((Eff.release n x).apply s).tags = s.tags := rfl
@[simp] theorem release_halves (s : State) (n : Nat) (x : Option Release) :
    ((Eff.release n x).apply s).halves = s.halves := rfl
@[simp] theorem release_cores (s : State) (n : Nat) (x : Option Release) :
    ((Eff.release n x).apply s).cores = s.cores := rfl
@[simp] theorem release_clusters (s : State) (n : Nat) (x : Option Release) :
    ((Eff.release n x).apply s).clusters = s.clusters := rfl
@[simp] theorem release_stations (s : State) (n : Nat) (x : Option Release) :
    ((Eff.release n x).apply s).stations = s.stations := rfl
@[simp] theorem release_parts (s : State) (n : Nat) (x : Option Release) :
    ((Eff.release n x).apply s).parts = s.parts := rfl
@[simp] theorem release_tasks (s : State) (n : Nat) (x : Option Release) :
    ((Eff.release n x).apply s).tasks = s.tasks := rfl
@[simp] theorem release_deferred (s : State) (n : Nat) (x : Option Release) :
    ((Eff.release n x).apply s).deferred = s.deferred := rfl
@[simp] theorem release_net (s : State) (n : Nat) (x : Option Release) :
    ((Eff.release n x).apply s).net = s.net := rfl
@[simp] theorem release_mf0 (s : State) (n : Nat) (x : Option Release) :
    ((Eff.release n x).apply s).mf0 = s.mf0 := rfl
@[simp] theorem release_fabric (s : State) (n : Nat) (x : Option Release) :
    ((Eff.release n x).apply s).fabric = s.fabric := rfl
@[simp] theorem release_agenda (s : State) (n : Nat) (x : Option Release) :
    ((Eff.release n x).apply s).agenda = s.agenda := rfl
@[simp] theorem release_cur (s : State) (n : Nat) (x : Option Release) :
    ((Eff.release n x).apply s).cur = s.cur := rfl
@[simp] theorem release_data (s : State) (n : Nat) (x : Option Release) :
    ((Eff.release n x).apply s).data = s.data := rfl
@[simp] theorem release_free (s : State) (n : Nat) (x : Option Release) :
    ((Eff.release n x).apply s).free = s.free := rfl

/-! ### releases -/

@[simp] theorem releases_package (s : State) (n x : Nat) :
    ((Eff.releases n x).apply s).package = s.package := rfl
@[simp] theorem releases_clock (s : State) (n x : Nat) :
    ((Eff.releases n x).apply s).clock = s.clock := rfl
@[simp] theorem releases_mem (s : State) (n x : Nat) :
    ((Eff.releases n x).apply s).mem = s.mem := rfl
@[simp] theorem releases_spoilt (s : State) (n x : Nat) :
    ((Eff.releases n x).apply s).spoilt = s.spoilt := rfl
@[simp] theorem releases_release (s : State) (n x : Nat) :
    ((Eff.releases n x).apply s).release = s.release := rfl
@[simp] theorem releases_releases (s : State) (n x : Nat) :
    ((Eff.releases n x).apply s).releases = tput s.releases n x := rfl
@[simp] theorem releases_ratBanks (s : State) (n x : Nat) :
    ((Eff.releases n x).apply s).ratBanks = s.ratBanks := rfl
@[simp] theorem releases_tags (s : State) (n x : Nat) :
    ((Eff.releases n x).apply s).tags = s.tags := rfl
@[simp] theorem releases_halves (s : State) (n x : Nat) :
    ((Eff.releases n x).apply s).halves = s.halves := rfl
@[simp] theorem releases_cores (s : State) (n x : Nat) :
    ((Eff.releases n x).apply s).cores = s.cores := rfl
@[simp] theorem releases_clusters (s : State) (n x : Nat) :
    ((Eff.releases n x).apply s).clusters = s.clusters := rfl
@[simp] theorem releases_stations (s : State) (n x : Nat) :
    ((Eff.releases n x).apply s).stations = s.stations := rfl
@[simp] theorem releases_parts (s : State) (n x : Nat) :
    ((Eff.releases n x).apply s).parts = s.parts := rfl
@[simp] theorem releases_tasks (s : State) (n x : Nat) :
    ((Eff.releases n x).apply s).tasks = s.tasks := rfl
@[simp] theorem releases_deferred (s : State) (n x : Nat) :
    ((Eff.releases n x).apply s).deferred = s.deferred := rfl
@[simp] theorem releases_net (s : State) (n x : Nat) :
    ((Eff.releases n x).apply s).net = s.net := rfl
@[simp] theorem releases_mf0 (s : State) (n x : Nat) :
    ((Eff.releases n x).apply s).mf0 = s.mf0 := rfl
@[simp] theorem releases_fabric (s : State) (n x : Nat) :
    ((Eff.releases n x).apply s).fabric = s.fabric := rfl
@[simp] theorem releases_agenda (s : State) (n x : Nat) :
    ((Eff.releases n x).apply s).agenda = s.agenda := rfl
@[simp] theorem releases_cur (s : State) (n x : Nat) :
    ((Eff.releases n x).apply s).cur = s.cur := rfl
@[simp] theorem releases_data (s : State) (n x : Nat) :
    ((Eff.releases n x).apply s).data = s.data := rfl
@[simp] theorem releases_free (s : State) (n x : Nat) :
    ((Eff.releases n x).apply s).free = s.free := rfl

/-! ### tag -/

@[simp] theorem tag_package (s : State) (n : Nat) (x : Option (BitVec 32)) :
    ((Eff.tag n x).apply s).package = s.package := rfl
@[simp] theorem tag_clock (s : State) (n : Nat) (x : Option (BitVec 32)) :
    ((Eff.tag n x).apply s).clock = s.clock := rfl
@[simp] theorem tag_mem (s : State) (n : Nat) (x : Option (BitVec 32)) :
    ((Eff.tag n x).apply s).mem = s.mem := rfl
@[simp] theorem tag_spoilt (s : State) (n : Nat) (x : Option (BitVec 32)) :
    ((Eff.tag n x).apply s).spoilt = s.spoilt := rfl
@[simp] theorem tag_release (s : State) (n : Nat) (x : Option (BitVec 32)) :
    ((Eff.tag n x).apply s).release = s.release := rfl
@[simp] theorem tag_releases (s : State) (n : Nat) (x : Option (BitVec 32)) :
    ((Eff.tag n x).apply s).releases = s.releases := rfl
@[simp] theorem tag_ratBanks (s : State) (n : Nat) (x : Option (BitVec 32)) :
    ((Eff.tag n x).apply s).ratBanks = s.ratBanks := rfl
@[simp] theorem tag_tags (s : State) (n : Nat) (x : Option (BitVec 32)) :
    ((Eff.tag n x).apply s).tags = tset s.tags n x := rfl
@[simp] theorem tag_halves (s : State) (n : Nat) (x : Option (BitVec 32)) :
    ((Eff.tag n x).apply s).halves = s.halves := rfl
@[simp] theorem tag_cores (s : State) (n : Nat) (x : Option (BitVec 32)) :
    ((Eff.tag n x).apply s).cores = s.cores := rfl
@[simp] theorem tag_clusters (s : State) (n : Nat) (x : Option (BitVec 32)) :
    ((Eff.tag n x).apply s).clusters = s.clusters := rfl
@[simp] theorem tag_stations (s : State) (n : Nat) (x : Option (BitVec 32)) :
    ((Eff.tag n x).apply s).stations = s.stations := rfl
@[simp] theorem tag_parts (s : State) (n : Nat) (x : Option (BitVec 32)) :
    ((Eff.tag n x).apply s).parts = s.parts := rfl
@[simp] theorem tag_tasks (s : State) (n : Nat) (x : Option (BitVec 32)) :
    ((Eff.tag n x).apply s).tasks = s.tasks := rfl
@[simp] theorem tag_deferred (s : State) (n : Nat) (x : Option (BitVec 32)) :
    ((Eff.tag n x).apply s).deferred = s.deferred := rfl
@[simp] theorem tag_net (s : State) (n : Nat) (x : Option (BitVec 32)) :
    ((Eff.tag n x).apply s).net = s.net := rfl
@[simp] theorem tag_mf0 (s : State) (n : Nat) (x : Option (BitVec 32)) :
    ((Eff.tag n x).apply s).mf0 = s.mf0 := rfl
@[simp] theorem tag_fabric (s : State) (n : Nat) (x : Option (BitVec 32)) :
    ((Eff.tag n x).apply s).fabric = s.fabric := rfl
@[simp] theorem tag_agenda (s : State) (n : Nat) (x : Option (BitVec 32)) :
    ((Eff.tag n x).apply s).agenda = s.agenda := rfl
@[simp] theorem tag_cur (s : State) (n : Nat) (x : Option (BitVec 32)) :
    ((Eff.tag n x).apply s).cur = s.cur := rfl
@[simp] theorem tag_data (s : State) (n : Nat) (x : Option (BitVec 32)) :
    ((Eff.tag n x).apply s).data = s.data := rfl
@[simp] theorem tag_free (s : State) (n : Nat) (x : Option (BitVec 32)) :
    ((Eff.tag n x).apply s).free = s.free := rfl

/-! ### banks -/

@[simp] theorem banks_package (s : State) (x : List Nat) :
    ((Eff.banks x).apply s).package = s.package := rfl
@[simp] theorem banks_clock (s : State) (x : List Nat) :
    ((Eff.banks x).apply s).clock = s.clock := rfl
@[simp] theorem banks_mem (s : State) (x : List Nat) :
    ((Eff.banks x).apply s).mem = s.mem := rfl
@[simp] theorem banks_spoilt (s : State) (x : List Nat) :
    ((Eff.banks x).apply s).spoilt = s.spoilt := rfl
@[simp] theorem banks_release (s : State) (x : List Nat) :
    ((Eff.banks x).apply s).release = s.release := rfl
@[simp] theorem banks_releases (s : State) (x : List Nat) :
    ((Eff.banks x).apply s).releases = s.releases := rfl
@[simp] theorem banks_ratBanks (s : State) (x : List Nat) :
    ((Eff.banks x).apply s).ratBanks = x := rfl
@[simp] theorem banks_tags (s : State) (x : List Nat) :
    ((Eff.banks x).apply s).tags = s.tags := rfl
@[simp] theorem banks_halves (s : State) (x : List Nat) :
    ((Eff.banks x).apply s).halves = s.halves := rfl
@[simp] theorem banks_cores (s : State) (x : List Nat) :
    ((Eff.banks x).apply s).cores = s.cores := rfl
@[simp] theorem banks_clusters (s : State) (x : List Nat) :
    ((Eff.banks x).apply s).clusters = s.clusters := rfl
@[simp] theorem banks_stations (s : State) (x : List Nat) :
    ((Eff.banks x).apply s).stations = s.stations := rfl
@[simp] theorem banks_parts (s : State) (x : List Nat) :
    ((Eff.banks x).apply s).parts = s.parts := rfl
@[simp] theorem banks_tasks (s : State) (x : List Nat) :
    ((Eff.banks x).apply s).tasks = s.tasks := rfl
@[simp] theorem banks_deferred (s : State) (x : List Nat) :
    ((Eff.banks x).apply s).deferred = s.deferred := rfl
@[simp] theorem banks_net (s : State) (x : List Nat) :
    ((Eff.banks x).apply s).net = s.net := rfl
@[simp] theorem banks_mf0 (s : State) (x : List Nat) :
    ((Eff.banks x).apply s).mf0 = s.mf0 := rfl
@[simp] theorem banks_fabric (s : State) (x : List Nat) :
    ((Eff.banks x).apply s).fabric = s.fabric := rfl
@[simp] theorem banks_agenda (s : State) (x : List Nat) :
    ((Eff.banks x).apply s).agenda = s.agenda := rfl
@[simp] theorem banks_cur (s : State) (x : List Nat) :
    ((Eff.banks x).apply s).cur = s.cur := rfl
@[simp] theorem banks_data (s : State) (x : List Nat) :
    ((Eff.banks x).apply s).data = s.data := rfl
@[simp] theorem banks_free (s : State) (x : List Nat) :
    ((Eff.banks x).apply s).free = s.free := rfl

/-! ### deferred -/

@[simp] theorem deferred_package (s : State) (x : List Deferred) :
    ((Eff.deferred x).apply s).package = s.package := rfl
@[simp] theorem deferred_clock (s : State) (x : List Deferred) :
    ((Eff.deferred x).apply s).clock = s.clock := rfl
@[simp] theorem deferred_mem (s : State) (x : List Deferred) :
    ((Eff.deferred x).apply s).mem = s.mem := rfl
@[simp] theorem deferred_spoilt (s : State) (x : List Deferred) :
    ((Eff.deferred x).apply s).spoilt = s.spoilt := rfl
@[simp] theorem deferred_release (s : State) (x : List Deferred) :
    ((Eff.deferred x).apply s).release = s.release := rfl
@[simp] theorem deferred_releases (s : State) (x : List Deferred) :
    ((Eff.deferred x).apply s).releases = s.releases := rfl
@[simp] theorem deferred_ratBanks (s : State) (x : List Deferred) :
    ((Eff.deferred x).apply s).ratBanks = s.ratBanks := rfl
@[simp] theorem deferred_tags (s : State) (x : List Deferred) :
    ((Eff.deferred x).apply s).tags = s.tags := rfl
@[simp] theorem deferred_halves (s : State) (x : List Deferred) :
    ((Eff.deferred x).apply s).halves = s.halves := rfl
@[simp] theorem deferred_cores (s : State) (x : List Deferred) :
    ((Eff.deferred x).apply s).cores = s.cores := rfl
@[simp] theorem deferred_clusters (s : State) (x : List Deferred) :
    ((Eff.deferred x).apply s).clusters = s.clusters := rfl
@[simp] theorem deferred_stations (s : State) (x : List Deferred) :
    ((Eff.deferred x).apply s).stations = s.stations := rfl
@[simp] theorem deferred_parts (s : State) (x : List Deferred) :
    ((Eff.deferred x).apply s).parts = s.parts := rfl
@[simp] theorem deferred_tasks (s : State) (x : List Deferred) :
    ((Eff.deferred x).apply s).tasks = s.tasks := rfl
@[simp] theorem deferred_deferred (s : State) (x : List Deferred) :
    ((Eff.deferred x).apply s).deferred = x := rfl
@[simp] theorem deferred_net (s : State) (x : List Deferred) :
    ((Eff.deferred x).apply s).net = s.net := rfl
@[simp] theorem deferred_mf0 (s : State) (x : List Deferred) :
    ((Eff.deferred x).apply s).mf0 = s.mf0 := rfl
@[simp] theorem deferred_fabric (s : State) (x : List Deferred) :
    ((Eff.deferred x).apply s).fabric = s.fabric := rfl
@[simp] theorem deferred_agenda (s : State) (x : List Deferred) :
    ((Eff.deferred x).apply s).agenda = s.agenda := rfl
@[simp] theorem deferred_cur (s : State) (x : List Deferred) :
    ((Eff.deferred x).apply s).cur = s.cur := rfl
@[simp] theorem deferred_data (s : State) (x : List Deferred) :
    ((Eff.deferred x).apply s).data = s.data := rfl
@[simp] theorem deferred_free (s : State) (x : List Deferred) :
    ((Eff.deferred x).apply s).free = s.free := rfl

/-! ### net -/

@[simp] theorem net_package (s : State) (x : Net) :
    ((Eff.net x).apply s).package = s.package := rfl
@[simp] theorem net_clock (s : State) (x : Net) :
    ((Eff.net x).apply s).clock = s.clock := rfl
@[simp] theorem net_mem (s : State) (x : Net) :
    ((Eff.net x).apply s).mem = s.mem := rfl
@[simp] theorem net_spoilt (s : State) (x : Net) :
    ((Eff.net x).apply s).spoilt = s.spoilt := rfl
@[simp] theorem net_release (s : State) (x : Net) :
    ((Eff.net x).apply s).release = s.release := rfl
@[simp] theorem net_releases (s : State) (x : Net) :
    ((Eff.net x).apply s).releases = s.releases := rfl
@[simp] theorem net_ratBanks (s : State) (x : Net) :
    ((Eff.net x).apply s).ratBanks = s.ratBanks := rfl
@[simp] theorem net_tags (s : State) (x : Net) :
    ((Eff.net x).apply s).tags = s.tags := rfl
@[simp] theorem net_halves (s : State) (x : Net) :
    ((Eff.net x).apply s).halves = s.halves := rfl
@[simp] theorem net_cores (s : State) (x : Net) :
    ((Eff.net x).apply s).cores = s.cores := rfl
@[simp] theorem net_clusters (s : State) (x : Net) :
    ((Eff.net x).apply s).clusters = s.clusters := rfl
@[simp] theorem net_stations (s : State) (x : Net) :
    ((Eff.net x).apply s).stations = s.stations := rfl
@[simp] theorem net_parts (s : State) (x : Net) :
    ((Eff.net x).apply s).parts = s.parts := rfl
@[simp] theorem net_tasks (s : State) (x : Net) :
    ((Eff.net x).apply s).tasks = s.tasks := rfl
@[simp] theorem net_deferred (s : State) (x : Net) :
    ((Eff.net x).apply s).deferred = s.deferred := rfl
@[simp] theorem net_net (s : State) (x : Net) :
    ((Eff.net x).apply s).net = x := rfl
@[simp] theorem net_mf0 (s : State) (x : Net) :
    ((Eff.net x).apply s).mf0 = s.mf0 := rfl
@[simp] theorem net_fabric (s : State) (x : Net) :
    ((Eff.net x).apply s).fabric = s.fabric := rfl
@[simp] theorem net_agenda (s : State) (x : Net) :
    ((Eff.net x).apply s).agenda = s.agenda := rfl
@[simp] theorem net_cur (s : State) (x : Net) :
    ((Eff.net x).apply s).cur = s.cur := rfl
@[simp] theorem net_data (s : State) (x : Net) :
    ((Eff.net x).apply s).data = s.data := rfl
@[simp] theorem net_free (s : State) (x : Net) :
    ((Eff.net x).apply s).free = s.free := rfl

/-! ### mf0 -/

@[simp] theorem mf0_package (s : State) (x : Mf0) :
    ((Eff.mf0 x).apply s).package = s.package := rfl
@[simp] theorem mf0_clock (s : State) (x : Mf0) :
    ((Eff.mf0 x).apply s).clock = s.clock := rfl
@[simp] theorem mf0_mem (s : State) (x : Mf0) :
    ((Eff.mf0 x).apply s).mem = s.mem := rfl
@[simp] theorem mf0_spoilt (s : State) (x : Mf0) :
    ((Eff.mf0 x).apply s).spoilt = s.spoilt := rfl
@[simp] theorem mf0_release (s : State) (x : Mf0) :
    ((Eff.mf0 x).apply s).release = s.release := rfl
@[simp] theorem mf0_releases (s : State) (x : Mf0) :
    ((Eff.mf0 x).apply s).releases = s.releases := rfl
@[simp] theorem mf0_ratBanks (s : State) (x : Mf0) :
    ((Eff.mf0 x).apply s).ratBanks = s.ratBanks := rfl
@[simp] theorem mf0_tags (s : State) (x : Mf0) :
    ((Eff.mf0 x).apply s).tags = s.tags := rfl
@[simp] theorem mf0_halves (s : State) (x : Mf0) :
    ((Eff.mf0 x).apply s).halves = s.halves := rfl
@[simp] theorem mf0_cores (s : State) (x : Mf0) :
    ((Eff.mf0 x).apply s).cores = s.cores := rfl
@[simp] theorem mf0_clusters (s : State) (x : Mf0) :
    ((Eff.mf0 x).apply s).clusters = s.clusters := rfl
@[simp] theorem mf0_stations (s : State) (x : Mf0) :
    ((Eff.mf0 x).apply s).stations = s.stations := rfl
@[simp] theorem mf0_parts (s : State) (x : Mf0) :
    ((Eff.mf0 x).apply s).parts = s.parts := rfl
@[simp] theorem mf0_tasks (s : State) (x : Mf0) :
    ((Eff.mf0 x).apply s).tasks = s.tasks := rfl
@[simp] theorem mf0_deferred (s : State) (x : Mf0) :
    ((Eff.mf0 x).apply s).deferred = s.deferred := rfl
@[simp] theorem mf0_net (s : State) (x : Mf0) :
    ((Eff.mf0 x).apply s).net = s.net := rfl
@[simp] theorem mf0_mf0 (s : State) (x : Mf0) :
    ((Eff.mf0 x).apply s).mf0 = x := rfl
@[simp] theorem mf0_fabric (s : State) (x : Mf0) :
    ((Eff.mf0 x).apply s).fabric = s.fabric := rfl
@[simp] theorem mf0_agenda (s : State) (x : Mf0) :
    ((Eff.mf0 x).apply s).agenda = s.agenda := rfl
@[simp] theorem mf0_cur (s : State) (x : Mf0) :
    ((Eff.mf0 x).apply s).cur = s.cur := rfl
@[simp] theorem mf0_data (s : State) (x : Mf0) :
    ((Eff.mf0 x).apply s).data = s.data := rfl
@[simp] theorem mf0_free (s : State) (x : Mf0) :
    ((Eff.mf0 x).apply s).free = s.free := rfl

/-! ### fabric -/

@[simp] theorem fabric_package (s : State) (x : Fabric) :
    ((Eff.fabric x).apply s).package = s.package := rfl
@[simp] theorem fabric_clock (s : State) (x : Fabric) :
    ((Eff.fabric x).apply s).clock = s.clock := rfl
@[simp] theorem fabric_mem (s : State) (x : Fabric) :
    ((Eff.fabric x).apply s).mem = s.mem := rfl
@[simp] theorem fabric_spoilt (s : State) (x : Fabric) :
    ((Eff.fabric x).apply s).spoilt = s.spoilt := rfl
@[simp] theorem fabric_release (s : State) (x : Fabric) :
    ((Eff.fabric x).apply s).release = s.release := rfl
@[simp] theorem fabric_releases (s : State) (x : Fabric) :
    ((Eff.fabric x).apply s).releases = s.releases := rfl
@[simp] theorem fabric_ratBanks (s : State) (x : Fabric) :
    ((Eff.fabric x).apply s).ratBanks = s.ratBanks := rfl
@[simp] theorem fabric_tags (s : State) (x : Fabric) :
    ((Eff.fabric x).apply s).tags = s.tags := rfl
@[simp] theorem fabric_halves (s : State) (x : Fabric) :
    ((Eff.fabric x).apply s).halves = s.halves := rfl
@[simp] theorem fabric_cores (s : State) (x : Fabric) :
    ((Eff.fabric x).apply s).cores = s.cores := rfl
@[simp] theorem fabric_clusters (s : State) (x : Fabric) :
    ((Eff.fabric x).apply s).clusters = s.clusters := rfl
@[simp] theorem fabric_stations (s : State) (x : Fabric) :
    ((Eff.fabric x).apply s).stations = s.stations := rfl
@[simp] theorem fabric_parts (s : State) (x : Fabric) :
    ((Eff.fabric x).apply s).parts = s.parts := rfl
@[simp] theorem fabric_tasks (s : State) (x : Fabric) :
    ((Eff.fabric x).apply s).tasks = s.tasks := rfl
@[simp] theorem fabric_deferred (s : State) (x : Fabric) :
    ((Eff.fabric x).apply s).deferred = s.deferred := rfl
@[simp] theorem fabric_net (s : State) (x : Fabric) :
    ((Eff.fabric x).apply s).net = s.net := rfl
@[simp] theorem fabric_mf0 (s : State) (x : Fabric) :
    ((Eff.fabric x).apply s).mf0 = s.mf0 := rfl
@[simp] theorem fabric_fabric (s : State) (x : Fabric) :
    ((Eff.fabric x).apply s).fabric = x := rfl
@[simp] theorem fabric_agenda (s : State) (x : Fabric) :
    ((Eff.fabric x).apply s).agenda = s.agenda := rfl
@[simp] theorem fabric_cur (s : State) (x : Fabric) :
    ((Eff.fabric x).apply s).cur = s.cur := rfl
@[simp] theorem fabric_data (s : State) (x : Fabric) :
    ((Eff.fabric x).apply s).data = s.data := rfl
@[simp] theorem fabric_free (s : State) (x : Fabric) :
    ((Eff.fabric x).apply s).free = s.free := rfl

/-! ### clock -/

@[simp] theorem clock_package (s : State) (x : Clock) :
    ((Eff.clock x).apply s).package = s.package := rfl
@[simp] theorem clock_clock (s : State) (x : Clock) :
    ((Eff.clock x).apply s).clock = x := rfl
@[simp] theorem clock_mem (s : State) (x : Clock) :
    ((Eff.clock x).apply s).mem = s.mem := rfl
@[simp] theorem clock_spoilt (s : State) (x : Clock) :
    ((Eff.clock x).apply s).spoilt = s.spoilt := rfl
@[simp] theorem clock_release (s : State) (x : Clock) :
    ((Eff.clock x).apply s).release = s.release := rfl
@[simp] theorem clock_releases (s : State) (x : Clock) :
    ((Eff.clock x).apply s).releases = s.releases := rfl
@[simp] theorem clock_ratBanks (s : State) (x : Clock) :
    ((Eff.clock x).apply s).ratBanks = s.ratBanks := rfl
@[simp] theorem clock_tags (s : State) (x : Clock) :
    ((Eff.clock x).apply s).tags = s.tags := rfl
@[simp] theorem clock_halves (s : State) (x : Clock) :
    ((Eff.clock x).apply s).halves = s.halves := rfl
@[simp] theorem clock_cores (s : State) (x : Clock) :
    ((Eff.clock x).apply s).cores = s.cores := rfl
@[simp] theorem clock_clusters (s : State) (x : Clock) :
    ((Eff.clock x).apply s).clusters = s.clusters := rfl
@[simp] theorem clock_stations (s : State) (x : Clock) :
    ((Eff.clock x).apply s).stations = s.stations := rfl
@[simp] theorem clock_parts (s : State) (x : Clock) :
    ((Eff.clock x).apply s).parts = s.parts := rfl
@[simp] theorem clock_tasks (s : State) (x : Clock) :
    ((Eff.clock x).apply s).tasks = s.tasks := rfl
@[simp] theorem clock_deferred (s : State) (x : Clock) :
    ((Eff.clock x).apply s).deferred = s.deferred := rfl
@[simp] theorem clock_net (s : State) (x : Clock) :
    ((Eff.clock x).apply s).net = s.net := rfl
@[simp] theorem clock_mf0 (s : State) (x : Clock) :
    ((Eff.clock x).apply s).mf0 = s.mf0 := rfl
@[simp] theorem clock_fabric (s : State) (x : Clock) :
    ((Eff.clock x).apply s).fabric = s.fabric := rfl
@[simp] theorem clock_agenda (s : State) (x : Clock) :
    ((Eff.clock x).apply s).agenda = s.agenda := rfl
@[simp] theorem clock_cur (s : State) (x : Clock) :
    ((Eff.clock x).apply s).cur = s.cur := rfl
@[simp] theorem clock_data (s : State) (x : Clock) :
    ((Eff.clock x).apply s).data = s.data := rfl
@[simp] theorem clock_free (s : State) (x : Clock) :
    ((Eff.clock x).apply s).free = s.free := rfl

/-! ### package -/

@[simp] theorem package_package (s : State) (x : Package) :
    ((Eff.package x).apply s).package = x := rfl
@[simp] theorem package_clock (s : State) (x : Package) :
    ((Eff.package x).apply s).clock = s.clock := rfl
@[simp] theorem package_mem (s : State) (x : Package) :
    ((Eff.package x).apply s).mem = s.mem := rfl
@[simp] theorem package_spoilt (s : State) (x : Package) :
    ((Eff.package x).apply s).spoilt = s.spoilt := rfl
@[simp] theorem package_release (s : State) (x : Package) :
    ((Eff.package x).apply s).release = s.release := rfl
@[simp] theorem package_releases (s : State) (x : Package) :
    ((Eff.package x).apply s).releases = s.releases := rfl
@[simp] theorem package_ratBanks (s : State) (x : Package) :
    ((Eff.package x).apply s).ratBanks = s.ratBanks := rfl
@[simp] theorem package_tags (s : State) (x : Package) :
    ((Eff.package x).apply s).tags = s.tags := rfl
@[simp] theorem package_halves (s : State) (x : Package) :
    ((Eff.package x).apply s).halves = s.halves := rfl
@[simp] theorem package_cores (s : State) (x : Package) :
    ((Eff.package x).apply s).cores = s.cores := rfl
@[simp] theorem package_clusters (s : State) (x : Package) :
    ((Eff.package x).apply s).clusters = s.clusters := rfl
@[simp] theorem package_stations (s : State) (x : Package) :
    ((Eff.package x).apply s).stations = s.stations := rfl
@[simp] theorem package_parts (s : State) (x : Package) :
    ((Eff.package x).apply s).parts = s.parts := rfl
@[simp] theorem package_tasks (s : State) (x : Package) :
    ((Eff.package x).apply s).tasks = s.tasks := rfl
@[simp] theorem package_deferred (s : State) (x : Package) :
    ((Eff.package x).apply s).deferred = s.deferred := rfl
@[simp] theorem package_net (s : State) (x : Package) :
    ((Eff.package x).apply s).net = s.net := rfl
@[simp] theorem package_mf0 (s : State) (x : Package) :
    ((Eff.package x).apply s).mf0 = s.mf0 := rfl
@[simp] theorem package_fabric (s : State) (x : Package) :
    ((Eff.package x).apply s).fabric = s.fabric := rfl
@[simp] theorem package_agenda (s : State) (x : Package) :
    ((Eff.package x).apply s).agenda = s.agenda := rfl
@[simp] theorem package_cur (s : State) (x : Package) :
    ((Eff.package x).apply s).cur = s.cur := rfl
@[simp] theorem package_data (s : State) (x : Package) :
    ((Eff.package x).apply s).data = s.data := rfl
@[simp] theorem package_free (s : State) (x : Package) :
    ((Eff.package x).apply s).free = s.free := rfl

/-! ### free -/

@[simp] theorem free_package (s : State) (x : Nat) :
    ((Eff.free x).apply s).package = s.package := rfl
@[simp] theorem free_clock (s : State) (x : Nat) :
    ((Eff.free x).apply s).clock = s.clock := rfl
@[simp] theorem free_mem (s : State) (x : Nat) :
    ((Eff.free x).apply s).mem = s.mem := rfl
@[simp] theorem free_spoilt (s : State) (x : Nat) :
    ((Eff.free x).apply s).spoilt = s.spoilt := rfl
@[simp] theorem free_release (s : State) (x : Nat) :
    ((Eff.free x).apply s).release = s.release := rfl
@[simp] theorem free_releases (s : State) (x : Nat) :
    ((Eff.free x).apply s).releases = s.releases := rfl
@[simp] theorem free_ratBanks (s : State) (x : Nat) :
    ((Eff.free x).apply s).ratBanks = s.ratBanks := rfl
@[simp] theorem free_tags (s : State) (x : Nat) :
    ((Eff.free x).apply s).tags = s.tags := rfl
@[simp] theorem free_halves (s : State) (x : Nat) :
    ((Eff.free x).apply s).halves = s.halves := rfl
@[simp] theorem free_cores (s : State) (x : Nat) :
    ((Eff.free x).apply s).cores = s.cores := rfl
@[simp] theorem free_clusters (s : State) (x : Nat) :
    ((Eff.free x).apply s).clusters = s.clusters := rfl
@[simp] theorem free_stations (s : State) (x : Nat) :
    ((Eff.free x).apply s).stations = s.stations := rfl
@[simp] theorem free_parts (s : State) (x : Nat) :
    ((Eff.free x).apply s).parts = s.parts := rfl
@[simp] theorem free_tasks (s : State) (x : Nat) :
    ((Eff.free x).apply s).tasks = s.tasks := rfl
@[simp] theorem free_deferred (s : State) (x : Nat) :
    ((Eff.free x).apply s).deferred = s.deferred := rfl
@[simp] theorem free_net (s : State) (x : Nat) :
    ((Eff.free x).apply s).net = s.net := rfl
@[simp] theorem free_mf0 (s : State) (x : Nat) :
    ((Eff.free x).apply s).mf0 = s.mf0 := rfl
@[simp] theorem free_fabric (s : State) (x : Nat) :
    ((Eff.free x).apply s).fabric = s.fabric := rfl
@[simp] theorem free_agenda (s : State) (x : Nat) :
    ((Eff.free x).apply s).agenda = s.agenda := rfl
@[simp] theorem free_cur (s : State) (x : Nat) :
    ((Eff.free x).apply s).cur = s.cur := rfl
@[simp] theorem free_data (s : State) (x : Nat) :
    ((Eff.free x).apply s).data = s.data := rfl
@[simp] theorem free_free (s : State) (x : Nat) :
    ((Eff.free x).apply s).free = x := rfl

/-! ### spoilt -/

@[simp] theorem spoilt_package (s : State) (l : List Nat) :
    ((Eff.spoilt l).apply s).package = s.package := rfl
@[simp] theorem spoilt_clock (s : State) (l : List Nat) :
    ((Eff.spoilt l).apply s).clock = s.clock := rfl
@[simp] theorem spoilt_mem (s : State) (l : List Nat) :
    ((Eff.spoilt l).apply s).mem = s.mem := rfl
@[simp] theorem spoilt_spoilt (s : State) (l : List Nat) :
    ((Eff.spoilt l).apply s).spoilt = l := rfl
@[simp] theorem spoilt_release (s : State) (l : List Nat) :
    ((Eff.spoilt l).apply s).release = s.release := rfl
@[simp] theorem spoilt_releases (s : State) (l : List Nat) :
    ((Eff.spoilt l).apply s).releases = s.releases := rfl
@[simp] theorem spoilt_ratBanks (s : State) (l : List Nat) :
    ((Eff.spoilt l).apply s).ratBanks = s.ratBanks := rfl
@[simp] theorem spoilt_tags (s : State) (l : List Nat) :
    ((Eff.spoilt l).apply s).tags = s.tags := rfl
@[simp] theorem spoilt_halves (s : State) (l : List Nat) :
    ((Eff.spoilt l).apply s).halves = s.halves := rfl
@[simp] theorem spoilt_cores (s : State) (l : List Nat) :
    ((Eff.spoilt l).apply s).cores = s.cores := rfl
@[simp] theorem spoilt_clusters (s : State) (l : List Nat) :
    ((Eff.spoilt l).apply s).clusters = s.clusters := rfl
@[simp] theorem spoilt_stations (s : State) (l : List Nat) :
    ((Eff.spoilt l).apply s).stations = s.stations := rfl
@[simp] theorem spoilt_parts (s : State) (l : List Nat) :
    ((Eff.spoilt l).apply s).parts = s.parts := rfl
@[simp] theorem spoilt_tasks (s : State) (l : List Nat) :
    ((Eff.spoilt l).apply s).tasks = s.tasks := rfl
@[simp] theorem spoilt_deferred (s : State) (l : List Nat) :
    ((Eff.spoilt l).apply s).deferred = s.deferred := rfl
@[simp] theorem spoilt_net (s : State) (l : List Nat) :
    ((Eff.spoilt l).apply s).net = s.net := rfl
@[simp] theorem spoilt_mf0 (s : State) (l : List Nat) :
    ((Eff.spoilt l).apply s).mf0 = s.mf0 := rfl
@[simp] theorem spoilt_fabric (s : State) (l : List Nat) :
    ((Eff.spoilt l).apply s).fabric = s.fabric := rfl
@[simp] theorem spoilt_agenda (s : State) (l : List Nat) :
    ((Eff.spoilt l).apply s).agenda = s.agenda := rfl
@[simp] theorem spoilt_cur (s : State) (l : List Nat) :
    ((Eff.spoilt l).apply s).cur = s.cur := rfl
@[simp] theorem spoilt_data (s : State) (l : List Nat) :
    ((Eff.spoilt l).apply s).data = s.data := rfl
@[simp] theorem spoilt_free (s : State) (l : List Nat) :
    ((Eff.spoilt l).apply s).free = s.free := rfl

/-! ### ecc -/

@[simp] theorem ecc_package (s : State) (e : Ecc) :
    ((Eff.ecc e).apply s).package = s.package := rfl
@[simp] theorem ecc_clock (s : State) (e : Ecc) :
    ((Eff.ecc e).apply s).clock = s.clock := rfl
@[simp] theorem ecc_mem (s : State) (e : Ecc) :
    ((Eff.ecc e).apply s).mem = s.mem := rfl
@[simp] theorem ecc_spoilt (s : State) (e : Ecc) :
    ((Eff.ecc e).apply s).spoilt = s.spoilt := rfl
@[simp] theorem ecc_release (s : State) (e : Ecc) :
    ((Eff.ecc e).apply s).release = s.release := rfl
@[simp] theorem ecc_releases (s : State) (e : Ecc) :
    ((Eff.ecc e).apply s).releases = s.releases := rfl
@[simp] theorem ecc_ratBanks (s : State) (e : Ecc) :
    ((Eff.ecc e).apply s).ratBanks = s.ratBanks := rfl
@[simp] theorem ecc_tags (s : State) (e : Ecc) :
    ((Eff.ecc e).apply s).tags = s.tags := rfl
@[simp] theorem ecc_halves (s : State) (e : Ecc) :
    ((Eff.ecc e).apply s).halves = s.halves := rfl
@[simp] theorem ecc_cores (s : State) (e : Ecc) :
    ((Eff.ecc e).apply s).cores = s.cores := rfl
@[simp] theorem ecc_clusters (s : State) (e : Ecc) :
    ((Eff.ecc e).apply s).clusters = s.clusters := rfl
@[simp] theorem ecc_stations (s : State) (e : Ecc) :
    ((Eff.ecc e).apply s).stations = s.stations := rfl
@[simp] theorem ecc_parts (s : State) (e : Ecc) :
    ((Eff.ecc e).apply s).parts = s.parts := rfl
@[simp] theorem ecc_tasks (s : State) (e : Ecc) :
    ((Eff.ecc e).apply s).tasks = s.tasks := rfl
@[simp] theorem ecc_deferred (s : State) (e : Ecc) :
    ((Eff.ecc e).apply s).deferred = s.deferred := rfl
@[simp] theorem ecc_net (s : State) (e : Ecc) :
    ((Eff.ecc e).apply s).net = s.net := rfl
@[simp] theorem ecc_mf0 (s : State) (e : Ecc) :
    ((Eff.ecc e).apply s).mf0 = s.mf0 := rfl
@[simp] theorem ecc_fabric (s : State) (e : Ecc) :
    ((Eff.ecc e).apply s).fabric = s.fabric := rfl
@[simp] theorem ecc_agenda (s : State) (e : Ecc) :
    ((Eff.ecc e).apply s).agenda = s.agenda := rfl
@[simp] theorem ecc_cur (s : State) (e : Ecc) :
    ((Eff.ecc e).apply s).cur = s.cur := rfl
@[simp] theorem ecc_data (s : State) (e : Ecc) :
    ((Eff.ecc e).apply s).data = { s.data with ecc := e } := rfl
@[simp] theorem ecc_free (s : State) (e : Ecc) :
    ((Eff.ecc e).apply s).free = s.free := rfl

/-! ### Accessors -/

/-- The half that was written. -/
@[simp] theorem half_after_same (s : State) (n : Nat) (x : Half) :
    ((Eff.half n x).apply s).half n = x := by simp [State.half]
/-- Another half than the one that was written. -/
theorem half_after_other (s : State) {n m : Nat} (h : m ≠ n) (x : Half) :
    ((Eff.half n x).apply s).half m = s.half m := by simp [State.half, tgetD_tput_other h]
/-- The core that was written. -/
@[simp] theorem core_after_same (s : State) (n : Nat) (x : Core) :
    ((Eff.core n x).apply s).core n = x := by simp [State.core]
/-- Another core than the one that was written. -/
theorem core_after_other (s : State) {n m : Nat} (h : m ≠ n) (x : Core) :
    ((Eff.core n x).apply s).core m = s.core m := by simp [State.core, tgetD_tput_other h]
/-- The cluster that was written. -/
@[simp] theorem cluster_after_same (s : State) (n : Nat) (x : Cluster) :
    ((Eff.cluster n x).apply s).cluster n = x := by simp [State.cluster]
/-- Another cluster than the one that was written. -/
theorem cluster_after_other (s : State) {n m : Nat} (h : m ≠ n) (x : Cluster) :
    ((Eff.cluster n x).apply s).cluster m = s.cluster m := by simp [State.cluster, tgetD_tput_other h]
/-- The station that was written. -/
@[simp] theorem station_after_same (s : State) (n : Nat) (x : Station) :
    ((Eff.station n x).apply s).station n = x := by simp [State.station]
/-- Another station than the one that was written. -/
theorem station_after_other (s : State) {n m : Nat} (h : m ≠ n) (x : Station) :
    ((Eff.station n x).apply s).station m = s.station m := by simp [State.station, tgetD_tput_other h]
@[simp] theorem half_after_byte (s : State) (a : Nat) (b : Byte) (k : Nat) :
    ((Eff.byte a b).apply s).half k = s.half k := rfl
@[simp] theorem half_after_core (s : State) (m : Nat) (x : Core) (k : Nat) :
    ((Eff.core m x).apply s).half k = s.half k := rfl
@[simp] theorem half_after_cluster (s : State) (m : Nat) (x : Cluster) (k : Nat) :
    ((Eff.cluster m x).apply s).half k = s.half k := rfl
@[simp] theorem half_after_station (s : State) (m : Nat) (x : Station) (k : Nat) :
    ((Eff.station m x).apply s).half k = s.half k := rfl
@[simp] theorem half_after_part (s : State) (m : Nat) (x : Option Part) (k : Nat) :
    ((Eff.part m x).apply s).half k = s.half k := rfl
@[simp] theorem half_after_task (s : State) (m : Nat) (x : Option Task) (k : Nat) :
    ((Eff.task m x).apply s).half k = s.half k := rfl
@[simp] theorem half_after_release (s : State) (m : Nat) (x : Option Release) (k : Nat) :
    ((Eff.release m x).apply s).half k = s.half k := rfl
@[simp] theorem half_after_releases (s : State) (m x : Nat) (k : Nat) :
    ((Eff.releases m x).apply s).half k = s.half k := rfl
@[simp] theorem half_after_tag (s : State) (m : Nat) (x : Option (BitVec 32)) (k : Nat) :
    ((Eff.tag m x).apply s).half k = s.half k := rfl
@[simp] theorem half_after_banks (s : State) (x : List Nat) (k : Nat) :
    ((Eff.banks x).apply s).half k = s.half k := rfl
@[simp] theorem half_after_deferred (s : State) (x : List Deferred) (k : Nat) :
    ((Eff.deferred x).apply s).half k = s.half k := rfl
@[simp] theorem half_after_net (s : State) (x : Net) (k : Nat) :
    ((Eff.net x).apply s).half k = s.half k := rfl
@[simp] theorem half_after_mf0 (s : State) (x : Mf0) (k : Nat) :
    ((Eff.mf0 x).apply s).half k = s.half k := rfl
@[simp] theorem half_after_fabric (s : State) (x : Fabric) (k : Nat) :
    ((Eff.fabric x).apply s).half k = s.half k := rfl
@[simp] theorem half_after_clock (s : State) (x : Clock) (k : Nat) :
    ((Eff.clock x).apply s).half k = s.half k := rfl
@[simp] theorem half_after_package (s : State) (x : Package) (k : Nat) :
    ((Eff.package x).apply s).half k = s.half k := rfl
@[simp] theorem half_after_free (s : State) (x : Nat) (k : Nat) :
    ((Eff.free x).apply s).half k = s.half k := rfl
@[simp] theorem half_after_spoilt (s : State) (l : List Nat) (k : Nat) :
    ((Eff.spoilt l).apply s).half k = s.half k := rfl
@[simp] theorem half_after_ecc (s : State) (e : Ecc) (k : Nat) :
    ((Eff.ecc e).apply s).half k = s.half k := rfl
@[simp] theorem core_after_byte (s : State) (a : Nat) (b : Byte) (k : Nat) :
    ((Eff.byte a b).apply s).core k = s.core k := rfl
@[simp] theorem core_after_half (s : State) (m : Nat) (x : Half) (k : Nat) :
    ((Eff.half m x).apply s).core k = s.core k := rfl
@[simp] theorem core_after_cluster (s : State) (m : Nat) (x : Cluster) (k : Nat) :
    ((Eff.cluster m x).apply s).core k = s.core k := rfl
@[simp] theorem core_after_station (s : State) (m : Nat) (x : Station) (k : Nat) :
    ((Eff.station m x).apply s).core k = s.core k := rfl
@[simp] theorem core_after_part (s : State) (m : Nat) (x : Option Part) (k : Nat) :
    ((Eff.part m x).apply s).core k = s.core k := rfl
@[simp] theorem core_after_task (s : State) (m : Nat) (x : Option Task) (k : Nat) :
    ((Eff.task m x).apply s).core k = s.core k := rfl
@[simp] theorem core_after_release (s : State) (m : Nat) (x : Option Release) (k : Nat) :
    ((Eff.release m x).apply s).core k = s.core k := rfl
@[simp] theorem core_after_releases (s : State) (m x : Nat) (k : Nat) :
    ((Eff.releases m x).apply s).core k = s.core k := rfl
@[simp] theorem core_after_tag (s : State) (m : Nat) (x : Option (BitVec 32)) (k : Nat) :
    ((Eff.tag m x).apply s).core k = s.core k := rfl
@[simp] theorem core_after_banks (s : State) (x : List Nat) (k : Nat) :
    ((Eff.banks x).apply s).core k = s.core k := rfl
@[simp] theorem core_after_deferred (s : State) (x : List Deferred) (k : Nat) :
    ((Eff.deferred x).apply s).core k = s.core k := rfl
@[simp] theorem core_after_net (s : State) (x : Net) (k : Nat) :
    ((Eff.net x).apply s).core k = s.core k := rfl
@[simp] theorem core_after_mf0 (s : State) (x : Mf0) (k : Nat) :
    ((Eff.mf0 x).apply s).core k = s.core k := rfl
@[simp] theorem core_after_fabric (s : State) (x : Fabric) (k : Nat) :
    ((Eff.fabric x).apply s).core k = s.core k := rfl
@[simp] theorem core_after_clock (s : State) (x : Clock) (k : Nat) :
    ((Eff.clock x).apply s).core k = s.core k := rfl
@[simp] theorem core_after_package (s : State) (x : Package) (k : Nat) :
    ((Eff.package x).apply s).core k = s.core k := rfl
@[simp] theorem core_after_free (s : State) (x : Nat) (k : Nat) :
    ((Eff.free x).apply s).core k = s.core k := rfl
@[simp] theorem core_after_spoilt (s : State) (l : List Nat) (k : Nat) :
    ((Eff.spoilt l).apply s).core k = s.core k := rfl
@[simp] theorem core_after_ecc (s : State) (e : Ecc) (k : Nat) :
    ((Eff.ecc e).apply s).core k = s.core k := rfl
@[simp] theorem cluster_after_byte (s : State) (a : Nat) (b : Byte) (k : Nat) :
    ((Eff.byte a b).apply s).cluster k = s.cluster k := rfl
@[simp] theorem cluster_after_half (s : State) (m : Nat) (x : Half) (k : Nat) :
    ((Eff.half m x).apply s).cluster k = s.cluster k := rfl
@[simp] theorem cluster_after_core (s : State) (m : Nat) (x : Core) (k : Nat) :
    ((Eff.core m x).apply s).cluster k = s.cluster k := rfl
@[simp] theorem cluster_after_station (s : State) (m : Nat) (x : Station) (k : Nat) :
    ((Eff.station m x).apply s).cluster k = s.cluster k := rfl
@[simp] theorem cluster_after_part (s : State) (m : Nat) (x : Option Part) (k : Nat) :
    ((Eff.part m x).apply s).cluster k = s.cluster k := rfl
@[simp] theorem cluster_after_task (s : State) (m : Nat) (x : Option Task) (k : Nat) :
    ((Eff.task m x).apply s).cluster k = s.cluster k := rfl
@[simp] theorem cluster_after_release (s : State) (m : Nat) (x : Option Release) (k : Nat) :
    ((Eff.release m x).apply s).cluster k = s.cluster k := rfl
@[simp] theorem cluster_after_releases (s : State) (m x : Nat) (k : Nat) :
    ((Eff.releases m x).apply s).cluster k = s.cluster k := rfl
@[simp] theorem cluster_after_tag (s : State) (m : Nat) (x : Option (BitVec 32)) (k : Nat) :
    ((Eff.tag m x).apply s).cluster k = s.cluster k := rfl
@[simp] theorem cluster_after_banks (s : State) (x : List Nat) (k : Nat) :
    ((Eff.banks x).apply s).cluster k = s.cluster k := rfl
@[simp] theorem cluster_after_deferred (s : State) (x : List Deferred) (k : Nat) :
    ((Eff.deferred x).apply s).cluster k = s.cluster k := rfl
@[simp] theorem cluster_after_net (s : State) (x : Net) (k : Nat) :
    ((Eff.net x).apply s).cluster k = s.cluster k := rfl
@[simp] theorem cluster_after_mf0 (s : State) (x : Mf0) (k : Nat) :
    ((Eff.mf0 x).apply s).cluster k = s.cluster k := rfl
@[simp] theorem cluster_after_fabric (s : State) (x : Fabric) (k : Nat) :
    ((Eff.fabric x).apply s).cluster k = s.cluster k := rfl
@[simp] theorem cluster_after_clock (s : State) (x : Clock) (k : Nat) :
    ((Eff.clock x).apply s).cluster k = s.cluster k := rfl
@[simp] theorem cluster_after_package (s : State) (x : Package) (k : Nat) :
    ((Eff.package x).apply s).cluster k = s.cluster k := rfl
@[simp] theorem cluster_after_free (s : State) (x : Nat) (k : Nat) :
    ((Eff.free x).apply s).cluster k = s.cluster k := rfl
@[simp] theorem cluster_after_spoilt (s : State) (l : List Nat) (k : Nat) :
    ((Eff.spoilt l).apply s).cluster k = s.cluster k := rfl
@[simp] theorem cluster_after_ecc (s : State) (e : Ecc) (k : Nat) :
    ((Eff.ecc e).apply s).cluster k = s.cluster k := rfl
@[simp] theorem station_after_byte (s : State) (a : Nat) (b : Byte) (k : Nat) :
    ((Eff.byte a b).apply s).station k = s.station k := rfl
@[simp] theorem station_after_half (s : State) (m : Nat) (x : Half) (k : Nat) :
    ((Eff.half m x).apply s).station k = s.station k := rfl
@[simp] theorem station_after_core (s : State) (m : Nat) (x : Core) (k : Nat) :
    ((Eff.core m x).apply s).station k = s.station k := rfl
@[simp] theorem station_after_cluster (s : State) (m : Nat) (x : Cluster) (k : Nat) :
    ((Eff.cluster m x).apply s).station k = s.station k := rfl
@[simp] theorem station_after_part (s : State) (m : Nat) (x : Option Part) (k : Nat) :
    ((Eff.part m x).apply s).station k = s.station k := rfl
@[simp] theorem station_after_task (s : State) (m : Nat) (x : Option Task) (k : Nat) :
    ((Eff.task m x).apply s).station k = s.station k := rfl
@[simp] theorem station_after_release (s : State) (m : Nat) (x : Option Release) (k : Nat) :
    ((Eff.release m x).apply s).station k = s.station k := rfl
@[simp] theorem station_after_releases (s : State) (m x : Nat) (k : Nat) :
    ((Eff.releases m x).apply s).station k = s.station k := rfl
@[simp] theorem station_after_tag (s : State) (m : Nat) (x : Option (BitVec 32)) (k : Nat) :
    ((Eff.tag m x).apply s).station k = s.station k := rfl
@[simp] theorem station_after_banks (s : State) (x : List Nat) (k : Nat) :
    ((Eff.banks x).apply s).station k = s.station k := rfl
@[simp] theorem station_after_deferred (s : State) (x : List Deferred) (k : Nat) :
    ((Eff.deferred x).apply s).station k = s.station k := rfl
@[simp] theorem station_after_net (s : State) (x : Net) (k : Nat) :
    ((Eff.net x).apply s).station k = s.station k := rfl
@[simp] theorem station_after_mf0 (s : State) (x : Mf0) (k : Nat) :
    ((Eff.mf0 x).apply s).station k = s.station k := rfl
@[simp] theorem station_after_fabric (s : State) (x : Fabric) (k : Nat) :
    ((Eff.fabric x).apply s).station k = s.station k := rfl
@[simp] theorem station_after_clock (s : State) (x : Clock) (k : Nat) :
    ((Eff.clock x).apply s).station k = s.station k := rfl
@[simp] theorem station_after_package (s : State) (x : Package) (k : Nat) :
    ((Eff.package x).apply s).station k = s.station k := rfl
@[simp] theorem station_after_free (s : State) (x : Nat) (k : Nat) :
    ((Eff.free x).apply s).station k = s.station k := rfl
@[simp] theorem station_after_spoilt (s : State) (l : List Nat) (k : Nat) :
    ((Eff.spoilt l).apply s).station k = s.station k := rfl
@[simp] theorem station_after_ecc (s : State) (e : Ecc) (k : Nat) :
    ((Eff.ecc e).apply s).station k = s.station k := rfl
@[simp] theorem taskOf_after_byte (s : State) (a : Nat) (b : Byte) (k : Nat) :
    ((Eff.byte a b).apply s).task? k = s.task? k := rfl
@[simp] theorem taskOf_after_half (s : State) (m : Nat) (x : Half) (k : Nat) :
    ((Eff.half m x).apply s).task? k = s.task? k := rfl
@[simp] theorem taskOf_after_core (s : State) (m : Nat) (x : Core) (k : Nat) :
    ((Eff.core m x).apply s).task? k = s.task? k := rfl
@[simp] theorem taskOf_after_cluster (s : State) (m : Nat) (x : Cluster) (k : Nat) :
    ((Eff.cluster m x).apply s).task? k = s.task? k := rfl
@[simp] theorem taskOf_after_station (s : State) (m : Nat) (x : Station) (k : Nat) :
    ((Eff.station m x).apply s).task? k = s.task? k := rfl
@[simp] theorem taskOf_after_part (s : State) (m : Nat) (x : Option Part) (k : Nat) :
    ((Eff.part m x).apply s).task? k = s.task? k := rfl
@[simp] theorem taskOf_after_release (s : State) (m : Nat) (x : Option Release) (k : Nat) :
    ((Eff.release m x).apply s).task? k = s.task? k := rfl
@[simp] theorem taskOf_after_releases (s : State) (m x : Nat) (k : Nat) :
    ((Eff.releases m x).apply s).task? k = s.task? k := rfl
@[simp] theorem taskOf_after_tag (s : State) (m : Nat) (x : Option (BitVec 32)) (k : Nat) :
    ((Eff.tag m x).apply s).task? k = s.task? k := rfl
@[simp] theorem taskOf_after_banks (s : State) (x : List Nat) (k : Nat) :
    ((Eff.banks x).apply s).task? k = s.task? k := rfl
@[simp] theorem taskOf_after_deferred (s : State) (x : List Deferred) (k : Nat) :
    ((Eff.deferred x).apply s).task? k = s.task? k := rfl
@[simp] theorem taskOf_after_net (s : State) (x : Net) (k : Nat) :
    ((Eff.net x).apply s).task? k = s.task? k := rfl
@[simp] theorem taskOf_after_mf0 (s : State) (x : Mf0) (k : Nat) :
    ((Eff.mf0 x).apply s).task? k = s.task? k := rfl
@[simp] theorem taskOf_after_fabric (s : State) (x : Fabric) (k : Nat) :
    ((Eff.fabric x).apply s).task? k = s.task? k := rfl
@[simp] theorem taskOf_after_clock (s : State) (x : Clock) (k : Nat) :
    ((Eff.clock x).apply s).task? k = s.task? k := rfl
@[simp] theorem taskOf_after_package (s : State) (x : Package) (k : Nat) :
    ((Eff.package x).apply s).task? k = s.task? k := rfl
@[simp] theorem taskOf_after_free (s : State) (x : Nat) (k : Nat) :
    ((Eff.free x).apply s).task? k = s.task? k := rfl
@[simp] theorem taskOf_after_spoilt (s : State) (l : List Nat) (k : Nat) :
    ((Eff.spoilt l).apply s).task? k = s.task? k := rfl
@[simp] theorem taskOf_after_ecc (s : State) (e : Ecc) (k : Nat) :
    ((Eff.ecc e).apply s).task? k = s.task? k := rfl
/-- The task that was written. -/
@[simp] theorem taskOf_after_same (s : State) (n : Nat) (x : Task) :
    ((Eff.task n (some x)).apply s).task? n = some x := by simp [State.task?, tset]
/-- Another task than the one that was written. -/
theorem taskOf_after_other (s : State) {n m : Nat} (h : m ≠ n) (x : Task) :
    ((Eff.task n (some x)).apply s).task? m = s.task? m := by simp [State.task?, tset, tget_tput_other h]
@[simp] theorem partOf_after_byte (s : State) (a : Nat) (b : Byte) (k : Nat) :
    ((Eff.byte a b).apply s).part? k = s.part? k := rfl
@[simp] theorem partOf_after_half (s : State) (m : Nat) (x : Half) (k : Nat) :
    ((Eff.half m x).apply s).part? k = s.part? k := rfl
@[simp] theorem partOf_after_core (s : State) (m : Nat) (x : Core) (k : Nat) :
    ((Eff.core m x).apply s).part? k = s.part? k := rfl
@[simp] theorem partOf_after_cluster (s : State) (m : Nat) (x : Cluster) (k : Nat) :
    ((Eff.cluster m x).apply s).part? k = s.part? k := rfl
@[simp] theorem partOf_after_station (s : State) (m : Nat) (x : Station) (k : Nat) :
    ((Eff.station m x).apply s).part? k = s.part? k := rfl
@[simp] theorem partOf_after_task (s : State) (m : Nat) (x : Option Task) (k : Nat) :
    ((Eff.task m x).apply s).part? k = s.part? k := rfl
@[simp] theorem partOf_after_release (s : State) (m : Nat) (x : Option Release) (k : Nat) :
    ((Eff.release m x).apply s).part? k = s.part? k := rfl
@[simp] theorem partOf_after_releases (s : State) (m x : Nat) (k : Nat) :
    ((Eff.releases m x).apply s).part? k = s.part? k := rfl
@[simp] theorem partOf_after_tag (s : State) (m : Nat) (x : Option (BitVec 32)) (k : Nat) :
    ((Eff.tag m x).apply s).part? k = s.part? k := rfl
@[simp] theorem partOf_after_banks (s : State) (x : List Nat) (k : Nat) :
    ((Eff.banks x).apply s).part? k = s.part? k := rfl
@[simp] theorem partOf_after_deferred (s : State) (x : List Deferred) (k : Nat) :
    ((Eff.deferred x).apply s).part? k = s.part? k := rfl
@[simp] theorem partOf_after_net (s : State) (x : Net) (k : Nat) :
    ((Eff.net x).apply s).part? k = s.part? k := rfl
@[simp] theorem partOf_after_mf0 (s : State) (x : Mf0) (k : Nat) :
    ((Eff.mf0 x).apply s).part? k = s.part? k := rfl
@[simp] theorem partOf_after_fabric (s : State) (x : Fabric) (k : Nat) :
    ((Eff.fabric x).apply s).part? k = s.part? k := rfl
@[simp] theorem partOf_after_clock (s : State) (x : Clock) (k : Nat) :
    ((Eff.clock x).apply s).part? k = s.part? k := rfl
@[simp] theorem partOf_after_package (s : State) (x : Package) (k : Nat) :
    ((Eff.package x).apply s).part? k = s.part? k := rfl
@[simp] theorem partOf_after_free (s : State) (x : Nat) (k : Nat) :
    ((Eff.free x).apply s).part? k = s.part? k := rfl
@[simp] theorem partOf_after_spoilt (s : State) (l : List Nat) (k : Nat) :
    ((Eff.spoilt l).apply s).part? k = s.part? k := rfl
@[simp] theorem partOf_after_ecc (s : State) (e : Ecc) (k : Nat) :
    ((Eff.ecc e).apply s).part? k = s.part? k := rfl
/-- The part that was written. -/
@[simp] theorem partOf_after_same (s : State) (n : Nat) (x : Part) :
    ((Eff.part n (some x)).apply s).part? n = some x := by simp [State.part?, tset]
/-- Another part than the one that was written. -/
theorem partOf_after_other (s : State) {n m : Nat} (h : m ≠ n) (x : Part) :
    ((Eff.part n (some x)).apply s).part? m = s.part? m := by simp [State.part?, tset, tget_tput_other h]

end Sys2Proof.Machine
end

