-- ==== Sys2Proof/Laws/Run.lean ====
section
/-! SUPPORT. Running a meaning: one equation for each way of building one, and what reading a register gives after a
register is written. -/
namespace Sys2Proof.Machine

/-! ### Meanings -/

@[simp] theorem run_done (s : State) : Mv.done.run s = s := rfl
@[simp] theorem run_eff (e : Eff) (k : Mv) (s : State) : (Mv.eff e k).run s = k.run (e.apply s) := rfl
@[simp] theorem run_look (k : State → Mv) (s : State) : (Mv.look k).run s = (k s).run s := rfl
@[simp] theorem run_one (e : Eff) (s : State) : (Mv.one e).run s = e.apply s := rfl

/-- One meaning runs after another. -/
@[simp] theorem run_andThen (k : Mv) : ∀ (m : Mv) (s : State), (m.andThen k).run s = k.run (m.run s)
  | .done, _ => rfl
  | .eff e m, s => run_andThen k m (e.apply s)
  | .look f, s => run_andThen k (f s) s

@[simp] theorem run_seq_nil (s : State) : (Mv.seq []).run s = s := rfl
@[simp] theorem run_seq_cons (m : Mv) (l : List Mv) (s : State) :
    (Mv.seq (m :: l)).run s = (Mv.seq l).run (m.run s) := by simp [Mv.seq]

@[simp] theorem run_when (c : Bool) (m : Mv) (s : State) : (Mv.when c m).run s = if c then m.run s else s := by
  cases c <;> rfl

@[simp] theorem run_each_nil {α : Type} (f : α → Mv) (s : State) : (Mv.each [] f).run s = s := rfl
@[simp] theorem run_each_cons {α : Type} (f : α → Mv) (x : α) (l : List α) (s : State) :
    (Mv.each (x :: l) f).run s = (Mv.each l f).run ((f x).run s) := by simp [Mv.each, Mv.seq]

@[simp] theorem run_upHalf (hid : Nat) (f : Half → Half) (s : State) :
    (upHalf hid f).run s = (Eff.half hid (f (s.half hid))).apply s := rfl
@[simp] theorem run_upCore (n : Nat) (f : Core → Core) (s : State) :
    (upCore n f).run s = (Eff.core n (f (s.core n))).apply s := rfl
@[simp] theorem run_upCluster (n : Nat) (f : Cluster → Cluster) (s : State) :
    (upCluster n f).run s = (Eff.cluster n (f (s.cluster n))).apply s := rfl
@[simp] theorem run_upStation (n : Nat) (f : Station → Station) (s : State) :
    (upStation n f).run s = (Eff.station n (f (s.station n))).apply s := rfl
@[simp] theorem run_upNet (f : Net → Net) (s : State) : (upNet f).run s = (Eff.net (f s.net)).apply s := rfl
@[simp] theorem run_upMf0 (f : Mf0 → Mf0) (s : State) : (upMf0 f).run s = (Eff.mf0 (f s.mf0)).apply s := rfl
@[simp] theorem run_upFabric (f : Fabric → Fabric) (s : State) :
    (upFabric f).run s = (Eff.fabric (f s.fabric)).apply s := rfl

theorem run_upPart_some {n : Nat} {p : Part} (f : Part → Part) {s : State} (h : s.part? n = some p) :
    (upPart n f).run s = (Eff.part n (some (f p))).apply s := by simp [upPart, h]

theorem run_upPart_none {n : Nat} (f : Part → Part) {s : State} (h : s.part? n = none) :
    (upPart n f).run s = s := by simp [upPart, h]

theorem run_upTask_some {n : Nat} {t : Task} (f : Task → Task) {s : State} (h : s.task? n = some t) :
    (upTask n f).run s = (Eff.task n (some (f t))).apply s := by simp [upTask, h]

theorem run_upTask_none {n : Nat} (f : Task → Task) {s : State} (h : s.task? n = none) :
    (upTask n f).run s = s := by simp [upTask, h]

@[simp] theorem run_withId (k : Nat → Mv) (s : State) :
    (withId k).run s = (k s.net.nextId).run ((Eff.net { s.net with nextId := s.net.nextId + 1 }).apply s) := rfl

@[simp] theorem run_withFree (k : Word → Mv) (s : State) :
    (withFree k).run s = (k (Config.freeWord s.free)).run ((Eff.free (s.free + 1)).apply s) := rfl

/-! ### Registers -/

/-- Reading the element that was set. -/
theorem vget_vset_same {α : Type} {n : Nat} (v : Vector α n) {i : Nat} (h : i < n) (x d : α) :
    vget (vset v i x) i d = x := by
  simp [vget, vset, h, List.getD]

/-- Reading another element than the one that was set. -/
theorem vget_vset_other {α : Type} {n : Nat} (v : Vector α n) {i j : Nat} (h : j ≠ i) (x d : α) :
    vget (vset v i x) j d = vget v j d := by
  simp [vget, vset, List.getD, Vector.toList_setIfInBounds, h.symm]

@[simp] theorem readS_zero (h : Half) : readS h 0 = 0 := rfl
@[simp] theorem readK_zero (h : Half) : readK h 0 = BitVec.allOnes 1024 := rfl
@[simp] theorem writeS_zero (h : Half) (w : Word) : writeS h 0 w = h := rfl
@[simp] theorem writeK_zero (h : Half) (m : Mask) : writeK h 0 m = h := rfl

/-- s[r] after it is written (R62). -/
theorem readS_writeS_same (h : Half) {r : Nat} (w : Word) (h0 : r ≠ 0) (hr : r < 32) : readS (writeS h r w) r = w := by
  simp [readS, writeS, h0, vget_vset_same _ hr]

/-- s[q] after another register is written. -/
theorem readS_writeS_other (h : Half) {r q : Nat} (w : Word) (hq : q ≠ r) : readS (writeS h r w) q = readS h q := by
  by_cases h0 : r = 0
  · simp [writeS, h0]
  · simp [readS, writeS, h0, vget_vset_other _ hq]

/-- v[r] after it is written. -/
theorem readV_writeV_same (h : Half) {r : Nat} (w : VReg) (hr : r < 32) : readV (writeV h r w) r = w := by
  simp [readV, writeV, vget_vset_same _ hr]

/-- v[q] after another register is written. -/
theorem readV_writeV_other (h : Half) {r q : Nat} (w : VReg) (hq : q ≠ r) : readV (writeV h r w) q = readV h q := by
  simp [readV, writeV, vget_vset_other _ hq]

/-- k[r] after it is written (R62). -/
theorem readK_writeK_same (h : Half) {r : Nat} (m : Mask) (h0 : r ≠ 0) (hr : r < 8) : readK (writeK h r m) r = m := by
  simp [readK, writeK, h0, vget_vset_same _ hr]

/-- k[q] after another register is written. -/
theorem readK_writeK_other (h : Half) {r q : Nat} (m : Mask) (hq : q ≠ r) : readK (writeK h r m) q = readK h q := by
  by_cases h0 : r = 0
  · simp [writeK, h0]
  · simp [readK, writeK, h0, vget_vset_other _ hq]

/-- a[r] after it is written. -/
theorem readA_writeA_same (h : Half) {r : Nat} (x : Acc) (hr : r < 4) : readA (writeA h r x) r = x := by
  simp [readA, writeA, vget_vset_same _ hr]

/-- a[q] after another register is written. -/
theorem readA_writeA_other (h : Half) {r q : Nat} (x : Acc) (hq : q ≠ r) : readA (writeA h r x) q = readA h q := by
  simp [readA, writeA, vget_vset_other _ hq]

@[simp] theorem readV_writeS (h : Half) (r q : Nat) (w : Word) : readV (writeS h r w) q = readV h q := by
  unfold writeS; split <;> rfl
@[simp] theorem readK_writeS (h : Half) (r q : Nat) (w : Word) : readK (writeS h r w) q = readK h q := by
  unfold writeS; split <;> rfl
@[simp] theorem readA_writeS (h : Half) (r q : Nat) (w : Word) : readA (writeS h r w) q = readA h q := by
  unfold writeS; split <;> rfl
@[simp] theorem ctl_writeS (h : Half) (r : Nat) (w : Word) : (writeS h r w).ctl = h.ctl := by
  unfold writeS; split <;> rfl
@[simp] theorem readS_writeK (h : Half) (r q : Nat) (m : Mask) : readS (writeK h r m) q = readS h q := by
  unfold writeK; split <;> rfl
@[simp] theorem readV_writeK (h : Half) (r q : Nat) (m : Mask) : readV (writeK h r m) q = readV h q := by
  unfold writeK; split <;> rfl
@[simp] theorem readA_writeK (h : Half) (r q : Nat) (m : Mask) : readA (writeK h r m) q = readA h q := by
  unfold writeK; split <;> rfl
@[simp] theorem ctl_writeK (h : Half) (r : Nat) (m : Mask) : (writeK h r m).ctl = h.ctl := by
  unfold writeK; split <;> rfl
@[simp] theorem readS_writeV (h : Half) (r q : Nat) (w : VReg) : readS (writeV h r w) q = readS h q := rfl
@[simp] theorem readK_writeV (h : Half) (r q : Nat) (w : VReg) : readK (writeV h r w) q = readK h q := rfl
@[simp] theorem readA_writeV (h : Half) (r q : Nat) (w : VReg) : readA (writeV h r w) q = readA h q := rfl
@[simp] theorem ctl_writeV (h : Half) (r : Nat) (w : VReg) : (writeV h r w).ctl = h.ctl := rfl
@[simp] theorem readS_writeA (h : Half) (r q : Nat) (x : Acc) : readS (writeA h r x) q = readS h q := rfl
@[simp] theorem readV_writeA (h : Half) (r q : Nat) (x : Acc) : readV (writeA h r x) q = readV h q := rfl
@[simp] theorem readK_writeA (h : Half) (r q : Nat) (x : Acc) : readK (writeA h r x) q = readK h q := rfl
@[simp] theorem ctl_writeA (h : Half) (r : Nat) (x : Acc) : (writeA h r x).ctl = h.ctl := rfl

end Sys2Proof.Machine
end

