-- ==== Sys2Proof/Laws/Frame.lean ====
section
/-! SUPPORT. What a meaning leaves alone: a property of all its effects carries over to its run; the fetch of code depends
on memory, stations, partitions and clusters alone; bytes written are the bytes read. -/
namespace Sys2Proof.Machine

/-! ### The effects of a meaning -/

/-- Every effect of a meaning has a property, whatever the machine it runs on. -/
def Mv.all (p : Eff → Bool) : Mv → Prop
  | .done => True
  | .eff e k => p e = true ∧ k.all p
  | .look k => ∀ s, (k s).all p

/-- What none of a meaning's effects changes, its run does not change. -/
theorem Mv.run_keeps {β : Type} {p : Eff → Bool} {g : State → β} (hp : ∀ s e, p e = true → g (e.apply s) = g s) :
    ∀ (m : Mv) (s : State), m.all p → g (m.run s) = g s
  | .done, _, _ => rfl
  | .eff e k, s, h => (run_keeps hp k (e.apply s) h.2).trans (hp s e h.1)
  | .look k, s, h => run_keeps hp (k s) s (h s)

theorem Mv.all_andThen {p : Eff → Bool} {k : Mv} (hk : k.all p) : ∀ {m : Mv}, m.all p → (m.andThen k).all p
  | .done, _ => hk
  | .eff _ _, h => ⟨h.1, all_andThen hk h.2⟩
  | .look _, h => fun s => all_andThen hk (h s)

theorem Mv.all_seq {p : Eff → Bool} : ∀ {l : List Mv}, (∀ m ∈ l, m.all p) → (Mv.seq l).all p
  | [], _ => trivial
  | m :: _, h => all_andThen (all_seq fun x hx => h x (List.mem_cons_of_mem m hx)) (h m List.mem_cons_self)

theorem Mv.all_each {α : Type} {p : Eff → Bool} {l : List α} {f : α → Mv} (h : ∀ x ∈ l, (f x).all p) : (Mv.each l f).all p :=
  all_seq fun m hm => by
    obtain ⟨x, hx, rfl⟩ := List.mem_map.mp hm
    exact h x hx

theorem Mv.all_when {p : Eff → Bool} {c : Bool} {m : Mv} (h : m.all p) : (Mv.when c m).all p := by
  cases c
  · exact trivial
  · exact h

theorem Mv.all_one {p : Eff → Bool} {e : Eff} (h : p e = true) : (Mv.one e).all p := ⟨h, trivial⟩

theorem Mv.all_upPart {p : Eff → Bool} {n : Nat} {f : Part → Part} (h : ∀ x, p (.part n x) = true) : (upPart n f).all p := by
  intro s; dsimp only; split
  · exact ⟨h _, trivial⟩
  · exact trivial

theorem Mv.all_upTask {p : Eff → Bool} {n : Nat} {f : Task → Task} (h : ∀ x, p (.task n x) = true) : (upTask n f).all p := by
  intro s; dsimp only; split
  · exact ⟨h _, trivial⟩
  · exact trivial

theorem Mv.all_upHalf {p : Eff → Bool} {n : Nat} {f : Half → Half} (h : ∀ x, p (.half n x) = true) : (upHalf n f).all p :=
  fun _ => ⟨h _, trivial⟩

theorem Mv.all_upCore {p : Eff → Bool} {n : Nat} {f : Core → Core} (h : ∀ x, p (.core n x) = true) : (upCore n f).all p :=
  fun _ => ⟨h _, trivial⟩

theorem Mv.all_upCluster {p : Eff → Bool} {n : Nat} {f : Cluster → Cluster} (h : ∀ x, p (.cluster n x) = true) :
    (upCluster n f).all p := fun _ => ⟨h _, trivial⟩

theorem Mv.all_upStation {p : Eff → Bool} {n : Nat} {f : Station → Station} (h : ∀ x, p (.station n x) = true) :
    (upStation n f).all p := fun _ => ⟨h _, trivial⟩

theorem Mv.all_upNet {p : Eff → Bool} {f : Net → Net} (h : ∀ x, p (.net x) = true) : (upNet f).all p :=
  fun _ => ⟨h _, trivial⟩

theorem Mv.all_pokeBytes {p : Eff → Bool} {a : Nat} {l : List Byte} (h : ∀ x y, p (.byte x y) = true) :
    (pokeBytes a l).all p := all_each fun _ _ => ⟨h _ _, trivial⟩

/-! ### The fetch of code -/

/-- Two machines whose code reads the same. -/
structure SameCode (s t : State) : Prop where
  mem : t.mem = s.mem
  package : t.package = s.package
  stations : t.stations = s.stations
  parts : t.parts = s.parts
  fabric : t.fabric = s.fabric
  ratBanks : t.ratBanks = s.ratBanks
  reqs : t.net.reqs = s.net.reqs
  owners : ∀ c, t.partOf c = s.partOf c

theorem extent_same {s t : State} (h : SameCode s t) : t.extent = s.extent := by
  unfold State.extent State.detImage
  rw [h.package, h.parts]

theorem walkFrom_same {s t : State} (h : SameCode s t) (sec : Bool) (asid va : Nat) :
    ∀ (l : List (Nat × Nat)) (a : Nat), walkFrom t sec asid va l a = walkFrom s sec asid va l a
  | [], _ => rfl
  | (_, _) :: l, a => by
    unfold walkFrom
    simp only [State.localPa, State.blockSecure, groupAgrees, State.hasRetired, extent_same h, h.mem, h.package, h.parts,
      h.fabric, walkFrom_same h sec asid va l]
    rfl

theorem fetchParcel_same {s t : State} (h : SameCode s t) (c : Nat) (a : Word) : fetchParcel t c a = fetchParcel s c a := by
  have hp : t.party c = s.party c := by
    simp only [State.party, State.asidOf, State.secure, State.part?, h.owners, h.parts]
  have hg : ∀ r p k x, t.grant r p k x = s.grant r p k x := by
    intro r p k x
    simp only [State.grant, State.localPa, State.blockSecure, extent_same h, h.package, h.parts]
    rfl
  have hl : ∀ p k x, lookup t p k x = lookup s p k x := by
    intro p k x
    simp only [lookup, State.station, State.hasRetired, State.localPa, h.stations, h.fabric, h.package, hg]
    rfl
  have hw : ∀ sec asid x, walk t sec asid x = walk s sec asid x := by
    intro sec asid x
    simp only [walk, h.mem, h.package, walkFrom_same h]
  have ht : ∀ p k x, translate t p k x = translate s p k x := by
    intro p k x
    simp only [translate, mapped, hl, hw, hg, State.walkRoom, State.records, h.reqs]
    rfl
  have hr : ∀ x, t.reach x = s.reach x := by
    intro x
    simp only [State.reach, State.localPa, extent_same h, h.package]
  have hd : ∀ x, t.readable x = s.readable x := by
    intro x
    simp only [State.readable, State.beyondCells, State.inRatBank, extent_same h, h.ratBanks]
  simp only [fetchParcel, hp, ht, hr, hd, h.mem]

/-- A header reads the same. -/
theorem fetchHeader_same {s t : State} (h : SameCode s t) (c : Nat) (a : Word) : fetchHeader t c a = fetchHeader s c a := by
  simp only [fetchHeader, fetchParcel_same h]

theorem SameCode.refl (s : State) : SameCode s s := ⟨rfl, rfl, rfl, rfl, rfl, rfl, rfl, fun _ => rfl⟩

/-- The partition of a core, when a cluster is changed but not its partition. -/
theorem partOf_cluster {s t : State} {n : Nat} {c : Cluster} (h : t.clusters = tput s.clusters n c)
    (hc : c.part = (s.cluster n).part) (x : Nat) : t.partOf x = s.partOf x := by
  simp only [State.partOf, State.cluster, h]
  by_cases hx : clusterOf x = n
  · rw [hx, tgetD_tput_same, hc]; rfl
  · rw [tgetD_tput_other hx]

/-- Retiring leaves the code as it was. -/
theorem sameCode_retired (s : State) (len : Nat) (h : Half) : SameCode s (s.retired len h) :=
  ⟨rfl, rfl, rfl, rfl, rfl, rfl, rfl, partOf_cluster (n := clusterOf s.curCore) (c := (s.cluster (clusterOf s.curCore)).counted) rfl rfl⟩

/-! ### Bytes -/

/-- A byte after bytes are written from `a` up. -/
theorem memGet_poked : ∀ (l : List Byte) (s : State) (a x : Nat), trising s.mem = true →
    memGet (s.poked a l).mem x = if a ≤ x ∧ x < a + l.length then l.getD (x - a) 0 else memGet s.mem x
  | [], s, a, x, _ => by
    rw [if_neg (by simp only [List.length_nil]; omega)]; rfl
  | b :: l, s, a, x, h => by
    have hr : trising (memSet s.mem a b) = true := by
      unfold memSet; split
      · exact trising_tdel _ h
      · exact trising_tput _ _ h
    show memGet (State.poked { s with mem := memSet s.mem a b, spoilt := s.spoilt.filter (· != a / 8 * 8) } (a + 1) l).mem x = _
    rw [memGet_poked l _ (a + 1) x hr]
    by_cases hx : x = a
    · subst hx
      rw [if_neg (by omega), if_pos ⟨Nat.le_refl _, by simp⟩, memGet_memSet_same _ _ h, Nat.sub_self]
      rfl
    · by_cases hin : a ≤ x ∧ x < a + (b :: l).length
      · have h1 := hin.1; have h2 := hin.2
        simp only [List.length_cons] at h2
        rw [if_pos hin, if_pos (by omega)]
        rw [show x - a = (x - (a + 1)) + 1 by omega]
        rfl
      · rw [if_neg hin, if_neg (by simp only [List.length_cons] at hin; omega), memGet_memSet_other _ h hx]

/-- Writing bytes is a machine with those bytes poked. -/
theorem run_pokeBytes_from : ∀ (l : List Byte) (n a : Nat) (s : State),
    (Mv.each (l.zipIdx n) fun x => .one (.byte (a + x.2) x.1)).run s = s.poked (a + n) l
  | [], _, _, _ => rfl
  | b :: l, n, a, s => by
    rw [List.zipIdx_cons, run_each_cons, run_one, run_pokeBytes_from l (n + 1) a]
    rfl

theorem run_pokeBytes (l : List Byte) (a : Nat) (s : State) : (pokeBytes a l).run s = s.poked a l := by
  rw [pokeBytes, run_pokeBytes_from]; rfl

/-- Writing bytes changes memory alone, and the words that stay uncorrectable. -/
theorem poked_other : ∀ (l : List Byte) (s : State) (a : Nat),
    s.poked a l = { s with mem := (s.poked a l).mem, spoilt := (s.poked a l).spoilt }
  | [], _, _ => rfl
  | b :: l, s, a => by
    show State.poked { s with mem := memSet s.mem a b, spoilt := s.spoilt.filter (· != a / 8 * 8) } (a + 1) l = _
    rw [poked_other l _ (a + 1)]
    rfl

/-- Where no word stays uncorrectable, writing bytes leaves none. -/
theorem spoilt_poked : ∀ (l : List Byte) {s : State} (a : Nat), s.spoilt = [] → (s.poked a l).spoilt = []
  | [], _, _, h => h
  | _ :: l, _, a, h => spoilt_poked l (a + 1) (by simp [h])

end Sys2Proof.Machine
end

