-- ==== Sys2Proof/Laws/Issue.lean ====
section
/-! SUPPORT. What issue and retirement do: a ready instruction runs its body, and ending a body retires it. -/
namespace Sys2Proof.Machine

/-- A ready instruction belongs to a task. -/
theorem State.ready_task {s : State} {i : Instr} {sp : Spec} (h : s.ready i sp = true) :
    ∃ t, s.task? s.curHalf.tid = some t := by
  simp only [State.ready, State.between, Bool.and_eq_true] at h
  exact Option.isSome_iff_exists.mp h.1.1.1.1.1.1.1.1.1.1.1.1.1.1.1

/-- The source check passes when every source is ready. -/
theorem sourceCheck_ready (h : Half) : ∀ l : List Src, sourcesReady h l = true → sourceCheck h l = none
  | [], _ => rfl
  | x :: l, hl => by
    simp only [sourcesReady, List.all_cons, Bool.and_eq_true, Bool.not_eq_true'] at hl
    simp only [sourceCheck, hl.1.1, hl.1.2, Bool.not_true, Bool.false_eq_true, if_false]
    exact sourceCheck_ready h l hl.2

/-- The fall-through check passes when code goes on. -/
theorem fallCheck_continues {s : State} {len : Nat} (h : s.continues len = true) :
    s.fallCheck s.cur s.curHalf len = .go := by
  unfold State.continues at h
  unfold State.fallCheck
  split
  · rename_i he
    simp only [he, ne_eq, not_true_eq_false, decide_false, Bool.false_or] at h
    have hc : s.curCore = coreOf s.cur := rfl
    rw [hc] at h
    cases hp : fetchParcel s (coreOf s.cur) (pcOf s.curHalf + word (4 * len)) with
    | ok p => rw [hp] at h; simp only [hp]; rw [if_pos h]
    | fault => simp [hp] at h
    | refused => simp [hp] at h
  · rfl

/-- A ready instruction passes the issue checks. -/
theorem State.ready_go {s : State} {i : Instr} {sp : Spec} (h : s.ready i sp = true) :
    issueCheck s s.cur i sp = .go := by
  obtain ⟨t, ht⟩ := State.ready_task h
  have ht' : s.task? (s.half s.cur).tid = some t := ht
  simp only [State.ready, State.between, State.allowed, State.curHalf, State.curCore, Bool.and_eq_true,
    Bool.not_eq_true', List.isEmpty_iff, predicateOn, Option.isNone_iff_eq_none, ht'] at h
  obtain ⟨⟨⟨⟨⟨⟨⟨hb, ha⟩, hp⟩, hs⟩, hd, hv⟩, hq⟩, hf⟩, hss⟩ := h
  obtain ⟨⟨⟨⟨⟨⟨⟨⟨_, hl⟩, htr⟩, hen⟩, hho⟩, hre⟩, hrp⟩, hqf⟩, hft⟩ := hb
  obtain ⟨⟨⟨hab, hpr⟩, hwf⟩, hill⟩ := ha
  obtain ⟨hp1, hp2⟩ := hp
  replace hl := of_decide_eq_true hl
  replace hrp := of_decide_eq_true hrp
  replace hv := of_decide_eq_true hv
  unfold issueCheck
  simp only [ht']
  rw [if_neg (by simp [hl, htr, hen, hho])]
  rw [if_neg (by simp [hqf]; omega)]
  rw [if_neg (by intro h; simp_all)]
  rw [if_neg (by simp [hab])]
  rw [if_neg (by simp only [Bool.and_eq_true, Bool.not_eq_true']; rintro ⟨h1, h2⟩; simp [h1, h2] at hpr)]
  rw [if_neg (by simp [hwf, hill])]
  simp only [hre]
  have hk : ¬ (sp.k.getD 0 ≠ 0 ∧ (isFull (s.half s.cur) (.k (sp.k.getD 0).toNat) = false
      ∨ isBusy (s.half s.cur) (.k (sp.k.getD 0).toNat) = true)) := by
    rintro ⟨h1, h2⟩
    rw [Bool.or_eq_true, beq_iff_eq, Bool.and_eq_true, Bool.not_eq_true'] at hp1
    rcases hp1 with hp1 | ⟨h3, h4⟩
    · exact h1 hp1
    · rcases h2 with h2 | h2
      · rw [h3] at h2; exact absurd h2 (by decide)
      · rw [h4] at h2; exact absurd h2 (by decide)
  rw [if_neg hk]
  have hb : ¬ (sp.scalar = true ∧ bit0 (readK (s.half s.cur) (sp.k.getD 0).toNat) = false) := by
    rintro ⟨h1, h2⟩
    rw [h1, h2] at hp2
    exact absurd hp2 (by decide)
  rw [if_neg hb, sourceCheck_ready _ _ hs]
  simp only [hd, Bool.not_true, Bool.false_or]
  rw [if_neg (by simp only [decide_eq_true_eq]; omega)]
  have hacq : ¬ ((isAccess i && s.acquiring (s.half s.cur).tid) = true) := by simpa using hq
  rw [if_neg hacq]
  split
  · rename_i hft
    simp only [hft, Bool.not_true, Bool.false_or] at hf
    exact fallCheck_continues (by simpa using hf)
  · rfl

/-- A ready instruction runs its body. -/
theorem run_issue {s : State} {i : Instr} {sp : Spec} (h : s.ready i sp = true) (body : Ctx → Mv) :
    (issue i sp body).run s = (body (s.ctx i sp)).run s := by
  obtain ⟨t, ht⟩ := State.ready_task h
  have ht' : s.task? (s.half s.cur).tid = some t := ht
  simp only [issue, run_look, ht', State.ready_go h, State.ctx, ht]
  rfl

/-- A meaning that is an issue, performed when ready. -/
theorem perform_issue {s : State} {i : Instr} {sp : Spec} (h : s.ready i sp = true) (body : Ctx → Mv) :
    perform (issue i sp body) s = .next ((body (s.ctx i sp)).run s) := by
  simp only [perform, run_issue h]

/-! ### The context -/

@[simp] theorem ctx_hid (s : State) (i : Instr) (sp : Spec) : (s.ctx i sp).hid = s.cur := by
  unfold State.ctx; split <;> rfl
@[simp] theorem ctx_core (s : State) (i : Instr) (sp : Spec) : (s.ctx i sp).core = s.curCore := by
  unfold State.ctx; split <;> rfl
@[simp] theorem ctx_h (s : State) (i : Instr) (sp : Spec) : (s.ctx i sp).h = s.curHalf := by
  unfold State.ctx; split <;> rfl
@[simp] theorem ctx_tid (s : State) (i : Instr) (sp : Spec) : (s.ctx i sp).tid = s.curHalf.tid := by
  unfold State.ctx; split <;> rfl
@[simp] theorem ctx_len (s : State) (i : Instr) (sp : Spec) : (s.ctx i sp).len = parcelCount i := by
  unfold State.ctx; split <;> rfl

/-- What a ready instruction does not issue again. -/
theorem State.ready_fresh {s : State} {i : Instr} {sp : Spec} (h : s.ready i sp = true) :
    s.curHalf.reissue = none := by
  simp only [State.ready, State.between, Bool.and_eq_true, Option.isNone_iff_eq_none] at h
  exact h.1.1.1.1.1.1.1.1.1.1.2

/-- A ready instruction is not single-stepped. -/
theorem State.ready_ss {s : State} {i : Instr} {sp : Spec} (h : s.ready i sp = true) :
    s.curHalf.ctl.ss = false := by
  simp only [State.ready, Bool.and_eq_true, Bool.not_eq_true'] at h
  exact h.2

/-- The address of a ready instruction is the resume point's. -/
theorem ctx_addr {s : State} {i : Instr} {sp : Spec} (h : s.curHalf.reissue = none) :
    (s.ctx i sp).addr = pcOf s.curHalf := by
  unfold State.ctx; split <;> simp only [ctxOf, h]

/-- The value of a field of a ready instruction. -/
theorem fieldValue_fresh {h : Half} (sp : Spec) (n : Nat) (hr : h.reissue = none) :
    fieldValue h sp n = match sp.srcs.find? fun x => x.fld == n with
      | some x => (match x.reg with | .s r => readS h r | _ => 0)
      | none => 0 := by
  unfold fieldValue
  rw [hr]
  all_goals rfl

theorem ctx_a {s : State} {i : Instr} {sp : Spec} : (s.ctx i sp).a = fieldValue s.curHalf sp 1 := by
  unfold State.ctx; split <;> rfl
theorem ctx_b {s : State} {i : Instr} {sp : Spec} : (s.ctx i sp).b = fieldValue s.curHalf sp 2 := by
  unfold State.ctx; split <;> rfl
theorem ctx_c {s : State} {i : Instr} {sp : Spec} : (s.ctx i sp).c = fieldValue s.curHalf sp 3 := by
  unfold State.ctx; split <;> rfl

/-- k[K] of a ready instruction. -/
theorem ctx_kmask {s : State} {i : Instr} {sp : Spec} (h : s.curHalf.reissue = none) :
    (s.ctx i sp).kmask = readK s.curHalf (sp.k.getD 0).toNat := by
  unfold State.ctx; split <;> simp only [ctxOf, h]

/-- LANES and k[K] of a ready instruction. -/
theorem ctx_vmask {s : State} {i : Instr} {sp : Spec} (h : s.curHalf.reissue = none) :
    (s.ctx i sp).vmask = readK s.curHalf (sp.k.getD 0).toNat &&& s.curHalf.lanes := by
  unfold State.ctx; split <;> simp only [ctxOf, h]

/-- The task of a ready instruction. -/
theorem ctx_task {s : State} {i : Instr} {sp : Spec} {t : Task} (h : s.task? s.curHalf.tid = some t) :
    (s.ctx i sp).task = t := by
  simp only [State.ctx, h, ctxOf]

/-! ### Retirement -/

/-- The cluster counters that select an event, one more. -/
theorem countPerf_one (c : Cluster) :
    ({ c with perf := tmap (fun _ p => if p.sel.getLsbD 15 && wbits p.sel 7 0 == 2
        then { p with count := p.count + BitVec.ofNat 64 1 } else p) c.perf } : Cluster) = c.counted := rfl

/-- Retiring an instruction that nothing steps, of a half that issues nothing again. -/
theorem run_retire {s : State} {c : Ctx} (hid : c.hid = s.cur) (hss : c.h.ctl.ss = false)
    (hr : s.curHalf.reissue = none) : (retire c).run s = s.retired c.len s.curHalf := by
  have hr' : (s.half s.cur).reissue = none := hr
  simp only [retire, retireNow, markIssued, run_seq_cons, run_seq_nil, countRetired, run_look, run_andThen, run_upCore, countPerf,
    run_upCluster, advance, hid, stepTrap, hss, raiseAll, half_after_core, half_after_cluster, hr',
    run_upHalf, Bool.false_and, Bool.false_eq_true, if_false, run_done]
  simp only [State.retired, State.curHalf, State.curCore, Eff.apply, Half.stepped, State.core, State.cluster, State.half,
    State.det, State.part?, State.partOf, tput_tput, tgetD_tput_same] at hr' ⊢
  simp only [hr']
  rfl

/-- An instruction that nothing steps has issued, of a half that issues nothing again. -/
theorem run_issued {s : State} {c : Ctx} (hid : c.hid = s.cur) (hss : c.h.ctl.ss = false)
    (hr : s.curHalf.reissue = none) : (issued c).run s = s.going c.len s.curHalf := by
  have hr' : (s.half s.cur).reissue = none := hr
  simp only [issued, markIssued, run_seq_cons, run_seq_nil, run_look, run_upCore, advance, hid, stepTrap, hss, raiseAll,
    half_after_core, hr', run_upHalf, Bool.false_and, Bool.false_eq_true, if_false, run_done]
  simp only [State.going, State.curHalf, State.curCore, Eff.apply, Half.stepped, State.half] at hr' ⊢
  simp only [hr']

@[simp] theorem supersede_reissue (h : Half) (n : Nat) (l : List Reg) : (h.supersede n l).reissue = h.reissue := rfl

/-- An instruction without a destination supersedes nothing. -/
@[simp] theorem supersede_nil (h : Half) (n : Nat) : h.supersede n [] = h := by
  simp [Half.supersede, Half.newVersions]

@[simp] theorem ctx_dsts (s : State) (i : Instr) (sp : Spec) : (s.ctx i sp).dsts = sp.dsts := by
  unfold State.ctx; split <;> rfl

/-- Doing something to the half, then retiring. -/
theorem run_finish {s : State} {c : Ctx} (f : Half → Half) (hid : c.hid = s.cur) (hss : c.h.ctl.ss = false)
    (hr : (f s.curHalf).reissue = none) :
    (finish c f).run s = s.retired c.len ((f s.curHalf).supersede c.h.seq c.dsts) := by
  simp only [finish, run_andThen, run_upHalf, hid]
  have h1 : ((Eff.half s.cur ((f (s.half s.cur)).supersede c.h.seq c.dsts)).apply s).curHalf = (f s.curHalf).supersede c.h.seq c.dsts := by
    simp [State.curHalf]
  rw [run_retire (by simpa using hid) hss (by rw [h1]; simpa using hr), h1]
  simp only [State.retired, Eff.apply, State.curCore, State.core, State.cluster, State.partOf, State.det, State.part?,
    tput_tput]

/-- Doing something to the half, and keeping the instruction in the replay queue. -/
theorem run_hold {s : State} {c : Ctx} (f : Half → Half) (hid : c.hid = s.cur) (hss : c.h.ctl.ss = false)
    (hr : (f s.curHalf).reissue = none) :
    (hold c f).run s = s.going c.len ((holdEntry c (f s.curHalf)).supersede c.h.seq c.dsts) := by
  simp only [hold, run_andThen, run_upHalf, hid]
  have h1 : ((Eff.half s.cur ((holdEntry c (f (s.half s.cur))).supersede c.h.seq c.dsts)).apply s).curHalf
      = (holdEntry c (f s.curHalf)).supersede c.h.seq c.dsts := by simp [State.curHalf]
  rw [run_issued (by simpa using hid) hss (by rw [h1]; exact hr), h1]
  simp only [State.going, Eff.apply, State.curCore, State.core, tput_tput]

/-- A meaning that issues and then only changes the half, performed when ready. -/
theorem perform_finish {s : State} {i : Instr} {sp : Spec} (h : s.ready i sp = true) (f : Ctx → Half → Half) {x : Half}
    (hf : f (s.ctx i sp) s.curHalf = x) (hx : x.reissue = none) :
    perform (issue i sp fun c => finish c (f c)) s = .next (s.retired (parcelCount i) (x.supersede s.curHalf.seq sp.dsts)) := by
  rw [perform_issue h, run_finish _ (by simp) (by rw [ctx_h]; exact State.ready_ss h) (by rw [hf]; exact hx), hf, ctx_len, ctx_dsts, ctx_h]

/-- An instruction that runs is ready with its operands. -/
theorem State.runs_ready {s : State} {i : Instr} (h : s.runs i = true) : s.ready i (operandsOf i) = true := by
  simp only [State.runs, Bool.and_eq_true] at h
  exact h.2

@[simp] theorem writeS_reissue (h : Half) (r : Nat) (w : Word) : (writeS h r w).reissue = h.reissue := by
  unfold writeS; split <;> rfl
@[simp] theorem writeV_reissue (h : Half) (r : Nat) (w : VReg) : (writeV h r w).reissue = h.reissue := rfl
@[simp] theorem writeK_reissue (h : Half) (r : Nat) (m : Mask) : (writeK h r m).reissue = h.reissue := by
  unfold writeK; split <;> rfl
@[simp] theorem writeA_reissue (h : Half) (r : Nat) (x : Acc) : (writeA h r x).reissue = h.reissue := rfl
@[simp] theorem markEmpty_reissue (h : Half) (r : Reg) : (markEmpty h r).reissue = h.reissue := by
  unfold markEmpty; split <;> (try split) <;> rfl
@[simp] theorem markBusy_reissue (h : Half) (r : Reg) : (markBusy h r).reissue = h.reissue := by
  unfold markBusy; split <;> (try split) <;> rfl
@[simp] theorem markBusy_all_reissue (l : List Reg) (h : Half) : (l.foldl markBusy h).reissue = h.reissue := by
  induction l generalizing h with
  | nil => rfl
  | cons r l ih => rw [List.foldl_cons, ih, markBusy_reissue]
@[simp] theorem holdEntry_reissue (c : Ctx) (h : Half) : (holdEntry c h).reissue = h.reissue := rfl

/-- A meaning of an instruction that runs and only changes the half, performed. -/
theorem perform_ran {s : State} {i : Instr} (h : s.runs i = true) (f : Ctx → Half → Half) {x : Half}
    (hf : f (s.seen i) s.curHalf = x) (hx : x.reissue = none) :
    perform (issue i (operandsOf i) fun c => finish c (f c)) s = .next (s.ran i x) :=
  perform_finish (State.runs_ready h) f hf hx

/-- A meaning of a multi-clk instruction, performed when ready: its results stand in the half and are in flight (R80). -/
theorem perform_finishLater {s : State} {i : Instr} (h : s.runs i = true) (fl : Flags) (fp : Bool) (f : Ctx → Half → Half) {x : Half}
    (hf : f (s.seen i) s.curHalf = x) (hx : x.reissue = none) :
    perform (issue i (operandsOf i) fun c => finishLater c fl fp (f c)) s = .next (s.running i fl fp x) := by
  have hr := State.runs_ready h
  have hc : ∀ v : Net, ((Eff.net v).apply s).curHalf = s.curHalf := fun _ => rfl
  rw [perform_issue hr]
  simp only [finishLater, sendFill, run_seq_cons, run_seq_nil, run_upNet]
  rw [run_hold _ (by simp) (by rw [ctx_h]; exact State.ready_ss hr)
    (by rw [hc, markBusy_all_reissue]; exact (congrArg Half.reissue hf).trans hx), hc]
  simp only [ctx_dsts, ctx_len, ctx_hid, ctx_tid, ctx_h, holdEntry]
  rw [show f (s.ctx i (operandsOf i)) s.curHalf = x from hf]
  rfl

end Sys2Proof.Machine
end

