-- ==== Sys2Proof/Laws/Issued.lean ====
section
/-! SUPPORT. Every instruction's meaning is an issue with the operands of Machine/Arbiter.lean: the checks of R76, then a body. -/
set_option Elab.async false
namespace Sys2Proof.Machine

/-- The meaning of an instruction is the issue checks with these operands, then a body that sees the half at issue. -/
def IsIssue (i : Instr) (sp : Spec) : Prop := ∃ body : Ctx → Mv, ∀ s, exec i s = perform (issue i sp body) s

theorem IsIssue.of {i : Instr} {sp : Spec} {m : Mv} {body : Ctx → Mv} (h : ∀ s, exec i s = perform m s)
    (hm : m = issue i sp body) : IsIssue i sp := ⟨body, fun s => by rw [h, hm]⟩

/-! ### The shared shapes -/

theorem varith_is (i : Instr) (f : FL) (op : VOp) (ub uc : Bool) : ∃ b, varith i f op ub uc =
    issue i (specV f ([vsrc 1 f.r.a.toNat f.r.wa] ++ (if ub then [bsrc f] else [])
      ++ (if uc then [vsrc 3 f.c.toNat f.wc] else []))) b := by unfold varith; exact ⟨_, rfl⟩

theorem vwide_is (i : Instr) (f : FL) (op : VOp) : ∃ b, vwide i f op =
    issue i ⟨some f.r.k, false, [vsrc 1 f.r.a.toNat f.r.wa, vsrc 2 f.r.b.toNat f.r.wb], vgroup f.r.d.toNat 2⟩ b := by
  unfold vwide; exact ⟨_, rfl⟩

theorem mside_is (f : FL) : ∃ b, ∀ s, execMside f s = perform (issue (.mside f)
    (if f.sc = 0 then ⟨some f.r.k, false, [], [.a (accD f), .v f.r.b.toNat]⟩
      else specAcc f [⟨2, .v f.r.b.toNat, f.r.wb⟩]) b) s := by
  unfold execMside
  by_cases hs : f.sc = 0
  · simp only [hs, if_true]; exact ⟨_, fun s => rfl⟩
  · simp only [hs, if_false]; exact ⟨_, fun s => rfl⟩

theorem sharedLoad_is (i : Instr) (f : FL) (a : Access) : ∃ b, sharedLoad i f a =
    issue i ⟨some f.r.k, true, addrSrcs f, [.s f.r.d.toNat]⟩ b := by unfold sharedLoad; exact ⟨_, rfl⟩

theorem atomic_is (i : Instr) (f : FL) (v : Bool) : ∃ b, atomic i f v =
    issue i ⟨some f.r.k, true, [⟨1, .s f.r.a.toNat, f.r.wa⟩, ⟨2, .s f.r.b.toNat, f.r.wb⟩]
      ++ (if v then [srcC f] else []), if v then [.s f.r.d.toNat] else []⟩ b := by unfold atomic; exact ⟨_, rfl⟩

theorem remoteAtomic_is (i : Instr) (f : FL) (v : Bool) : ∃ b, remoteAtomic i f v =
    issue i ⟨some f.r.k, true, [⟨1, .s f.r.a.toNat, f.r.wa⟩, ⟨2, .s f.r.b.toNat, f.r.wb⟩]
      ++ (if v then [srcC f] else []), if v then [.s f.r.d.toNat] else []⟩ b := by unfold remoteAtomic; exact ⟨_, rfl⟩

theorem spawn_is (i : Instr) (f : FL) (h : Ctx → Option Word) : ∃ b, spawn i f h =
    issue i ⟨some f.r.k, true, taskSrcs f, [.s f.r.d.toNat]⟩ b := by unfold spawn; exact ⟨_, rfl⟩

theorem launch_is (i : Instr) (f : FL) (l : List Src) (h : Ctx → Option Word) : ∃ b, launch i f l h =
    issue i ⟨some f.r.k, true, l, [.s f.r.d.toNat]⟩ b := by unfold launch; exact ⟨_, rfl⟩

theorem abortLaunch_is (i : Instr) (f : FL) : ∃ b, abortLaunch i f =
    issue i ⟨some f.r.k, true, [⟨1, .s f.r.a.toNat, f.r.wa⟩], [.s f.r.d.toNat]⟩ b := by unfold abortLaunch; exact ⟨_, rfl⟩

/-! ### Each instruction -/

theorem issue_add (f : FA) : IsIssue (.add f) (operandsOf (.add f)) := ⟨_, fun _ => rfl⟩
theorem issue_sub (f : FA) : IsIssue (.sub f) (operandsOf (.sub f)) := ⟨_, fun _ => rfl⟩
theorem issue_and (f : FA) : IsIssue (.and f) (operandsOf (.and f)) := ⟨_, fun _ => rfl⟩
theorem issue_or (f : FA) : IsIssue (.or f) (operandsOf (.or f)) := ⟨_, fun _ => rfl⟩
theorem issue_xor (f : FA) : IsIssue (.xor f) (operandsOf (.xor f)) := ⟨_, fun _ => rfl⟩
theorem issue_andn (f : FA) : IsIssue (.andn f) (operandsOf (.andn f)) := ⟨_, fun _ => rfl⟩
theorem issue_shl (f : FA) : IsIssue (.shl f) (operandsOf (.shl f)) := ⟨_, fun _ => rfl⟩
theorem issue_shr (f : FA) : IsIssue (.shr f) (operandsOf (.shr f)) := ⟨_, fun _ => rfl⟩
theorem issue_sar (f : FA) : IsIssue (.sar f) (operandsOf (.sar f)) := ⟨_, fun _ => rfl⟩
theorem issue_rol (f : FA) : IsIssue (.rol f) (operandsOf (.rol f)) := ⟨_, fun _ => rfl⟩
theorem issue_min (f : FA) : IsIssue (.min f) (operandsOf (.min f)) := ⟨_, fun _ => rfl⟩
theorem issue_max (f : FA) : IsIssue (.max f) (operandsOf (.max f)) := ⟨_, fun _ => rfl⟩
theorem issue_minn (f : FA) : IsIssue (.minn f) (operandsOf (.minn f)) := ⟨_, fun _ => rfl⟩
theorem issue_maxn (f : FA) : IsIssue (.maxn f) (operandsOf (.maxn f)) := ⟨_, fun _ => rfl⟩
theorem issue_clz (f : FA) : IsIssue (.clz f) (operandsOf (.clz f)) := ⟨_, fun _ => rfl⟩
theorem issue_popc (f : FA) : IsIssue (.popc f) (operandsOf (.popc f)) := ⟨_, fun _ => rfl⟩
theorem issue_mul (f : FA) : IsIssue (.mul f) (operandsOf (.mul f)) := ⟨_, fun _ => rfl⟩
theorem issue_mulh (f : FA) : IsIssue (.mulh f) (operandsOf (.mulh f)) := ⟨_, fun _ => rfl⟩
theorem issue_mulhn (f : FA) : IsIssue (.mulhn f) (operandsOf (.mulhn f)) := ⟨_, fun _ => rfl⟩
theorem issue_div (f : FA) : IsIssue (.div f) (operandsOf (.div f)) := ⟨_, fun _ => rfl⟩
theorem issue_divn (f : FA) : IsIssue (.divn f) (operandsOf (.divn f)) := ⟨_, fun _ => rfl⟩
theorem issue_rem (f : FA) : IsIssue (.rem f) (operandsOf (.rem f)) := ⟨_, fun _ => rfl⟩
theorem issue_remn (f : FA) : IsIssue (.remn f) (operandsOf (.remn f)) := ⟨_, fun _ => rfl⟩
theorem issue_ceq (f : FA) : IsIssue (.ceq f) (operandsOf (.ceq f)) := ⟨_, fun _ => rfl⟩
theorem issue_cne (f : FA) : IsIssue (.cne f) (operandsOf (.cne f)) := ⟨_, fun _ => rfl⟩
theorem issue_clt (f : FA) : IsIssue (.clt f) (operandsOf (.clt f)) := ⟨_, fun _ => rfl⟩
theorem issue_cle (f : FA) : IsIssue (.cle f) (operandsOf (.cle f)) := ⟨_, fun _ => rfl⟩
theorem issue_cltn (f : FA) : IsIssue (.cltn f) (operandsOf (.cltn f)) := ⟨_, fun _ => rfl⟩
theorem issue_clen (f : FA) : IsIssue (.clen f) (operandsOf (.clen f)) := ⟨_, fun _ => rfl⟩
theorem issue_ctst (f : FA) : IsIssue (.ctst f) (operandsOf (.ctst f)) := ⟨_, fun _ => rfl⟩
theorem issue_addi (f : FI) : IsIssue (.addi f) (operandsOf (.addi f)) := ⟨_, fun _ => rfl⟩
theorem issue_andi (f : FI) : IsIssue (.andi f) (operandsOf (.andi f)) := ⟨_, fun _ => rfl⟩
theorem issue_ori (f : FI) : IsIssue (.ori f) (operandsOf (.ori f)) := ⟨_, fun _ => rfl⟩
theorem issue_xori (f : FI) : IsIssue (.xori f) (operandsOf (.xori f)) := ⟨_, fun _ => rfl⟩
theorem issue_shli (f : FS) : IsIssue (.shli f) (operandsOf (.shli f)) := ⟨_, fun _ => rfl⟩
theorem issue_shri (f : FS) : IsIssue (.shri f) (operandsOf (.shri f)) := ⟨_, fun _ => rfl⟩
theorem issue_sari (f : FS) : IsIssue (.sari f) (operandsOf (.sari f)) := ⟨_, fun _ => rfl⟩
theorem issue_cmpi (f : FI) : IsIssue (.cmpi f) (operandsOf (.cmpi f)) := ⟨_, fun _ => rfl⟩
theorem issue_kand (f : FA) : IsIssue (.kand f) (operandsOf (.kand f)) := ⟨_, fun _ => rfl⟩
theorem issue_kor (f : FA) : IsIssue (.kor f) (operandsOf (.kor f)) := ⟨_, fun _ => rfl⟩
theorem issue_kxor (f : FA) : IsIssue (.kxor f) (operandsOf (.kxor f)) := ⟨_, fun _ => rfl⟩
theorem issue_knot (f : FA) : IsIssue (.knot f) (operandsOf (.knot f)) := ⟨_, fun _ => rfl⟩
theorem issue_kmovs (f : FA) : IsIssue (.kmovs f) (operandsOf (.kmovs f)) := ⟨_, fun _ => rfl⟩
theorem issue_kmovk (f : FA) : IsIssue (.kmovk f) (operandsOf (.kmovk f)) := ⟨_, fun _ => rfl⟩
theorem issue_kpopc (f : FA) : IsIssue (.kpopc f) (operandsOf (.kpopc f)) := ⟨_, fun _ => rfl⟩
theorem issue_kfirst (f : FA) : IsIssue (.kfirst f) (operandsOf (.kfirst f)) := ⟨_, fun _ => rfl⟩
theorem issue_movl (min : BitVec 4) (f : FX) : IsIssue (.movl min f) (operandsOf (.movl min f)) := ⟨_, fun _ => rfl⟩
theorem issue_movlHi (min : BitVec 4) (f : FX) : IsIssue (.movlHi min f) (operandsOf (.movlHi min f)) := ⟨_, fun _ => rfl⟩
theorem issue_leaL (min : BitVec 4) (f : FL) : IsIssue (.leaL min f) (operandsOf (.leaL min f)) := ⟨_, fun _ => rfl⟩
theorem issue_leaX (min : BitVec 4) (f : FX) : IsIssue (.leaX min f) (operandsOf (.leaX min f)) := ⟨_, fun _ => rfl⟩
theorem issue_br (f : FJ) : IsIssue (.br f) (operandsOf (.br f)) := ⟨_, fun _ => rfl⟩
theorem issue_jmp (f : FJ) : IsIssue (.jmp f) (operandsOf (.jmp f)) := ⟨_, fun _ => rfl⟩
theorem issue_call (f : FJ) : IsIssue (.call f) (operandsOf (.call f)) := ⟨_, fun _ => rfl⟩
theorem issue_loop (f : FJ) : IsIssue (.loop f) (operandsOf (.loop f)) := ⟨_, fun _ => rfl⟩
theorem issue_vbr (f : FJ) : IsIssue (.vbr f) (operandsOf (.vbr f)) := ⟨_, fun _ => rfl⟩
theorem issue_callr (f : FA) : IsIssue (.callr f) (operandsOf (.callr f)) := ⟨_, fun _ => rfl⟩
theorem issue_jr (f : FA) : IsIssue (.jr f) (operandsOf (.jr f)) := ⟨_, fun _ => rfl⟩
theorem issue_ret (f : FA) : IsIssue (.ret f) (operandsOf (.ret f)) := ⟨_, fun _ => rfl⟩
theorem issue_endT (f : FA) : IsIssue (.endT f) (operandsOf (.endT f)) := ⟨_, fun _ => rfl⟩
theorem issue_yield (f : FA) : IsIssue (.yield f) (operandsOf (.yield f)) := ⟨_, fun _ => rfl⟩
theorem issue_trap (f : FA) : IsIssue (.trap f) (operandsOf (.trap f)) := ⟨_, fun _ => rfl⟩
theorem issue_tret (f : FA) : IsIssue (.tret f) (operandsOf (.tret f)) := ⟨_, fun _ => rfl⟩
theorem issue_bkpt (f : FA) : IsIssue (.bkpt f) (operandsOf (.bkpt f)) := ⟨_, fun _ => rfl⟩
theorem issue_crr (f : FA) : IsIssue (.crr f) (operandsOf (.crr f)) := ⟨_, fun _ => rfl⟩
theorem issue_crw (f : FA) : IsIssue (.crw f) (operandsOf (.crw f)) := ⟨_, fun _ => rfl⟩
theorem issue_crx (f : FA) : IsIssue (.crx f) (operandsOf (.crx f)) := ⟨_, fun _ => rfl⟩
theorem issue_gatew (f : FA) : IsIssue (.gatew f) (operandsOf (.gatew f)) := ⟨_, fun _ => rfl⟩
theorem issue_gater (f : FA) : IsIssue (.gater f) (operandsOf (.gater f)) := ⟨_, fun _ => rfl⟩
theorem issue_objw (f : FA) : IsIssue (.objw f) (operandsOf (.objw f)) := ⟨_, fun _ => rfl⟩
theorem issue_objr (f : FA) : IsIssue (.objr f) (operandsOf (.objr f)) := ⟨_, fun _ => rfl⟩
theorem issue_grpw (f : FA) : IsIssue (.grpw f) (operandsOf (.grpw f)) := ⟨_, fun _ => rfl⟩
theorem issue_qmap (f : FA) : IsIssue (.qmap f) (operandsOf (.qmap f)) := ⟨_, fun _ => rfl⟩
theorem issue_jbind (f : FA) : IsIssue (.jbind f) (operandsOf (.jbind f)) := ⟨_, fun _ => rfl⟩
theorem issue_jload (f : FA) : IsIssue (.jload f) (operandsOf (.jload f)) := ⟨_, fun _ => rfl⟩
theorem issue_ssav (f : FA) : IsIssue (.ssav f) (operandsOf (.ssav f)) := ⟨_, fun _ => rfl⟩
theorem issue_srst (f : FA) : IsIssue (.srst f) (operandsOf (.srst f)) := ⟨_, fun _ => rfl⟩
theorem issue_ipi (f : FA) : IsIssue (.ipi f) (operandsOf (.ipi f)) := ⟨_, fun _ => rfl⟩
theorem issue_vadd (f : FL) : IsIssue (.vadd f) (operandsOf (.vadd f)) :=
  let ⟨b, hb⟩ := varith_is (.vadd f) f .add true false
  IsIssue.of (body := b) (fun _ => rfl) hb
theorem issue_vsub (f : FL) : IsIssue (.vsub f) (operandsOf (.vsub f)) :=
  let ⟨b, hb⟩ := varith_is (.vsub f) f .sub true false
  IsIssue.of (body := b) (fun _ => rfl) hb
theorem issue_vmul (f : FL) : IsIssue (.vmul f) (operandsOf (.vmul f)) :=
  let ⟨b, hb⟩ := varith_is (.vmul f) f .mul true false
  IsIssue.of (body := b) (fun _ => rfl) hb
theorem issue_vfma (f : FL) : IsIssue (.vfma f) (operandsOf (.vfma f)) :=
  let ⟨b, hb⟩ := varith_is (.vfma f) f .fma true true
  IsIssue.of (body := b) (fun _ => rfl) hb
theorem issue_vmin (f : FL) : IsIssue (.vmin f) (operandsOf (.vmin f)) :=
  let ⟨b, hb⟩ := varith_is (.vmin f) f .min true false
  IsIssue.of (body := b) (fun _ => rfl) hb
theorem issue_vmax (f : FL) : IsIssue (.vmax f) (operandsOf (.vmax f)) :=
  let ⟨b, hb⟩ := varith_is (.vmax f) f .max true false
  IsIssue.of (body := b) (fun _ => rfl) hb
theorem issue_vabs (f : FL) : IsIssue (.vabs f) (operandsOf (.vabs f)) :=
  let ⟨b, hb⟩ := varith_is (.vabs f) f .abs false false
  IsIssue.of (body := b) (fun _ => rfl) hb
theorem issue_vneg (f : FL) : IsIssue (.vneg f) (operandsOf (.vneg f)) :=
  let ⟨b, hb⟩ := varith_is (.vneg f) f .neg false false
  IsIssue.of (body := b) (fun _ => rfl) hb
theorem issue_vand (f : FL) : IsIssue (.vand f) (operandsOf (.vand f)) :=
  let ⟨b, hb⟩ := varith_is (.vand f) f .and true false
  IsIssue.of (body := b) (fun _ => rfl) hb
theorem issue_vor (f : FL) : IsIssue (.vor f) (operandsOf (.vor f)) :=
  let ⟨b, hb⟩ := varith_is (.vor f) f .or true false
  IsIssue.of (body := b) (fun _ => rfl) hb
theorem issue_vxor (f : FL) : IsIssue (.vxor f) (operandsOf (.vxor f)) :=
  let ⟨b, hb⟩ := varith_is (.vxor f) f .xor true false
  IsIssue.of (body := b) (fun _ => rfl) hb
theorem issue_vshl (f : FL) : IsIssue (.vshl f) (operandsOf (.vshl f)) :=
  let ⟨b, hb⟩ := varith_is (.vshl f) f .shl true false
  IsIssue.of (body := b) (fun _ => rfl) hb
theorem issue_vshr (f : FL) : IsIssue (.vshr f) (operandsOf (.vshr f)) :=
  let ⟨b, hb⟩ := varith_is (.vshr f) f .shr true false
  IsIssue.of (body := b) (fun _ => rfl) hb
theorem issue_vsar (f : FL) : IsIssue (.vsar f) (operandsOf (.vsar f)) :=
  let ⟨b, hb⟩ := varith_is (.vsar f) f .sar true false
  IsIssue.of (body := b) (fun _ => rfl) hb
theorem issue_vsel (f : FL) : IsIssue (.vsel f) (operandsOf (.vsel f)) := ⟨_, fun _ => rfl⟩
theorem issue_vmulh (f : FL) : IsIssue (.vmulh f) (operandsOf (.vmulh f)) :=
  let ⟨b, hb⟩ := varith_is (.vmulh f) f .mulh true false
  IsIssue.of (body := b) (fun _ => rfl) hb
theorem issue_vwadd (f : FL) : IsIssue (.vwadd f) (operandsOf (.vwadd f)) :=
  let ⟨b, hb⟩ := vwide_is (.vwadd f) f .add
  IsIssue.of (body := b) (fun _ => rfl) hb
theorem issue_vwsub (f : FL) : IsIssue (.vwsub f) (operandsOf (.vwsub f)) :=
  let ⟨b, hb⟩ := vwide_is (.vwsub f) f .sub
  IsIssue.of (body := b) (fun _ => rfl) hb
theorem issue_vwmul (f : FL) : IsIssue (.vwmul f) (operandsOf (.vwmul f)) :=
  let ⟨b, hb⟩ := vwide_is (.vwmul f) f .mul
  IsIssue.of (body := b) (fun _ => rfl) hb
theorem issue_vwfma (f : FL) : IsIssue (.vwfma f) (operandsOf (.vwfma f)) :=
  let ⟨b, hb⟩ := vwide_is (.vwfma f) f .fma
  IsIssue.of (body := b) (fun _ => rfl) hb
theorem issue_vnarrow (f : FL) : IsIssue (.vnarrow f) (operandsOf (.vnarrow f)) := ⟨_, fun _ => rfl⟩
theorem issue_vcvt (f : FL) : IsIssue (.vcvt f) (operandsOf (.vcvt f)) := ⟨_, fun _ => rfl⟩
theorem issue_vdot4 (f : FL) : IsIssue (.vdot4 f) (operandsOf (.vdot4 f)) := ⟨_, fun _ => rfl⟩
theorem issue_vcmp (f : FL) : IsIssue (.vcmp f) (operandsOf (.vcmp f)) := ⟨_, fun _ => rfl⟩
theorem issue_vtest (f : FL) : IsIssue (.vtest f) (operandsOf (.vtest f)) := ⟨_, fun _ => rfl⟩
theorem issue_vredsum (f : FL) : IsIssue (.vredsum f) (operandsOf (.vredsum f)) := ⟨_, fun _ => rfl⟩
theorem issue_vredmax (f : FL) : IsIssue (.vredmax f) (operandsOf (.vredmax f)) := ⟨_, fun _ => rfl⟩
theorem issue_vredmin (f : FL) : IsIssue (.vredmin f) (operandsOf (.vredmin f)) := ⟨_, fun _ => rfl⟩
theorem issue_vredand (f : FL) : IsIssue (.vredand f) (operandsOf (.vredand f)) := ⟨_, fun _ => rfl⟩
theorem issue_vredor (f : FL) : IsIssue (.vredor f) (operandsOf (.vredor f)) := ⟨_, fun _ => rfl⟩
theorem issue_vscan (f : FL) : IsIssue (.vscan f) (operandsOf (.vscan f)) := ⟨_, fun _ => rfl⟩
theorem issue_vperm (f : FL) : IsIssue (.vperm f) (operandsOf (.vperm f)) := ⟨_, fun _ => rfl⟩
theorem issue_vslide (f : FL) : IsIssue (.vslide f) (operandsOf (.vslide f)) := ⟨_, fun _ => rfl⟩
theorem issue_vbcast (f : FL) : IsIssue (.vbcast f) (operandsOf (.vbcast f)) := ⟨_, fun _ => rfl⟩
theorem issue_viota (f : FL) : IsIssue (.viota f) (operandsOf (.viota f)) := ⟨_, fun _ => rfl⟩
theorem issue_vcompress (f : FL) : IsIssue (.vcompress f) (operandsOf (.vcompress f)) := ⟨_, fun _ => rfl⟩
theorem issue_vexpand (f : FL) : IsIssue (.vexpand f) (operandsOf (.vexpand f)) := ⟨_, fun _ => rfl⟩
theorem issue_vzip (f : FL) : IsIssue (.vzip f) (operandsOf (.vzip f)) := ⟨_, fun _ => rfl⟩
theorem issue_vunzip (f : FL) : IsIssue (.vunzip f) (operandsOf (.vunzip f)) := ⟨_, fun _ => rfl⟩
theorem issue_vsort (f : FL) : IsIssue (.vsort f) (operandsOf (.vsort f)) := ⟨_, fun _ => rfl⟩
theorem issue_vmerge (f : FL) : IsIssue (.vmerge f) (operandsOf (.vmerge f)) := ⟨_, fun _ => rfl⟩
theorem issue_vsearch (f : FL) : IsIssue (.vsearch f) (operandsOf (.vsearch f)) := ⟨_, fun _ => rfl⟩
theorem issue_vsparse (f : FL) : IsIssue (.vsparse f) (operandsOf (.vsparse f)) := ⟨_, fun _ => rfl⟩
theorem issue_vunsparse (f : FL) : IsIssue (.vunsparse f) (operandsOf (.vunsparse f)) := ⟨_, fun _ => rfl⟩
theorem issue_vexp2 (f : FL) : IsIssue (.vexp2 f) (operandsOf (.vexp2 f)) := ⟨_, fun _ => rfl⟩
theorem issue_vlog2 (f : FL) : IsIssue (.vlog2 f) (operandsOf (.vlog2 f)) := ⟨_, fun _ => rfl⟩
theorem issue_vrcp (f : FL) : IsIssue (.vrcp f) (operandsOf (.vrcp f)) := ⟨_, fun _ => rfl⟩
theorem issue_vrsq (f : FL) : IsIssue (.vrsq f) (operandsOf (.vrsq f)) := ⟨_, fun _ => rfl⟩
theorem issue_vtanh (f : FL) : IsIssue (.vtanh f) (operandsOf (.vtanh f)) := ⟨_, fun _ => rfl⟩
theorem issue_vmov (f : FL) : IsIssue (.vmov f) (operandsOf (.vmov f)) := ⟨_, fun _ => rfl⟩
theorem issue_vsplat (f : FL) : IsIssue (.vsplat f) (operandsOf (.vsplat f)) := ⟨_, fun _ => rfl⟩
theorem issue_vins (f : FL) : IsIssue (.vins f) (operandsOf (.vins f)) := ⟨_, fun _ => rfl⟩
theorem issue_vext (f : FL) : IsIssue (.vext f) (operandsOf (.vext f)) := ⟨_, fun _ => rfl⟩
theorem issue_mmaL (f : FL) : IsIssue (.mmaL f) (operandsOf (.mmaL f)) := ⟨_, fun _ => rfl⟩
theorem issue_mmaX (f : FX) : IsIssue (.mmaX f) (operandsOf (.mmaX f)) := ⟨_, fun _ => rfl⟩
theorem issue_mmarL (f : FL) : IsIssue (.mmarL f) (operandsOf (.mmarL f)) := ⟨_, fun _ => rfl⟩
theorem issue_mmarX (f : FX) : IsIssue (.mmarX f) (operandsOf (.mmarX f)) := ⟨_, fun _ => rfl⟩
theorem issue_mmagL (f : FL) : IsIssue (.mmagL f) (operandsOf (.mmagL f)) := ⟨_, fun _ => rfl⟩
theorem issue_mmagX (f : FX) : IsIssue (.mmagX f) (operandsOf (.mmagX f)) := ⟨_, fun _ => rfl⟩
theorem issue_mmagrL (f : FL) : IsIssue (.mmagrL f) (operandsOf (.mmagrL f)) := ⟨_, fun _ => rfl⟩
theorem issue_mmagrX (f : FX) : IsIssue (.mmagrX f) (operandsOf (.mmagrX f)) := ⟨_, fun _ => rfl⟩
theorem issue_mzero (f : FL) : IsIssue (.mzero f) (operandsOf (.mzero f)) := ⟨_, fun _ => rfl⟩
theorem issue_mload (f : FL) : IsIssue (.mload f) (operandsOf (.mload f)) := ⟨_, fun _ => rfl⟩
theorem issue_mdrain (f : FL) : IsIssue (.mdrain f) (operandsOf (.mdrain f)) := ⟨_, fun _ => rfl⟩
theorem issue_mexp (f : FL) : IsIssue (.mexp f) (operandsOf (.mexp f)) := ⟨_, fun _ => rfl⟩
theorem issue_mchk (f : FL) : IsIssue (.mchk f) (operandsOf (.mchk f)) := ⟨_, fun _ => rfl⟩
theorem issue_mside (f : FL) : IsIssue (.mside f) (operandsOf (.mside f)) := mside_is f
theorem issue_mtrans (f : FL) : IsIssue (.mtrans f) (operandsOf (.mtrans f)) := ⟨_, fun _ => rfl⟩
theorem issue_msmax (f : FL) : IsIssue (.msmax f) (operandsOf (.msmax f)) := ⟨_, fun _ => rfl⟩
theorem issue_mscale (f : FL) : IsIssue (.mscale f) (operandsOf (.mscale f)) := ⟨_, fun _ => rfl⟩
theorem issue_mmask (f : FL) : IsIssue (.mmask f) (operandsOf (.mmask f)) := ⟨_, fun _ => rfl⟩
theorem issue_mtree (f : FL) : IsIssue (.mtree f) (operandsOf (.mtree f)) := ⟨_, fun _ => rfl⟩
theorem issue_ld (f : FL) : IsIssue (.ld f) (operandsOf (.ld f)) := ⟨_, fun _ => rfl⟩
theorem issue_ldv (f : FL) : IsIssue (.ldv f) (operandsOf (.ldv f)) := ⟨_, fun _ => rfl⟩
theorem issue_ldr (f : FL) : IsIssue (.ldr f) (operandsOf (.ldr f)) := ⟨_, fun _ => rfl⟩
theorem issue_ldk (f : FL) : IsIssue (.ldk f) (operandsOf (.ldk f)) := ⟨_, fun _ => rfl⟩
theorem issue_st (f : FL) : IsIssue (.st f) (operandsOf (.st f)) := ⟨_, fun _ => rfl⟩
theorem issue_stv (f : FL) : IsIssue (.stv f) (operandsOf (.stv f)) := ⟨_, fun _ => rfl⟩
theorem issue_str (f : FL) : IsIssue (.str f) (operandsOf (.str f)) := ⟨_, fun _ => rfl⟩
theorem issue_stk (f : FL) : IsIssue (.stk f) (operandsOf (.stk f)) := ⟨_, fun _ => rfl⟩
theorem issue_lds (f : FL) : IsIssue (.lds f) (operandsOf (.lds f)) :=
  let ⟨b, hb⟩ := sharedLoad_is (.lds f) f (.load (sizeOf f.sc) false)
  IsIssue.of (body := b) (fun _ => rfl) hb
theorem issue_lda (f : FL) : IsIssue (.lda f) (operandsOf (.lda f)) :=
  let ⟨b, hb⟩ := sharedLoad_is (.lda f) f (.acquire (sizeOf f.sc) (scopeOf f))
  IsIssue.of (body := b) (fun _ => rfl) hb
theorem issue_ldsv (f : FL) : IsIssue (.ldsv f) (operandsOf (.ldsv f)) := ⟨_, fun _ => rfl⟩
theorem issue_sts (f : FL) : IsIssue (.sts f) (operandsOf (.sts f)) := ⟨_, fun _ => rfl⟩
theorem issue_strel (f : FL) : IsIssue (.strel f) (operandsOf (.strel f)) := ⟨_, fun _ => rfl⟩
theorem issue_stsv (f : FL) : IsIssue (.stsv f) (operandsOf (.stsv f)) := ⟨_, fun _ => rfl⟩
theorem issue_stsm (f : FL) : IsIssue (.stsm f) (operandsOf (.stsm f)) := ⟨_, fun _ => rfl⟩
theorem issue_atom (f : FL) : IsIssue (.atom f) (operandsOf (.atom f)) :=
  let ⟨b, hb⟩ := atomic_is (.atom f) f true
  IsIssue.of (body := b) (fun _ => rfl) hb
theorem issue_red (f : FL) : IsIssue (.red f) (operandsOf (.red f)) :=
  let ⟨b, hb⟩ := atomic_is (.red f) f false
  IsIssue.of (body := b) (fun _ => rfl) hb
theorem issue_atomr (f : FL) : IsIssue (.atomr f) (operandsOf (.atomr f)) :=
  let ⟨b, hb⟩ := remoteAtomic_is (.atomr f) f true
  IsIssue.of (body := b) (fun _ => rfl) hb
theorem issue_redr (f : FL) : IsIssue (.redr f) (operandsOf (.redr f)) :=
  let ⟨b, hb⟩ := remoteAtomic_is (.redr f) f false
  IsIssue.of (body := b) (fun _ => rfl) hb
theorem issue_fence (min : BitVec 4) (f : FA) : IsIssue (.fence min f) (operandsOf (.fence min f)) := ⟨_, fun _ => rfl⟩
theorem issue_puthL (f : FL) : IsIssue (.puthL f) (operandsOf (.puthL f)) := ⟨_, fun _ => rfl⟩
theorem issue_puthX (f : FX) : IsIssue (.puthX f) (operandsOf (.puthX f)) := ⟨_, fun _ => rfl⟩
theorem issue_rot (f : FL) : IsIssue (.rot f) (operandsOf (.rot f)) := ⟨_, fun _ => rfl⟩
theorem issue_pft (f : FL) : IsIssue (.pft f) (operandsOf (.pft f)) := ⟨_, fun _ => rfl⟩
theorem issue_copy (f : FL) : IsIssue (.copy f) (operandsOf (.copy f)) := ⟨_, fun _ => rfl⟩
theorem issue_ecenc (f : FL) : IsIssue (.ecenc f) (operandsOf (.ecenc f)) := ⟨_, fun _ => rfl⟩
theorem issue_ecrec (f : FL) : IsIssue (.ecrec f) (operandsOf (.ecrec f)) := ⟨_, fun _ => rfl⟩
theorem issue_rlock (f : FL) : IsIssue (.rlock f) (operandsOf (.rlock f)) := ⟨_, fun _ => rfl⟩
theorem issue_runlock (f : FL) : IsIssue (.runlock f) (operandsOf (.runlock f)) := ⟨_, fun _ => rfl⟩
theorem issue_alloc (f : FA) : IsIssue (.alloc f) (operandsOf (.alloc f)) := ⟨_, fun _ => rfl⟩
theorem issue_free (f : FA) : IsIssue (.free f) (operandsOf (.free f)) := ⟨_, fun _ => rfl⟩
theorem issue_send (f : FL) : IsIssue (.send f) (operandsOf (.send f)) := ⟨_, fun _ => rfl⟩
theorem issue_sendm (f : FL) : IsIssue (.sendm f) (operandsOf (.sendm f)) := ⟨_, fun _ => rfl⟩
theorem issue_reply (f : FL) : IsIssue (.reply f) (operandsOf (.reply f)) := ⟨_, fun _ => rfl⟩
theorem issue_recv (f : FL) : IsIssue (.recv f) (operandsOf (.recv f)) := ⟨_, fun _ => rfl⟩
theorem issue_pollq (f : FL) : IsIssue (.pollq f) (operandsOf (.pollq f)) := ⟨_, fun _ => rfl⟩
theorem issue_spawnL (f : FL) : IsIssue (.spawnL f) (operandsOf (.spawnL f)) :=
  let ⟨b, hb⟩ := spawn_is (.spawnL f) f fun c => if f.m.getLsbD 1 then some (regHandler c.c) else none
  IsIssue.of (body := b) (fun _ => rfl) hb
theorem issue_spawnX (f : FX) : IsIssue (.spawnX f) (operandsOf (.spawnX f)) :=
  let ⟨b, hb⟩ := spawn_is (.spawnX f) f.l fun c => some (handlerAt c.addr (sx f.lit))
  IsIssue.of (body := b) (fun _ => rfl) hb
theorem issue_launchL (f : FL) : IsIssue (.launchL f) (operandsOf (.launchL f)) :=
  let ⟨b, hb⟩ := launch_is (.launchL f) f (taskSrcs f) fun c => if f.m.getLsbD 1 then some (regHandler c.c) else none
  IsIssue.of (body := b) (fun _ => rfl) hb
theorem issue_launchX (f : FX) : IsIssue (.launchX f) (operandsOf (.launchX f)) :=
  let ⟨b, hb⟩ := launch_is (.launchX f) f.l (taskSrcs f.l) fun c => some (handlerAt c.addr (sx f.lit))
  IsIssue.of (body := b) (fun _ => rfl) hb
theorem issue_abort (f : FL) : IsIssue (.abort f) (operandsOf (.abort f)) :=
  let ⟨b, hb⟩ := abortLaunch_is (.abort f) f
  IsIssue.of (body := b) (fun _ => rfl) hb
theorem issue_abortX (f : FX) : IsIssue (.abortX f) (operandsOf (.abortX f)) :=
  let ⟨b, hb⟩ := abortLaunch_is (.abortX f) f.l
  IsIssue.of (body := b) (fun _ => rfl) hb
theorem issue_reef (f : FL) : IsIssue (.reef f) (operandsOf (.reef f)) := ⟨_, fun _ => rfl⟩
theorem issue_reefx (f : FL) : IsIssue (.reefx f) (operandsOf (.reefx f)) := ⟨_, fun _ => rfl⟩
theorem issue_reefq (f : FL) : IsIssue (.reefq f) (operandsOf (.reefq f)) := ⟨_, fun _ => rfl⟩
theorem issue_bar (f : FL) : IsIssue (.bar f) (operandsOf (.bar f)) := ⟨_, fun _ => rfl⟩
theorem issue_barw (f : FL) : IsIssue (.barw f) (operandsOf (.barw f)) := ⟨_, fun _ => rfl⟩
theorem issue_actrL (f : FL) : IsIssue (.actrL f) (operandsOf (.actrL f)) := ⟨_, fun _ => rfl⟩
theorem issue_actrX (f : FX) : IsIssue (.actrX f) (operandsOf (.actrX f)) := ⟨_, fun _ => rfl⟩
theorem issue_waitc (f : FL) : IsIssue (.waitc f) (operandsOf (.waitc f)) := ⟨_, fun _ => rfl⟩
theorem issue_ctrr (f : FA) : IsIssue (.ctrr f) (operandsOf (.ctrr f)) := ⟨_, fun _ => rfl⟩
theorem issue_ctrw (f : FA) : IsIssue (.ctrw f) (operandsOf (.ctrw f)) := ⟨_, fun _ => rfl⟩
theorem issue_waitt (f : FA) : IsIssue (.waitt f) (operandsOf (.waitt f)) := ⟨_, fun _ => rfl⟩
theorem issue_time (f : FA) : IsIssue (.time f) (operandsOf (.time f)) := ⟨_, fun _ => rfl⟩
theorem issue_rlbegin (f : FL) : IsIssue (.rlbegin f) (operandsOf (.rlbegin f)) := ⟨_, fun _ => rfl⟩
theorem issue_rlrsv (f : FL) : IsIssue (.rlrsv f) (operandsOf (.rlrsv f)) := ⟨_, fun _ => rfl⟩
theorem issue_rlchk (f : FL) : IsIssue (.rlchk f) (operandsOf (.rlchk f)) := ⟨_, fun _ => rfl⟩
theorem issue_rlld (f : FL) : IsIssue (.rlld f) (operandsOf (.rlld f)) := ⟨_, fun _ => rfl⟩
theorem issue_rlst (f : FL) : IsIssue (.rlst f) (operandsOf (.rlst f)) := ⟨_, fun _ => rfl⟩
theorem issue_rlend (f : FL) : IsIssue (.rlend f) (operandsOf (.rlend f)) := ⟨_, fun _ => rfl⟩
theorem issue_rlstat (f : FL) : IsIssue (.rlstat f) (operandsOf (.rlstat f)) := ⟨_, fun _ => rfl⟩
theorem issue_jibA (slot : BitVec 6) (f : FA) : IsIssue (.jibA slot f) (operandsOf (.jibA slot f)) := ⟨_, fun _ => rfl⟩
theorem issue_jibL (slot : BitVec 6) (f : FL) : IsIssue (.jibL slot f) (operandsOf (.jibL slot f)) := ⟨_, fun _ => rfl⟩
theorem issue_pfh (off : BitVec 19) : IsIssue (.pfh off) (operandsOf (.pfh off)) := ⟨_, fun _ => rfl⟩
theorem issue_prio (n : BitVec 2) : IsIssue (.prio n) (operandsOf (.prio n)) := ⟨_, fun _ => rfl⟩
theorem issue_alignh (n : BitVec 4) : IsIssue (.alignh n) (operandsOf (.alignh n)) := ⟨_, fun _ => rfl⟩
theorem issue_hint1 (p0 : BitVec 32) : IsIssue (.hint1 p0) (operandsOf (.hint1 p0)) := ⟨_, fun _ => rfl⟩
theorem issue_hint2 (p0 p1 : BitVec 32) : IsIssue (.hint2 p0 p1) (operandsOf (.hint2 p0 p1)) := ⟨_, fun _ => rfl⟩
theorem issue_hint3 (p0 p1 p2 : BitVec 32) : IsIssue (.hint3 p0 p1 p2) (operandsOf (.hint3 p0 p1 p2)) := ⟨_, fun _ => rfl⟩
theorem issue_nop : IsIssue .nop (operandsOf .nop) := ⟨_, fun _ => rfl⟩

/-- Every instruction that has operands issues with them. -/
theorem exec_is_issue (i : Instr) (h : (operands i).isSome) : IsIssue i (operandsOf i) := by
  cases i
  case add f => exact issue_add _
  case sub f => exact issue_sub _
  case and f => exact issue_and _
  case or f => exact issue_or _
  case xor f => exact issue_xor _
  case andn f => exact issue_andn _
  case shl f => exact issue_shl _
  case shr f => exact issue_shr _
  case sar f => exact issue_sar _
  case rol f => exact issue_rol _
  case min f => exact issue_min _
  case max f => exact issue_max _
  case minn f => exact issue_minn _
  case maxn f => exact issue_maxn _
  case clz f => exact issue_clz _
  case popc f => exact issue_popc _
  case mul f => exact issue_mul _
  case mulh f => exact issue_mulh _
  case mulhn f => exact issue_mulhn _
  case div f => exact issue_div _
  case divn f => exact issue_divn _
  case rem f => exact issue_rem _
  case remn f => exact issue_remn _
  case ceq f => exact issue_ceq _
  case cne f => exact issue_cne _
  case clt f => exact issue_clt _
  case cle f => exact issue_cle _
  case cltn f => exact issue_cltn _
  case clen f => exact issue_clen _
  case ctst f => exact issue_ctst _
  case addi f => exact issue_addi _
  case andi f => exact issue_andi _
  case ori f => exact issue_ori _
  case xori f => exact issue_xori _
  case shli f => exact issue_shli _
  case shri f => exact issue_shri _
  case sari f => exact issue_sari _
  case cmpi f => exact issue_cmpi _
  case kand f => exact issue_kand _
  case kor f => exact issue_kor _
  case kxor f => exact issue_kxor _
  case knot f => exact issue_knot _
  case kmovs f => exact issue_kmovs _
  case kmovk f => exact issue_kmovk _
  case kpopc f => exact issue_kpopc _
  case kfirst f => exact issue_kfirst _
  case movl min f => exact issue_movl _ _
  case movlHi min f => exact issue_movlHi _ _
  case leaL min f => exact issue_leaL _ _
  case leaX min f => exact issue_leaX _ _
  case br f => exact issue_br _
  case jmp f => exact issue_jmp _
  case call f => exact issue_call _
  case loop f => exact issue_loop _
  case vbr f => exact issue_vbr _
  case callr f => exact issue_callr _
  case jr f => exact issue_jr _
  case ret f => exact issue_ret _
  case endT f => exact issue_endT _
  case yield f => exact issue_yield _
  case trap f => exact issue_trap _
  case tret f => exact issue_tret _
  case bkpt f => exact issue_bkpt _
  case crr f => exact issue_crr _
  case crw f => exact issue_crw _
  case crx f => exact issue_crx _
  case gatew f => exact issue_gatew _
  case gater f => exact issue_gater _
  case objw f => exact issue_objw _
  case objr f => exact issue_objr _
  case grpw f => exact issue_grpw _
  case qmap f => exact issue_qmap _
  case jbind f => exact issue_jbind _
  case jload f => exact issue_jload _
  case ssav f => exact issue_ssav _
  case srst f => exact issue_srst _
  case ipi f => exact issue_ipi _
  case vadd f => exact issue_vadd _
  case vsub f => exact issue_vsub _
  case vmul f => exact issue_vmul _
  case vfma f => exact issue_vfma _
  case vmin f => exact issue_vmin _
  case vmax f => exact issue_vmax _
  case vabs f => exact issue_vabs _
  case vneg f => exact issue_vneg _
  case vand f => exact issue_vand _
  case vor f => exact issue_vor _
  case vxor f => exact issue_vxor _
  case vshl f => exact issue_vshl _
  case vshr f => exact issue_vshr _
  case vsar f => exact issue_vsar _
  case vsel f => exact issue_vsel _
  case vmulh f => exact issue_vmulh _
  case vwadd f => exact issue_vwadd _
  case vwsub f => exact issue_vwsub _
  case vwmul f => exact issue_vwmul _
  case vwfma f => exact issue_vwfma _
  case vnarrow f => exact issue_vnarrow _
  case vcvt f => exact issue_vcvt _
  case vdot4 f => exact issue_vdot4 _
  case vcmp f => exact issue_vcmp _
  case vtest f => exact issue_vtest _
  case vredsum f => exact issue_vredsum _
  case vredmax f => exact issue_vredmax _
  case vredmin f => exact issue_vredmin _
  case vredand f => exact issue_vredand _
  case vredor f => exact issue_vredor _
  case vscan f => exact issue_vscan _
  case vperm f => exact issue_vperm _
  case vslide f => exact issue_vslide _
  case vbcast f => exact issue_vbcast _
  case viota f => exact issue_viota _
  case vcompress f => exact issue_vcompress _
  case vexpand f => exact issue_vexpand _
  case vzip f => exact issue_vzip _
  case vunzip f => exact issue_vunzip _
  case vsort f => exact issue_vsort _
  case vmerge f => exact issue_vmerge _
  case vsearch f => exact issue_vsearch _
  case vsparse f => exact issue_vsparse _
  case vunsparse f => exact issue_vunsparse _
  case vexp2 f => exact issue_vexp2 _
  case vlog2 f => exact issue_vlog2 _
  case vrcp f => exact issue_vrcp _
  case vrsq f => exact issue_vrsq _
  case vtanh f => exact issue_vtanh _
  case vmov f => exact issue_vmov _
  case vsplat f => exact issue_vsplat _
  case vins f => exact issue_vins _
  case vext f => exact issue_vext _
  case mmaL f => exact issue_mmaL _
  case mmaX f => exact issue_mmaX _
  case mmarL f => exact issue_mmarL _
  case mmarX f => exact issue_mmarX _
  case mmagL f => exact issue_mmagL _
  case mmagX f => exact issue_mmagX _
  case mmagrL f => exact issue_mmagrL _
  case mmagrX f => exact issue_mmagrX _
  case mzero f => exact issue_mzero _
  case mload f => exact issue_mload _
  case mdrain f => exact issue_mdrain _
  case mexp f => exact issue_mexp _
  case mchk f => exact issue_mchk _
  case mside f => exact issue_mside _
  case mtrans f => exact issue_mtrans _
  case msmax f => exact issue_msmax _
  case mscale f => exact issue_mscale _
  case mmask f => exact issue_mmask _
  case mtree f => exact issue_mtree _
  case ld f => exact issue_ld _
  case ldv f => exact issue_ldv _
  case ldr f => exact issue_ldr _
  case ldk f => exact issue_ldk _
  case st f => exact issue_st _
  case stv f => exact issue_stv _
  case str f => exact issue_str _
  case stk f => exact issue_stk _
  case lds f => exact issue_lds _
  case lda f => exact issue_lda _
  case ldsv f => exact issue_ldsv _
  case sts f => exact issue_sts _
  case strel f => exact issue_strel _
  case stsv f => exact issue_stsv _
  case stsm f => exact issue_stsm _
  case atom f => exact issue_atom _
  case red f => exact issue_red _
  case atomr f => exact issue_atomr _
  case redr f => exact issue_redr _
  case fence min f => exact issue_fence _ _
  case puthL f => exact issue_puthL _
  case puthX f => exact issue_puthX _
  case rot f => exact issue_rot _
  case pft f => exact issue_pft _
  case copy f => exact issue_copy _
  case ecenc f => exact issue_ecenc _
  case ecrec f => exact issue_ecrec _
  case rlock f => exact issue_rlock _
  case runlock f => exact issue_runlock _
  case alloc f => exact issue_alloc _
  case free f => exact issue_free _
  case send f => exact issue_send _
  case sendm f => exact issue_sendm _
  case reply f => exact issue_reply _
  case recv f => exact issue_recv _
  case pollq f => exact issue_pollq _
  case spawnL f => exact issue_spawnL _
  case spawnX f => exact issue_spawnX _
  case launchL f => exact issue_launchL _
  case launchX f => exact issue_launchX _
  case abort f => exact issue_abort _
  case abortX f => exact issue_abortX _
  case reef f => exact issue_reef _
  case reefx f => exact issue_reefx _
  case reefq f => exact issue_reefq _
  case bar f => exact issue_bar _
  case barw f => exact issue_barw _
  case actrL f => exact issue_actrL _
  case actrX f => exact issue_actrX _
  case waitc f => exact issue_waitc _
  case ctrr f => exact issue_ctrr _
  case ctrw f => exact issue_ctrw _
  case waitt f => exact issue_waitt _
  case time f => exact issue_time _
  case rlbegin f => exact issue_rlbegin _
  case rlrsv f => exact issue_rlrsv _
  case rlchk f => exact issue_rlchk _
  case rlld f => exact issue_rlld _
  case rlst f => exact issue_rlst _
  case rlend f => exact issue_rlend _
  case rlstat f => exact issue_rlstat _
  case jibA slot f => exact issue_jibA _ _
  case jibL slot f => exact issue_jibL _ _
  case nop => exact issue_nop
  case pfh off => exact issue_pfh _
  case prio n => exact issue_prio _
  case alignh n => exact issue_alignh _
  case hint1 p0 => exact issue_hint1 _
  case hint2 p0 p1 => exact issue_hint2 _ _
  case hint3 p0 p1 p2 => exact issue_hint3 _ _ _
  all_goals exact absurd h (by decide)

/-- A ready instruction runs the body of its meaning. -/
theorem exec_runs {i : Instr} {s : State} (h : s.runs i = true) :
    ∃ body : Ctx → Mv, (∀ t, exec i t = perform (issue i (operandsOf i) body) t) ∧
      exec i s = .next ((body (s.seen i)).run s) := by
  simp only [State.runs, Bool.and_eq_true] at h
  obtain ⟨body, hb⟩ := exec_is_issue i h.1
  exact ⟨body, hb, by rw [hb, perform_issue h.2]; rfl⟩

end Sys2Proof.Machine
end

