-- ==== Sys2Proof/Laws/Keeps.lean ====
section
/-! SUPPORT. The canonical form: every primitive effect keeps it, so every meaning does; and every instruction and event
runs a meaning. -/
namespace Sys2Proof.Machine

/-- Every primitive effect keeps the canonical form. -/
theorem Eff.apply_canonical {s : State} (h : s.canonical = true) (e : Eff) : (e.apply s).canonical = true := by
  simp only [State.canonical, Bool.and_eq_true] at h ⊢
  obtain ⟨⟨⟨⟨⟨⟨⟨⟨⟨h1, h2⟩, h3⟩, h4⟩, h5⟩, h6⟩, h7⟩, h8⟩, h9⟩, h10⟩ := h
  cases e <;>
    simp only [Eff.apply, memSet_wf _ _ h1, trising_tput, trising_tset, h1, h2, h3, h4, h5, h6, h7, h8, h9, h10, and_self]

/-- Every meaning keeps the canonical form. -/
theorem Mv.run_canonical : ∀ (m : Mv) {s : State}, s.canonical = true → (m.run s).canonical = true
  | .done, _, h => h
  | .eff e k, _, h => run_canonical k (Eff.apply_canonical h e)
  | .look k, s, h => run_canonical (k s) h

/-- A direct operation that is sent later runs a meaning. -/
theorem sendDirect_is_run (i : Instr) (s : State) : ∃ m : Mv, sendDirect i s = .next (m.run s) := by
  unfold sendDirect
  split
  all_goals first | exact ⟨.done, rfl⟩ | exact ⟨_, rfl⟩

/-- Every instruction and every event runs a meaning, TASK_SAFE_SEND on behalf of the half it sends for. -/
theorem exec_is_run (i : Instr) (s : State) : ∃ (m : Mv) (n : Nat), exec i s = .next (m.run { s with cur := n }) := by
  cases i
  case taskSafeSend =>
    show ∃ (m : Mv) (n : Nat), execTaskSafeSend s = _
    unfold execTaskSafeSend
    dsimp only
    split
    · split
      · obtain ⟨m, hm⟩ := sendDirect_is_run _ { s with cur := s.data.n }
        exact ⟨m, _, hm⟩
      · exact ⟨.done, s.cur, rfl⟩
    · exact ⟨.done, s.cur, rfl⟩
  all_goals exact ⟨_, s.cur, rfl⟩

/-- Time keeps the canonical form. -/
theorem tick_canonical {s : State} (h : s.canonical = true) : (tick s).canonical = true := by
  simp only [State.canonical, Bool.and_eq_true] at h ⊢
  obtain ⟨⟨⟨⟨⟨⟨⟨⟨⟨h1, h2⟩, h3⟩, h4⟩, h5⟩, h6⟩, h7⟩, h8⟩, h9⟩, h10⟩ := h
  simp only [tick, trising_tmap, h1, h2, h3, h4, h5, h6, h7, h8, h9, h10, and_self]

end Sys2Proof.Machine
end

