-- ==== Sys2Proof/Laws/PerInstr.lean ====
section
/-! SUPPORT. Statements about every instruction as syntax, one lemma per constructor: the number of parcels is what LEN
of parcel 0 says (R56). -/
set_option Elab.async false

namespace Sys2Proof.Laws.EncodingLength

/-- A well-formed instruction has as many parcels as LEN of its parcel 0 says, plus one; an event has none (R56). -/
def Statement (i : Instr) : Prop :=
  i.wf = true → match encode i with
    | [] => True
    | p :: l => (p :: l).length = lenOf p + 1

theorem add (f : FA) : Statement (.add f) := fun _ => by simp [encode]

theorem sub (f : FA) : Statement (.sub f) := fun _ => by simp [encode]

theorem and (f : FA) : Statement (.and f) := fun _ => by simp [encode]

theorem or (f : FA) : Statement (.or f) := fun _ => by simp [encode]

theorem xor (f : FA) : Statement (.xor f) := fun _ => by simp [encode]

theorem andn (f : FA) : Statement (.andn f) := fun _ => by simp [encode]

theorem shl (f : FA) : Statement (.shl f) := fun _ => by simp [encode]

theorem shr (f : FA) : Statement (.shr f) := fun _ => by simp [encode]

theorem sar (f : FA) : Statement (.sar f) := fun _ => by simp [encode]

theorem rol (f : FA) : Statement (.rol f) := fun _ => by simp [encode]

theorem min (f : FA) : Statement (.min f) := fun _ => by simp [encode]

theorem max (f : FA) : Statement (.max f) := fun _ => by simp [encode]

theorem minn (f : FA) : Statement (.minn f) := fun _ => by simp [encode]

theorem maxn (f : FA) : Statement (.maxn f) := fun _ => by simp [encode]

theorem clz (f : FA) : Statement (.clz f) := fun _ => by simp [encode]

theorem popc (f : FA) : Statement (.popc f) := fun _ => by simp [encode]

theorem mul (f : FA) : Statement (.mul f) := fun _ => by simp [encode]

theorem mulh (f : FA) : Statement (.mulh f) := fun _ => by simp [encode]

theorem mulhn (f : FA) : Statement (.mulhn f) := fun _ => by simp [encode]

theorem div (f : FA) : Statement (.div f) := fun _ => by simp [encode]

theorem divn (f : FA) : Statement (.divn f) := fun _ => by simp [encode]

theorem rem (f : FA) : Statement (.rem f) := fun _ => by simp [encode]

theorem remn (f : FA) : Statement (.remn f) := fun _ => by simp [encode]

theorem ceq (f : FA) : Statement (.ceq f) := fun _ => by simp [encode]

theorem cne (f : FA) : Statement (.cne f) := fun _ => by simp [encode]

theorem clt (f : FA) : Statement (.clt f) := fun _ => by simp [encode]

theorem cle (f : FA) : Statement (.cle f) := fun _ => by simp [encode]

theorem cltn (f : FA) : Statement (.cltn f) := fun _ => by simp [encode]

theorem clen (f : FA) : Statement (.clen f) := fun _ => by simp [encode]

theorem ctst (f : FA) : Statement (.ctst f) := fun _ => by simp [encode]

theorem addi (f : FI) : Statement (.addi f) := fun _ => by simp [encode]

theorem andi (f : FI) : Statement (.andi f) := fun _ => by simp [encode]

theorem ori (f : FI) : Statement (.ori f) := fun _ => by simp [encode]

theorem xori (f : FI) : Statement (.xori f) := fun _ => by simp [encode]

theorem shli (f : FS) : Statement (.shli f) := fun _ => by simp [encode]

theorem shri (f : FS) : Statement (.shri f) := fun _ => by simp [encode]

theorem sari (f : FS) : Statement (.sari f) := fun _ => by simp [encode]

theorem cmpi (f : FI) : Statement (.cmpi f) := fun _ => by simp [encode]

theorem kand (f : FA) : Statement (.kand f) := fun _ => by simp [encode]

theorem kor (f : FA) : Statement (.kor f) := fun _ => by simp [encode]

theorem kxor (f : FA) : Statement (.kxor f) := fun _ => by simp [encode]

theorem knot (f : FA) : Statement (.knot f) := fun _ => by simp [encode]

theorem kmovs (f : FA) : Statement (.kmovs f) := fun _ => by simp [encode]

theorem kmovk (f : FA) : Statement (.kmovk f) := fun _ => by simp [encode]

theorem kpopc (f : FA) : Statement (.kpopc f) := fun _ => by simp [encode]

theorem kfirst (f : FA) : Statement (.kfirst f) := fun _ => by simp [encode]

theorem movl (min : BitVec 4) (f : FX) : Statement (.movl min f) := fun _ => by simp [encode, encX]

theorem movlHi (min : BitVec 4) (f : FX) : Statement (.movlHi min f) := fun _ => by simp [encode, encX]

theorem leaL (min : BitVec 4) (f : FL) : Statement (.leaL min f) := fun _ => by simp [encode, encL]

theorem leaX (min : BitVec 4) (f : FX) : Statement (.leaX min f) := fun _ => by simp [encode, encX]

theorem br (f : FJ) : Statement (.br f) := fun _ => by simp [encode]

theorem jmp (f : FJ) : Statement (.jmp f) := fun _ => by simp [encode]

theorem call (f : FJ) : Statement (.call f) := fun _ => by simp [encode]

theorem loop (f : FJ) : Statement (.loop f) := fun _ => by simp [encode]

theorem vbr (f : FJ) : Statement (.vbr f) := fun _ => by simp [encode]

theorem callr (f : FA) : Statement (.callr f) := fun _ => by simp [encode]

theorem jr (f : FA) : Statement (.jr f) := fun _ => by simp [encode]

theorem ret (f : FA) : Statement (.ret f) := fun _ => by simp [encode]

theorem endT (f : FA) : Statement (.endT f) := fun _ => by simp [encode]

theorem yield (f : FA) : Statement (.yield f) := fun _ => by simp [encode]

theorem trap (f : FA) : Statement (.trap f) := fun _ => by simp [encode]

theorem tret (f : FA) : Statement (.tret f) := fun _ => by simp [encode]

theorem bkpt (f : FA) : Statement (.bkpt f) := fun _ => by simp [encode]

theorem crr (f : FA) : Statement (.crr f) := fun _ => by simp [encode]

theorem crw (f : FA) : Statement (.crw f) := fun _ => by simp [encode]

theorem crx (f : FA) : Statement (.crx f) := fun _ => by simp [encode]

theorem gatew (f : FA) : Statement (.gatew f) := fun _ => by simp [encode]

theorem gater (f : FA) : Statement (.gater f) := fun _ => by simp [encode]

theorem objw (f : FA) : Statement (.objw f) := fun _ => by simp [encode]

theorem objr (f : FA) : Statement (.objr f) := fun _ => by simp [encode]

theorem grpw (f : FA) : Statement (.grpw f) := fun _ => by simp [encode]

theorem qmap (f : FA) : Statement (.qmap f) := fun _ => by simp [encode]

theorem jbind (f : FA) : Statement (.jbind f) := fun _ => by simp [encode]

theorem jload (f : FA) : Statement (.jload f) := fun _ => by simp [encode]

theorem ssav (f : FA) : Statement (.ssav f) := fun _ => by simp [encode]

theorem srst (f : FA) : Statement (.srst f) := fun _ => by simp [encode]

theorem ipi (f : FA) : Statement (.ipi f) := fun _ => by simp [encode]

theorem vadd (f : FL) : Statement (.vadd f) := fun _ => by simp [encode, encL]

theorem vsub (f : FL) : Statement (.vsub f) := fun _ => by simp [encode, encL]

theorem vmul (f : FL) : Statement (.vmul f) := fun _ => by simp [encode, encL]

theorem vfma (f : FL) : Statement (.vfma f) := fun _ => by simp [encode, encL]

theorem vmin (f : FL) : Statement (.vmin f) := fun _ => by simp [encode, encL]

theorem vmax (f : FL) : Statement (.vmax f) := fun _ => by simp [encode, encL]

theorem vabs (f : FL) : Statement (.vabs f) := fun _ => by simp [encode, encL]

theorem vneg (f : FL) : Statement (.vneg f) := fun _ => by simp [encode, encL]

theorem vand (f : FL) : Statement (.vand f) := fun _ => by simp [encode, encL]

theorem vor (f : FL) : Statement (.vor f) := fun _ => by simp [encode, encL]

theorem vxor (f : FL) : Statement (.vxor f) := fun _ => by simp [encode, encL]

theorem vshl (f : FL) : Statement (.vshl f) := fun _ => by simp [encode, encL]

theorem vshr (f : FL) : Statement (.vshr f) := fun _ => by simp [encode, encL]

theorem vsar (f : FL) : Statement (.vsar f) := fun _ => by simp [encode, encL]

theorem vsel (f : FL) : Statement (.vsel f) := fun _ => by simp [encode, encL]

theorem vmulh (f : FL) : Statement (.vmulh f) := fun _ => by simp [encode, encL]

theorem vwadd (f : FL) : Statement (.vwadd f) := fun _ => by simp [encode, encL]

theorem vwsub (f : FL) : Statement (.vwsub f) := fun _ => by simp [encode, encL]

theorem vwmul (f : FL) : Statement (.vwmul f) := fun _ => by simp [encode, encL]

theorem vwfma (f : FL) : Statement (.vwfma f) := fun _ => by simp [encode, encL]

theorem vnarrow (f : FL) : Statement (.vnarrow f) := fun _ => by simp [encode, encL]

theorem vcvt (f : FL) : Statement (.vcvt f) := fun _ => by simp [encode, encL]

theorem vdot4 (f : FL) : Statement (.vdot4 f) := fun _ => by simp [encode, encL]

theorem vcmp (f : FL) : Statement (.vcmp f) := fun _ => by simp [encode, encL]

theorem vtest (f : FL) : Statement (.vtest f) := fun _ => by simp [encode, encL]

theorem vredsum (f : FL) : Statement (.vredsum f) := fun _ => by simp [encode, encL]

theorem vredmax (f : FL) : Statement (.vredmax f) := fun _ => by simp [encode, encL]

theorem vredmin (f : FL) : Statement (.vredmin f) := fun _ => by simp [encode, encL]

theorem vredand (f : FL) : Statement (.vredand f) := fun _ => by simp [encode, encL]

theorem vredor (f : FL) : Statement (.vredor f) := fun _ => by simp [encode, encL]

theorem vscan (f : FL) : Statement (.vscan f) := fun _ => by simp [encode, encL]

theorem vperm (f : FL) : Statement (.vperm f) := fun _ => by simp [encode, encL]

theorem vslide (f : FL) : Statement (.vslide f) := fun _ => by simp [encode, encL]

theorem vbcast (f : FL) : Statement (.vbcast f) := fun _ => by simp [encode, encL]

theorem viota (f : FL) : Statement (.viota f) := fun _ => by simp [encode, encL]

theorem vcompress (f : FL) : Statement (.vcompress f) := fun _ => by simp [encode, encL]

theorem vexpand (f : FL) : Statement (.vexpand f) := fun _ => by simp [encode, encL]

theorem vzip (f : FL) : Statement (.vzip f) := fun _ => by simp [encode, encL]

theorem vunzip (f : FL) : Statement (.vunzip f) := fun _ => by simp [encode, encL]

theorem vsort (f : FL) : Statement (.vsort f) := fun _ => by simp [encode, encL]

theorem vmerge (f : FL) : Statement (.vmerge f) := fun _ => by simp [encode, encL]

theorem vsearch (f : FL) : Statement (.vsearch f) := fun _ => by simp [encode, encL]

theorem vsparse (f : FL) : Statement (.vsparse f) := fun _ => by simp [encode, encL]

theorem vunsparse (f : FL) : Statement (.vunsparse f) := fun _ => by simp [encode, encL]

theorem vexp2 (f : FL) : Statement (.vexp2 f) := fun _ => by simp [encode, encL]

theorem vlog2 (f : FL) : Statement (.vlog2 f) := fun _ => by simp [encode, encL]

theorem vrcp (f : FL) : Statement (.vrcp f) := fun _ => by simp [encode, encL]

theorem vrsq (f : FL) : Statement (.vrsq f) := fun _ => by simp [encode, encL]

theorem vtanh (f : FL) : Statement (.vtanh f) := fun _ => by simp [encode, encL]

theorem vmov (f : FL) : Statement (.vmov f) := fun _ => by simp [encode, encL]

theorem vsplat (f : FL) : Statement (.vsplat f) := fun _ => by simp [encode, encL]

theorem vins (f : FL) : Statement (.vins f) := fun _ => by simp [encode, encL]

theorem vext (f : FL) : Statement (.vext f) := fun _ => by simp [encode, encL]

theorem mmaL (f : FL) : Statement (.mmaL f) := fun _ => by simp [encode, encL]

theorem mmaX (f : FX) : Statement (.mmaX f) := fun _ => by simp [encode, encX]

theorem mmarL (f : FL) : Statement (.mmarL f) := fun _ => by simp [encode, encL]

theorem mmarX (f : FX) : Statement (.mmarX f) := fun _ => by simp [encode, encX]

theorem mmagL (f : FL) : Statement (.mmagL f) := fun _ => by simp [encode, encL]

theorem mmagX (f : FX) : Statement (.mmagX f) := fun _ => by simp [encode, encX]

theorem mmagrL (f : FL) : Statement (.mmagrL f) := fun _ => by simp [encode, encL]

theorem mmagrX (f : FX) : Statement (.mmagrX f) := fun _ => by simp [encode, encX]

theorem mzero (f : FL) : Statement (.mzero f) := fun _ => by simp [encode, encL]

theorem mload (f : FL) : Statement (.mload f) := fun _ => by simp [encode, encL]

theorem mdrain (f : FL) : Statement (.mdrain f) := fun _ => by simp [encode, encL]

theorem mexp (f : FL) : Statement (.mexp f) := fun _ => by simp [encode, encL]

theorem mchk (f : FL) : Statement (.mchk f) := fun _ => by simp [encode, encL]

theorem mside (f : FL) : Statement (.mside f) := fun _ => by simp [encode, encL]

theorem mtrans (f : FL) : Statement (.mtrans f) := fun _ => by simp [encode, encL]

theorem msmax (f : FL) : Statement (.msmax f) := fun _ => by simp [encode, encL]

theorem mscale (f : FL) : Statement (.mscale f) := fun _ => by simp [encode, encL]

theorem mmask (f : FL) : Statement (.mmask f) := fun _ => by simp [encode, encL]

theorem mtree (f : FL) : Statement (.mtree f) := fun _ => by simp [encode, encL]

theorem ld (f : FL) : Statement (.ld f) := fun _ => by simp [encode, encL]

theorem ldv (f : FL) : Statement (.ldv f) := fun _ => by simp [encode, encL]

theorem ldr (f : FL) : Statement (.ldr f) := fun _ => by simp [encode, encL]

theorem ldk (f : FL) : Statement (.ldk f) := fun _ => by simp [encode, encL]

theorem st (f : FL) : Statement (.st f) := fun _ => by simp [encode, encL]

theorem stv (f : FL) : Statement (.stv f) := fun _ => by simp [encode, encL]

theorem str (f : FL) : Statement (.str f) := fun _ => by simp [encode, encL]

theorem stk (f : FL) : Statement (.stk f) := fun _ => by simp [encode, encL]

theorem lds (f : FL) : Statement (.lds f) := fun _ => by simp [encode, encL]

theorem lda (f : FL) : Statement (.lda f) := fun _ => by simp [encode, encL]

theorem ldsv (f : FL) : Statement (.ldsv f) := fun _ => by simp [encode, encL]

theorem sts (f : FL) : Statement (.sts f) := fun _ => by simp [encode, encL]

theorem strel (f : FL) : Statement (.strel f) := fun _ => by simp [encode, encL]

theorem stsv (f : FL) : Statement (.stsv f) := fun _ => by simp [encode, encL]

theorem stsm (f : FL) : Statement (.stsm f) := fun _ => by simp [encode, encL]

theorem atom (f : FL) : Statement (.atom f) := fun _ => by simp [encode, encL]

theorem red (f : FL) : Statement (.red f) := fun _ => by simp [encode, encL]

theorem atomr (f : FL) : Statement (.atomr f) := fun _ => by simp [encode, encL]

theorem redr (f : FL) : Statement (.redr f) := fun _ => by simp [encode, encL]

theorem fence (min : BitVec 4) (f : FA) : Statement (.fence min f) := fun _ => by simp [encode]

theorem puthL (f : FL) : Statement (.puthL f) := fun _ => by simp [encode, encL]

theorem puthX (f : FX) : Statement (.puthX f) := fun _ => by simp [encode, encX]

theorem rot (f : FL) : Statement (.rot f) := fun _ => by simp [encode, encL]

theorem pft (f : FL) : Statement (.pft f) := fun _ => by simp [encode, encL]

theorem copy (f : FL) : Statement (.copy f) := fun _ => by simp [encode, encL]

theorem ecenc (f : FL) : Statement (.ecenc f) := fun _ => by simp [encode, encL]

theorem ecrec (f : FL) : Statement (.ecrec f) := fun _ => by simp [encode, encL]

theorem rlock (f : FL) : Statement (.rlock f) := fun _ => by simp [encode, encL]

theorem runlock (f : FL) : Statement (.runlock f) := fun _ => by simp [encode, encL]

theorem alloc (f : FA) : Statement (.alloc f) := fun _ => by simp [encode]

theorem free (f : FA) : Statement (.free f) := fun _ => by simp [encode]

theorem send (f : FL) : Statement (.send f) := fun _ => by simp [encode, encL]

theorem sendm (f : FL) : Statement (.sendm f) := fun _ => by simp [encode, encL]

theorem reply (f : FL) : Statement (.reply f) := fun _ => by simp [encode, encL]

theorem recv (f : FL) : Statement (.recv f) := fun _ => by simp [encode, encL]

theorem pollq (f : FL) : Statement (.pollq f) := fun _ => by simp [encode, encL]

theorem spawnL (f : FL) : Statement (.spawnL f) := fun _ => by simp [encode, encL]

theorem spawnX (f : FX) : Statement (.spawnX f) := fun _ => by simp [encode, encX]

theorem launchL (f : FL) : Statement (.launchL f) := fun _ => by simp [encode, encL]

theorem launchX (f : FX) : Statement (.launchX f) := fun _ => by simp [encode, encX]

theorem abort (f : FL) : Statement (.abort f) := fun _ => by simp [encode, encL]

theorem abortX (f : FX) : Statement (.abortX f) := fun _ => by simp [encode, encX]

theorem reef (f : FL) : Statement (.reef f) := fun _ => by simp [encode, encL]

theorem reefx (f : FL) : Statement (.reefx f) := fun _ => by simp [encode, encL]

theorem reefq (f : FL) : Statement (.reefq f) := fun _ => by simp [encode, encL]

theorem bar (f : FL) : Statement (.bar f) := fun _ => by simp [encode, encL]

theorem barw (f : FL) : Statement (.barw f) := fun _ => by simp [encode, encL]

theorem actrL (f : FL) : Statement (.actrL f) := fun _ => by simp [encode, encL]

theorem actrX (f : FX) : Statement (.actrX f) := fun _ => by simp [encode, encX]

theorem waitc (f : FL) : Statement (.waitc f) := fun _ => by simp [encode, encL]

theorem ctrr (f : FA) : Statement (.ctrr f) := fun _ => by simp [encode]

theorem ctrw (f : FA) : Statement (.ctrw f) := fun _ => by simp [encode]

theorem waitt (f : FA) : Statement (.waitt f) := fun _ => by simp [encode]

theorem time (f : FA) : Statement (.time f) := fun _ => by simp [encode]

theorem rlbegin (f : FL) : Statement (.rlbegin f) := fun _ => by simp [encode, encL]

theorem rlrsv (f : FL) : Statement (.rlrsv f) := fun _ => by simp [encode, encL]

theorem rlchk (f : FL) : Statement (.rlchk f) := fun _ => by simp [encode, encL]

theorem rlld (f : FL) : Statement (.rlld f) := fun _ => by simp [encode, encL]

theorem rlst (f : FL) : Statement (.rlst f) := fun _ => by simp [encode, encL]

theorem rlend (f : FL) : Statement (.rlend f) := fun _ => by simp [encode, encL]

theorem rlstat (f : FL) : Statement (.rlstat f) := fun _ => by simp [encode, encL]

theorem jibA (slot : BitVec 6) (f : FA) : Statement (.jibA slot f) := fun _ => by simp [encode]

theorem jibL (slot : BitVec 6) (f : FL) : Statement (.jibL slot f) := fun _ => by simp [encode, encL]

theorem nop : Statement .nop := fun _ => by simp [encode, lenOf]

theorem pfh (off : BitVec 19) : Statement (.pfh off) := fun _ => by simp [encode, lenOf_pfh]

theorem prio (n : BitVec 2) : Statement (.prio n) := fun _ => by simp [encode, lenOf_prio]

theorem alignh (n : BitVec 4) : Statement (.alignh n) := fun _ => by simp [encode, lenOf_alignh]

theorem hint1 (p : Parcel) : Statement (.hint1 p) := by
  intro h
  simp only [Instr.wf, Machine.encodingDefined, Machine.okHint1, Bool.and_eq_true, decide_eq_true_eq] at h
  simp [encode, h]

theorem hint2 (p : Parcel) (q : Parcel) : Statement (.hint2 p q) := by
  intro h
  simp only [Instr.wf, Machine.encodingDefined, Machine.okHint2, Bool.and_eq_true, decide_eq_true_eq] at h
  simp [encode, h]

theorem hint3 (p : Parcel) (q : Parcel) (r : Parcel) : Statement (.hint3 p q r) := by
  intro h
  simp only [Instr.wf, Machine.encodingDefined, Machine.okHint3, Bool.and_eq_true, decide_eq_true_eq] at h
  simp [encode, h]

theorem inboxAccept : Statement .inboxAccept := fun _ => trivial

theorem taskActivation : Statement .taskActivation := fun _ => trivial

theorem jibSetResident : Statement .jibSetResident := fun _ => trivial

theorem launchRequest : Statement .launchRequest := fun _ => trivial

theorem spawnAccept : Statement .spawnAccept := fun _ => trivial

theorem abortRequest : Statement .abortRequest := fun _ => trivial

theorem taskPlacement : Statement .taskPlacement := fun _ => trivial

theorem launchEndSweep : Statement .launchEndSweep := fun _ => trivial

theorem teamSwapOut : Statement .teamSwapOut := fun _ => trivial

theorem teamRestore : Statement .teamRestore := fun _ => trivial

theorem commitRequest : Statement .commitRequest := fun _ => trivial

theorem taskSafeSend : Statement .taskSafeSend := fun _ => trivial

theorem reefReexecution : Statement .reefReexecution := fun _ => trivial

theorem slotSchedule : Statement .slotSchedule := fun _ => trivial

theorem overrun : Statement .overrun := fun _ => trivial

theorem queuePeriodStart : Statement .queuePeriodStart := fun _ => trivial

theorem launchQueueServe : Statement .launchQueueServe := fun _ => trivial

theorem slotBusyTimeout : Statement .slotBusyTimeout := fun _ => trivial

theorem sliceEnd : Statement .sliceEnd := fun _ => trivial

theorem pdlForcedSave : Statement .pdlForcedSave := fun _ => trivial

theorem wdog : Statement .wdog := fun _ => trivial

theorem saveComplete : Statement .saveComplete := fun _ => trivial

theorem restoreComplete : Statement .restoreComplete := fun _ => trivial

theorem quantumBoundary : Statement .quantumBoundary := fun _ => trivial

theorem registerFill : Statement .registerFill := fun _ => trivial

theorem parityError : Statement .parityError := fun _ => trivial

theorem codeFetch : Statement .codeFetch := fun _ => trivial

theorem trapDelivery : Statement .trapDelivery := fun _ => trivial

theorem translationRequest : Statement .translationRequest := fun _ => trivial

theorem pageWalkComplete : Statement .pageWalkComplete := fun _ => trivial

theorem pageFaultPost : Statement .pageFaultPost := fun _ => trivial

theorem invpage : Statement .invpage := fun _ => trivial

theorem invasid : Statement .invasid := fun _ => trivial

theorem invall : Statement .invall := fun _ => trivial

theorem resume : Statement .resume := fun _ => trivial

theorem rangew : Statement .rangew := fun _ => trivial

theorem rangeinv : Statement .rangeinv := fun _ => trivial

theorem probeRefusal : Statement .probeRefusal := fun _ => trivial

theorem homeAccess : Statement .homeAccess := fun _ => trivial

theorem pinGroupFailed : Statement .pinGroupFailed := fun _ => trivial

theorem widen : Statement .widen := fun _ => trivial

theorem remoteScratchpadAccess : Statement .remoteScratchpadAccess := fun _ => trivial

theorem stsmMemberWrite : Statement .stsmMemberWrite := fun _ => trivial

theorem stsmAnswerMerge : Statement .stsmAnswerMerge := fun _ => trivial

theorem engineCommandStart : Statement .engineCommandStart := fun _ => trivial

theorem engineBytesLand : Statement .engineBytesLand := fun _ => trivial

theorem engineCommandComplete : Statement .engineCommandComplete := fun _ => trivial

theorem arrivalCounterZero : Statement .arrivalCounterZero := fun _ => trivial

theorem atomicEngineRequest : Statement .atomicEngineRequest := fun _ => trivial

theorem atomrReply : Statement .atomrReply := fun _ => trivial

theorem heapRequest : Statement .heapRequest := fun _ => trivial

theorem gangStart : Statement .gangStart := fun _ => trivial

theorem gangComplete : Statement .gangComplete := fun _ => trivial

theorem ringStart : Statement .ringStart := fun _ => trivial

theorem mmulLoadPhase : Statement .mmulLoadPhase := fun _ => trivial

theorem mmulComputeDone : Statement .mmulComputeDone := fun _ => trivial

theorem barrierGenerationComplete : Statement .barrierGenerationComplete := fun _ => trivial

theorem waittExpire : Statement .waittExpire := fun _ => trivial

theorem ratlineRequest : Statement .ratlineRequest := fun _ => trivial

theorem ratlineWindowStart : Statement .ratlineWindowStart := fun _ => trivial

theorem holdListBuild : Statement .holdListBuild := fun _ => trivial

theorem ratlineLoopEnd : Statement .ratlineLoopEnd := fun _ => trivial

theorem vfReset : Statement .vfReset := fun _ => trivial

theorem vsockPacket : Statement .vsockPacket := fun _ => trivial

theorem hostSendRingService : Statement .hostSendRingService := fun _ => trivial

theorem virtioFeatureNegotiation : Statement .virtioFeatureNegotiation := fun _ => trivial

theorem ethernetFrameReceive : Statement .ethernetFrameReceive := fun _ => trivial

theorem ucieLaneRepair : Statement .ucieLaneRepair := fun _ => trivial

theorem nimoshLaneLoss : Statement .nimoshLaneLoss := fun _ => trivial

theorem coreSelfTest : Statement .coreSelfTest := fun _ => trivial

theorem computeDieLoss : Statement .computeDieLoss := fun _ => trivial

theorem mfDieLoss : Statement .mfDieLoss := fun _ => trivial

theorem packageLoss : Statement .packageLoss := fun _ => trivial

theorem diagnosisVote : Statement .diagnosisVote := fun _ => trivial

theorem voteTimeout : Statement .voteTimeout := fun _ => trivial

theorem powerOnBringUp : Statement .powerOnBringUp := fun _ => trivial

theorem managementPagePoll : Statement .managementPagePoll := fun _ => trivial

theorem clockStepDown : Statement .clockStepDown := fun _ => trivial

theorem inletOverLimit : Statement .inletOverLimit := fun _ => trivial

theorem ptpMessage : Statement .ptpMessage := fun _ => trivial

theorem ptpLockLoss : Statement .ptpLockLoss := fun _ => trivial

theorem consoleCommand : Statement .consoleCommand := fun _ => trivial

theorem nimoshLinkRetry : Statement .nimoshLinkRetry := fun _ => trivial

theorem partitionTeardown : Statement .partitionTeardown := fun _ => trivial

end Sys2Proof.Laws.EncodingLength
end

