-- ==== Sys2Proof/Laws/Transfer.lean ====
section
/-! SUPPORT. What issue does with each verdict of its checks, and what a transfer between blocks does. -/
namespace Sys2Proof.Machine

/-- The checks that are left of a half between instructions: those of R17, R75, R76 and R289 on the instruction. -/
theorem issueCheck_between {s : State} {i : Instr} {sp : Spec} (h : s.between = true) :
    ∃ t, s.task? s.curHalf.tid = some t ∧ issueCheck s s.cur i sp = (
    let h := s.half s.cur
    if s.absent h i then .trap .absent 0 0
    else if isSys i && !isKernel (coreOf s.cur) then .trap .priv 0 0
    else if !i.wf || s.illNow h t i then .trap .ill 0 0
    else
        let k := sp.k.getD 0
        if k ≠ 0 ∧ (isFull h (.k k.toNat) = false ∨ isBusy h (.k k.toNat) = true) then .wait .register
        else if sp.scalar ∧ bit0 (readK h k.toNat) = false then
          (match s.fallCheck s.cur h (parcelCount i) with | .go => .skip | v => v)
        else
          match sourceCheck h (s.reads s.cur i sp) with
          | some v => v
          | none =>
            if !destsReady h sp.dsts || decide (8 < h.spares.length + (h.newVersions sp.vectors sp.dsts).length) then .wait .register
            else if isAccess i && s.acquiring h.tid then .wait .register
            else if fallsThrough i then s.fallCheck s.cur h (parcelCount i) else .go) := by
  simp only [State.between, State.curHalf, Bool.and_eq_true, Bool.not_eq_true', List.isEmpty_iff, Option.isNone_iff_eq_none] at h
  obtain ⟨⟨⟨⟨⟨⟨⟨⟨ht, hl⟩, htr⟩, hen⟩, hho⟩, hre⟩, hrp⟩, hqf⟩, hft⟩ := h
  obtain ⟨t, ht⟩ := Option.isSome_iff_exists.mp ht
  refine ⟨t, ht, ?_⟩
  replace hl := of_decide_eq_true hl
  replace hrp := of_decide_eq_true hrp
  unfold issueCheck
  simp only [ht]
  rw [if_neg (by simp [hl, htr, hen, hho])]
  rw [if_neg (by simp [hqf]; omega)]
  rw [if_neg (by intro h; simp_all)]
  simp only [hre]
  all_goals rfl

/-- What issue does with each verdict. -/
theorem run_issue_check (s : State) (i : Instr) (sp : Spec) (body : Ctx → Mv) {t : Task} (ht : s.task? s.curHalf.tid = some t) :
   (issue i sp body).run s = (match issueCheck s s.cur i sp with
    | .idle => Mv.done
    | .wait b => stall s.cur b
    | .trap cause faddr info => raiseIssue s.cur cause faddr info
    | .fetch va => syncFault s.cur (s.party s.curCore) .fetch va
    | .skip => if isTret i then (retireNow s.cur).andThen (advance s.cur (parcelCount i)) else retire (s.ctx i sp)
    | .go => body (s.ctx i sp)).run s := by
  have ht' : s.task? (s.half s.cur).tid = some t := ht
  simp only [issue, run_look, ht', State.ctx, ht]
  all_goals rfl

/-- A transfer to a good target retires, with what `pre` writes, and enters the target's block. -/
theorem run_transfer {s : State} {c : Ctx} {target w : Word} (pre : Half → Half) (hid : c.hid = s.cur) (hcore : c.core = s.curCore) (hh : c.h = s.curHalf) (hss : s.curHalf.ctl.ss = false)
   (hpl : (pre s.curHalf).lanes = s.curHalf.lanes) (hps : (pre s.curHalf).stack = s.curHalf.stack) (hpq : (pre s.curHalf).seq = s.curHalf.seq)
   (h : s.transfers target w = true) : (transfer c target pre).run s = s.retired 0 (entered (pre s.curHalf) target w) := by
  simp only [State.transfers, Bool.and_eq_true, decide_eq_true_eq] at h
  obtain ⟨⟨⟨⟨h0, h1⟩, h2⟩, h3⟩, h4⟩ := h
  cases hp : fetchParcel s s.curCore target with
  | ok p =>
    rw [hp] at h1
    have h1' : isHeaderParcel p = true := h1
    have hgo : (transfer c target pre).run s = (Mv.seq [
    upHalf c.hid fun h => { pre h with seq := h.seq + 1, refusedAt := none },
    retireNow c.hid,
    enterAfter c.hid target (stepTrap c)]).run s := by
      simp only [transfer, run_look, h0, ne_eq, not_true_eq_false, if_false, hcore, hp, h1', if_true]
    rw [hgo]
    have hst : stepTrap c = [] := by simp [stepTrap, hh, hss]
    have hra : ∀ u, (raiseAll s.cur []).run u = u := fun _ => rfl
    rw [run_seq_cons, run_seq_cons, run_seq_cons, run_seq_nil, hst, hid, run_upHalf]
    set u := (Eff.half s.cur { pre (s.half s.cur) with seq := (s.half s.cur).seq + 1, refusedAt := none }).apply s with hu
    have hv : (retireNow s.cur).run u = { s.retired 0 (pre s.curHalf) with halves := u.halves } := by
      simp only [retireNow, markIssued, countRetired, run_look, run_andThen, run_upCore, countPerf, run_upCluster]
      simp only [hu, Eff.apply, State.retired, State.half, State.core, State.cluster, State.det, State.part?, State.partOf,
        tput_tput, tgetD_tput_same]
      rfl
    rw [hv]
    set v : State := { s.retired 0 (pre s.curHalf) with halves := u.halves } with hvd
    have hsame : SameCode s v := ⟨rfl, rfl, rfl, rfl, rfl, rfl, rfl, (sameCode_retired s 0 (pre s.curHalf)).owners⟩
    have hvh : v.half s.cur = { pre (s.half s.cur) with seq := (s.half s.cur).seq + 1, refusedAt := none } := by
      simp [hvd, hu, State.half, Eff.apply]
    have hpl' : (pre (s.half s.cur)).lanes = (s.half s.cur).lanes := hpl
    have hps' : (pre (s.half s.cur)).stack = (s.half s.cur).stack := hps
    have h2' : fetchHeader s (coreOf s.cur) (reconverge (2 * (s.half s.cur).stack.length) target (s.half s.cur).lanes (s.half s.cur).stack).1 = .ok w := h2
    have hden : v.headerDenied s.cur target = false := by
      simp only [State.headerDenied, hvh, hpl', hps', fetchHeader_same hsame, h2']
      simp [h3]; omega
    simp only [enterAfter, run_look, hden, Bool.false_eq_true, if_false, run_andThen, hra]
    simp only [enterHeader, enterWith, run_look, hvh]
    simp only [hpl', hps', fetchHeader_same hsame, h2']
    have hsq : (pre (s.half s.cur)).seq = (s.half s.cur).seq := hpq
    have hkw : (hdrBlen w = 0 || decide (5 ≤ hdrKind w)) = false := by simp [h3]; omega
    simp only [run_andThen, run_upHalf, run_when, hkw, Bool.false_eq_true, if_false, hvh]
    simp only [Eff.apply, hvd, hu, State.retired, tput_tput, entered, Half.stepped, State.curHalf, hpl', hps']
    simp only [hsq]
  | _ => rw [hp] at h1; simp at h1

end Sys2Proof.Machine
end

