-- ==== Sys2Proof/Tests/Slice0.lean ====
section
/-! SUPPORT. Small tests: the words of the spec's encodings, the checks of well-formedness, and for each statement states
and operands that meet its hypotheses, with what its conclusion says of them. -/
set_option Elab.async false
namespace Sys2Proof.Tests
open Sys2Proof Sys2Proof.Machine

/-! ### Small machines -/

/-- A half that runs task 1 in a long block at 0x10000. -/
def liveHalf : Half := { Half.reset with occ := .live, tid := 1, hdr := 0x10000, hdrWord := 1023 }

/-- A task of partition 0 in a core. -/
def liveTask (core : Nat) : Task := Task.fresh core 0 0 Act.blank 0

/-- A machine whose half `hid` runs task 1, all addresses translating to themselves. -/
def stage (hid : Nat) : State := { State.reset with
  halves := [(hid, liveHalf)]
  tasks := [(1, { liveTask (coreOf hid) with half := hid % 2 })]
  cur := hid
  clusters := [(0, { Cluster.reset with part := some 0 })]
  parts := [(0, Part.created placeImage)]
  stations := [(0, { Station.reset with ranges := [(0, placeRange)] }), (1, { Station.reset with ranges := [(0, placeRange)] })] }

/-- The same with the half at issue changed. -/
def stageH (f : Half → Half) : State := { stage 0 with halves := [(0, f liveHalf)] }

/-- The same in kernel core 0. -/
def stageK (f : Half → Half) : State := { stage 8192 with halves := [(8192, f liveHalf)] }

/-- A half with s registers written. -/
def regs (l : List (Nat × Word)) (h : Half) : Half := l.foldl (fun h x => writeS h x.1 x.2) h

/-- A machine with bytes in memory. -/
def withBytes (a : Nat) (bs : List Byte) (s : State) : State := s.poked a bs

/-- A machine with a word in memory. -/
def withWordAt (a : Nat) (w : Nat) (s : State) : State := withBytes a (toBytes 8 w) s

/-- The instruction answers a next state, of which `p` holds. -/
def ok (i : Instr) (s : State) (p : State → Bool) : Bool := match exec i s with | .next t => p t | _ => false

/-- The fields of a format A instruction with its predicate on and no W bit. -/
def fa (d a b : BitVec 5) : FA := ⟨0, false, false, b, a, d⟩

/-- The fields of a format L instruction. -/
def fl (d a b c : BitVec 5) (obj : BitVec 16) (m t : BitVec 4) (sc : BitVec 2) : FL := ⟨fa d a b, sc, obj, m, t, false, c⟩

/-- The fields of a format L instruction with nothing but D, A and B. -/
def fl0 (d a b : BitVec 5) : FL := fl d a b 0 0 0 0 0

/-- An instruction runs to its end from a state, and the next state passes a test. -/
def done (i : Instr) (s : State) (p : State → Bool) : Bool := s.runs i && ok i s p

/-- An instruction runs to its end, and the next state is this one. -/
def goes (i : Instr) (s t : State) : Bool := done i s fun x => decide (x = t)

/-- A machine whose half at issue waits for an earlier load: a trap that is raised stays pending. -/
def loading (s : State) : State := s.halved (s.curHalf.holding Entry.blank)

/-- The half at issue has one trap pending: this one. -/
def pends (s t : State) (c : Cause) (a info : Word) : Bool := match (t.half s.cur).traps with
  | [p] => decide (p.cause = c) && decide (p.faddr = a) && decide (p.info = info) && decide (p.iaddr = pcOf s.curHalf)
  | _ => false

/-- An instruction runs, and traps at its issue. -/
def traps (i : Instr) (s : State) (c : Cause) (a : Word) (info : Word := 0) : Bool :=
  s.runs i && ok i (loading s) fun t => pends s t c a info

/-! ### Well-formedness: an ill-formed term for each check of R75 -/

theorem wf_refuses : ([
    .vadd (fl 0 0 0 0 0 0 6 0), .vand (fl 0 0 0 0 0 0 8 0), .vadd (fl 0 0 0 0 0 0 4 2), .vadd (fl 0 0 0 0 0 1 8 0),
    .vwadd (fl 0 0 0 0 0 0 4 0), .vwadd (fl 1 0 0 0 0 0 2 0), .vwadd (fl 0 0 0 0 0 0 2 3),
    .vcvt (fl 0 0 0 0 0 0 6 0), .vcvt (fl 0 0 0 0 6 0 4 0), .vcvt (fl 1 0 0 0 4 0 2 0), .vcvt (fl 0 0 0 0 2 0 4 0), .vcvt (fl 0 0 0 0 4 0 4 3),
    .vnarrow (fl 0 1 0 0 2 0 4 0), .vnarrow (fl 0 0 0 0 4 0 4 0), .vdot4 (fl 0 0 0 0 0 0 4 0), .vdot4 (fl 0 0 0 0 0 0 0 3),
    .vcmp (fl 0 0 0 0 0 7 4 0), .vcmp (fl 0 0 0 0 0 6 8 0), .vredsum (fl 0 0 0 0 0 0 11 0), .vredand (fl 0 0 0 0 0 0 8 0),
    .vscan (fl 0 0 0 0 0 3 4 0), .vperm (fl 0 0 1 0 0 0 0 0), .vperm (fl 0 0 2 0 0 0 7 0), .vmerge (fl 1 0 0 0 0 0 4 0),
    .vexp2 (fl 0 0 0 0 0 0 4 0)] : List Instr).all (fun i => !i.wf) = true := by decide +kernel

theorem wf_refuses_more : ([
    .mexp { fl0 0 0 0 with r := ⟨1, false, false, 0, 0, 0⟩ }, .mside (fl 0 0 0 0 0 3 0 0), .mside (fl 0 0 0 0 0 0 0 2),
    .mload (fl 0 0 0 0 0 0 6 0), .mdrain (fl 0 0 0 0 0 0 4 3), .ldv (fl 0 0 0 0 0 0 6 0), .lda (fl 0 0 0 0 0 10 0 0),
    .atom (fl 0 0 0 0 0 13 0 2), .atom (fl 0 0 0 0 0 0 0 1), .atom (fl 0 0 0 0 0 10 0 2), .red (fl 0 0 0 0 0 8 0 2),
    .send (fl 0 0 26 0 0 7 0 0), .spawnX ⟨fl 0 0 0 0 0 2 0 0, 0⟩, .crr (fa 0 0 25), .ctrr (fa 0 0 11), .time (fa 31 0 1),
    .cmpi ⟨0x1C00, false, 0, 0⟩, .movl 0 ⟨fl 0 0 0 0 0 0 3 0, 0⟩, .movlHi 0 ⟨fl 0 0 0 0 0 0 4 0, 0⟩, .fence 5 (fa 0 0 0),
    .hint1 0xF0, .hint1 0xEF, .hint2 0xF0 0, .hint3 0xF1 0 0] : List Instr).all (fun i => !i.wf) = true := by decide +kernel

/-- The same instructions with fields that R75 defines. -/
theorem wf_accepts : ([
    .vadd (fl 0 0 0 0 0 0 4 1), .vand (fl 0 0 0 0 0 1 7 0), .vwadd (fl 2 0 0 0 0 0 10 2), .vcvt (fl 0 0 0 0 4 0 2 0), .vnarrow (fl 0 2 0 0 2 0 4 0),
    .vdot4 (fl 0 0 0 0 0 0 9 2), .vcmp (fl 0 0 0 0 0 5 8 0), .vscan (fl 0 0 0 0 0 2 4 0), .vperm (fl 0 0 2 0 0 0 0 0), .vmerge (fl 2 0 0 0 0 0 4 0),
    .mside (fl 0 0 0 0 0 2 0 1), .mdrain (fl 0 0 0 0 0 0 15 2), .lda (fl 0 0 0 0 0 8 0 0), .atom (fl 0 0 0 0 0 12 8 2), .red (fl 0 0 0 0 0 7 0 3),
    .send (fl 0 0 25 0 0 7 0 0), .crr (fa 0 0 24), .ctrr (fa 0 0 10), .time (fa 30 0 1), .cmpi ⟨0x1BFF, false, 0, 0⟩, .fence 4 (fa 0 0 0),
    .hint1 0x100000F0, .hint2 0xF1 0, .hint3 0xF2 0 0] : List Instr).all (fun i => i.wf) = true := by decide +kernel

/-! ### Decoding: words written out from the layouts of R59 to R73 and R213, and the words that are no instruction -/

theorem decode_scalar : ([
    -- SALU 0x00, SMUL 0x01, SCMP 0x02: MIN K WB WA B A D MAJ LEN
    ([0b0000_000_0_0_01011_01010_01001_000000_00], .add (fa 9 10 11)),
    ([0b0011_000_0_0_01011_01010_01001_000001_00], .div (fa 9 10 11)),
    ([0b0010_101_1_0_01011_01010_00011_000010_00], .clt ⟨5, true, false, 11, 10, 3⟩),
    -- SIMM 0x03 to 0x06, SSHI 0x07, SCMPI 0x08: IMM WA A D MAJ LEN
    ([0b1111111111111_1_00010_01001_000011_00], .addi ⟨0x1FFF, true, 2, 9⟩),
    ([0b10_00000_000111_0_00010_01001_000111_00], .sari ⟨0, 7, false, 2, 9⟩),
    ([0b010_0000000101_0_00010_00011_001000_00], .cmpi ⟨0x805, false, 2, 3⟩),
    -- KOP 0x09
    ([0b0111_000_0_1_00000_00010_01001_001001_00], .kfirst ⟨0, false, true, 0, 2, 9⟩),
    -- LITERAL 0x0A and LEA 0x0B: parcel 1 is SC OBJ M T WC C
    ([0b0000_000_0_0_00000_00000_01001_001010_10, 0b00_0000000000000000_0000_0100_0_00000, 0x12345678], .movl 0 ⟨fl 9 0 0 0 0 0 4 0, 0x12345678⟩),
    ([0b0000_000_0_0_01011_01010_01001_001011_01, 0b11_1111111111111000_0001_0000_0_00000], .leaL 0 (fl 9 10 11 0 0xFFF8 1 0 3)),
    -- BR 0x0C: OFF CS K MAJ LEN; SYSTEM FLOW 0x0F
    ([0b1111111111111111110_0_1_010_001100_00], .br ⟨0x7FFFE, false, true, 2⟩),
    ([0b0101_000_0_0_00000_00000_00011_001111_00], .trap (fa 3 0 0)),
    -- CREG 0x12, SYS 0x13
    ([0b0001_000_0_0_01000_01010_00000_010010_00], .crw (fa 0 10 8)),
    ([0b0000_000_0_0_01011_01010_01001_010011_00], .gatew (fa 9 10 11))] : List (List Parcel × Instr)).all
      (fun x => decide (decode x.1 = .ok (x.2, []))) = true := by decide +kernel

theorem decode_vector : ([
    -- VARITH 0x14 to VMOV 0x1B
    ([0b0000_001_0_0_01011_01010_01001_010100_01, 0b00_0000000000000000_0000_0100_0_00000], .vadd { fl 9 10 11 0 0 0 4 0 with r := ⟨1, false, false, 11, 10, 9⟩ }),
    ([0b0101_000_0_0_00000_01010_01000_010101_01, 0b10_0000000000001001_0001_1000_0_00000], .vcvt (fl 8 10 0 0 9 1 8 2)),
    ([0b0000_000_0_0_01011_01010_00011_010110_01, 0b00_0000000000000000_0010_0000_0_00000], .vcmp (fl 3 10 11 0 0 2 0 0)),
    ([0b0101_000_0_0_00000_01010_01001_010111_01, 0b00_0000000000000000_0010_0100_0_00000], .vscan (fl 9 10 0 0 0 2 4 0)),
    ([0b0010_000_0_0_00000_01010_01001_011000_01, 0b00_0000000000000111_0000_0100_0_00000], .vbcast (fl 9 10 0 0 7 0 4 0)),
    ([0b0001_000_0_0_01011_01010_01000_011001_01, 0b00_0000000000000000_0001_0100_0_00000], .vmerge (fl 8 10 11 0 0 1 4 0)),
    ([0b0011_000_0_0_00000_01010_01001_011010_01, 0b00_0000000000000000_0000_1000_0_00000], .vrsq (fl 9 10 0 0 0 0 8 0)),
    ([0b0011_000_0_0_00000_01010_01001_011011_01, 0b00_0000000000000101_0000_0000_0_00000], .vext (fl 9 10 0 0 5 0 0 0)),
    -- MMUL 0x1C, MACC 0x1D, MAUX 0x1E
    ([0b0010_000_0_0_01011_01010_00001_011100_10, 0b00_0000000000000011_0001_0000_0_00000, 0xDEADBEEF], .mmagX ⟨fl 1 10 11 0 3 1 0 0, 0xDEADBEEF⟩),
    ([0b0010_000_0_0_00000_01010_00001_011101_01, 0b01_0000000000000100_0000_1000_0_00000], .mdrain (fl 1 10 0 0 4 0 8 1)),
    ([0b0010_000_0_0_00000_00000_00001_011110_01, 0b00_0000000000000100_0001_0000_0_00000], .mmask (fl 1 0 0 0 4 1 0 0))] : List (List Parcel × Instr)).all
      (fun x => decide (decode x.1 = .ok (x.2, []))) = true := by decide +kernel

theorem decode_memory : ([
    -- LOAD 0x1F to PLACE 0x27
    ([0b0000_000_0_0_01011_01010_01001_011111_01, 0b11_1111111111111000_0011_0000_0_00000], .ld (fl 9 10 11 0 0xFFF8 3 0 3)),
    ([0b0011_000_0_0_00000_01010_00000_100000_01, 0b00_0000000000001000_0000_0000_0_00111], .stk (fl 0 10 0 7 8 0 0 0)),
    ([0b0001_000_0_0_00000_01010_01001_100001_01, 0b11_0000000000001000_0100_0000_0_00000], .lda (fl 9 10 0 0 8 4 0 3)),
    ([0b0011_000_0_0_01011_01010_01001_100010_01, 0b00_0000000000000010_0000_0000_1_00101], .stsm { fl 9 10 11 5 2 0 0 0 with wc := true }),
    ([0b0000_000_0_0_01011_01010_01001_100011_01, 0b11_0000000000000000_0000_0000_0_00000], .atom (fl 9 10 11 0 0 0 0 3)),
    ([0b0000_000_0_0_01011_01010_00000_100100_01, 0b10_0000000000000000_0110_0000_0_00000], .red (fl 0 10 11 0 0 6 0 2)),
    ([0b0000_000_0_0_01011_01010_01001_100101_01, 0b11_0000000000000000_1001_0000_0_01100], .atomr (fl 9 10 11 12 0 9 0 3)),
    ([0b1100_000_0_0_00000_00000_00000_100110_00], .fence 12 (fa 0 0 0)),
    ([0b0001_000_0_0_01011_01010_00010_100111_01, 0b00_0000000000000001_0000_0000_0_00000], .rot (fl 2 10 11 0 1 0 0 0)),
    -- ENGINE 0x28 to HEAP 0x2A
    ([0b0000_000_0_0_01011_01010_01001_101000_01, 0b00_0000000000000001_0000_0000_0_00000], .copy (fl 9 10 11 0 1 0 0 0)),
    ([0b0001_000_0_0_01011_01010_01001_101001_01, 0b00_0000000000000000_0000_0000_0_00000], .runlock (fl0 9 10 11)),
    ([0b0000_000_0_0_00000_01010_01001_101010_00], .alloc (fa 9 10 0))] : List (List Parcel × Instr)).all
      (fun x => decide (decode x.1 = .ok (x.2, []))) = true := by decide +kernel

theorem decode_tasks : ([
    -- MSG 0x2B to COUNTER 0x2F
    ([0b0000_000_0_0_01011_01010_01001_101011_01, 0b01_1111111111111111_0010_0000_0_00000], .send (fl 9 10 11 0 0xFFFF 2 0 1)),
    ([0b0001_000_0_0_01011_01010_01001_101100_10, 0b00_0000000000000001_0000_0000_0_00000, 0xFFFFFFFE], .launchX ⟨fl 9 10 11 0 1 0 0 0, 0xFFFFFFFE⟩),
    ([0b0001_000_0_0_00000_01010_01001_101101_01, 0b00_0000000000000000_0000_0000_0_00000], .reefx (fl0 9 10 0)),
    ([0b0011_000_0_0_00000_00000_00101_101110_01, 0b00_0000000000000000_0000_0000_0_00000], .waitc (fl0 5 0 0)),
    ([0b0011_000_0_0_00000_00000_01001_101111_00], .time (fa 9 0 0)),
    -- RATLINE 0x30; jibs 0x38 to 0x3B are slots in MAJ[1:0] and MIN; hints 0x3C to 0x3F
    ([0b0000_000_0_0_01011_01010_01001_110000_01, 0b00_0000000000110000_0000_0000_0_01100], .rlbegin (fl 9 10 11 12 0x30 0 0 0)),
    ([0b0101_000_0_0_00000_00000_00000_110000_01, 0b00_0000000000000000_0001_0000_0_00000], .rlend (fl 0 0 0 0 0 1 0 0)),
    ([0b0101_000_0_0_01011_01010_01001_111000_01, 0b00_0000000000000000_0000_0000_0_01100], .jibL 5 (fl 9 10 11 12 0 0 0 0)),
    ([0b0000_0000_0000_0000_0000_0000_111100_00], .nop),
    ([0b1111111111111111111_00000_111101_00], .pfh 0x7FFFF),
    ([0b0000_0000_0000_0001_0000_0000_111100_00], .hint1 0x000100F0)] : List (List Parcel × Instr)).all
      (fun x => decide (decode x.1 = .ok (x.2, []))) = true := by decide +kernel

theorem decode_refuses : ([([], .noParcel), ([0x3], .header), ([0xC4, 0], .undefinedMajor), ([0b0111_000_0_0_00000_00000_00000_000001_00], .undefinedMinor),
    ([0b0000_000_0_0_00000_00000_00000_000000_01, 0], .badLength), ([0b0000_000_0_0_00000_00000_00000_010100_01], .truncated)] : List (List Parcel × DecodeError)).all
      (fun x => decide (decode x.1 = .error x.2)) = true := by decide +kernel

/-- The step fetches the word that is placed where it fetches its next instruction, and runs it. -/
theorem step_runs_placed_word : (match step (State.reset.withFetchWord 32 0b0000_0000000001_0_00000_01001_000011_00) with
    | .next t => decide (readS (t.half 0) 9 = 1) | _ => false) = true := by decide +kernel

theorem step_runs_placed_sys : (match step (State.reset.withFetchWord 32 0b0001_000_0_0_01011_01010_01001_010011_00) with
    | .next t => decide ((t.half 8192).seq = 1) | _ => false) = true := by decide +kernel

/-! ### Witnesses: a step -/

/-- What StepRunsInstruction asks of a machine that holds the words of an instruction, with its conclusion. -/
def stepsTo (s : State) (hid : Nat) (i : Instr) : Bool :=
  let u : State := { tick s with agenda := [], data := { EventData.none with ecc := .clean } }
  let t := (prepare hid).run { u with cur := u.issuer hid }
  let h := t.half hid
  decide (u.issuer hid = hid) && !s.package.lost && decide (s.agenda = [.issue hid .clean]) && i.isInstruction && i.wf && !t.idleHalf hid h && h.reissue.isNone
    && decide (h.roff + parcelCount i ≤ hdrBlen h.hdrWord)
    && (List.range (parcelCount i)).all (fun n => decide (fetchParcel t (coreOf hid) (pcOf h + word (4 * n)) = .ok ((encode i).getD n 0)))
    && (match step s, exec i t with | .next x, .next y => decide (x.half hid = y.half hid) && decide (x.mem = y.mem) | _, _ => false)

theorem witness_step_runs : stepsTo { (stage 0).poked 0x10008 (toBytes 4 0x5A09890C) with agenda := [.issue 0 .clean] } 0
    (.addi ⟨0xB41, false, 12, 9⟩) = true := by decide +kernel

/-- An instruction of three parcels. -/
theorem witness_step_runs_three : stepsTo { (stageH fun h => { h with roff := 251 }).poked (0x10008 + 4 * 251)
      (toBytes 4 0x92A ++ toBytes 4 0x100 ++ toBytes 4 0x12345678) with agenda := [.issue 0 .clean] } 0
    (.movl 0 ⟨fl 9 0 0 0 0 0 4 0, 0x12345678⟩) = true := by decide +kernel

/-- The half with the older task issues before the other, and of two tasks of one age the half that did not issue last. -/
theorem witness_issuer : (let other (age : Nat) : Half := { liveHalf with tid := 2, age := age }
    let two (age last : Nat) : State := { stage 0 with
      halves := [(0, liveHalf), (1, other age)]
      tasks := (stage 0).tasks ++ [(2, { liveTask 0 with half := 1 })]
      cores := [(0, { Core.reset with issued := last })] }
    let ready (s : State) := s.issuable 0 && s.issuable 1
    ready (two 1 0) && decide ((two 1 0).issuer 0 = 0) && decide ((two 1 0).issuer 1 = 0)
      && ready (two 0 0) && decide ((two 0 0).issuer 0 = 1) && decide ((two 0 0).issuer 1 = 1) && decide ((two 0 1).issuer 1 = 0)
      && !(stage 0).issuable 1 && decide ((stage 0).issuer 0 = 0)) = true := by decide +kernel

theorem witness_step_runs_event : (match step { stage 0 with agenda := [.event .ptpLockLoss EventData.none, .issue 0 .clean] },
      step { stage 0 with agenda := [.event .nop EventData.none] }, step { stage 0 with package := { (stage 0).package with lost := true } } with
    | .next t, .next u, .fault .packageLost => decide (t.agenda = [.issue 0 .clean]) && !t.clock.locked && decide (u.halves = (stage 0).halves)
    | _, _, _ => false) = true := by decide +kernel

theorem witness_canonical : (State.reset.canonical && (stage 0).canonical
    && (match step { stage 0 with agenda := [.issue 0 .clean] } with | .next t => t.canonical | _ => false)) = true := by decide +kernel

/-! ### Witnesses: scalar instructions -/

/-- A half with s10 = 7 and s11 = -5. -/
def twoRegs : State := stageH (regs [(10, 7), (11, 0xFFFFFFFFFFFFFFFB)])

/-- A scalar instruction runs and leaves this value in s9, all else but its retirement as it was. -/
def gives (i : Instr) (len : Nat) (w : Word) : Bool := goes i twoRegs (twoRegs.retired len (writeS twoRegs.curHalf 9 w))

/-- A multiply or divide runs, and leaves this value on its way to s9. -/
def later (i : Instr) (w : Word) : Bool := longScalar i && goes i twoRegs (twoRegs.running i 0 false (writeS twoRegs.curHalf 9 w))

theorem witness_scalar_two : (gives (.sub (fa 9 10 11)) 1 12 && later (.mulh (fa 9 10 11)) 0xFFFFFFFFFFFFFFFF
    && later (.div (fa 9 11 10)) 0 && later (.rem (fa 9 11 10)) 0xFFFFFFFFFFFFFFFB && later (.divn (fa 9 10 0)) 0xFFFFFFFFFFFFFFFF
    && goes (.add (fa 0 10 11)) twoRegs (twoRegs.retired 1 twoRegs.curHalf)) = true := by decide +kernel

/-- SHL by 64 counts modulo 64, and DIV of the least number by -1 gives the least number. -/
theorem test_shift_and_division_edges :
    (let s := stageH (regs [(10, 0x8000000000000000), (11, 0xFFFFFFFFFFFFFFFF), (12, 64)])
     done (.shl (fa 9 10 12)) s (fun t => decide (readS (t.half 0) 9 = 0x8000000000000000))
     && done (.div (fa 9 10 11)) s (fun t => decide (readS (t.half 0) 9 = 0x8000000000000000))
     && done (.rem (fa 9 10 11)) s (fun t => decide (readS (t.half 0) 9 = 0))
     && done (.rol (fa 9 10 11)) s (fun t => decide (readS (t.half 0) 9 = 0x4000000000000000))) = true := by decide +kernel

theorem witness_scalar_one : (gives (.clz (fa 9 10 0)) 1 61 && gives (.popc (fa 9 11 0)) 1 63 && gives (.clz (fa 9 0 0)) 1 64) = true := by
  decide +kernel

theorem witness_scalar_immediate : (gives (.addi ⟨0x1FFF, false, 10, 9⟩) 1 6 && gives (.ori ⟨0x1000, false, 10, 9⟩) 1 0xFFFFFFFFFFFFF007
    && gives (.shli ⟨0, 63, false, 10, 9⟩) 1 0x8000000000000000 && gives (.sari ⟨0, 1, false, 11, 9⟩) 1 0xFFFFFFFFFFFFFFFD) = true := by decide +kernel

theorem witness_literals : (gives (.movl 0 ⟨fl 9 0 0 0 0 0 4 0, 0x80000000⟩) 3 0x80000000
    && gives (.movl 0 ⟨fl 9 0 0 0 0 0 5 0, 0x80000000⟩) 3 0xFFFFFFFF80000000
    && gives (.leaL 0 (fl 9 10 11 0 0xFFFF 1 0 3)) 2 0xFFFFFFFFFFFFFFDE && gives (.leaX 0 ⟨fl 9 10 11 0 0 0 0 0, 0xFFFFFFFF⟩) 3 6
    && (let s := stageH (regs [(9, 0x123456789)])
        goes (.movlHi 0 ⟨fl 9 0 0 0 0 0 4 1, 0xABCD⟩) s (s.retired 3 (writeS s.curHalf 9 0xABCD23456789)))) = true := by decide +kernel

/-! ### Witnesses: comparisons and predicates -/

/-- A half with s10 = 7, s11 = -5, k1 = bits 0, 63, 64 and 1023, k2 = bit 64. -/
def masks : State := stageH fun h => writeK (writeK (regs [(10, 7), (11, 0xFFFFFFFFFFFFFFFB)] h) 1
  (BitVec.ofNat 1024 (1 + 2 ^ 63 + 2 ^ 64 + 2 ^ 1023))) 2 (BitVec.ofNat 1024 (2 ^ 64))

/-- An instruction leaves this mask in k3. -/
def sets (i : Instr) (m : Nat) : Bool := goes i masks (masks.retired 1 (writeK masks.curHalf 3 (BitVec.ofNat 1024 m)))

theorem witness_comparisons : (sets (.clt (fa 3 11 10)) (2 ^ 1024 - 1) && sets (.cltn (fa 3 11 10)) 0 && sets (.ctst (fa 11 10 11)) (2 ^ 1024 - 1)
    && sets (.cmpi ⟨0x0BFB, false, 11, 3⟩) 0 && sets (.cmpi ⟨0x0C00 + 0x3FB, false, 11, 3⟩) (2 ^ 1024 - 1)
    && goes (.ceq (fa 8 10 10)) masks (masks.retired 1 masks.curHalf)) = true := by decide +kernel

theorem witness_predicates : (sets (.kand (fa 3 1 2)) (2 ^ 64) && sets (.kxor (fa 3 1 2)) (1 + 2 ^ 63 + 2 ^ 1023) && sets (.knot (fa 3 0 0)) 0
    && sets (.kmovs (fa 3 11 15)) (0xFFFFFFFFFFFFFFFB * 2 ^ 960)
    && (let reg (i : Instr) (w : Word) := goes i masks (masks.retired 1 (writeS masks.curHalf 9 w))
        reg (.kmovk (fa 9 1 1)) 1 && reg (.kmovk (fa 9 1 15)) 0x8000000000000000 && reg (.kpopc (fa 9 1 0)) 4 && reg (.kpopc (fa 9 0 0)) 1024
        && reg (.kfirst (fa 9 2 0)) 64 && reg (.kfirst (fa 9 3 0)) 0xFFFFFFFFFFFFFFFF)) = true := by decide +kernel

/-! ### Witnesses: issue -/

/-- A half between instructions meets an instruction, and traps. -/
def bad (i : Instr) (s : State) (c : Cause) (a info : Word) : Bool :=
  (operands i).isSome && s.between && ok i (loading s) fun t => pends s t c a info

theorem witness_issue_traps :
    (bad (.vadd (fl 9 10 11 0 0 0 6 0)) (stage 0) .ill 0 0 && bad (.gatew (fa 9 10 11)) (stage 0) .priv 0 0
    && (let s := { stage 0 with package := { (stage 0).package with cap := 0 } }
        s.absent s.curHalf (.ecenc (fl0 9 10 11)) && bad (.ecenc (fl0 9 10 11)) s .absent 0 0)
    && bad (.rlstat (fl0 9 10 0)) (stage 0) .ill 0 0
    && !(stage 0).absent (stage 0).curHalf (.cmpi ⟨0x1C00, false, 11, 3⟩) && bad (.cmpi ⟨0x1C00, false, 11, 3⟩) (stage 0) .ill 0 0
    && bad (.mmaL (fl0 1 10 11)) (stageH fun h => { h with ctl := { h.ctl with fmta := 0 } }) .ill 0 0) = true := by decide +kernel

/-- The last instruction of a block falls through to what is no header. -/
theorem witness_falls_out : (let s := stageH fun h => { h with roff := 254 }
    decide (s.curHalf.roff + 1 = hdrBlen s.curHalf.hdrWord) && s.allowed (.add (fa 9 10 11))
      && predicateOn s.curHalf (operandsOf (.add (fa 9 10 11))) && sourcesReady s.curHalf (operandsOf (.add (fa 9 10 11))).srcs
      && destsReady s.curHalf (operandsOf (.add (fa 9 10 11))).dsts && decide (s.curHalf.spares.length = 0)
      && !(isAccess (.add (fa 9 10 11)) && s.acquiring s.curHalf.tid)
      && decide (fetchParcel s 0 (pcOf s.curHalf + 4) = .ok 0) && !isHeaderParcel 0 && !s.runs (.add (fa 9 10 11))
      && bad (.add (fa 9 10 11)) s .badtgt (pcOf s.curHalf + 4) 0) = true := by decide +kernel

/-- The last instruction of a block before a header runs. -/
theorem test_last_instruction : (let s := (stageH fun h => { h with roff := 254 }).poked (0x10008 + 4 * 255) (toBytes 8 7)
    done (.add (fa 9 10 11)) s fun t => decide ((t.half 0).roff = 255)) = true := by decide +kernel

theorem witness_waits_and_hints :
    (let off := stageH fun h => { h with roff := 3 }
     let i : Instr := .add ⟨3, false, false, 11, 10, 9⟩
     off.between && off.allowed i && (operandsOf i).scalar && off.continues 1 && !bit0 (readK off.curHalf 3)
       && ok i off (fun t => decide (t = off.retired 1 off.curHalf))
     && (let empty := stageH fun h => markEmpty h (.s 11)
         let w : Instr := .add ⟨0, true, false, 11, 10, 9⟩
         (operandsOf w).srcs == [⟨1, .s 10, false⟩, ⟨2, .s 11, true⟩] && !isFull empty.curHalf (.s 11)
           && bad w empty .empty 0 75
           && ok (.add (fa 9 10 11)) empty (fun t => decide (t = empty.halved { empty.curHalf with block := .register }))
           && !destsReady empty.curHalf [.s 11]
           && ok (.add (fa 11 9 10)) empty (fun t => decide (t = empty.halved { empty.curHalf with block := .register })))
     && (let pinned (n : Nat) := stageH fun h => { h with spares := List.replicate n [], replay := [{ Entry.blank with pins := [8] }] }
         let i : Instr := .vadd (fl 8 10 11 0 0 0 4 0)
         let versions (s : State) := s.curHalf.spares.length + (s.curHalf.newVersions (operandsOf i).vectors (operandsOf i).dsts).length
         (pinned 8).between && (pinned 8).allowed i && sourcesReady (pinned 8).curHalf (operandsOf i).srcs && destsReady (pinned 8).curHalf (operandsOf i).dsts
           && decide (versions (pinned 8) = 9) && ok i (pinned 8) (fun t => decide (t = (pinned 8).halved { (pinned 8).curHalf with block := .register }))
           && decide (versions (pinned 7) = 8) && done i (pinned 7) fun t => decide ((t.half 0).spares.length = 8))
     && goes .nop off (off.retired 1 off.curHalf) && goes (.pfh 0x7FFFF) off (off.retired 1 off.curHalf)
     && goes (.hint3 0xF2 1 2) off (off.retired 3 off.curHalf)) = true := by decide +kernel

/-- A predicate register that is empty or in flight, MTREE's included, and a source that is in flight make the half wait. -/
theorem witness_predicate_waits : (
    let waits (i : Instr) (s : State) := (operands i).isSome && s.between && s.allowed i
      && ok i s (fun t => decide (t = s.halved { s.curHalf with block := .register }))
    let empty := stageH fun h => markEmpty h (.k 3)
    let busy := stageH fun h => markBusy h (.k 3)
    let tree : Instr := .mtree { fl 1 0 0 0 2 0 0 0 with r := ⟨3, false, false, 0, 0, 1⟩ }
    let add : Instr := .add ⟨3, false, false, 11, 10, 9⟩
    !isFull empty.curHalf (.k 3) && isBusy busy.curHalf (.k 3) && decide ((operandsOf tree).k = some 3) && decide ((operandsOf add).k = some 3)
    && waits tree empty && waits tree busy && waits add empty && waits add busy
    && (let s := stageH fun h => markBusy h (.s 11)
        isBusy s.curHalf (.s 11) && waits (.add ⟨0, true, false, 11, 10, 9⟩) s)) = true := by decide +kernel

/-- A TRET whose predicate is off retires with no BKPT of single-stepping. -/
theorem test_return_skipped : (let i : Instr := .tret ⟨3, false, false, 0, 0, 0⟩
    let s := stageH fun h => { h with ctl := { h.ctl with ss := true } }
    s.between && s.allowed i && isTret i && (operandsOf i).scalar && !bit0 (readK s.curHalf 3)
      && ok i s fun t => decide (t = s.retired 1 s.curHalf)) = true := by decide +kernel

/-! ### Witnesses: traps -/

/-- A machine with a handler's header of kind 2 at 0x20000, TVEC naming it, and a trap that nothing delays. -/
def trapped : State := (stageH fun h => { h with ctl := { h.ctl with tvec := 0x20000, ss := true } }).poked 0x20000 (toBytes 8 0x2000000000000023)

/-- An entry that is to be issued again, two stack entries, and a jib in progress. -/
def someEntry : Entry := { Entry.blank with addr := 0x10020, p0 := 5, p2 := 7, a := 9, c := 11, mask := 3 }
def someStack : List RcEntry := [⟨0x30000, 0x31000, true, 15, 1⟩, ⟨0x32000, 0x33000, false, 255, 6⟩]
def someJib : JibRun := ⟨3, 5, 7, (Vector.replicate 8 0).set 1 6, (Vector.replicate 2 0).set 1 4, none, none⟩

/-- The same with all of these. -/
def framed : State := trapped.halved { trapped.curHalf with
  ctl := { trapped.curHalf.ctl with jst := 1 }, reinj := [someEntry], stack := someStack, jib := some someJib }

/-- The trap of these witnesses. -/
def aTrap : Pending := ⟨0, .bound, 0x10008, 0x1234, 7, none, false⟩

/-- The fetch of a parcel from a place that a range entry translates reads memory there and nowhere else. -/
theorem fetch_ranged (s : State) (m : List Host.Cell) (core spa pa : Nat) (a : Word) (h0 : wbits a 63 56 = 0)
    (h1 : lookup s (s.party core) .fetch a.toNat = some (.ok spa)) (h2 : s.reach (.ok spa) = some pa) (h3 : s.readable pa = true) :
    fetchParcel { s with mem := m } core a = .ok (BitVec.ofNat 32 (memNat m pa 4)) := by
  have t : Machine.translate { s with mem := m } ({ s with mem := m }.party core) .fetch a.toNat = .ok spa := by
    unfold Machine.translate Machine.mapped
    rw [show lookup { s with mem := m } (({ s with mem := m } : State).party core) .fetch a.toNat = some (.ok spa) from h1]
    rfl
  unfold fetchParcel
  simp only [h0, ne_eq, not_true_eq_false, if_false, t]
  rw [show ({ s with mem := m } : State).reach (.ok spa) = some pa from h2]
  simp only [show ({ s with mem := m } : State).readable pa = true from h3, if_true]

/-- A header's fetch from such a place reads its two parcels and nothing else of memory. -/
theorem fetch_header_reads (s : State) (m : List Host.Cell) (core : Nat) (a : Word) (h0 : wbits a 1 0 = 0)
    (h1 : fetchParcel { s with mem := m } core a = .ok (BitVec.ofNat 32 (memNat m a.toNat 4)))
    (h2 : fetchParcel { s with mem := m } core (a + 4) = .ok (BitVec.ofNat 32 (memNat m (a + 4).toNat 4))) :
    fetchHeader { s with mem := m } core a =
      if !isHeaderParcel (BitVec.ofNat 32 (memNat m a.toNat 4)) then .notHeader
      else .ok (word ((BitVec.ofNat 32 (memNat m a.toNat 4)).toNat + 2 ^ 32 * (BitVec.ofNat 32 (memNat m (a + 4).toNat 4)).toNat)) := by
  simp only [fetchHeader, h0, h1, h2, ne_eq, not_true_eq_false, if_false]

/-- Where the handler's header stands, the machine reads memory. -/
def headerReads (s : State) : Bool :=
  decide (lookup s (s.party 0) .fetch 0x20000 = some (.ok 0x20000)) && decide (s.reach (.ok 0x20000) = some 0x20000) && s.readable 0x20000
    && decide (lookup s (s.party 0) .fetch 0x20004 = some (.ok 0x20004)) && decide (s.reach (.ok 0x20004) = some 0x20004) && s.readable 0x20004

/-- The handler's header is what memory holds there. -/
theorem handler_header (s : State) (m : List Host.Cell) (h : headerReads s = true) : fetchHeader { s with mem := m } 0 0x20000 =
    if !isHeaderParcel (BitVec.ofNat 32 (memNat m 0x20000 4)) then .notHeader
    else .ok (word ((BitVec.ofNat 32 (memNat m 0x20000 4)).toNat + 2 ^ 32 * (BitVec.ofNat 32 (memNat m 0x20004 4)).toNat)) := by
  simp only [headerReads, Bool.and_eq_true, decide_eq_true_eq] at h
  obtain ⟨⟨⟨⟨⟨a, b⟩, c⟩, d⟩, e⟩, f⟩ := h
  exact fetch_header_reads s m 0 0x20000 (by decide) (fetch_ranged s m 0 _ _ 0x20000 (by decide) a b c) (fetch_ranged s m 0 _ _ 0x20004 (by decide) d e f)

theorem witness_take_trap_header : ∀ m : List Host.Cell,
    (∀ a, (a < scratchAt 0 (frameAt framed.curHalf) ∨ scratchAt 0 (frameAt framed.curHalf) + 0x1800 ≤ a) → memGet m a = memGet framed.mem a) →
    fetchHeader { framed with mem := m } framed.curCore framed.curHalf.ctl.tvec = .ok 0x2000000000000023 := by
  intro m h
  have hb : 0x20008 ≤ scratchAt 0 (frameAt framed.curHalf) := by decide +kernel
  have h4 (a : Nat) (ha : a + 4 ≤ 0x20008) : memNat m a 4 = memNat framed.mem a 4 := by
    simp only [memNat, memBytes]
    congr 1
    exact List.map_congr_left fun i hi => h _ (.inl (by have := List.mem_range.1 hi; omega))
  rw [show framed.curCore = 0 from rfl, show framed.curHalf.ctl.tvec = 0x20000 from rfl, handler_header framed m (by decide +kernel),
    h4 _ (by omega), h4 _ (by omega)]
  decide +kernel

theorem witness_take_trap : (let s := framed
    let h := s.curHalf
    let ents := frameEntries h aTrap (outstanding { h with traps := [aTrap] } aTrap)
    s.canonical && h.traps.isEmpty && !h.ctl.trapd && !s.deliveryWaits s.curCore h aTrap && decide (ents = h.reinj) && decide (h.stack.length ≤ 8)
      && decide (h.ctl.jst = 1) && h.jib.isSome && h.refusedAt.isNone
      && decide (0x1800 ≤ (readS h 30).toNat) && decide ((readS h 30).toNat ≤ 0x40000) && !stageHits h.ctl.stage (frameAt h) 0x1800
      && decide (hdrKind 0x2000000000000023 = 2) && decide (hdrBlen 0x2000000000000023 = 8)) = true := by decide +kernel

/-- The trap is taken: CAUSE, the addresses and INFO in the frame, s30 at the frame, and the handler's block entered. -/
theorem test_take_trap : (let s := trapped
    let t := (raise 0 aTrap).run s
    let fa := 0x36800
    decide (t.localWord 0 (fa + 8) = 5) && decide (t.localWord 0 (fa + 0x10) = 0x10008) && decide (t.localWord 0 (fa + 0x18) = 0x1234)
      && decide (t.localWord 0 (fa + 0x30) = 7) && decide (t.localWord 0 (fa + 0x38) = 0x38000) && decide (readS (t.half 0) 30 = 0x36800)
      && (t.half 0).ctl.trapd && !(t.half 0).ctl.ss && decide ((t.half 0).hdr = 0x20000) && decide ((t.half 0).roff = 0)) = true := by decide +kernel

/-- What the frame of a trap of a half has at these offsets (offset, bytes, value). -/
def frameHolds (h : Half) (l : List (Nat × Nat × Nat)) : Bool :=
  let h := settleJib h
  let ents := frameEntries h aTrap (outstanding h aTrap)
  let parts := frameParts (trapped.frameWords 0 h false ents.length (causeCode aTrap.cause) aTrap.iaddr aTrap.faddr aTrap.info) h ents
  l.all fun x => parts.any fun p => decide (p.1 ≤ x.1) && decide (x.1 + x.2.1 ≤ p.1 + p.2.length)
    && decide (ofBytes ((p.2.drop (x.1 - p.1)).take x.2.1) = x.2.2)

theorem test_frame_entries : frameHolds { trapped.curHalf with reinj := [someEntry] }
    [(0x08, 8, 0x105), (0x180, 8, 0x10020), (0x188, 4, 5), (0x190, 4, 7), (0x198, 8, 9), (0x1A8, 8, 11), (0x200, 128, 3)] = true := by decide +kernel

theorem test_frame_stack : frameHolds { trapped.curHalf with stack := someStack }
    [(0x08, 8, 0x2005), (0x980, 8, 0x32000), (0x9A0, 128, 255), (0xAA0, 8, 0x30000), (0xAB0, 1, 1), (0xB40, 128, 1)] = true := by decide +kernel

theorem test_frame_jib : frameHolds { trapped.curHalf with jib := some someJib, ctl := { trapped.curHalf.ctl with jst := 1 } }
    [(0x1280, 8, 3 + 5 * 2 ^ 13 + 7 * 2 ^ 32), (0x1290, 8, 6), (0x1500, 8, 4)] = true := by decide +kernel

theorem witness_double_trap : (let s := stageH fun h => { h with ctl := { h.ctl with trapd := true }, frame := [1, 0x6, 2, 3, 4, 5, 6, 7, 8, 9] }
    let t := (raise 0 aTrap).run s
    s.curHalf.ctl.trapd && (match s.task? s.curHalf.tid with | some u => decide (2 * u.core + u.half = s.cur) | none => false)
      && decide (s.curHalf.occ = .live) && trising s.tasks && t.tasks.isEmpty && decide (t.half 0 = Half.reset)
      && decide (memNat t.mem 40 8 = 0x16) && decide (memNat t.mem 80 8 = 5)) = true := by decide +kernel

theorem witness_software_traps : (
    (stage 0).runs (.trap (fa 21 0 0)) && (ok (.trap (fa 21 0 0)) (loading (stage 0)) fun t =>
      (match (t.half 0).traps with | [p] => decide (p = ⟨0, .trapi, 0x10008, 0, 21, none, false⟩) | _ => false) && decide ((t.half 0).roff = 1))
    && (stage 0).runs (.bkpt (fa 0 0 0)) && (ok (.bkpt (fa 0 0 0)) (loading (stage 0)) fun t =>
      (match (t.half 0).traps with | [p] => decide (p = ⟨0, .bkpt, 0x10008, 0, 0, none, false⟩) | _ => false) && decide ((t.half 0).roff = 1))
    && (let s := stageH fun h => { h with ctl := { h.ctl with ss := true } }
        s.between && s.curHalf.ctl.ss && ok .nop (loading s) fun t =>
          match (t.half 0).traps with | [p] => decide (p = ⟨0, .bkpt, 0x10008, 0, 1, none, false⟩) | _ => false)) = true := by decide +kernel

/-- A frame at 0x1000 of a scratchpad that resumes at the third parcel of the block at 0x10000, with SS, one entry and
one stack entry. -/
def inHandler : State := ((stageH fun h => writeS { h with ctl := { h.ctl with trapd := true } } 30 0x1000).poked 0x10000 (toBytes 8 0x23)).poked
  (scratchAt 0 0x1000) (toBytes 8 0x80 ++ toBytes 8 0x1100 ++ toBytes 16 0 ++ toBytes 8 0x10000 ++ toBytes 8 2 ++ toBytes 8 0 ++ toBytes 8 0x38000)

theorem witness_trap_return :
    (traps (.tret (fa 0 0 0)) (stage 0) .tretx 0 && inHandler.runs (.tret (fa 0 0 0)) && inHandler.curHalf.ctl.trapd
    && inHandler.quiet 0 inHandler.curHalf
    && decide (inHandler.tretCheck 0 inHandler.curHalf.ctl.stage (readS inHandler.curHalf 30) = .ok 0x23)
    && ok (.tret (fa 0 0 0)) inHandler (fun t => let h := t.half 0
      decide (readS h 30 = 0x38000) && h.ctl.ss && !h.ctl.trapd && decide (h.hdr = 0x10000) && decide (h.roff = 2) && decide (h.hdrWord = 0x23)
      && decide (h.stack.length = 1) && decide (h.reinj.length = 1) && decide (h.lanes = 0))) = true := by decide +kernel

/-! ### Witnesses: transfers -/

/-- A machine with a header at 0x10100, k1 = 1, and what else a half holds. -/
def jumps (f : Half → Half) : State := (stageH fun h => f (writeK h 1 1)).poked 0x10100 (toBytes 8 0x23)

/-- A transfer from 0x10008 to 0x10100. -/
def ahead (k : BitVec 3) (clr : Bool) : FJ := ⟨0x3E, true, clr, k⟩

theorem witness_branches : (let s := jumps id
    let t (x : State) := decide ((x.half 0).hdr = 0x10100) && decide ((x.half 0).roff = 0)
    let stays (x : State) := decide ((x.half 0).hdr = 0x10000) && decide ((x.half 0).roff = 1)
    decide (jTarget (pcOf s.curHalf) 0x3E = 0x10100) && s.transfers 0x10100 0x23 && s.continues 1
    && done (.br (ahead 1 false)) s t && done (.br (ahead 1 true)) s stays && done (.br (ahead 2 false)) s stays && done (.jmp (ahead 0 false)) s t
    && done (.call (ahead 0 false)) s (fun x => t x && decide (readS (x.half 0) 31 = 0x1000C))) = true := by decide +kernel

theorem witness_loop : (let lc (n : Word) := jumps fun h => { h with ctl := { h.ctl with lc := n } }
    done (.loop (ahead 0 false)) (lc 2) (fun x => decide ((x.half 0).ctl.lc = 1) && decide ((x.half 0).hdr = 0x10100))
    && done (.loop (ahead 0 false)) (lc 1) (fun x => decide ((x.half 0).ctl.lc = 0) && decide ((x.half 0).roff = 1))
    && done (.loop (ahead 0 false)) (lc 0) (fun x => decide ((x.half 0).ctl.lc = 0) && decide ((x.half 0).roff = 1))
    && done (.loop (ahead 2 false)) (lc 5) (fun x => decide ((x.half 0).ctl.lc = 4) && decide ((x.half 0).roff = 1))) = true := by decide +kernel

theorem witness_register_transfers : (let s := jumps (regs [(10, 0x10100), (31, 0x10100), (11, 0x0100000000010100)])
    s.transfers (readS s.curHalf 10) 0x23 && decide (wbits (readS s.curHalf 10) 63 56 = 0) && decide (wbits (readS s.curHalf 11) 63 56 ≠ 0)
    && done (.callr (fa 0 31 0)) s (fun x => decide ((x.half 0).hdr = 0x10100) && decide (readS (x.half 0) 31 = 0x1000C))
    && done (.jr (fa 0 10 0)) s (fun x => decide ((x.half 0).hdr = 0x10100)) && done (.ret (fa 0 0 0)) s (fun x => decide ((x.half 0).hdr = 0x10100))
    && traps (.jr (fa 0 11 0)) s .badtgt 0x10100 && traps (.callr (fa 0 11 0)) s .badtgt 0x10100
    && (let s := jumps (regs [(31, 0x0100000000010100)])
        decide (wbits (readS s.curHalf 31) 63 56 ≠ 0) && traps (.ret (fa 0 0 0)) s .badtgt 0x10100)) = true := by decide +kernel

theorem witness_bad_targets : (let s := jumps id
    decide (fetchParcel s 0 0x10010 = .ok 0) && !isHeaderParcel 0 && decide (jTarget (pcOf s.curHalf) 2 = 0x10010)
    && traps (.br ⟨2, true, false, 1⟩) s .badtgt 0x10010 && bit0 (readK s.curHalf 1)
    && (let l := jumps fun h => { h with ctl := { h.ctl with lc := 2 } }
        traps (.loop ⟨2, true, false, 1⟩) l .badtgt 0x10010 && ok (.loop ⟨2, true, false, 1⟩) (loading l) fun t => decide ((t.half 0).ctl.lc = 2))
    && (let x := jumps (regs [(10, 0x10102), (31, 0x10010)])
        decide (wbits (readS x.curHalf 10) 1 0 ≠ 0) && decide (wbits (readS x.curHalf 10) 63 56 = 0) && traps (.jr (fa 0 10 0)) x .badtgt 0x10102
        && traps (.callr (fa 0 31 0)) x .badtgt 0x10010 && traps (.ret (fa 0 0 0)) x .badtgt 0x10010)
    && traps (.jmp ⟨2, true, false, 0⟩) s .badtgt 0x10010 && traps (.call ⟨2, true, false, 0⟩) s .badtgt 0x10010
    && (let s' := stageH fun h => { h with hdr := 0x10002 }
        decide (wbits (jTarget (pcOf s'.curHalf) 0x3E) 1 0 ≠ 0) && traps (.jmp ⟨0x3E, true, false, 0⟩) s' .badtgt 0x10102)) = true := by decide +kernel

/-- A block with RECONV 0x40, reconverging at 0x10100 too. -/
def diverges (n : Nat) : State := jumps fun h =>
  { writeK h 2 5 with hdrWord := word (1023 + 0x40 * 2 ^ 36), lanes := 15, stack := List.replicate n ⟨0x30000, 0x30000, false, 15, 1⟩ }

theorem witness_divergent_branch : (let s := diverges 0
    decide (s.headerAt 0 0x10100 = .yes) && s.transfers 0x10100 0x23 && s.continues 1
    && done (.vbr (ahead 3 false)) s (fun x => decide ((x.half 0).lanes = 15) && decide ((x.half 0).roff = 1) && (x.half 0).stack.isEmpty)
    && done (.vbr (ahead 0 false)) s (fun x => decide ((x.half 0).hdr = 0x10100) && decide ((x.half 0).lanes = 15))
    && done (.vbr (ahead 2 false)) s (fun x => decide ((x.half 0).lanes = 10) && decide ((x.half 0).stack = [⟨0x10100, 0x10100, false, 15, 5⟩]))
    && decide (s.headerAt 0 0x10010 = .no) && traps (.vbr ⟨2, true, false, 2⟩) s .badtgt 0x10010
    && (let x := jumps fun h => { writeK h 2 5 with hdrWord := word (1023 + 4 * 2 ^ 36), lanes := 15 }
        decide (x.headerAt 0 0x10100 = .yes) && decide (x.headerAt 0 0x10010 = .no) && traps (.vbr (ahead 2 false)) x .badtgt 0x10010)
    && traps (.vbr (ahead 2 false)) (diverges 8) .bound 0 && decide ((diverges 7).curHalf.stack.length < 8)) = true := by decide +kernel

theorem witness_reconvergence : (let x : RcEntry := ⟨0x30000, 0x40000, false, 15, 1⟩
    decide (reconverge 2 0x30000 14 [x] = (0x40000, 1, [{ x with phase := true }]))
    && decide (reconverge 2 0x30000 1 [{ x with phase := true }] = (0x30000, 15, [])) && decide (reconverge 2 0x30004 1 [x] = (0x30004, 1, [x]))) = true := by
  decide +kernel

/-! ### Witnesses: control registers -/

/-- The fields of an access of 8 bytes at s[A]. -/
def fmem0 (a : BitVec 5) : FL := fl 9 a 14 12 0 0 0 3

theorem witness_control_registers : (let s := stageH fun h => { regs [(10, 0xFFFFFFFFFFFFFFFF)] h with ctl := { h.ctl with lc := 77 } }
    decide (ctlValue s.curHalf.ctl 8 = some 77) && !s.ctlWait s.curHalf.tid 8 none && !s.ctlWait s.curHalf.tid 6 none
    && done (.crr (fa 9 0 8)) s (fun t => decide (readS (t.half 0) 9 = 77))
    && (let out := s.netted fun n => { n with fills := [⟨0, 1, 0, .ready [.s 3] true, 1, none, false, none, none⟩] }
        out.ctlWait out.curHalf.tid 6 none && goes (.crr (fa 9 0 6)) out (out.reading (.crr (fa 9 0 6)) out.curHalf.ctl 9 6))
    && (let out := s.requested (.lda (fmem0 10)) (.acquire 8 3) 9 0x5000 [0x5000] [0xFF] id
        out.ctlWait out.curHalf.tid 17 none && goes (.crx (fa 9 10 17)) out (out.reading (.crx (fa 9 10 17)) out.curHalf.ctl 9 17))
    && done (.crw (fa 0 10 2)) s (fun t => decide ((t.half 0).ctl.fmtc = 3) && decide ((t.half 0).ctl.lc = 77))
    && done (.crw (fa 0 10 24)) s (fun t => decide ((t.half 0).ctl.dito = 0xFF))
    && done (.crx (fa 9 10 8)) s (fun t => decide (readS (t.half 0) 9 = 77) && decide ((t.half 0).ctl.lc = 0xFFFFFFFFFFFFFFFF))) = true := by decide +kernel

theorem witness_status_registers : (let s := stageH (regs [(10, 0xFF)])
    let reads (n : BitVec 5) (w : Word) := done (.crr (fa 9 0 n)) s (fun t => decide (readS (t.half 0) 9 = w))
    (s.task? s.curHalf.tid).isSome && !isKernel s.curCore
    && reads 10 8 && reads 11 0 && reads 12 0xFFFFFFFF && reads 13 0 && reads 14 0 && reads 15 0 && reads 20 0x1000 && reads 21 0x4E20
    && reads 22 0x1000000 && reads 23 s.package.cap
    && done (.crw (fa 0 10 10)) s (fun t => (t.half 0).ctl.ss) && done (.crw (fa 0 10 11)) s (fun t => !(t.half 0).ctl.trapd)
    && done (.crw (fa 0 10 22)) s (fun t => decide ((t.half 0).ctl.wdog = 0x1000000))) = true := by decide +kernel

theorem witness_staging_and_group : (let w (n : Word) := stageH (regs [(10, n)])
    (match (w 0).task? 1 with | some u => u.lines.isEmpty | none => false)
    && traps (.crw (fa 0 10 16)) (w 0x38000) .bound 0 && traps (.crw (fa 0 10 16)) (w 0x4100000000) .bound 0 && traps (.crw (fa 0 10 16)) (w 0x100040000) .bound 0 == false
    && traps (.crw (fa 0 10 16)) (w 0x20003F000) .bound 0
    && done (.crw (fa 0 10 16)) (w 0x4000000000) (fun t => decide ((t.half 0).ctl.stage = 0x4000000000))
    && done (.crw (fa 0 10 16)) (w 0x10003F000) (fun t => decide ((t.half 0).ctl.stage = 0x10003F000))
    && done (.crw (fa 0 10 18)) (w 0x1234) (fun t => decide ((t.half 0).ctl.gang = 0x34))
    && done (.crw (fa 0 10 19)) (w 7) (fun t => decide ((t.half 0).ctl.abftp = 1))
    && done (.crw (fa 0 10 19)) (w 5) (fun t => decide ((t.half 0).ctl.abftp = 5))) = true := by decide +kernel

/-! ### Witnesses: vectors -/

/-- A vector register of these elements of width w, from element 0 up. -/
def vec (w : Nat) (l : List Nat) : VReg := BitVec.ofNat 4096 (ofElems w l)

/-- A half with v8, v10, v11 and v12 holding these, k1 = elements 0 and 1, and FTRAP. -/
def vecs (w : Nat) (d a b c : List Nat) (ftrap : Word := 0) : State := stageH fun h =>
  let h := writeV (writeV (writeV (writeV h 8 (vec w d)) 10 (vec w a)) 11 (vec w b)) 12 (vec w c)
  { writeK h 1 3 with ctl := { h.ctl with ftrap := ftrap } }

/-- The fields of an instruction from v10, v11 and v12 to v8 under k[K]. -/
def fv (k : BitVec 3) (m t : BitVec 4) (sc : BitVec 2 := 0) (obj : BitVec 16 := 0) : FL := ⟨⟨k, false, false, 11, 10, 8⟩, sc, obj, m, t, false, 12⟩

/-- The flags of a half, and those on their way to it. -/
def flagsOf (t : State) : Word := t.net.fills.foldl (fun w f => w ||| f.flags.setWidth 64) (t.half 0).ctl.fflags

/-- An instruction leaves these as the first elements of v[R], and these flags on their way. -/
def elems (i : Instr) (s : State) (r w : Nat) (l : List Nat) (fl : Word := 0) : Bool := done i s fun t =>
  decide (l = (List.range l.length).map fun n => elem (readV (t.half 0) r) w n) && decide (flagsOf t = fl)

theorem witness_vector_integers : (let s := vecs 8 [9, 9, 9] [200, 100, 7] [100, 100, 1] [1, 2, 3]
    elems (.vadd (fv 1 0 0)) s 8 8 [44, 200, 9] && elems (.vadd (fv 0 1 0)) s 8 8 [255, 200, 8, 0] && elems (.vmul (fv 0 0 1)) s 8 8 [32, 16, 7]
    && elems (.vfma (fv 0 0 0)) s 8 8 [33, 18, 10] && elems (.vmin (fv 0 0 1)) s 8 8 [200, 100, 1] && elems (.vshr (fv 0 0 0)) s 8 8 [12, 6, 3]
    && elems (.vmulh (fv 0 0 0)) s 8 8 [78, 39, 0]) = true := by decide +kernel

/-- 1.0 + 2.0, 1.0 + 2^-24 inexact, and infinity minus infinity, in f32; an enabled exception traps and writes nothing. -/
theorem witness_vector_floats : (let s (x : Word) := vecs 32 [7, 7, 7] [0x3F800000, 0x3F800000, 0x7F800000] [0x40000000, 0x33800000, 0xFF800000] [] x
    elems (.vadd (fv 0 0 8)) (s 0) 8 32 [0x40400000, 0x3F800000, 0x7FC00000] 0x11
    && traps (.vadd (fv 0 0 8)) (s 0x10) .fpx 0 0x11 && traps (.vadd (fv 1 0 8)) (s 1) .fpx 0 1
    && elems (.vadd (fv 1 0 8)) (s 0x10) 8 32 [0x40400000, 0x3F800000, 7] 1) = true := by decide +kernel

theorem witness_special_functions : (let s := vecs 32 [] [0x40800000, 0, 0x3F800000] [] []
    elems (.vrcp (fv 0 0 8)) s 8 32 [0x3E800000, 0x7F800000, 0x3F800000] 8 && elems (.vrsq (fv 0 0 8)) s 8 32 [0x3F000000] 8
    && elems (.vexp2 (fv 0 0 8)) s 8 32 [0x41800000, 0x3F800000, 0x40000000] && elems (.vlog2 (fv 0 0 8)) s 8 32 [0x40000000, 0xFF800000, 0] 8
    && traps (.vrcp (fv 0 0 8)) (vecs 32 [] [] [] [] 8) .fpx 0 8) = true := by decide +kernel

theorem witness_number_formats : (isIntType 7 && decide (intMin 7 = -8) && decide (fitInt 7 true 9 = 7) && decide (fitInt 7 false 9 = 9)
    && decide (fitInt 0 true (-1) = 0) && !isNaN (valueOf 14 7) && decide ((roundTo 14 false .rne (valueOf 14 7)) = (7, 0))) = true := by decide +kernel

theorem witness_widening : (let s := vecs 8 [] [200, 100, 7, 1] [100, 100, 1, 1] []
    elems (.vwadd (fv 0 0 0)) s 8 16 [300, 8] && elems (.vwadd (fv 0 0 0)) s 9 16 [200, 2] && elems (.vwmul (fv 0 0 1)) s 8 16 [0xEA20, 7]) = true := by decide +kernel

theorem witness_conversions : (let s := vecs 32 [] [0x3F800000, 0x40000000, 0x3F800001] [] []
    elems (.vnarrow (fv 0 0 8 0 9)) s 8 16 [0x3F80, 0, 0x4000, 0, 0x3F80] 1
    && elems (.vcvt (fv 0 0 8 0 4)) s 8 32 [1, 2, 1] 1 && traps (.vcvt (fv 0 0 8 0 4)) (vecs 32 [] [0x3F800001] [] [] 1) .fpx 0 1
    && traps (.vnarrow (fv 0 0 8 0 9)) (vecs 32 [] [0x3F800001] [] [] 1) .fpx 0 1) = true := by decide +kernel

theorem witness_dot : (let s := vecs 8 [] [1, 2, 3, 4, 1] [5, 6, 7, 8, 1] [10]
    elems (.vdot4 (fv 0 0 0)) s 8 32 [80, 1]) = true := by decide +kernel

theorem witness_vector_comparisons : (let s := vecs 32 [] [1, 5, 0xFFFFFFFF, 0x7FC00000] [1, 7, 3, 0] []
    let mask (i : Instr) (s : State) (n : Nat) := done i s fun t => decide ((readK (t.half 0) 0 &&& vget (t.half 0).k 1 0).toNat % 16 = n)
    let g (m t : BitVec 4) : FL := { fv 0 m t with r := ⟨0, false, false, 11, 10, 1⟩ }
    mask (.vcmp (g 2 5)) s 6 && mask (.vcmp (g 2 4)) s 2 && mask (.vtest (g 0 4)) s 7 && mask (.vcmp (g 0 8)) s 1
    && mask (.vcmp { g 0 4 with r := ⟨1, false, false, 11, 10, 1⟩ }) s 1
    && traps (.vcmp (g 2 8)) (vecs 32 [] [0x7FC00000] [0] [] 0x10) .fpx 0 0x10 && mask (.vcmp (g 2 8)) (vecs 32 [] [0x7FC00000] [0] []) 0) = true := by
  decide +kernel

theorem witness_select : (let s := stageH fun h => writeK (writeV (writeV h 10 (vec 32 [1, 2, 3])) 11 (vec 32 [7, 8, 9])) 4 2
    elems (.vsel (fv 0 0 4)) s 8 32 [7, 2, 9]) = true := by decide +kernel

theorem witness_reductions : (let s := vecs 32 [] [5, 0xFFFFFFFF, 9] [] []
    let sum (i : Instr) (s : State) (w : Word) := done i s fun t => decide (readS (t.half 0) 8 = w)
    sum (.vredsum (fv 0 0 5)) s 13 && sum (.vredsum (fv 1 0 4)) s 0x100000004 && sum (.vredmax (fv 1 0 5)) s 5 && sum (.vredmin (fv 1 0 5)) s 0xFFFFFFFFFFFFFFFF
    && sum (.vredmax (fv 0 0 4)) s 0xFFFFFFFF && sum (.vredand (fv 1 0 4)) s 5 && sum (.vredor (fv 0 0 4)) s 0xFFFFFFFF
    && sum (.vredmax (fv 2 0 5)) s 0xFFFFFFFF80000000 && sum (.vredsum (fv 2 0 5)) s 0
    && sum (.vredsum (fv 0 0 8)) (vecs 32 [] [0x3F800000, 0x40000000] [] []) 0x40400000
    && sum (.vredmin (fv 1 0 8)) (vecs 32 [] [0x3F800000, 0xC0000000] [] []) 0xC0000000
    && traps (.vredsum (fv 1 0 8)) (vecs 32 [] [0x3F800000, 0x33800000] [] [] 1) .fpx 0 1
    && elems (.vscan (fv 0 0 4)) s 8 32 [5, 4, 13, 13] && elems (.vscan (fv 0 1 5)) s 8 32 [5, 5, 9] && elems (.vscan (fv 0 2 5)) s 8 32 [5, 0xFFFFFFFF, 0xFFFFFFFF]) = true := by
  decide +kernel

theorem witness_permutations : (let s := vecs 32 [1, 2, 3, 4] [10, 11, 12, 13] [0x0002_0001, 3, 0x0000_FFFF] []
    elems (.vperm (fv 0 0 4)) s 8 32 [11, 12, 13, 10, 0, 10] && elems (.vslide (fv 0 0 4 0 1)) s 8 32 [11, 12, 13, 0]
    && elems (.vslide (fv 0 0 4 0 0xFFFF)) s 8 32 [0, 10, 11, 12] && elems (.vbcast (fv 0 0 4 0 3)) s 8 32 [13, 13]
    && traps (.vbcast (fv 0 0 4 0 128)) s .bound 0 && elems (.vbcast (fv 0 0 4 0 127)) s 8 32 [0, 0]
    && elems (.viota (fv 1 0 4)) s 8 32 [0, 1, 3, 4] && elems (.viota (fv 0 0 4)) s 8 32 [0, 1, 2, 3]
    && elems (.vzip (fv 0 0 4)) s 8 32 [10, 0x20001, 11, 3] && elems (.vunzip (fv 0 0 4)) s 8 32 [10, 12, 0]
    && elems (.vmov (fv 1 0 4)) s 8 32 [10, 11, 3, 4]) = true := by decide +kernel

theorem witness_compress : (let s := stageH fun h => writeK (writeV (writeV h 8 (vec 32 [1, 2, 3, 4])) 10 (vec 32 [10, 11, 12, 13])) 4 0b1010
    elems (.vcompress (fv 0 0 4)) s 8 32 [11, 13, 3, 4] && elems (.vexpand (fv 0 0 4)) s 8 32 [1, 10, 3, 11]) = true := by decide +kernel

theorem witness_scalar_elements : (let s := stageH fun h => regs [(10, 0x8000000F7), (11, 2)] (writeV (writeV h 8 (vec 32 [1, 2, 3, 4])) 10 (vec 32 [10, 11, 0xFFFFFFFF, 13]))
    elems (.vsplat (fv 0 0 4)) s 8 32 [0xF7, 0xF7] && elems (.vins (fv 0 2 4)) s 8 32 [1, 2, 0xF7, 4] && traps (.vins (fv 0 0 4 0 128)) s .bound 0
    && done (.vext (fv 0 2 5)) s (fun t => decide (readS (t.half 0) 8 = 0xFFFFFFFFFFFFFFFF))
    && done (.vext (fv 0 0 4 0 2)) s (fun t => decide (readS (t.half 0) 8 = 0xFFFFFFFF)) && traps (.vext (fv 0 0 4 0 128)) s .bound 0
    && done (.vext (fv 3 0 4 0 2)) (s.halved (writeK s.curHalf 3 3)) (fun t => decide (readS (t.half 0) 8 = 0))) = true := by decide +kernel

theorem witness_ordered : (let s := vecs 32 [9, 9, 9] [3, 0xFFFFFFFE, 1] [2, 4] []
    elems (.vsort (fv 4 0 5)) (s.halved (writeK s.curHalf 4 7)) 8 32 [0xFFFFFFFE, 1, 3] && elems (.vsort (fv 4 1 4)) (s.halved (writeK s.curHalf 4 7)) 8 32 [0xFFFFFFFE, 3, 1, 0]
    && elems (.vmerge (fv 1 0 4)) (vecs 32 [9, 9, 9, 9, 9] [1, 3] [2, 4] []) 8 32 [1, 2, 3, 4, 9]
    && elems (.vsearch (fv 4 0 4)) (s.halved (writeK (writeV s.curHalf 10 (vec 32 (List.range 128))) 4 7)) 8 32 [2, 4, 0, 0]
    && elems (.vsparse (fv 0 0 4)) (vecs 32 [] [0, 7, 9, 1, 5, 0, 0, 6] [] []) 8 32 [7, 9, 5, 6] && done (.vsparse (fv 0 0 4)) (vecs 32 [] [0, 7, 9, 1, 5, 0, 0, 6] [] []) (fun t => decide (elem (readV (t.half 0) 8) 4 512 = 9) && decide (elem (readV (t.half 0) 8) 4 513 = 12))
    && elems (.vunsparse (fv 0 0 4)) (stageH fun h => writeV h 10 (BitVec.ofNat 4096 (ofElems 32 [7, 9, 5, 6] + (0b1001 + 0b1100 * 16) * 2 ^ 2048))) 8 32 [0, 7, 9, 0, 5, 0, 0, 6]) = true := by
  decide +kernel

theorem witness_orders : ((sortStable 4 false [3, 1, 2]) == [1, 2, 3] && ([1, 3].zip [3]).all (fun x => !precedes 4 false x.2 x.1)
    && mergeLoop 4 false 3 [1, 3] [2] == [1, 2, 3]) = true := by decide +kernel

/-! ### Witnesses: matrices -/

/-- An object that is live. -/
def obj (kind : Nat) (body : List Word) : Obj := ⟨0, 0, 1, kind, body, []⟩

/-- A machine whose partition has these objects and groups. -/
def withPart (objects : Table Obj) (groups : Table (BitVec 4096)) (s : State) : State :=
  { s with parts := [(0, { Part.created placeImage with objects := objects, groups := groups })] }

/-- A shape object (rows of A, columns of B, depth, strides) and a tile object (base, rows, columns, stride, type). -/
def shapeObj (m n k sa sb : Nat) : Obj := obj 1 [word (m + n * 2 ^ 16 + k * 2 ^ 32), word (sa + sb * 2 ^ 32)]
def tileObj (base rows cols stride type : Nat) : Obj := obj 2 [word (base + rows * 2 ^ 32 + cols * 2 ^ 48), word (stride + type * 2 ^ 32)]

/-- s10 = 0x100 and s11 = 0x200; a shape of 2 x 2 x 2, one of depth 0, and two tiles of 2 x 2; group 1 is core 0 alone, 2 cores 0
and 1, 3 cores 1 and 128, 4 cores 0 and 128. -/
def matrices (gang : BitVec 8) : State := withPart
  [(1, shapeObj 2 2 2 4 4), (2, shapeObj 2 2 0 4 4), (3, tileObj 0 2 2 4 9), (4, tileObj 0x10 2 2 4 9), (5, shapeObj 2 2 2 6 4)]
  [(1, 1), (2, 3), (3, BitVec.ofNat 4096 (2 + 2 ^ 128)), (4, BitVec.ofNat 4096 (1 + 2 ^ 128))]
  (stageH fun h => { regs [(10, 0x100), (11, 0x200)] h with ctl := { h.ctl with gang := gang } })

/-- The fields of a matrix multiply into a1, with this object. -/
def fm (o : BitVec 16) (m : BitVec 4 := 0) : FL := fl 1 10 11 0 o m 6 0

theorem witness_mmul : (let s := matrices 0
    (s.shapeL 0 (fm 1)).isSome && decide (s.shapeL 0 (fm 9) = none)
    && traps (.mmaL (fm 9)) s .bound 0 && traps (.mmaL (fm 2)) s .bound 0 && traps (.mmaL (fm 5)) s .align 0x100
    && goes (.mmaL (fm 1)) s ((s.netted fun n => { n with nextId := n.nextId + 1 }).sentMop (.mmaL (fm 1))
      (mopOf (s.seen (.mmaL (fm 1))) (fm 1) [1] ⟨2, 2, 2, 2, 4, 4, 0, 0⟩ ⟨false, false, false⟩ true s.net.nextId false) (BitVec.allOnes 1024))
    && done (.mmarL (fm 1)) s (fun t => decide ((t.core 0).mops.map (fun o => (o.aCore, o.bAddr)) = [(0, 0x200)]))
    && done (.mmaX ⟨fm 3, 4⟩) s (fun t => decide ((t.core 0).mops.map (fun o => (o.bAddr, o.bStride)) = [(0x210, 4)]))) = true := by decide +kernel

theorem witness_mmul_ganged : (
    traps (.mmagL (fm 1)) (matrices 0) .bound 0 && traps (.mmagL (fm 1)) (matrices 3) .bound 0 && traps (.mmagL (fm 1)) (matrices 4) .bound 0
    && decide ((matrices 2).gangFor ((matrices 2).seen (.mmagL (fm 1))) 2 = none)
    && done (.mmagL (fm 1)) (matrices 2) (fun t => decide (t.net.gangs.map (fun g => (g.members, g.started, g.lead.isSome)) = [([0, 1], false, true)]))
    && (let s := (matrices 2).netted fun n => { n with gangs := [⟨5, 0, 2, [0, 1], [⟨1, 2, 7, 0, 0, 0, 0, 0, 0, 0, 0, false, Entry.blank⟩], [], false, none⟩] }
        (match s.gangFor (s.seen (.mmagrX ⟨fm 3, 4⟩)) 2 with | some g => decide (g.id = 5) && !g.started | none => false)
        && done (.mmagrX ⟨fm 3, 4⟩) s (fun t => decide (t.net.gangs.map (fun g => (g.joined.map (·.core), g.lead.isSome)) = [([1, 0], true)])))) = true := by decide +kernel

/-- An accumulator with exponent 0 and these elements. -/
def accOf (l : Table (BitVec 48)) : Acc := rebuild { Acc.reset with e := 0, elems := l }

/-- a1 holds elements 0 and 33. -/
def accs (f : Half → Half) : State := stageH fun h => f (writeA h 1 (accOf [(0, 3), (33, 5)]))

/-- The fields of an accumulator instruction on a1. -/
def facc (k : BitVec 3 := 0) (m : BitVec 4 := 0) (sc : BitVec 2 := 0) (b : BitVec 5 := 0) (obj : BitVec 16 := 0) (t : BitVec 4 := 0) : FL :=
  ⟨⟨k, false, false, b, 10, 1⟩, sc, obj, m, t, false, 0⟩

theorem witness_accumulators : (let s := accs fun h => regs [(10, 3), (12, 0)] (writeK h 2 1)
    let acc (t : State) := readA (t.half 0) 1
    done (.mzero (facc)) s (fun t => decide (acc t = Acc.reset)) && done (.mzero (facc 2)) s (fun t => decide ((acc t).elems = [(33, 5)]))
    && s.abftClean (facc) && !(s.accAt (facc)).isEmpty
    && done (.mexp (facc)) s (fun t => decide ((acc t).e = 3) && decide ((acc t).elems = [(33, 1)]))
    && done (.mexp { facc with r := ⟨0, false, false, 0, 12, 1⟩ }) s (fun t => decide (acc t = s.accAt facc))
    && done (.mexp (facc)) (stageH (regs [(10, 3)])) (fun t => decide ((acc t).e = 3))
    && done (.mchk (facc)) s (fun t => decide (acc t = s.accAt facc))
    && done (.mside (facc 0 0 0 9)) s (fun t => decide (elem (readV (t.half 0) 9) 32 0 = 0xFF800000) && decide (elem (readV (t.half 0) 9) 32 32 = 0))
    && done (.mside (facc 0 1 1 9)) (s.halved (writeV s.curHalf 9 (vec 32 [7]))) (fun t => decide (vget (acc t).l 0 0 = 7))
    && done (.mtrans (facc)) s (fun t => decide (t.net.fills.length = 1) && !isFull (t.half 0) (.a 1))
    && decide ((mtransAcc (accOf [(1, 3), (33, 5)])).elems = [(32, 3), (33, 5)])
    && s.runs (.msmax facc) && s.runs (.mscale facc)) = true := by decide +kernel

theorem witness_checksums : (let a := accOf [(0, 3), (33, 5)]
    decide (a.mbPar = mbParity a.mb) && decide (abftCompare false a = ⟨a, 0, false⟩) && trising a.elems
    && decide (tgetD a.elems (blockElem false 0 1 1) 0 ≠ nfPattern)
    && (let r := abftCompare false { a with elems := tput a.elems (blockElem false 0 1 1) 9 }
        decide (r.fixed = 1) && !r.bad && decide (r.acc.get 33 = some 5))) = true := by decide +kernel

/-- A tile of 2 x 2 f32 at 0x100 of the scratchpad, holding 1.0 and 2.0 in its first row. -/
def tiles (ftrap : Word) : State := (withPart [(4, tileObj 0 2 2 8 8), (5, tileObj 0x3FFF0 2 2 8 8)] []
  (accs fun h => { regs [(10, 0x100)] h with ctl := { h.ctl with ftrap := ftrap } })).poked (scratchAt 0 0x100) (toBytes 4 0x3F800000 ++ toBytes 4 0x40000000)

theorem witness_tiles : (let s := tiles 0
    traps (.mload (facc 0 0 0 0 9 8)) s .bound 0
    && (match s.accTile (s.seen (.mload (facc 0 0 0 0 4 8))) (facc 0 0 0 0 4 8) false with | .ok x => decide (x.2 = (0x100, 8)) | .error _ => false)
    && done (.mload (facc 0 0 0 0 4 8)) s (fun t => decide (t.net.fills.length = 1))
    && s.canonical && s.abftClean (facc)
    && done (.mdrain (facc 0 0 0 0 4 8)) s (fun t => decide (memNat t.mem (scratchAt 0 0x100) 4 = 0x40400000) && decide (memNat t.mem (scratchAt 0 0x10C) 4 = 0x40A00000)
      && decide (memNat t.mem (scratchAt 0 0x104) 4 = 0))
    && traps (.mload (facc 0 0 0 0 5 8)) s .bound 0x400F0 && traps (.mdrain (facc 0 0 0 0 5 8)) s .bound 0x400F0) = true := by decide +kernel

/-- An inexact element of a load or a drain, enabled, traps. -/
theorem witness_tile_flags : (let s := (tiles 1).halved (writeA (tiles 1).curHalf 1 (accOf [(0, 0x1000001)]))
    s.abftClean (facc) && traps (.mdrain (facc 0 0 0 0 4 9)) s .fpx 0 1
    && (let s := (withWordAt (scratchAt 0 0x100) 0x3F800001 (tiles 1)).halved (writeA (tiles 1).curHalf 1 { Acc.reset with e := 0 })
        traps (.mload (facc 0 0 0 0 4 8)) s .fpx 0 1)) = true := by decide +kernel

theorem witness_tree_masks : (let m (x : Instr) (s : State) (n : Nat) (b : Bool) := done x s fun t => decide ((readA (t.half 0) 1).mb.getLsbD n = b)
    let s := withPart [(1, obj 5 [word (32 * 2 ^ 32 + 32 * 2 ^ 40), 0, 0]), (2, obj 5 [word (32 * 2 ^ 32 + 32 * 2 ^ 40), word (2 * 2 ^ 16), 0x1000]),
      (3, obj 5 [word (32 * 2 ^ 32 + 32 * 2 ^ 40), word (2 * 2 ^ 16), 0x3FFFD]), (6, obj 1 [])] [] ((stage 0).poked (scratchAt 0 0x1000) [0xFF, 0xFF, 0, 0])
    decide (s.liveObj 0 9 5 = none) && traps (.mmask (fl 1 0 0 0 9 0 0 0)) s .bound 0 && traps (.mtree (fl 1 0 0 0 6 0 0 0)) s .bound 0
    && (match s.liveObj 0 1 5 with | some o => decide (maskBytes (maskDesc o.body) 0 = 0) | none => false)
    && m (.mmask (fl 1 0 0 0 1 0 0 0)) s 1 true && m (.mmask (fl 1 0 0 0 1 0 0 0)) s 32 false
    && (match s.liveObj 0 2 5 with | some o => decide (maskBytes (maskDesc o.body) 2 = 4) && decide ((maskDesc o.body).nodes = 2) && decide ((maskDesc o.body).addr = 0x1000) | none => false)
    && m (.mtree (fl 1 0 0 0 2 0 0 0)) s 32 false && m (.mtree (fl 1 0 0 0 2 0 0 0)) s 1 true
    && traps (.mtree (fl 1 0 0 0 3 0 0 0)) s .bound 0x3FFFD) = true := by decide +kernel

/-- The machine after an instruction. -/
def after (i : Instr) (s : State) : State := match exec i s with | .next t => t | _ => s

/-- The machine in which an event with these data is to happen. -/
def given (n : Nat) (s : State) (m : Nat := 0) (yes : Bool := false) : State := { s with data := { EventData.none with n := n, m := m, yes := yes } }

/-- A matrix operation that has been sent, and that has loaded. -/
def sentMma : State := given 0 (after (.mmaL (fm 1)) (matrices 0))
def loadedMma : State := given 0 (after .mmulLoadPhase sentMma)

theorem witness_load_phase : (match sentMma.mop? 0 with
    | some (core, o) => sentMma.mayLoad core o && o.gang.isNone && !o.jib && decide (0 < o.bRows) && decide (sentMma.data.ecc = .clean)
      && (o.ranges core).all (fun x => decide (sentMma.operandCause o core x.1 x.2.1 x.2.2 = none))
      && ok .mmulLoadPhase sentMma fun t => (t.core 0).mops.all fun o => o.loaded && decide (o.aBytes = List.replicate 8 0)
    | none => false) = true := by decide +kernel

/-- A lock of another task meets the second row of B. -/
theorem witness_load_refused : (let s := (given 0 (after (.mmaL (fm 1)) ((matrices 0).halved ((matrices 0).curHalf.holding { Entry.blank with seq := 99 })))).clustered 0 fun c => { c with locks := [⟨2, 0, 0x204, 0x207, .task 9⟩] }
    match s.mop? 0 with
    | some (core, o) => s.mayLoad core o && o.gang.isNone && !o.jib
      && (match o.ranges core with
          | [a, b, c, d] => [a, b, c].all (fun x => decide (s.operandCause o core x.1 x.2.1 x.2.2 = none)) && decide (d = (0, 0x204, 4))
            && decide (s.operandCause o core d.1 d.2.1 d.2.2 = some .rlock)
          | _ => false)
      && ok .mmulLoadPhase s fun t => (t.core 0).mops.isEmpty && (match (t.half 0).traps with | [p] => decide (p.cause = .rlock) && decide (p.faddr = 0x204) | _ => false)
    | none => false) = true := by decide +kernel

/-- A lock that covers the second half of that row names its first byte. -/
theorem witness_first_refused : (let s := (given 0 (after (.mmaL (fm 1)) (matrices 0))).clustered 0 fun c => { c with locks := [⟨2, 0, 0x206, 0x207, .task 9⟩] }
    match s.mop? 0 with
    | some (core, o) => decide (s.operandCause o core 0 0x204 1 = none) && decide (s.operandCause o core 0 0x205 1 = none)
      && decide (s.operandCause o core 0 0x206 1 = some .rlock) && decide (s.firstRefused o core 0 0x204 4 = 0x206)
    | none => false) = true := by decide +kernel

/-- An operation that has joined its gang again and still differs from the leader. -/
theorem witness_misfit : (let s0 := given 1 (after (.mmagL (fm 1)) ((matrices 2).halved ((matrices 2).curHalf.holding { Entry.blank with seq := 99 })))
    let s := given 0 (s0.netted fun n => { n with gangs := n.gangs.map fun g => { g with started := true, lead := g.lead.map fun l => { l with kk := 3 } } })
    match (s.core 0).mops with
    | [o] => (let x := given o.id s
      match x.mop? o.id with
      | some (core, o) => x.mayLoad core o && !o.jib && x.misfits o
        && ok .mmulLoadPhase x fun t => (t.core 0).mops.isEmpty && (match (t.half 0).traps with | [p] => decide (p.cause = .bound) && decide (p.faddr = 0) | _ => false)
      | none => false)
    | _ => false) = true := by decide +kernel

theorem witness_compute_phase : (match loadedMma.mop? 0 with
    | some (core, o) => decide ((loadedMma.core core).mops.map (·.id) = [o.id]) && o.loaded && !o.done && o.gang.isNone && !loadedMma.data.yes
      && (let r := computeMmul o (readA (loadedMma.half o.hid) o.acc); decide (r.fixed = 0) && !r.bad && decide (r.narrow = 0))
      && (match loadedMma.part? 0 with | some p => !p.image.test | none => false)
      && ok .mmulComputeDone loadedMma fun t => (t.core 0).mops.isEmpty && isFull (t.half 0) (.a 1) && (t.half 0).replay.isEmpty
    | none => false) = true := by decide +kernel

/-- A gang of core 0 alone, before it starts, and when its portion is done. -/
def ganged : State := given 1 (after (.mmagL (fm 1)) (matrices 1))
def gangDone : State := given 1 ((after .gangStart ganged).netted fun n =>
  { n with gangs := n.gangs.map fun g => { g with joined := g.joined.map fun m => { m with done := true } } })

/-- The operation of a gang in a core. -/
def portion (s : State) (core : Nat) : Option MOp := (s.core core).mops.find? fun o => o.gang == some 1

theorem witness_gang_start : (match ganged.net.gangs.find? (fun g => g.id == 1) with
    | some g => !ganged.det g.part && !g.started && g.members.all (· == 0)
      && (match g.lead, g.joined, portion ganged 0 with
          | some l, [m], some o => decide (m.core = coreOf l.hid) && decide ((o.m, o.n, o.kk, wbits o.fmtb 4 0) = (l.m, l.n, l.kk, wbits l.fmtb 4 0))
            && (let reads := (l.ranges m.core).filter fun x => !(MOp.ranges { l with bRows := 0 } m.core).contains x
                decide (reads = [(0, 0x200, 4), (0, 0x204, 4)]) && reads.all fun x => !ganged.storesTo l.tid (some l.seq) x.1 x.2.1 x.2.2
                  && decide (ganged.operandCause l m.core x.1 x.2.1 x.2.2 = none))
          | _, _, _ => false) && decide (ganged.data.ecc = .clean)
      && ok .gangStart ganged fun t => t.net.gangs.all (·.started) && (t.core 0).mops.all fun o => decide (o.bBytes.length = 8) && decide (o.bRows = 0)
    | none => false) = true := by decide +kernel

theorem witness_gang_complete : (match gangDone.net.gangs.find? (fun g => g.id == 1) with
    | some g => g.started && (match g.joined with | [m] => m.done | _ => false) && (portion gangDone 0).isSome
      && ok .gangComplete gangDone fun t => t.net.gangs.isEmpty && isFull (t.half 0) (.a 1)
    | none => false) = true := by decide +kernel

/-! ### Witnesses: memory -/

/-- s10 = 0x100, s11 = 0x3FFF8, s15 = 0x37FF8, s12 = 0x1122334455667788, s13 = 0x38000, s14 = 1, and 0xF1E2D3C4B5A69788 at 0x100 of the scratchpad. -/
def loads : State := (stageH (regs [(10, 0x100), (11, 0x3FFF8), (12, 0x1122334455667788), (13, 0x38000), (14, 1), (15, 0x37FF8)])).poked (scratchAt 0 0x100)
  (toBytes 8 0xF1E2D3C4B5A69788)

/-- The fields of an access at s[A] + OBJ16 of 2^SC bytes, D s9, C s12. -/
def fmem (a : BitVec 5) (obj : BitVec 16) (m : BitVec 4) (sc : BitVec 2) (t : BitVec 4 := 0) : FL := fl 9 a 14 12 obj m t sc

/-- The value on its way. -/
def filled (t : State) (v : Value) : Bool := decide (t.net.fills.map (·.value) = [v])

/-- A lock of another task on the bytes from 0x100 to 0x107. -/
def locked (kind : Nat) : State := loads.clustered 0 fun c => { c with locks := [⟨kind, 0, 0x100, 0x107, .task 9⟩] }

theorem witness_local_traps : (let s := loads
    traps (.ld (fmem 10 1 0 3)) s .align 0x101 && traps (.ld (fmem 10 0 1 1)) s .align 0x101 && traps (.st (fmem 11 8 0 3)) s .bound 0x40000
    && traps (.ldv (fmem 11 8 0 0)) s .bound 0x40000 && traps (.ldv (fmem 11 0 0 0)) s .align 0x3FFF8 && traps (.stk (fmem 11 0 0 0)) s .bound 0x3FFF8
    && traps (.ld (fmem 13 0 0 0)) s .bound 0x38000 && traps (.ld (fmem 10 0xFFFF 0 0)) s .bound 0xFF == false
    && traps (.st (fmem 10 0 0 0)) (locked 2) .rlock 0x100 && traps (.ld (fmem 10 7 0 0)) (locked 2) .rlock 0x107
    && decide ((locked 2).lockCause 0 0x107 0x107 false (whoOf ((locked 2).seen (.ld (fmem 10 7 0 0)))) = some .rlock)) = true := by decide +kernel

theorem witness_local_loads : (let s := loads
    s.localOk (.ld (fmem 10 0 0 3)) 0x100 8 8 false && s.localOk (.ldv (fmem 10 0 0 0)) 0x100 512 64 false && s.localOk (.ldk (fmem 10 0 0 0)) 0x100 128 8 false
    && done (.ld (fmem 10 0 0 3)) s (fun t => filled t (.s 9 0xF1E2D3C4B5A69788) && !isFull (t.half 0) (.s 9) && decide ((t.half 0).replay.length = 1))
    && done (.ld (fmem 10 0 2 0)) s (fun t => filled t (.s 9 0xFFFFFFFFFFFFFF88)) && done (.ld (fmem 10 2 0 1)) s (fun t => filled t (.s 9 0xB5A6))
    && done (.ldv (fmem 10 0 0 0 4)) s (fun t => filled t (.v 9 (vec 64 [0xF1E2D3C4B5A69788]))) && done (.ldk (fmem 10 0 0 0)) s (fun t => filled t (.k 1 0xF1E2D3C4B5A69788))
    && done (.ld (fmem 15 0 0 3)) s (fun t => filled t (.s 9 0))) = true := by decide +kernel

theorem witness_local_stores : (let s := (loads.halved (writeV loads.curHalf 12 (vec 32 [1, 2, 3]))).halved (writeK (writeV loads.curHalf 12 (vec 32 [1, 2, 3])) 4 5)
    let mem (t : State) (a : Nat) := memNat t.mem (scratchAt 0 a) 8
    s.canonical && s.localOk (.st (fmem 10 0 0 3)) 0x100 8 8 true && s.localOk (.stv (fmem 10 0 0 0)) 0x100 512 64 true && s.localOk (.stk (fmem 10 0 0 0)) 0x100 128 8 true
    && done (.st (fmem 10 0 0 3)) s (fun t => decide (mem t 0x100 = 0x1122334455667788))
    && done (.st (fmem 10 1 0 0)) s (fun t => decide (mem t 0x100 = 0xF1E2D3C4B5A68888))
    && done (.stv { fmem 10 0 0 0 4 with r := ⟨4, false, false, 0, 10, 0⟩ }) s (fun t => decide (mem t 0x100 = 0xF1E2D3C400000001) && decide (mem t 0x108 = 3))
    && done (.stk (fmem 10 0 0 0)) s (fun t => decide (mem t 0x100 = 5))) = true := by decide +kernel

/-- s10 = 0x5000 and s15 = 2^56 - 8 in shared memory, a word of core 1's scratchpad at s16 and the last of the window in s17; v12 = 1, 2, 3, k4 = 5. -/
def shared : State := (stageH fun h => regs [(10, 0x5000), (11, 0xFFFFFFFFFFFFF8), (12, 0x1122334455667788), (13, 0x0100000000000000), (14, 1), (16, 0x40100), (17, 0x1FFFFF8),
  (18, 0x2000000), (19, 0x5008)] (writeK (writeV h 12 (vec 32 [1, 2, 3])) 4 5))

theorem witness_remote_loads : (let s := shared
    traps (.ldr (fmem 16 4 0 3)) s .align 0x40104 && traps (.ldr (fmem 17 8 0 3)) s .bound 0x2000000 && s.remoteOk 0x40100 8 false && s.remoteOk 0x1FFFFF8 8 false
    && done (.ldr (fmem 16 0 0 3)) s (fun t => decide (t.net.remotes.map (fun r => (r.target, r.off)) = [(1, 0x100)]) && !isFull (t.half 0) (.s 9))
    && done (.ldr (fmem 17 0 0 3)) s (fun t => decide (t.net.remotes.map (fun r => (r.target, r.off)) = [(127, 0x3FFF8)]))) = true := by decide +kernel

/-- A machine with an uncommitted earlier task of the same reef: task 1 has timestamp 5, task 2 timestamp 1. -/
def unsafely (s : State) : State := { s with tasks := [(1, { liveTask 0 with ts := 5 }), (2, { liveTask 7 with ts := 1 })] }

/-- A direct operation runs at once for a safe task, and waits for one that is not. -/
def directs (i : Instr) (s : State) (p : State → Bool) : Bool :=
  s.directReady 1 && done i s p && !(unsafely s).directReady 1 && done i (unsafely s) fun t => decide ((t.half 0).block = .safe) && decide ((t.half 0).roff = 0)

theorem witness_remote_stores : (let s := shared
    traps (.str (fmem 16 1 0 1)) s .align 0x40101 && s.remoteOk 0x40100 8 true
    && directs (.str (fmem 16 0 0 3)) s (fun t => decide (t.net.remotes.map (·.op) = [.str 8 0x1122334455667788]))
    && directs (.puthL (fmem 16 0 0 3)) s (fun t => decide (t.net.remotes.map (·.op) = [.puth 8 0x1122334455667788 9]))
    && directs (.puthX ⟨fmem 16 0 1 0, 0xFFFFFFFF⟩) s (fun t => decide (t.net.remotes.map (fun r => (r.off, r.op)) = [(0x100, .puth 1 0x1122334455667788 9)]))) = true := by
  decide +kernel

theorem witness_multicast_store : (let s := withPart [] [(2, 3)] (stageH (regs [(10, 0x3FF00), (11, 0x100), (12, 0xFF)]))
    let f (a b : BitVec 5) : FL := fl 9 a b 12 2 0 0 0
    traps (.stsm (f 12 0)) s .bound 0xFF && traps (.stsm (f 10 11)) s .bound 0x40000
    && (membersOf (s.groupMask 0 2)).all (fun m => !s.pendingScratch 1 0 m 0x3FF00 256 true)
    && directs (.stsm (f 10 0)) s (fun t => decide (t.net.mcasts.map (·.waiting) = [[0, 1]]) && !isFull (t.half 0) (.s 9))) = true := by decide +kernel

theorem witness_shared_loads : (let s := shared
    traps (.lds (fmem 10 4 0 3)) s .align 0x5004 && traps (.lda (fmem 13 0 2 3)) s .access 0x0100000000000000
    && s.sharedOk 0x5000 8 8 false && s.sharedOk 0xFFFFFFFFFFFFF8 8 8 false
    && done (.lds (fmem 11 0 0 3)) s (fun t => decide (t.net.reqs.map (fun q => (q.lines, q.acc)) = [([0xFFFFFFFFFFFFC0], .load 8 false)]))
    && done (.lda (fmem 10 0 8 2)) s (fun t => decide (t.net.reqs.map (fun q => (q.lines, q.acc)) = [([0x5000], .acquire 4 4)]) && !isFull (t.half 0) (.s 9))) = true := by
  decide +kernel

theorem witness_vector_load : (let s := shared
    let f (k : BitVec 3) : FL := { fmem 10 0 0 0 4 with r := ⟨k, false, false, 0, 10, 9⟩ }
    s.sharedOk 0x5000 64 512 false && decide (activeLines 0x5000 32 (s.lanesOn (f 4)) = [0x5000]) && decide (activeLines 0x5000 32 (s.lanesOn (f 2)) = [])
    && done (.ldsv (f 4)) s (fun t => decide (t.net.reqs.map (·.lines) = [[0x5000]])) && done (.ldsv (f 0)) s (fun t => decide (t.net.reqs.map (·.lines.length) = [8]))
    && done (.ldsv (f 2)) s (fun t => filled t (.v 9 0) && t.net.reqs.isEmpty)) = true := by decide +kernel

/-- A staging area of one page, whose 32 slots task 1, which is not safe, has filled. -/
def full : State := { shared.halved { shared.curHalf with ctl := { shared.curHalf.ctl with stage := 0x100038000 } } with
  tasks := [(1, { liveTask 0 with ts := 5, lines := (List.range 32).map fun n => (0x100000 + 64 * n, ⟨0, 1⟩) }), (2, { liveTask 7 with ts := 1 })] }

/-- The lines that task 1 has staged. -/
def staged (t : State) : List Nat := match t.task? 1 with | some u => u.lines.map (·.1) | none => []

theorem witness_buffered_stores : (let s := shared
    traps (.sts (fmem 10 4 0 3)) s .align 0x5004 && traps (.stsv (fmem 13 0 0 0)) s .access 0x0100000000000000 && s.sharedOk 0x5000 8 8 true && s.sharedOk 0x5000 64 512 true
    && (match s.task? 1 with | some u => !u.overflow | none => false) && decide (s.usedSlots 0 + 8 ≤ s.stageSlots 0)
    && done (.sts (fmem 10 0 0 3)) s (fun t => decide (staged t = [0x5000]) && decide (t.net.reqs.map (·.acc) = [.probe]) && decide (t.mem = s.mem))
    && done (.stsv { fmem 10 0 0 0 4 with r := ⟨4, false, false, 0, 10, 0⟩ }) s (fun t => decide (staged t = [0x5000]))
    && done (.stsv { fmem 10 0 0 0 4 with r := ⟨2, false, false, 0, 10, 0⟩ }) s (fun t => decide (staged t = []) && t.net.reqs.isEmpty)) = true := by decide +kernel

/-- A preserved range, or one of reef 5, meets a line of a vector access of which no element is active. -/
theorem witness_wide_accesses : (let s (kind : Nat) : State := { shared with stations := (List.range 2).map fun n => (n, { Station.reset with ranges := [(0, placeRange)], guards := [⟨kind, 0, 0x5100, 0x51FF, .reef 0 5⟩] }) }
    let f : FL := { fmem 10 0 0 0 4 with r := ⟨4, false, false, 0, 10, 9⟩ }
    decide (activeLines 0x5000 32 (shared.lanesOn f) = [0x5000])
    && decide ((s 3).wideCause ((s 3).seen (.stsv f)) 0x5000 true = some (.rlock, 0x5100)) && traps (.stsv f) (s 3) .rlock 0x5100
    && decide ((s 4).wideCause ((s 4).seen (.ldsv f)) 0x5000 false = some (.held, 0x5100)) && traps (.ldsv f) (s 4) .held 0x5100
    && decide (shared.wideCause (shared.seen (.ldsv f)) 0x5000 false = none) && decide (shared.wideCause (shared.seen (.stsv f)) 0x5000 true = none)) = true := by decide +kernel

theorem witness_full_staging : (!full.directReady 1 && decide (full.usedSlots 0 = 32) && decide (full.stageSlots 0 = 32)
    && done (.sts (fmem 10 0 0 3)) full (fun t => decide ((t.half 0).block = .safe) && decide ((staged t).length = 32))) = true := by decide +kernel

theorem witness_release_store : (let s := shared
    let f := fmem 10 8 4 2
    let line : Req := { faultReq 5 0 1 0 0 (s.party 0) (.line ⟨0, 1⟩ 0 0 false) 0 0x6000 with phase := .translate }
    let out := s.netted fun n => { n with reqs := [line] }
    let wide : FL := fmem 10 8 6 2
    (match s.task? 1 with | some u => u.unstaged | none => false) && s.directReady 1 && s.sharedOk 0x5008 4 4 true && s.ranged 0x5008
    && decide (s.reachLines (s.party 0) (whoOf (s.seen (.strel f))) .write [touchOf 0x5008 4] = .ok [0x5000]) && !s.linesUnseen (s.seen (.strel f)) 2
    && done (.strel f) s (fun t => decide (t.net.reqs.map (fun q => (q.acc, q.pas, q.phase)) = [(.release 4 2 0x1122334455667788, [0x5000], .home)]) && decide (t.mem = s.mem))
    && !out.linesUnseen (out.seen (.strel f)) 2 && done (.strel f) out (fun t => decide (t.net.reqs.map (·.seen) = [[(2, out.net.nextId)], []]))
    && out.sharedOk 0x5008 4 4 true && out.linesUnseen (out.seen (.strel wide)) 3
    && done (.strel wide) out (fun t => decide ((t.half 0).block = .fence) && decide ((t.half 0).roff = 0))) = true := by
  decide +kernel

theorem witness_fence : (let s := shared
    let out := s.netted fun n => { n with cmds := [{ engCmd (s.seen (.copy (fl0 9 10 11))) (fl0 9 10 11) 0 0 [] (s.party 0) with id := 3 }] }
    !s.unseen (s.seen (.fence 12 (fa 0 0 0))) 4 && done (.fence 12 (fa 0 0 0)) s (fun t => decide ((t.half 0).roff = 1))
    && !out.unseen (out.seen (.fence 12 (fa 0 0 0))) 4 && out.net.cmds.any (fun q => q.dest.tid == 1)
    && done (.fence 12 (fa 0 0 0)) out (fun t => decide ((t.half 0).block = .fence) && decide ((t.half 0).roff = 0))
    && done (.fence 4 (fa 0 0 0)) out (fun t => decide ((t.half 0).roff = 1))
    && (let away := s.netted fun n => { n with remotes := [⟨5, 0, 1, 3, 0, 1, 0x100, 0x40100, .str 8 0, Entry.blank⟩] }
        away.unseen (away.seen (.fence 1 (fa 0 0 0))) 1 && done (.fence 1 (fa 0 0 0)) away (fun t => decide ((t.half 0).block = .fence))
        && !away.unseen (away.seen (.fence 0 (fa 0 0 0))) 0 && done (.fence 0 (fa 0 0 0)) away fun t => decide ((t.half 0).roff = 1))) = true := by decide +kernel

/-- A FENCE to the die leaves the write of an atomic engine seen there. -/
theorem test_fence_marks : (let s := shared.netted fun n => { n with atoms := [⟨7, 0, false, ⟨0, 1, 3, 9⟩, 0, 0, 0x5000, 0, true, 1, 0, false, false, [], 0x5000, Entry.blank, false, []⟩] }
    !s.unseen (s.seen (.fence 2 (fa 0 0 0))) 2 && done (.fence 2 (fa 0 0 0)) s (fun t => decide (t.net.atoms.map (·.seen) = [[(2, s.net.nextId)]]))
    && s.unseen (s.seen (.fence 3 (fa 0 0 0))) 3 == !s.atomArrived 0 (s.net.atoms.getD 0 ⟨7, 0, false, ⟨0, 1, 3, 9⟩, 0, 0, 0, 0, true, 1, 0, false, false, [], 0, Entry.blank, false, []⟩)) = true := by decide +kernel

theorem witness_atomics : (let s := shared
    let f (op : BitVec 4) (o : BitVec 16) (sc : BitVec 2) : FL := fl 9 10 14 12 o op 0 sc
    traps (.atom (f 0 4 3)) s .align 0x5004 && traps (.red (f 0 2 2)) s .align 0x5002 && s.sharedOk 0x5000 8 8 true
    && directs (.atom (f 9 0 3)) s (fun t => decide (t.net.reqs.map (·.acc) = [.atom 9 true 1 0x1122334455667788]) && !isFull (t.half 0) (.s 9))
    && directs (.red (f 6 0 2)) s (fun t => decide (t.net.reqs.map (·.acc) = [.red 6 false 1]) && isFull (t.half 0) (.s 9))
    && s.ranged 0x5000 && decide ((s.core 0).completions < completionEntries)
    && decide (s.guardCause 0 (s.party 0).asid (touchOf 0x5000 8) true true (whoOf (s.seen (.atomr (f 0 0 3)))) = none)
    && decide (s.reachLines (s.party 0) (whoOf (s.seen (.atomr (f 0 0 3)))) .atomic [touchOf 0x5000 8] = .ok [0x5000])
    && (match homeOf s.extent 0x5000 with | .hbm _ => true | _ => false) && decide (s.awayPa (s.party 0) 0x5000 = none)
    && (let far : Station := { Station.reset with ranges := [(0, { placeRange with offset := 2 ^ 40 })] }
        let x := { s with stations := [(0, far), (1, far)] }
        x.ranged 0x5000 && decide (x.awayPa (x.party 0) 0x5000 = some (2 ^ 41 + 0x5000)) && decide (homeOf x.extent ((2 ^ 41 + 0x5000) % 2 ^ 40) = .hbm 0)
        && decide (x.guardCause 0 (x.party 0).asid (touchOf 0x5000 8) false true (whoOf (x.seen (.redr (f 0 0 3)))) = none)
        && done (.redr (f 0 0 3)) x (fun t => decide (t.net.atoms.map (fun a => (a.mf, a.pa, a.value)) = [(0, 2 ^ 41 + 0x5000, false)])))
    && done (.atomr (f 0 0 3)) s (fun t => decide (t.net.atoms.map (fun a => (a.pa, a.value)) = [(0x5000, true)]) && !isFull (t.half 0) (.s 9) && decide ((t.core 0).completions = 1))
    && done (.redr (f 0 4 2)) s (fun t => decide (t.net.atoms.map (fun a => (a.pa, a.value)) = [(0x5004, false)]) && isFull (t.half 0) (.s 9))) = true := by decide +kernel

theorem witness_ring : (let s := withPart [(3, tileObj 0 2 2 8 9), (4, tileObj 0 513 64 128 9)] [(1, 1), (2, 2)] (stageH (regs [(10, 0x100), (11, 1), (12, 256), (13, 2), (14, 0x4000)]))
    let f (b : BitVec 5) (o : BitVec 16) : FL := fl 2 10 b 0 o 0 0 0
    (s.tileAt 0 3).isSome && traps (.rot (f 12 3)) s .bound 0 && traps (.rot (f 13 3)) s .bound 0 && traps (.rot (f 11 4)) s .bound 0
    && s.localOk (.rot (f 11 3)) 0x100 12 1 true && decide (s.net.rings = []) && (s.groupMask 0 1).getLsbD 0
    && decide ((s.cluster 0).locks.length < 64) && decide (tileExtent 2 8 (rowBytes 9 2) = 12)
    && directs (.rot (f 11 3)) s (fun t => decide (t.net.rings.map (fun r => (r.members, r.joined.map (·.core))) = [([0], [0])])
      && decide ((t.cluster 0).locks.map (fun l => (l.first, l.last)) = [(0x100, 0x10B)]))
    && (let x := (s.parted 0 fun p => { p with groups := [(1, 3)] }).netted fun n => { n with rings := [⟨7, 0, 1, [0, 1], [⟨1, 2, 5, 0, 0x100, 2, 4, 8, 2, 6, 3, false, Entry.blank⟩], []⟩] }
        x.directReady 1 && x.localOk (.rot (f 11 3)) 0x100 12 1 true && done (.rot (f 11 3)) x fun t => decide (t.net.rings.map (fun r => (r.id, r.joined.map (·.core))) = [(7, [1, 0])]))
    && (let x := s.parted 0 fun p => { p with objects := [(3, tileObj 0 0 2 8 9)] }
        decide (tileExtent 0 8 (rowBytes 9 2) = 0) && !x.pendingScratch 1 0 0 0x100 0 true
        && done (.rot (f 11 3)) x fun t => (t.cluster 0).locks.isEmpty && decide (t.net.rings.length = 1))) = true := by decide +kernel

/-- A ring's tile that a lock holds, that leaves the scratchpad, or that an access of the task has still to reach. -/
theorem witness_ring_checks : (let s := withPart [(3, tileObj 0 2 2 8 9)] [(1, 1)] (stageH (regs [(10, 0x100), (11, 1), (12, 0x3FFF8)]))
    let f (a : BitVec 5) : FL := fl 2 a 11 0 3 0 0 0
    let rows := tileRows 0x100 2 8 (rowBytes 9 2)
    let held (kind : Nat) : State := s.clustered 0 fun c => { c with locks := [⟨kind, 0, 0x108, 0x10B, .task 9⟩] }
    decide (rows = [(0x100, 4), (0x108, 4)]) && decide (s.rangesCheck (s.seen (.rot (f 10))) 0x100 rows true = .ok) && decide (s.rangesCheck (s.seen (.rot (f 10))) 0x100 rows false = .ok)
    && traps (.rot (f 12)) s .bound 0x3FFF8 && traps (.rot (f 10)) (held 2) .rlock 0x100
    && (let t := (held 2).clustered 0 fun c => { c with locks := [⟨2, 0, 0x104, 0x107, .task 9⟩] }
        t.directReady 1 && done (.rot (f 10)) t fun t => decide (t.net.rings.length = 1))
    && (let t := s.netted fun n => { n with remotes := [⟨5, 0, 1, 3, 0, 0, 0x108, 0x108, .str 4 7, Entry.blank⟩] }
        t.tilePending (t.seen (.rot (f 10))) rows true && !s.tilePending (s.seen (.rot (f 10))) rows true)) = true := by decide +kernel

theorem witness_pft : (let s := withPart [(3, tileObj 0 2 2 8 9)] [] (stageH (regs [(10, 0x100), (11, 0x0100000000000000)]))
    let f (a : BitVec 5) : FL := fl 0 a 0 0 3 0 0 0
    let walked := { withWordAt 0x1000 0x1001 (withWordAt 0 0x1001 (withWordAt 0x1008 0x4000003F (s.halved (regs [(10, 0x40000FFC), (12, 1)] s.curHalf)))) with stations := [] }
    let walked := walked.parted 0 fun p => { p with groups := [(1, 3)] }
    (s.tileAt 0 3).isSome && traps (.pft (f 11)) s .access 0x0100000000000000 && done (.pft (f 10)) s (fun t => decide ((t.half 0).roff = 2))
    && walked.canonical && decide (walk walked false 0 0x40000000 = .leaf ⟨0, 0x40000000, 30, 0x40000000, 0x4000003F, 0x1008⟩)
    && done (.pft { f 10 with r := ⟨0, false, false, 12, 10, 0⟩ }) walked (fun t => decide (memNat t.mem 0x1008 8 = 0x4000013F) && decide (memNat t.mem 0x1000 8 = 0x1001)
      && decide ((t.station 0).cache.length = 1))) = true := by decide +kernel

/-- A core whose cluster holds n locks of another task and m of task 1. -/
def withLocks (n m : Nat) : State := (stageH (regs [(10, 0x100), (11, 8), (12, 0x3FFF9), (13, 0x10F)])).clustered 0 fun c => { c with
  locks := (List.range n).map (fun i => ⟨2, 0, 0x1000 + i, 0x1000 + i, .task 9⟩) ++ (List.range m).map (fun i => ⟨2, 0, 0x100 + 8 * i, 0x107 + 8 * i, .task 1⟩) }

theorem witness_range_locks : (let f (a b : BitVec 5) : FL := fl0 9 a b
    let gives (i : Instr) (s : State) (w : Word) (n : Nat) := done i s fun t => decide (readS (t.half 0) 9 = w) && decide ((t.cluster 0).locks.length = n)
    traps (.rlock (f 10 0)) (withLocks 0 0) .bound 0x100 && traps (.runlock (f 12 11)) (withLocks 0 0) .bound 0x3FFF9
    && gives (.rlock (f 10 11)) (withLocks 64 0) 1 64 && gives (.rlock (f 10 11)) (withLocks 0 8) 1 8 && gives (.rlock (f 10 11)) (withLocks 0 1) 2 1
    && gives (.rlock (f 13 11)) (withLocks 0 3) 2 3 && gives (.rlock (f 13 11)) (withLocks 0 1) 0 2
    && gives (.runlock (f 10 11)) (withLocks 1 1) 0 1 && gives (.runlock (f 13 11)) (withLocks 0 1) 3 1) = true := by decide +kernel

theorem witness_heap : (let s := stageH (regs [(10, 0x100)])
    done (.alloc (fa 9 0 0)) s (fun t => decide (readS (t.half 0) 9 = 0) && t.net.heap.isEmpty)
    && done (.alloc (fa 9 10 0)) s (fun t => decide (t.net.heap.map (·.arg) = [0x100]) && isFull (t.half 0) (.s 9) && isBusy (t.half 0) (.s 9))
    && (let x := s.parted 0 fun p => { p with image := { p.image with det := true } }
        x.detCore 0 && done (.alloc (fa 9 10 0)) x fun t => !isFull (t.half 0) (.s 9) && decide (t.deferred.length = 1))
    && done (.free (fa 0 10 0)) s (fun t => decide (t.net.heap.map (fun q => (q.alloc, q.arg)) = [(false, 0x100)]))) = true := by decide +kernel

/-- A copy of 8 bytes, one dimension, from the scratchpad (or from this space) to shared memory; an erasure descriptor of 2 and 1 members. -/
def copyObj (space : Nat) : Obj := obj 3 [word (1 + space * 2 ^ 20 + 2 * 2 ^ 22), 8, 1, 8, 8]

/-- The same to the scratchpad. -/
def copyObjIn (space : Nat) : Obj := obj 3 [word (1 + space * 2 ^ 20), 8, 1, 8, 8]

/-- s10 = 0x100 of the scratchpad, s11 = 0x6000, s12 past the scratchpad, s13 in the staging area, s14 = 0x104. -/
def engines : State := withPart [(1, copyObj 0), (2, copyObj 3), (3, obj 4 [word (1 + 1 * 2 ^ 4 + 0x10000 * 2 ^ 32), 0x40, 0]), (4, obj 4 [1, 0, 0]), (5, copyObjIn 0)] []
  (stageH (regs [(10, 0x100), (11, 0x6000), (12, 0x3FFFC), (13, 0x38000), (14, 0x104)]))

theorem witness_engines : (let s := engines
    let f (a b : BitVec 5) (o : BitVec 16) : FL := fl 9 a b 0 o 0 0 0
    let staged (x : CopyEnd) := let d := copyDesc (copyObj 0).body; s.endStaged d x d.sstride (d.runBytes d.stype) || s.endStaged d x d.dstride (d.runBytes d.outType)
    decide (s.liveObj 0 9 3 = none) && traps (.copy (f 10 11 9)) s .bound 0 && (copyDesc (copyObj 3).body).bad && traps (.copy (f 10 11 2)) s .bound 0
    && ecBad [1, 0, 0] false 0x100 0x6000 && traps (.ecenc (f 10 11 4)) s .bound 0
    && !(copyDesc (copyObj 0).body).bad
    && (match (copyDesc (copyObj 0).body).source 0 0x100, (copyDesc (copyObj 0).body).dest 0 0x6000 with
        | some x, some y => !staged x && !staged y && !x.overlaps y && !s.locksFull [x, y] | _, _ => false)
    && directs (.copy (f 10 11 1)) s (fun t => decide (t.net.cmds.map (fun q => (q.engine, q.sA, q.sB)) = [(0, 0x100, 0x6000)])
      && decide ((t.liveObj 0 1 3).map (·.holds) = some 1) && !isFull (t.half 0) (.s 9))
    && decide ((copyDesc (copyObj 0).body).source 0 0x3FFFC = none) && traps (.copy (f 12 11 1)) s .bound 0
    && (match (copyDesc (copyObj 0).body).source 0 0x37FF8, (copyDesc (copyObj 0).body).source 0 0x38000 with
        | some x, some y => !staged x && staged y | _, _ => false) && traps (.copy (f 13 11 1)) s .bound 0
    && (match (copyDesc (copyObjIn 0).body).source 0 0x100, (copyDesc (copyObjIn 0).body).dest 0 0x104 with
        | some x, some y => x.overlaps y | _, _ => false) && traps (.copy (f 10 14 5)) s .bound 0
    && !ecBad [word (1 + 1 * 2 ^ 4 + 0x10000 * 2 ^ 32), 0x40, 0] false 0x100 0x6000
    && done (.ecenc (f 10 11 3)) s (fun t => decide (t.net.cmds.map (fun q => (q.engine, q.op)) = [(64, 1)]))
    && done (.ecrec (f 10 11 3)) s (fun t => decide (t.net.cmds.map (fun q => (q.engine, q.op)) = [(64, 2)]))) = true := by decide +kernel

/-! ### Witnesses: activation and messages -/

/-- Half 1 of core 0 is free, and an activation at priority 2 waits. -/
def activates : State := given 1 ((stage 0).cored 0 fun c => (c.setInbox 2 ⟨[], [{ Act.blank with msg := ⟨word (3 * 2 ^ 59 + 0x4000), 0, 0, 0, [5]⟩ }]⟩))

theorem witness_activation : (let s := activates
    decide (s.partOf 0 = some 0) && (s.part? 0).isSome && ((s.coreNow 0).head).isSome && decide ((s.half 1).occ = .free) && !(s.coreNow 0).failed
    && (match s.part? 0 with | some p => p.running | none => false)
    && ok .taskActivation s (fun t => decide ((t.half 1).occ = .live) && decide ((t.half 1).hdr = 0x10000) && decide ((t.half 1).tid = s.net.nextId + 1)
      && decide (readS (t.half 1) 30 = 0x38000) && (t.core 0).inbox2.q.isEmpty)) = true := by decide +kernel

/-- A core whose gate lets messages out to and in from every endpoint, s10 = core 1, s11 to s13 = 1 to 3, s14 a core that does not exist. -/
def sends : State := withPart [] [(2, 3)] ((stageH (regs [(10, 16), (11, 1), (12, 2), (13, 3), (14, 0x1FFF0), (15, 0x10100)])).cored 0 fun c =>
  { c with gate := [(0, word (2 ^ 63 + 2 ^ 62 + 2 ^ 61 + 0xFFFF * 2 ^ 32)), (1, word (2 ^ 63 + 2 ^ 62 + 0xFFFF * 2 ^ 32 + 5 * 2 ^ 17)),
    (2, word (2 ^ 63 + 2 ^ 62 + 0xFFFF * 2 ^ 32 + 6 * 2 ^ 17))] })

theorem witness_sends : (let s := sends
    let f (a c : BitVec 5) (m : BitVec 4) : FL := fl 9 a 11 c 0x10 m 0 1
    let answers (i : Instr) (s : State) (w : Word) := done i s fun t => filled t (.s 9 w) && !isFull (t.half 0) (.s 9) && t.net.msgs.isEmpty
    decide (epKind (readS s.curHalf 10) ≤ 1) && gateAllows (s.core 0) 62 16 && s.unitIn 0 16
    && directs (.send (f 10 15 3)) s (fun t => decide (t.net.msgs.map (fun m => (m.core, m.pri, m.act.msg.pay)) = [(1, 1, [1, 2, 3])]) && !isFull (t.half 0) (.s 9))
    && !gateAllows ((stageH (regs [(10, 16)])).core 0) 62 16 && answers (.send (f 10 15 1)) (stageH (regs [(10, 16)])) 0x0A
    && gateAllows (s.core 0) 62 0x1FFF0 && !s.unitIn 0 0x1FFF0 && answers (.send (f 14 15 1)) s 0x0B) = true := by decide +kernel

/-- A task whose message asks for a reply at core 1. -/
def replies : State := { sends with tasks := [(1, { liveTask 0 with act := { Act.blank with msg := ⟨0, 0, word (16 * 2 ^ 32), 0x4040, [7, 8]⟩ } })] }

theorem witness_reply_and_receive : (let s := replies
    let u := s.curTask.act.msg
    decide (wbits u.h2 63 32 = 16) && decide (wbits u.h3 53 0 ≠ 0) && !u.h3.getLsbD 63
    && directs (.reply (fl 9 0 11 15 0 2 0 0)) s (fun t => decide (t.net.msgs.map (fun m => (m.core, m.act.msg.pay)) = [(1, [1, 2])]))
    && done (.recv (fl0 0 0 0)) s (fun t => decide (t.net.fills.map (·.value) = [.s 1 7, .s 2 8, .s 3 0, .s 4 0, .s 5 0, .s 6 0, .s 7 0]) && decide (readS (t.half 0) 10 = 16)
      && !isFull (t.half 0) (.s 1) && !isFull (t.half 0) (.s 7) && isFull (t.half 0) (.s 8) && decide ((t.half 0).replay.length = 1))
    && !s.detCore 0 && (let x := s.parted 0 fun p => { p with image := { p.image with det := true } }
        x.detCore 0 && done (.pollq (fl0 9 0 0)) x fun t => !isFull (t.half 0) (.s 9) && decide (t.deferred.length = 1) && decide ((t.half 0).replay.length = 1))
    && done (.pollq (fl0 9 0 0)) { activates with cur := 0 } (fun t => decide (readS (t.half 0) 9 = 0x10000))) = true := by decide +kernel

/-- Translation station 0 takes the opcodes 1 to 6, and an atomic engine none of a SEND. -/
theorem witness_engine_sends : (let s := sends.halved (regs [(16, word (5 * 2 ^ 17)), (17, word (6 * 2 ^ 17))] sends.curHalf)
    let f (a : BitVec 5) (opcode : BitVec 16) : FL := fl 9 a 11 0 opcode 1 0 0
    let refused (a : BitVec 5) (opcode : BitVec 16) := done (.send (f a opcode)) s fun t => filled t (.s 9 0x0B) && t.net.stCmds.isEmpty
    let takes (opcode : BitVec 16) := done (.send (f 16 opcode)) s fun t => decide (t.net.stCmds.map (fun x => (x.1, x.2.1.opcode, x.2.1.pay)) = [(0, opcode.toNat, [1])])
    decide (epKind (readS s.curHalf 16) = 5) && decide (epKind (readS s.curHalf 17) = 6) && s.unitIn 0 (readS s.curHalf 16) && s.unitIn 0 (readS s.curHalf 17)
    && gateAllows (s.core 0) 62 (5 * 2 ^ 17) && gateAllows (s.core 0) 62 (6 * 2 ^ 17)
    && takes 1 && takes 6 && refused 16 0 && refused 16 7 && refused 17 1) = true := by decide +kernel

theorem witness_reply_nowhere : (let s (h2 h3 : Word) : State := { sends with tasks := [(1, { liveTask 0 with act := { Act.blank with msg := ⟨0, 0, h2, h3, []⟩ } })] }
    let refused (h2 h3 : Word) := (s h2 h3).directReady 1 && done (.reply (fl 9 0 11 15 0 2 0 0)) (s h2 h3) fun t => filled t (.s 9 0x0B) && t.net.msgs.isEmpty
    refused 0xFFFFFFFF00000000 0x4040 && refused 0x1000000000 0xFF00000000000000 == false && refused 0x1000000000 0x4000000000000000) = true := by decide +kernel

theorem witness_multicast_message : (let s := sends
    s.directReady 1 && decide (membersOf (s.groupMask 0 2) = [0, 1])
    && done (.sendm (fl 9 15 11 0 2 1 0 0)) s (fun t => decide (t.net.msgs.map (fun m => (m.core, m.act.msg.pay)) = [(0, [1]), (1, [1])])
      && decide (t.net.mcasts.map (fun m => (m.waiting, m.neg)) = [([0, 1], 0)]))) = true := by decide +kernel

/-- A message to core 1 at priority 0 whose sender waits for its status. -/
def arriving (n : Nat) (ingress : List NetMsg) : State := given 0 (((stage 0).cored 1 fun c =>
  { c.setInbox 0 ⟨[], List.replicate n Act.blank⟩ with ingress := ingress }).netted fun x => { x with msgs := [⟨0, 1, 0, Act.blank, some ⟨0, 1, 0, 9⟩, none⟩] })

theorem witness_inbox : (let s := arriving 15 []
    decide (ith s.net.msgs 0 = some ⟨0, 1, 0, Act.blank, some ⟨0, 1, 0, 9⟩, none⟩) && !s.detCore 1 && !s.copyRefused ⟨0, 1, 0, Act.blank, some ⟨0, 1, 0, 9⟩, none⟩
    && ok .inboxAccept s (fun t => decide ((t.core 1).inbox0.q.length = 16) && t.owes ⟨0, 1, 0, 9⟩ 0)
    && ok .inboxAccept (arriving 16 []) (fun t => decide ((t.core 1).inbox0.q.length = 16) && decide ((t.core 1).ingress.length = 1) && t.net.fills.isEmpty)
    && ok .inboxAccept (arriving 3 [⟨7, 1, 0, Act.blank, none, none⟩]) (fun t => decide ((t.core 1).ingress.length = 2))) = true := by decide +kernel

/-! ### Witnesses: counters and time -/

/-- s10 = 5, s11 = 2^32. -/
def counters : State := stageH (regs [(10, 5), (11, 0x100000000), (12, 0x7000000000000), (13, 7)])

theorem witness_arrival_counters : (let s := counters
    let f (a : BitVec 5) (o : BitVec 16) (m : BitVec 4) : FL := fl 3 a 0 0 o m 0 0
    let arms (i : Instr) (s : State) (n : BitVec 32) (h : Bool) := done i s fun t => (match tget (t.core 0).arrivals 3 with
      | some a => a.armed && decide (a.count = n) && a.handler.isSome == h | none => false)
    traps (.actrL (f 0 0 0)) s .bound 0 && traps (.actrL (f 0 0xFFFF 0)) s .bound 0 && traps (.actrL (f 11 0 1)) s .bound 0 && traps (.actrX ⟨f 0 0 0, 0⟩) s .bound 0
    && arms (.actrL (f 0 0x7FFF 0)) s 0x7FFF false && arms (.actrL (f 10 0 1)) s 5 false && arms (.actrX ⟨f 0 0x10 0, 0xFFFFFFFF⟩) s 0xFFFFFFFF true
    && arms (.actrX ⟨f 10 0 1, 0⟩) s 5 false && done (.actrL (f 0 0 1)) s (fun t => !(t.core 0).armed 3)
    && !(s.core 0).armed 3 && done (.waitc (f 0 0 0)) s (fun t => decide ((t.half 0).roff = 2))
    && (let s := s.cored 0 fun c => { c with arrivals := [(3, { Arrival.reset with armed := true, count := 1 })] }
        (s.core 0).armed 3 && done (.waitc (f 0 0 0)) s fun t => decide ((t.half 0).block = .waitc 3) && decide ((t.half 0).roff = 0))) = true := by decide +kernel

theorem witness_counter_zero : (let s (h : Option Word) := given 0 ((stage 0).cored 0 fun c => { c with due := [(5, Arrival.reset), (3, { Arrival.reset with handler := h, index := 9 }), (3, Arrival.reset)] }) 3
    decide (((s none).core 0).due.find? (fun x => x.1 == 3) = some (3, { Arrival.reset with index := 9 }))
    && ok .arrivalCounterZero (s none) (fun t => decide ((t.core 0).due = [(5, Arrival.reset), (3, Arrival.reset)]) && t.net.msgs.isEmpty)
    && ok .arrivalCounterZero (s (some 0x4000)) (fun t => decide ((t.core 0).due.length = 2) && decide (t.net.msgs.map (fun m => (m.core, m.act.handler, m.act.msg.pay)) = [(0, 0x4000, [3, 9])]))) = true := by
  decide +kernel

/-- A core that has counted. -/
def counted : State := (counters.cored 0 fun c => { c with ret := 44, qpos := 7, sent := [(5, 3)], recv := [(5, 2)], arrivals := [(5, { Arrival.reset with count := 6 })] }).clustered 0
      fun c => { c with perf := [(5, ⟨77, 0x8001⟩), (7, ⟨88, 0x8002⟩)] }

theorem witness_counters : (let s := counted
    let reads (n a : BitVec 5) (w : Word) := done (.ctrr (fa 9 a n)) s (fun t => decide (readS (t.half 0) 9 = w)) && done (.ctrw (fa 9 a n)) s (fun t => decide (readS (t.half 0) 9 = w))
    !isKernel 0 && reads 1 10 44 && reads 2 10 7 && reads 5 10 0xFFFFFFFF && reads 6 10 0x200000003 && reads 7 10 6
    && !s.timedCounter (s.seen (.ctrr (fa 9 10 8))) 8 5 && done (.ctrr (fa 9 10 8)) s (fun t => decide (readS (t.half 0) 9 = 77))
    && done (.ctrr (fa 9 12 9)) s (fun t => decide (readS (t.half 0) 9 = 0x8002)) && done (.ctrr (fa 9 10 10)) s (fun t => decide (readS (t.half 0) 9 = 0))
    && reads 0 0 0 && reads 3 0 0 && reads 4 0 0) = true := by decide +kernel

theorem witness_counter_writes : (let s := (stageK (regs [(10, 5), (12, 0x70000_0000_8009)])).clustered 0 fun c => { c with perf := [(5, ⟨77, 0x8001⟩), (7, ⟨88, 0x8003⟩)] }
    isKernel s.curCore && !s.timedCounter (s.seen (.ctrw (fa 9 10 8))) 8 5 && (s.part? s.curTask.part).isSome
    && done (.ctrw (fa 9 10 8)) s (fun t => decide (readS (t.half 8192) 9 = 77) && decide (((t.cluster 0).perf.map fun p => p.2.count) = [0, 88]))
    && done (.ctrw (fa 9 12 9)) s (fun t => decide (readS (t.half 8192) 9 = 0x8003) && decide (((t.cluster 0).perf.map fun p => p.2.sel) = [0x8001, 0x8009]))
    && (let x := s.clustered 0 fun c => { c with perf := [(7, ⟨88, 0x8004⟩)] }
        x.timedCounter (x.seen (.ctrw (fa 9 12 9))) 9 0x70000_0000_8009 && done (.ctrw (fa 9 12 9)) x fun t => decide (t.free = x.free + 1)
          && decide (((t.cluster 0).perf.map fun p => p.2.sel) = [0x8009]))
    && done (.ctrw (fa 9 10 10)) s (fun t => decide (readS (t.half 8192) 9 = 0))) = true := by decide +kernel

theorem witness_time : (let s := { counters with clock := ⟨0, 5, 0x1234, true⟩ }
    done (.time (fa 9 0 1)) s (fun t => decide (readS (t.half 0) 9 = 5) && decide (readS (t.half 0) 10 = 0x11234)) && done (.time (fa 9 0 0)) s (fun t => decide (readS (t.half 0) 9 = 5))
    && decide (s.curHalf.waitt = none) && done (.waitt (fa 0 10 0)) s (fun t => decide ((t.half 0).roff = 1))
    && (let x := s.halved { s.curHalf with waitt := some 6 }
        done (.waitt (fa 0 10 0)) x fun t => decide ((t.half 0).block = .waitt 6) && decide ((t.half 0).waitt = some 6))
    && done (.waitt (fa 0 11 0)) s (fun t => decide ((t.half 0).block = .waitt 0x100000000) && decide ((t.half 0).roff = 0))
    && (let s := given 0 { stageH (fun h => { h with block := .waitt 5 }) with clock := ⟨0, 5, 0, true⟩ }
        let h := s.half 0
        decide (h.occ = .live) && h.traps.isEmpty && !h.ctl.ss && h.reissue.isNone && ok .waittExpire s fun t => decide ((t.half 0).roff = 1) && decide ((t.half 0).block = .none))) = true := by
  decide +kernel

/-! ### Witnesses: launches -/

/-- A range object on the scratchpad of the cluster window, and what stands there: a descriptor of 3 tasks of group 2 in reef 0 of cluster 0. -/
def rangeObj (base size : Nat) : Obj := obj 6 [word (2 ^ 63 + base), word size, 0]

def launcher : State := (withPart [(1, rangeObj 0x1000 64), (2, rangeObj 0x1000 63)] [(2, 3)]
  (stageH (regs [(10, 0x123), (11, 9), (12, 0x5555), (13, 0x100)]))).poked (scratchAt 0 0x1000)
    (toBytes 8 (3 * 2 ^ 32 + 2 * 2 ^ 24) ++ toBytes 8 0x4000 ++ toBytes 8 77 ++ toBytes 8 100 ++ toBytes 8 10 ++ toBytes 8 0xFFFFFFFF ++ toBytes 16 0)

theorem witness_launch : (let s := launcher
    let f (a : BitVec 5) (o : BitVec 16) (m : BitVec 4) : FL := fl 9 a 11 12 o m 0 1
    decide (s.liveObj 0 9 6 = none) && traps (.launchL (f 0 9 0)) s .bound 0 && traps (.launchL (f 0 2 0)) s .bound 0
    && (match s.liveObj 0 1 6 with | some o => (s.rangeBytes o 64).isSome && decide ((nth o.body 1).toNat = 64) | none => false)
    && directs (.launchL (f 0 1 0)) s (fun t => decide (t.net.launches.map (fun q => (q.desc.n, q.desc.reef, q.desc.handler, q.desc.arg)) = [(3, 0, 0x4000, 77)])
      && decide (t.net.launches.map (fun q => (q.desc.base, q.desc.members, q.desc.pri)) = [(100, 3, 1)]) && !isFull (t.half 0) (.s 9))
    && done (.launchL (f 10 1 3)) s (fun t => decide (t.net.launches.map (fun q => (q.desc.reef, q.desc.handler, q.desc.base)) = [(0x123, 0x5554, 9)]))
    && done (.launchX ⟨f 0 1 0, 0x40⟩) s (fun t => decide (t.net.launches.map (fun q => q.desc.handler) = [0x10108]))) = true := by decide +kernel

theorem witness_spawn_and_abort : (let s := { launcher with tasks := [(1, { liveTask 0 with ts := 20, tag := some 3 })] }
    let f (m : BitVec 4) : FL := fl 9 10 11 12 0 m 0 2
    let one (p : SpawnReq → Bool) (t : State) : Bool := (match t.net.spawns with | [q] => p q | _ => false) && !isFull (t.half 0) (.s 9)
    directs (.spawnL (f 2)) s (one fun q => decide (q.handler = some 0x5554) && decide (q.arg = 0x123) && decide (q.pri = 2))
    && done (.spawnL (f 1)) s (one fun q => decide (q.ts = 20) && decide (q.launch = some 3) && q.handler.isNone) && done (.spawnL { f 1 with r := ⟨0, false, false, 13, 10, 9⟩ }) s (one fun q => decide (q.ts = 0x100))
    && done (.spawnX ⟨f 0, 0x40⟩) s (one fun q => decide (q.handler = some 0x10108) && decide (q.ts = 20))
    && directs (.abort (f 0)) s (fun t => decide (t.net.aborts.map (·.handle) = [0x123])) && done (.abortX ⟨f 0, 0⟩) s (fun t => decide (t.net.aborts.length = 1))) = true := by
  decide +kernel

/-- What a launch of n tasks of group 2 in reef 0 asks for. -/
def desc (n : Nat) : LDesc := ⟨n, 2, 3, 0, 0, 0x4000, 77, 100, 10, 16, false, 0, 1, 0, false, none, none, false⟩

/-- A machine with launch 3 of cluster 0, in a partition that has group 2. -/
def launched (n : Nat) (f : Launch → Launch) : State := (withPart [] [(2, 3), (3, 2)] (stage 0)).clustered 0 fun c => { c with launches := [(3, f { Launch.fresh (desc n) with next := n })] }

/-- Task 1 is index i of launch 3, having seen `bars` of group 2. -/
def member (i : BitVec 32) (bars : Nat) : Task := { liveTask 0 with tag := some 3, ts := 100, act := { Act.blank with launch := some 3, index := i }, bars := [(2, bars)] }

theorem witness_barriers : (let s (bars : Nat) := { launched 2 id with tasks := [(1, member 0 bars)] }
    let f (o : BitVec 16) : FL := fl 0 0 0 0 o 0 0 0
    let arrived (t : State) (n : Nat) := decide (t.net.barriers.map (fun b => (b.lid, b.group, b.arrived)) = [(3, 2, [(0, n)])])
    traps (.bar (f 2)) (stage 0) .bound 0 && traps (.bar (f 256)) (s 0) .bound 0 && traps (.bar (f 7)) (s 0) .bound 0 && traps (.barw (f 3)) (s 0) .bound 0
    && decide ((s 0).launchOf = some 3)
    && done (.bar (f 2)) (s 0) (fun t => arrived t 1 && decide ((t.half 0).roff = 2)) && done (.bar (f 2)) (s 2) (fun t => arrived t 2)
    && done (.barw (f 2)) (s 0) (fun t => arrived t 1 && decide ((t.half 0).block = .barw 2) && decide ((t.half 0).roff = 0))
    && done (.barw (f 2)) (s 3) (fun t => t.net.barriers.isEmpty && decide ((t.half 0).block = .barw 2))
    && done (.barw (f 2)) ((s 3).netted fun n => { n with barriers := [⟨3, 2, [(0, 1), (1, 1)], 0⟩] }) (fun t => decide ((t.half 0).block = .barw 2))
    && done (.barw (f 2)) ((s 3).netted fun n => { n with barriers := [⟨3, 2, [(0, 1), (1, 1)], 1⟩] }) (fun t => decide ((t.half 0).roff = 2))) = true := by decide +kernel

theorem witness_generation : (let s := given 0 ({ launched 1 id with tasks := [(1, member 0 1)] }.netted fun n => { n with barriers := [⟨3, 2, [(0, 1)], 0⟩] })
    (match ith s.net.barriers 0 with | some b => !s.det (s.barrierPart b) && s.generationDone b | none => false)
    && ok .barrierGenerationComplete s (fun t => decide (t.net.barriers.map (·.generation) = [1]))) = true := by decide +kernel

/-- Both halves of core 0, the only member of a launch, hold tasks of it, which wait at a barrier for a third. -/
def team : State := let h (n : Nat) : Half := { liveHalf with tid := n, age := n, block := .barw 2 }
  let d : LDesc := { desc 3 with members := 1 }
  given 3 ({ stage 0 with halves := [(0, h 1), (1, h 2)], tasks := [(1, member 0 1), (2, { member 1 1 with half := 1 })] }.clustered 0 fun c =>
    { c with launches := [(3, { Launch.fresh d with next := 2 })] })

theorem witness_team_out : (team.canonical && (match team.launch? 3 with | some l => team.teamBlocked 3 l | none => false)
    && (team.teamOf 3).all (fun x => decide ((team.half (2 * x.2.core + x.2.half)).tid = x.1)) && decide ((team.teamOf 3).length = 2)
    && ok .teamSwapOut team (fun t => decide (t.half 0 = Half.reset) && decide (t.half 1 = Half.reset) && t.tasks.all fun u => decide (u.2.life = .saved) && u.2.saved.isSome)) = true := by
  decide +kernel

/-- The team is out, every task has arrived and the generation has completed. -/
def returns : State := match exec .teamSwapOut team with
  | .next t => given 1 (t.netted fun n => { n with barriers := [⟨3, 2, [(0, 1), (1, 1), (2, 1)], 1⟩] }) 1
  | _ => team

theorem witness_team_back : (match returns.task? 1, returns.launch? 3 with
    | some u, some l => l.team.contains 1 && decide (u.act.launch = some 3) && decide (coreOf 1 = u.core) && decide ((returns.half 1).occ = .free) && returns.mayReturn 3 l 1
      && u.saved.isSome && (returns.part? u.part).isSome
      && ok .teamRestore returns fun t => decide ((t.half 1).occ = .live) && decide ((t.half 1).tid = 1) && (match t.task? 1 with | some v => decide (v.half = 1) && decide (v.life = .resident) | none => false)
    | _, _ => false) = true := by decide +kernel

theorem witness_launch_requests : (let s (d : LDesc) := given 0 ((withPart [] [(2, 3)] (stage 0)).netted fun n => { n with launches := [⟨d, some ⟨0, 1, 0, 9⟩⟩] })
    decide ((s (desc 3)).launchCheck (desc 3) = .tag 0) && ok .launchRequest (s (desc 3)) (fun t => decide (t.launch? 0 = some (Launch.fresh (desc 3))) && t.owes ⟨0, 1, 0, 9⟩ 0x10000)
    && decide ((s { desc 3 with n := 0 }).launchCheck { desc 3 with n := 0 } = .empty) && ok .launchRequest (s { desc 3 with n := 0 }) (fun t => t.owes ⟨0, 1, 0, 9⟩ 0)
    && decide ((s { desc 3 with cluster := 9 }).launchCheck { desc 3 with cluster := 9 } = .refused 0x0B) && ok .launchRequest (s { desc 3 with cluster := 9 }) (fun t => t.owes ⟨0, 1, 0, 9⟩ 0x0B)
    && decide ((s { desc 3 with reef := 7 }).launchCheck { desc 3 with reef := 7 } = .refused 0x35)) = true := by decide +kernel

/-- Two SPAWN requests of task 1 to a launch of a partition that counts so many children. -/
def spawning (spawned : Bool) (count : Nat) (lid : Option Nat := some 3) (made : Nat := 0) : State :=
  let p := { Part.created placeImage with spawnedCount := count }
  let s : State := { launched 2 (fun l => { l with spawnCount := made }) with parts := [(0, p)], tasks := [(1, { member 0 0 with spawned := spawned })] }
  given 0 (s.netted fun n => { n with
    spawns := [⟨⟨0, 1, 0, 9⟩, lid, none, 5, 1, 120, spawned⟩, ⟨⟨0, 1, 1, 10⟩, lid, none, 6, 1, 120, spawned⟩] })

theorem witness_spawn_accept : (
    let kids (t : State) : List (Nat × Bool) := match t.launch? 3 with | some l => l.children.map fun c => (c.index, c.counted) | none => []
    (match (spawning true 0).part? 0 with | some p => decide (p.quotaOf = 2048) | none => false) && !(spawning true 0).isDeferred 1 0
    && ok .spawnAccept (spawning false 2048) (fun t => decide (kids t = [(2, false)]) && t.owes ⟨0, 1, 0, 9⟩ 0) && ok .spawnAccept (spawning true 2047) (fun t => decide (kids t = [(2, true)]))
    && ok .spawnAccept (spawning false 2048) (fun t => decide (t.net.spawns.map (·.used) = [true]))
    && ok .spawnAccept (spawning false 0 none) (fun t => t.owes ⟨0, 1, 0, 9⟩ 0x33 && decide (t.net.spawns.length = 1))
    && ok .spawnAccept (spawning false 0 (some 3) 0xFFFFFFFD) (fun t => t.owes ⟨0, 1, 0, 9⟩ 0x36 && (kids t).isEmpty)
    && ok .spawnAccept (spawning false 0 (some 3) 0xFFFFFFFC) (fun t => t.owes ⟨0, 1, 0, 9⟩ 0 && decide (kids t = [(0xFFFFFFFE, false)]))
    && ok .spawnAccept (spawning true 2048) (fun t => (kids t).isEmpty && t.owes ⟨0, 1, 0, 9⟩ 0x30)) = true := by decide +kernel

theorem witness_abort_request : (let s := given 0 ({ launched 2 id with tasks := [(1, member 0 0)] }.netted fun n => { n with aborts := [⟨some ⟨0, 5, 0, 9⟩, 0x103, 0⟩] })
    s.canonical && (s.launch? 3).isSome && ok .abortRequest s (fun t => t.tasks.isEmpty && t.owes ⟨0, 5, 0, 9⟩ 0)) = true := by decide +kernel

theorem witness_placement_and_sweep : (let s := given 3 (launched 2 fun l => { l with next := 1 })
    (s.launch? 3).isSome && (match s.reef? 0 0 with | some r => decide (r.state = 1) | none => false)
    && decide (s.leastLoaded ((membersOf 3).filter fun c => clusterOf c == 0 && s.eligible 0 c 1) = some 1)
    && ok .taskPlacement s (fun t => decide (t.net.msgs.map (fun m => (m.core, m.act.index, m.act.ts, m.act.msg.pay)) = [(1, 1, 110, [77, 1, 2])]))
    && (let s (w : Option Nat) := given 3 { launched 2 (fun l => { l with sweep := w, error := true, committed := 1 }) with tasks := [] }
        (match (s none).launch? 3 with | some l => (s none).launchIdle 3 l | none => false) && decide ((s none).tagSums 3 = (0, 0))
        && ok .launchEndSweep (s none) (fun t => (match t.launch? 3 with | some l => decide (l.sweep = some 0) | none => false) && t.net.msgs.isEmpty)
        && ok .launchEndSweep (s (some 0)) (fun t => decide (t.net.msgs.map (fun m => (m.core, m.act.msg.pay)) = [(1, [0x103, 1, 0])])))) = true := by decide +kernel

/-! ### Witnesses: reefs -/

/-- A task whose range object names a list of one preserved shared range of 128 bytes and one held one of the scratchpad. -/
def reefer (size : Nat) (words : List Nat) (part : Part → Part) : State :=
  { (stageH (regs [(10, 5), (11, 0), (12, 6)])).poked (scratchAt 0 0x1000) (words.flatMap (toBytes 8)) with
    parts := [(0, part { Part.created placeImage with objects := [(1, rangeObj 0x1000 size)] })] }

def twoRanges : List Nat := [1 + 1 * 16, 0x100000, 128, 2 ^ 63 + 0x2000, 64]

theorem witness_reef : (let f : FL := fl 9 0 0 0 1 0 0 0
    let gives (s : State) (w : Word) := s.directReady 1 && done (.reef f) s fun t => decide (readS (t.half 0) 9 = w)
    let reefs (l : Table Reef) (p : Part) : Part := { p with reefs := p.reefs ++ l }
    gives (reefer 7 twoRanges id) 0xFFFFFFFFFFFFFFFD && gives (reefer 39 twoRanges id) 0xFFFFFFFFFFFFFFFD && gives (reefer 40 [9] id) 0xFFFFFFFFFFFFFFFD
    && gives (reefer 40 [17, 0x100000, 100] id) 0xFFFFFFFFFFFFFFFD && gives (reefer 40 twoRanges id) 1
    && (reefRanges 1 0 (twoRanges.drop 1 |>.map word)).isSome && decide ((Part.created placeImage).freeReef = some 1)
    && gives { reefer 40 twoRanges (reefs [(8, { Reef.root with depth := 8 })]) with tasks := [(1, { liveTask 0 with reef := 8 })] } 0xFFFFFFFFFFFFFFFF
    && gives (reefer 40 twoRanges (reefs [(1, { Reef.root with held := [⟨false, 0, 0x100040, 64, true⟩] })])) 0xFFFFFFFFFFFFFFFE
    && (let dark := { reefer 40 twoRanges id with stations := [] }
        dark.recordFaults 0 1 && decide (dark.curHalf.refusedAt = none) && ok (.reef f) dark (fun t => decide (t.net.reqs.map (·.acc) = [.sync]) && (t.reef? 0 1).isNone))
    && !(reefer 40 twoRanges id).recordFaults 0 1 && (reefer 40 twoRanges id).canonical
    && decide ((reefer 40 twoRanges id).devicePa 0 (placeImage.errBase.toNat + 128) = some (placeImage.errBase.toNat + 128))
    && done (.reef f) (withWordAt (placeImage.errBase.toNat + 128) 7 (reefer 40 twoRanges id)) (fun t => decide (memNat t.mem (placeImage.errBase.toNat + 128) 8 = 0))
    && done (.reef f) (reefer 40 twoRanges id) (fun t => match t.reef? 0 1 with
      | some r => decide (r.state = 1) && decide (r.depth = 1) && decide (r.pres = [⟨false, 0, 0x100000, 128, true⟩]) && decide (r.held = [⟨true, 0, 0x2000, 64, true⟩]) && decide (r.opener = some 1)
      | none => false)) = true := by decide +kernel

theorem witness_reefx_and_reefq : (let s (r : Reef) := reefer 40 twoRanges fun p => { p with reefs := [(0, Reef.root), (5, r)] }
    let open_ : Reef := { Reef.root with depth := 1, pres := [⟨false, 0, 0x100000, 128, true⟩] }
    let f (a : BitVec 5) : FL := fl0 9 a 0
    let gives (i : Instr) (s : State) (w : Word) := s.directReady 1 && done i s fun t => decide (readS (t.half 0) 9 = w)
    gives (.reefx (f 11)) (s open_) 0xFFFFFFFFFFFFFFFE && gives (.reefx (f 12)) (s open_) 0xFFFFFFFFFFFFFFFF && gives (.reefx (f 10)) (s { open_ with state := 2 }) 0xFFFFFFFFFFFFFFFF
    && decide ((s { open_ with pres := [⟨false, 0, 0x100000, 128, false⟩] }).selectReef 0 5 = none) && gives (.reefx (f 10)) (s { open_ with pres := [⟨false, 0, 0x100000, 128, false⟩] }) 0xFFFFFFFFFFFFFFFE
    && decide ((s open_).selectReef 0 5 = some 5)
    && done (.reefx (f 10)) (s open_) (fun t => (match t.reef? 0 5 with | some r => decide (r.state = 2) | none => false) && decide (readS (t.half 0) 9 = 5))
    && (let own (r : BitVec 12) : State := { s open_ with tasks := [(1, { liveTask 0 with reef := r })] }
        (own 5).inReef 0 5 ((own 5).reexecTarget 0 5) && !(own 0).inReef 0 0 ((own 0).reexecTarget 0 5) && decide (2 * (own 5).curTask.core + (own 5).curTask.half = 0)
        && done (.reefx (f 10)) (own 5) fun t => !isFull (t.half 0) (.s 9) && decide ((t.half 0).hold = some abandoned))
    && gives (.reefq (f 12)) (withWordAt (placeImage.errBase.toNat + 128 * 6) 1 (s open_)) 8
    && gives (.reefq (f 10)) (s open_) 0x0001000000000001 && gives (.reefq (f 12)) (s open_) 0) = true := by decide +kernel

theorem witness_reexecution : (let s := given 0 { reefer 40 twoRanges (fun p => { p with reefs := [(0, Reef.root), (5, { Reef.root with state := 2, depth := 1, pres := [⟨false, 0, 0x100000, 128, true⟩] })] }) with
      tasks := [(1, liveTask 0), (2, { liveTask 3 with reef := 5, life := .ended })] } 5
    let x : State := s.parted 0 fun p => { p with reefs := tmap (fun n r => if n = 5 then { r with launches := [⟨{ desc 3 with reef := 5 }, 3, true, false⟩] } else r) p.reefs }
    s.canonical && (match s.reef? 0 5 with | some r => decide (r.state = 2) && !r.taken | none => false) && !s.det 0
    && ok .reefReexecution s (fun t => (t.reef? 0 5).isNone && decide (t.tasks.map (·.1) = [1]))
    && x.canonical && ok .reefReexecution x (fun t => (match t.reef? 0 5 with | some r => decide (r.state = 1) && r.rerun | none => false) && decide (t.tasks.map (·.1) = [1]))) = true := by decide +kernel

/-- What UnitsComplete asks for REEF. -/
theorem witness_reef_opens : (let s := reefer 40 twoRanges id
    let spans (l : List ReefRange) (held : Bool) : List Span := (l.filter fun r => r.held == held).map (spanOf 0)
    (match s.liveObj 0 1 6 with
      | some o => decide (8 ≤ (nth o.body 1).toNat) && decide (8 + 16 * 2 ≤ (nth o.body 1).toNat)
        && (match s.rangeBytes o 8, s.rangeBytes o 40 with
          | some b0, some bs => decide (wordsOf b0 = [17]) && (match reefRanges 1 0 ((wordsOf bs).drop 1), s.part? 0 with
            | some l, some p => decide (p.freeReef = some 1) && s.reefRoom 0 0 (spans l false ++ spans l true) && !s.reefConflict 0 0 (spans l false) (spans l true)
            | _, _ => false)
          | _, _ => false)
      | none => false)
    && s.directReady 1 && !s.recordFaults 0 1) = true := by decide +kernel

/-! ### Witnesses: the life of a task -/

/-- A request of task 1 of this kind is in flight. -/
def requesting (acc : Access) (s : State) : State := s.requested (.lds (fmem 10 0 0 3)) acc 9 0x5000 [0x5000] [0xFF] id

theorem witness_end : (let s := { shared with tasks := [(1, { liveTask 0 with lines := [(0x5000, ⟨7, 3⟩)] })] }
    (match s.task? 1 with | some u => decide (2 * u.core + u.half = s.cur) && u.act.body.isNone | none => false)
    && !s.probing 1 && done (.endT (fa 0 0 0)) s (fun t => decide (t.half 0 = Half.reset) && (match t.task? 1 with | some v => decide (v.life = .ended) && decide (v.lines = [(0x5000, ⟨7, 3⟩)]) | none => false))
    && (requesting .probe s).probing 1 && done (.endT (fa 0 0 0)) (requesting .probe s) (fun t => decide ((t.half 0).block = .register) && decide ((t.half 0).occ = .live))) = true := by decide +kernel

/-- The block ends after the next instruction, and the header after it keeps s8 to s11 and v0 to v3. -/
def yields (preq : Bool) : State := (stageH fun h => { regs [(9, 5), (12, 6), (30, 0x30000)] (writeV (writeV h 1 1) 4 1) with roff := 254, preq := preq }).poked (0x10008 + 4 * 255)
  (toBytes 8 (7 + 4 * 2 ^ 15 + 1 * 2 ^ 23))

theorem witness_yield : (let s := yields true
    !(yields false).curHalf.preq && done (.yield (fa 0 0 0)) (yields false) (fun t => decide ((t.half 0).roff = 255))
    && s.curHalf.preq && decide (fetchHeader s 0 (pcOf s.curHalf + 4) = .ok (word (7 + 4 * 2 ^ 15 + 1 * 2 ^ 23))) && s.quiet 0 s.curHalf
    && done (.yield (fa 0 0 0)) s (fun t => decide ((t.half 0).occ = .draining) && (match t.task? 1 with
      | some u => (match u.saved with | some x => decide (readS x 9 = 5) && decide (readS x 12 = 0) && decide (readS x 30 = 0x30000) && decide (readV x 1 = 1) && decide (readV x 4 = 0) && x.entering | none => false)
      | none => false))) = true := by decide +kernel

theorem witness_commit : (let s := given 1 { stage 0 with halves := [], tasks := [(1, { liveTask 0 with life := .ended, lines := [(0x5000, ⟨0x1234, 3⟩)] })] }
    (match s.task? 1 with | some u => s.mayCommit 1 u && !s.detCore u.core && !s.detConflict u && decide (s.reachLines (s.party u.core) (u.whoAs 1) .write u.touches = .ok [0x5000])
      && (rangeHit (s.station (stationOf (clusterOf u.core) 0x5000)) (s.party u.core).asid 0x5000).isSome | none => false)
    && s.canonical && !s.homeHeld 0x5000 && !s.behindAt 0 0x5000 && s.tasks.all (fun x => x.2.allocs.isEmpty && x.2.frees.isEmpty) && ok .commitRequest s (fun t => t.tasks.isEmpty && decide (memNat t.mem 0x5000 8 = 0x34))) = true := by decide +kernel

/-- A task that waits to be safe before its RED at 0x10008, and is safe now. -/
def waitsSafe : State := given 0 ((stageH fun h => { regs [(10, 0x5000), (14, 1)] h with block := .safe }).poked 0x10008
  (toBytes 4 0b0000_000_0_0_01110_01010_00000_100100_01 ++ toBytes 4 0b11_0000000000000000_0000_0000_0_00000))

theorem witness_safe_send : (decide ((waitsSafe.half 0).block = .safe) && waitsSafe.directReady 1
    && (match nextTurn waitsSafe 0 with | .instr i => decide (i = .red (fl 0 10 14 0 0 0 0 3)) | _ => false)
    && ok .taskSafeSend waitsSafe fun t => decide (t.net.reqs.map (·.acc) = [.red 0 true 1]) && decide ((t.half 0).roff = 2)) = true := by decide +kernel

/-- The same before its STR at 0x10008, which stores to its own scratchpad. -/
theorem witness_safe_store : (let i : Instr := .str (fl 0 10 14 0 0 0 0 3)
    let h := fun h => { regs [(10, 0x100), (14, 1)] h with block := .safe }
    let s := given 0 ((stageH h).poked 0x10008 ((encode i).flatMap fun p => toBytes 4 p.toNat))
    decide ((s.half 0).block = .safe) && s.directReady 1 && (match nextTurn s 0 with | .instr j => decide (j = i) | _ => false)
    && ok .taskSafeSend s fun t => decide ((t.half 0).roff = 2) && decide (t.net.remotes.length = 1)) = true := by decide +kernel

/-- A core whose slice has ended 20,000 clk ago. -/
def overdue (f : Task → Task) : State := given 0 ({ stage 0 with clock := ⟨20000, 0, 0, true⟩, halves := [(0, { liveHalf with preq := true })], tasks := [(1, f (liveTask 0))] }.cored 0 fun c => { c with preqFrom := 0 })

theorem witness_slices : (let s := overdue id
    (stage 0).canonical && decide ((stage 0).partOf 0 = some 0) && ok .sliceEnd (given 0 (stage 0)) (fun t => (t.half 0).preq && !(t.half 1).preq)
    && (let waits := given 0 ((stage 0).cored 0 fun c => { c with inbox1 := ⟨[], [Act.blank]⟩ })
        ok .sliceEnd waits (fun t => (t.core 0).inbox1.q.isEmpty && decide ((t.core 0).aside = [(1, [Act.blank])])
          && decide ((t.core 0).takeBack.inbox1.q = [Act.blank]) && (t.core 0).takeBack.aside.isEmpty))
    && decide ((s.half 0).ctl.pdl.toNat ≤ s.pdlc 0) && (s.half 0).traps.isEmpty && !s.saveWaits (s.half 0) (groupsOf (s.half 0).hdrWord)
    && ok .pdlForcedSave s (fun t => decide ((t.half 0).occ = .draining) && (match t.task? 1 with | some v => decide (v.life = .saved) && v.saved.isSome | none => false))
    && (let s := overdue fun t => { t with wdBase := 0x1000000 }
        (match s.task? 1 with | some u => decide ((s.half 0).ctl.wdog.toNat ≤ s.wdc u) | none => false) && s.canonical && ok .wdog s fun t => t.tasks.isEmpty && decide (t.half 0 = Half.reset))) = true := by
  decide +kernel

theorem witness_saves_end : (let s := given 0 { stage 0 with halves := [(0, { liveHalf with occ := .draining })] }
    decide ((s.half 0).occ = .draining) && ok .saveComplete s (fun t => decide (t.half 0 = Half.reset))
    && (let s := given 1 { stage 0 with halves := [], tasks := [(4, { liveTask 0 with life := .saved, saved := some { liveHalf with occ := .free, roff := 9 } })] }
        decide ((s.half 1).occ = .free) && decide (s.waitingTask 0 = some 4) && !s.leaving 0 && !(s.core 0).failed
        && ok .restoreComplete s (fun t => decide ((t.half 1).occ = .filling) && decide ((t.half 1).tid = 4))
        && (let s := { s with halves := [(1, { Half.reset with occ := .filling, tid := 4 })] }
            decide (s.waitingTask 0 = none) && ok .restoreComplete s fun t => decide ((t.half 1).occ = .live) && decide ((t.half 1).roff = 9) && decide ((t.half 1).tid = 4)))) = true := by
  decide +kernel

/-! ### Witnesses: ratline loops -/

/-- s10 = 5 iterations, s11 = windows of 4 in group 2, and other values; a header of kind 3 at 0x10048, one of kind 1 at 0x10088. -/
def loops : State := ((withPart [] [(2, 3)] (stageH (regs [(10, 5), (11, word (4 + 2 * 2 ^ 16)), (12, 77), (13, 0x100000000), (14, word (2 * 2 ^ 16)), (15, word (16385 + 2 * 2 ^ 16)), (16, word (16384 + 3 * 2 ^ 16)),
  (17, word (16384 + 2 * 2 ^ 16))]))).poked 0x10048 (toBytes 8 0x3000000000000023)).poked 0x10088 (toBytes 8 0x1000000000000023)

theorem witness_loop_begin : (let s := loops
    let f (a b : BitVec 5) (o : BitVec 16) : FL := fl 9 a b 12 o 0 0 0
    traps (.rlbegin (f 13 11 0x10)) s .bound 0 && traps (.rlbegin (f 10 14 0x10)) s .bound 0 && traps (.rlbegin (f 10 15 0x10)) s .bound 0 && traps (.rlbegin (f 10 16 0x10)) s .bound 0
    && decide (fetchHeader s 0 (handlerAt (pcOf s.curHalf) (sx (0x10 : BitVec 16))) = .ok 0x3000000000000023)
    && decide (fetchHeader s 0 (handlerAt (pcOf s.curHalf) (sx (0x20 : BitVec 16))) = .ok 0x1000000000000023)
    && traps (.rlbegin (f 10 11 0x20)) s .badtgt 0x10088 && done (.rlbegin (f 10 17 0x10)) s (fun t => decide (t.net.loops.length = 1))
    && directs (.rlbegin (f 10 11 0x10)) s (fun t => (match t.net.loops with | [q] => decide (q.loop.n = 5) && decide (q.loop.w = 4) && decide (q.loop.members = 3) | _ => false) && !isFull (t.half 0) (.s 9))) = true := by
  decide +kernel

/-- A loop of 5 iterations in windows of 4 over group 2. -/
def aLoop : Loop := Loop.fresh 5 4 2 3 1 77 0x10048 0 ⟨0, 1, 0, 9⟩

/-- An iteration. -/
def iter (i k phase : Nat) (rsv : List (Word × Nat)) (failed : Bool) : Iter := ⟨i, k, rsv, false, phase, failed⟩

/-- A partition with a loop, in window 7. -/
def looping (l : Option Loop) : State := { stage 0 with parts := [(0, { Part.created placeImage with window := 7, loop := l, groups := [(2, 3)] })] }

theorem witness_loop_request : (let s (l : Option Loop) := given 0 ((looping l).netted fun n => { n with loops := [⟨⟨0, 1, 0, 9⟩, 0, aLoop⟩] })
    (match ith (s none).net.loops 0 with | some q => ((s none).part? q.part).isSome | none => false)
    && ok .ratlineRequest (s (some aLoop)) (fun t => t.owes ⟨0, 1, 0, 9⟩ 0x31) && ok .ratlineRequest (s none) (fun t => decide (t.loopOf 0 = some aLoop) && t.net.loops.isEmpty)) = true := by decide +kernel

theorem witness_window : (let s := given 0 (looping (some { aLoop with next := 2, retry := [1] }))
    !s.det 0 && ok .ratlineWindowStart s (fun t => match t.loopOf 0 with
      | some l => l.active && decide (l.next = 5) && decide (l.iters.map (fun i => (i.index, i.key)) = [(1, 0), (2, 1), (3, 2), (4, 3)]) | none => false)
    && (let s := given 256 (looping (some { aLoop with active := true, iters := [iter 1 0 1 [] false, iter 2 1 0 [] false] }))
        decide (s.leastLoaded ((membersOf 3).filter fun c => s.eligible 0 c 1) = some 1)
        && ok .taskPlacement s (fun t => decide (t.net.msgs.map (fun m => (m.core, m.pri, m.act.msg.pay)) = [(1, 1, [77, 2, 0, 1, 7])]) && t.net.msgs.all fun m => m.act.free && decide (m.act.ts = 2)))) = true := by
  decide +kernel

theorem witness_hold_lists : (let s := given 0 { looping (some { aLoop with active := true, iters := [iter 1 0 2 [(0x5000, 0x5000), (0x5008, 0x5008)] false, iter 2 1 2 [(0x5008, 0x5008)] true] }) with tags := [(0x5000, 0x07000000), (0x5008, 0x07000001)] }
    !s.det 0 && ok .holdListBuild s (fun t => match t.loopOf 0 with
      | some l => decide (l.iters.map (fun i => (i.rsv, i.holdsAll, i.phase)) = [([(0x5000, 0x5000)], false, 3), ([(0x5008, 0x5008)], true, 3)]) | none => false)) = true := by decide +kernel

theorem witness_window_end : (let s (l : Loop) := given 0 (looping (some { l with active := true, iters := [iter 1 0 5 [] true, iter 2 1 5 [] false] }))
    ok .ratlineLoopEnd (s { aLoop with next := 5 }) (fun t => (match t.loopOf 0 with | some l => decide (l.retry = [1]) && decide (l.done = 1) && !l.active | none => false) && t.net.fills.isEmpty)
    && ok .ratlineLoopEnd (s { aLoop with next := 5, error := true }) (fun t => (t.loopOf 0).isNone && t.owes ⟨0, 1, 0, 9⟩ 0x10000000101)) = true := by decide +kernel

/-- None of the three begins while a reservation by a body of the partition is not applied. -/
theorem witness_ratline_waits : (let s (l : Loop) : State := given 0 ((looping (some l)).netted fun n => { n with reqs := [{ faultReq 5 0 9 0 0 ((stage 0).party 0) (.cellReserve 6 1) 0 0x5000 with phase := .home }] })
    let waits (i : Instr) (l : Loop) := (s l).cellsOut 0 && !l.ended && ok i (s l) fun t => decide (t.loopOf 0 = some l) && decide (t.net = (s l).net)
    waits .ratlineWindowStart { aLoop with next := 2 } && waits .holdListBuild { aLoop with active := true, iters := [iter 1 0 2 [] false] }
    && waits .ratlineLoopEnd { aLoop with active := true, iters := [iter 1 0 5 [] false] }) = true := by decide +kernel

/-- A task that is iteration 1 of the loop in round one or two, holding this cell. -/
def inBody (round : Bool) (rsv holds : List Word) : State :=
  { stageH (regs [(10, 0x5000), (11, 0x0100000000000000), (12, 0x1122334455667788), (13, 4), (14, 0x5008)]) with
    parts := (looping (some { aLoop with active := true, iters := [iter 1 0 1 [] false] })).parts
    tasks := [(1, { liveTask 0 with rsv := rsv, act := { Act.blank with free := true, body := some ⟨0, 1, round, 0, 7, holds, true⟩ } })] }

theorem witness_reservations : (let s := inBody false [0x5000] []
    let f (a b : BitVec 5) : FL := fl 0 a b 0 0 0 0 0
    let eight : List Word := (List.range 8).map fun i => word (0x6000 + 8 * i)
    (s.curTask.act.body).isSome && traps (.rlrsv (f 10 13)) s .align 0x5004 && traps (.rlrsv (f 11 0)) s .access 0x0100000000000000 && traps (.rlrsv (f 10 0)) (inBody false eight []) .bound 0x5000
    && done (.rlrsv (f 10 0)) (inBody true [] []) (fun t => t.net.reqs.isEmpty && decide ((t.half 0).roff = 2))
    && done (.rlrsv (f 10 0)) s (fun t => decide (t.net.reqs.map (·.acc) = [.cellReserve 7 0]) && (match t.task? 1 with | some u => decide (u.rsv = [0x5000]) | none => false))
    && done (.rlrsv (f 14 0)) s (fun t => (match t.task? 1 with | some u => decide (u.rsv = [0x5000, 0x5008]) | none => false))
    && done (.rlrsv (f 14 0)) (inBody false (eight.drop 1) []) (fun t => match t.task? 1 with | some u => decide (u.rsv.length = 8) | none => false)
    && (let x := inBody false ((0x5000 : Word) :: eight.drop 1) []
        x.curTask.rsv.contains 0x5000 && done (.rlrsv (f 10 0)) x fun t => match t.task? 1 with | some u => decide (u.rsv.length = 8) | none => false)) = true := by decide +kernel

theorem witness_cells : (let f (a b : BitVec 5) : FL := fl 9 a b 12 0 0 0 0
    let one := inBody false [] []
    let two := inBody true [] [0x5000]
    done (.rlchk (f 0 0)) two (fun t => decide (readK (t.half 0) 1 = BitVec.allOnes 1024)) && done (.rlchk (f 0 0)) one (fun t => decide (vget (t.half 0).k 1 1 = 0))
    && traps (.rlld (f 10 13)) two .align 0x5004 && traps (.rlst (f 10 0)) one .resmiss 0x5000 && traps (.rlld (f 14 0)) two .resmiss 0x5008 && traps (.rlst (f 14 0)) two .resmiss 0x5008
    && traps (.rlld (f 11 0)) one .access 0x0100000000000000 && one.sharedOk 0x5000 8 8 false
    && done (.rlld (f 10 0)) one (fun t => decide (t.net.reqs.map (·.acc) = [.cellRead]) && isFull (t.half 0) (.s 9) && isBusy (t.half 0) (.s 9))
    && done (.rlst (f 10 0)) two (fun t => decide (t.net.reqs.map (·.acc) = [.cellWrite 0x1122334455667788]))) = true := by decide +kernel

theorem witness_body_end : (let s := inBody false [0x5000] []
    let f (m : BitVec 4) : FL := fl 0 0 0 0 0 m 0 0
    (match s.task? 1 with | some u => decide (2 * u.core + u.half = s.cur) && u.act.body.isSome | none => false)
    && !s.reserving 1 && !s.probing 1
    && done (.rlend (f 1)) s (fun t => decide (t.half 0 = Half.reset) && (match t.task? 1 with | some v => decide (v.life = .ended) && v.rlFail | none => false))
    && (requesting (.cellWrite 0) s).reserving 1 && (requesting (.cellReserve 7 0) s).reserving 1 && done (.rlend (f 0)) (requesting (.cellReserve 7 0) s) (fun t => decide ((t.half 0).block = .register))
    && (s.part? s.curTask.part).isSome
    && done (.rlstat (fl0 9 0 0)) { s with parts := tmap (fun _ p => { p with report := ⟨7, 1, 2, 3, 4⟩ }) s.parts } (fun t => decide (readS (t.half 0) 9 = 0x0700000000010002))
    && done (.rlstat (fl0 9 14 0)) { s with parts := tmap (fun _ p => { p with report := ⟨7, 1, 2, 3, 4⟩ }) s.parts, halves := [(0, regs [(14, 1)] liveHalf)] } (fun t => decide (readS (t.half 0) 9 = 0x0000000300000004))) = true := by
  decide +kernel

/-! ### Witnesses: jibs -/

/-- A micro-op: opcode, X, Y, Z, an immediate second source, AUX, IMM. -/
def micro (op x y z : Nat) (zi : Bool) (aux imm : Nat) : Word := word (op * 2 ^ 59 + x * 2 ^ 55 + y * 2 ^ 51 + z * 2 ^ 47 + b2n zi * 2 ^ 46 + aux * 2 ^ 36 + imm)

/-- A set with one sequence in slot 5. -/
def jibSet (l : List Word) : JibSet := ⟨[(5, (0, l.length))], l, 0⟩

/-- A machine that has bound a set, resident or not, its half being at micro-op `upc` of the jib in slot 5, or before its start. -/
def jibs (l : List Word) (resident : Bool) (upc : Option Nat) (used : Nat := 0) : State :=
  let h (x : Half) : Half := match upc with
    | some n => { regs [(10, 7), (11, 9)] x with jib := some { JibRun.fresh 5 (3, jibSet l) with upc := n, used := used, h := (Vector.replicate 8 0).set 1 6 }, ctl := { x.ctl with jst := 1 } }
    | none => regs [(10, 7), (11, 9)] x
  ({ stageH h with parts := [(0, { Part.created placeImage with jibSets := [(3, jibSet l)], jibMap := [(0, 3)] })] }).clustered 0 fun c =>
    { c with jibs := if resident then [(0, ⟨0, 3, 1, 0⟩)] else [] }

/-- JIB5 s9, s10, s11. -/
def aJib : Instr := .jibA 5 (fa 9 10 11)

theorem witness_jib_start : (let l := [micro 0 2 1 0 false 0 0, micro 31 0 0 0 false 0 0]
    decide ((stage 0).jibSet 0 = none) && (stage 0).runs aJib && ok aJib (loading (stage 0)) (fun t => pends (stage 0) t .ill 0 0)
    && (jibs l false none).runs aJib && ok aJib (jibs l false none) (fun t => decide ((t.half 0).block = .jibSet) && decide ((t.cluster 0).jibWanted = [(0, 3)]))
    && (let away := (jibs l false (some 1)).halved { (jibs l false (some 1)).curHalf with ctl := { (jibs l false (some 1)).curHalf.ctl with jst := 1 } }
        away.inJib && decide ((away.jibFound).isSome) && ok aJib away fun t => decide ((t.half 0).block = .jibSet) && decide ((t.half 0).ctl.jst = 1)
          && (match (t.half 0).jib with | some j => decide (j.upc = 1) | none => false))
    && ok aJib (jibs l false none) (fun t => decide ((t.half 0).ctl.jst = 2) && (match (t.half 0).jib with | some j => decide (j.upc = 0) && j.found.isSome | none => false))
    && decide ((jibs l true (some 2)).jibNow (jibInsA 5 (fa 9 10 11)) ≠ none) && traps aJib (jibs l true (some 2)) .ill 0
    && (let unbound := (jibs l true (some 1)).parted 0 fun p => { p with jibMap := [] }
        unbound.resident 0 0 3 && done aJib unbound fun t => (t.half 0).jib.isNone && !t.resident 0 0 3)
    && (match (jibs l true none).jibNow (jibInsA 5 (fa 9 10 11)) with | some (_, x, j) => decide (tget x.slots 5 = some (0, 2)) && decide (j.upc = 0) | none => false)
    && done aJib (jibs l true none) (fun t => (match (t.half 0).jib with | some j => decide (j.upc = 1) && decide (j.hs 2 = 7) && decide (j.used = 1) | none => false))
    && traps (.jibA 6 (fa 9 10 11)) (jibs l true none) .ill 0) = true := by decide +kernel

theorem witness_micro_ops : (let run (m : Word) (s : State → Bool) := done aJib (jibs [m, m] true (some 0)) s
    let sets (m : Word) (w : Word) := run m fun t => (match (t.half 0).jib with | some j => decide (j.hs 2 = w) && decide (j.upc = 1) && decide (j.used = 1) | none => false)
    sets (micro 11 2 1 0 true 0 0xFFFFFFFF) 5 && sets (micro 12 2 1 1 false 0 0) 0 && sets (micro 17 2 1 0 true 2 7) 1 && sets (micro 16 2 1 0 true 0 63) 0
    && sets (micro 6 2 0 0 false 0 0xFFFFFFFE) 0xFFFFFFFFFFFFFFFE && sets (micro 7 2 0 0 false 0 3) 0x300000000 && sets (micro 0 2 2 0 false 0 0) 9
    && run (micro 1 0 1 0 false 0 0) (fun t => decide (readS (t.half 0) 9 = 6))
    && run (micro 31 0 0 0 false 0 0) (fun t => (t.half 0).jib.isNone && decide ((t.half 0).ctl.jst = 0) && decide ((t.half 0).roff = 1))
    && run (micro 30 0 1 0 false 1 4) (fun t => match (t.half 0).jib with | some j => decide (j.upc = 1) | none => false)
    && run (micro 30 0 1 0 false 3 4) (fun t => match (t.half 0).jib with | some j => decide (j.upc = 5) | none => false)
    && run (micro 30 0 1 0 false 0 4) (fun t => match (t.half 0).jib with | some j => decide (j.upc = 5) | none => false)
    && done aJib (jibs [micro 11 2 1 1 false 0 0] true (some 0) 255) (fun t => match (t.half 0).jib with | some j => decide (j.used = 256) | none => false)
    && traps aJib (jibs [micro 11 2 1 1 false 0 0] true (some 0) 256) .jiblim 0
    && (let s := jibs [micro 0 2 1 0 false 0 0] true (some 0)
        let e := s.halved (markEmpty s.curHalf (.s 10))
        e.runs (.jibA 5 { fa 9 10 11 with wa := true }) && ok (.jibA 5 { fa 9 10 11 with wa := true }) (loading e) fun t => pends e t .empty 0 42)) = true := by decide +kernel

theorem witness_jib_residency : (let s := given 0 ((jibs [micro 31 0 0 0 false 0 0] false none).clustered 0 fun c => { c with jibWanted := [(0, 3)] })
    let c := s.cluster s.data.n
    decide (c.jibWanted.find? (fun w => w.1 == s.data.m) = some (0, 3)) && (match s.part? s.data.m with | some p => decide (tget p.jibSets 3 = some (jibSet [micro 31 0 0 0 false 0 0])) | none => false)
    && (c.jibs.all fun r => s.bound r.2.part r.2.set || s.inUse s.data.n r.2.part r.2.set) && !s.resident s.data.n s.data.m 3 && setFits c.jibs (s.storeWords / 64) (jibSet [micro 31 0 0 0 false 0 0]).pages
    && ok .jibSetResident s (fun t => decide ((t.cluster 0).jibWanted = []) && t.resident 0 0 3)) = true := by decide +kernel

/-- A kernel core of a partition with a bound set 3, an image of one word at 0x20000, and a bad one at 0x30000. -/
def loader : State := withWordAt 0x30000 0x10001 (withWordAt 0x20000 1
  { stageK (regs [(10, 5), (11, 0x30000), (12, 0xFF0000), (13, 0x90000), (14, 0x1000000), (15, 0x100FF), (16, 0x10003), (17, 0x10004), (18, 0x20000), (19, 0x30000)]) with
    parts := [(0, { Part.created placeImage with jibSets := [(3, jibSet [micro 31 0 0 0 false 0 0])], jibMap := [(placeImage.asids.headD 0, 3)] })] })

/-- The status that a SYS instruction left in s9, and the value beside it. -/
def status (code value : Nat) (t : State) : Bool := decide (readS (t.half 8192) 9 = word (value * 2 ^ 32 + code)) && decide ((t.half 8192).roff = 1)

theorem witness_jib_bindings : (let asid := placeImage.asids.headD 0
    let s := loader.halved (regs [(12, word (asid + 255 * 2 ^ 16)), (13, word (asid + 9 * 2 ^ 16)), (14, word (asid + 2 ^ 24)), (20, word (asid + 3 * 2 ^ 16)), (21, 0x7FFF)] loader.curHalf)
    let j (a : BitVec 5) : Instr := .jbind (fa 9 a 0)
    done (j 21) s (status 0x0B 0) && done (j 12) s (status 0x40 0) && done (j 13) s (status 0x41 0)
    && done (j 14) s (fun t => status 0 0 t && (match t.part? 0 with | some p => p.jibMap.isEmpty | none => false))
    && done (j 20) s (fun t => status 0 0 t && (match t.part? 0 with | some p => decide (p.jibMap = [(asid, 3)]) | none => false))) = true := by decide +kernel

theorem witness_jib_loads : (let s := loader
    let j (a b : BitVec 5) : Instr := .jload (fa 9 a b)
    let odd := s.halved (regs [(18, 0x20008), (19, 0xFFFFFFFFFFFFC0)] s.curHalf)
    traps (j 10 18) s .bound 0 && done (j 15 18) s (status 0x40 0) && done (j 16 18) s (status 0x44 0)
    && done (j 17 18) odd (status 0x0B 0) && done (j 17 19) odd (status 0x0B 0)
    && (let far : Station := { Station.reset with ranges := [(0, { placeRange with control := 0x21 })] }
        let x := { s with stations := [(0, far), (1, far)] }
        decide (x.reachLines (x.party x.curCore) (whoOf (x.seen (j 17 18))) .read (touchesOf 0x20000 528) = .refused .access 0x20000)
        && done (j 17 18) x (status 0x0B 0))) = true := by decide +kernel

theorem witness_jib_bad_image : (let s := loader
    (match s.sharedBytes (.jload (fa 9 17 19)) 0x30000 528 with | some bs => decide (checkImage (wordsOf bs) 1 = some (1, 0)) | none => false)
    && done (.jload (fa 9 17 19)) s (status 0x41 0x10000)) = true := by decide +kernel

theorem witness_jib_image : (let s := loader
    (match s.sharedBytes (.jload (fa 9 17 18)) 0x20000 528 with | some bs => decide (checkImage (wordsOf bs) 1 = none) | none => false)
    && done (.jload (fa 9 17 18)) s (fun t => status 0 0 t && (match t.part? 0 with | some p => decide (p.jibSets.map (·.1) = [3, 4]) | none => false))) = true := by decide +kernel

/-! ### Witnesses: the tables of a partition -/

/-- A kernel core whose s10 is `a` and s11 is `b`. -/
def kern (a b : Word) : State := stageK (regs [(10, a), (11, b)])

theorem witness_gates : (let w : Instr := .gatew (fa 9 10 11)
    let r : Instr := .gater (fa 9 10 0)
    let g (a b : Word) (p : State → Bool) := done w (kern a b) p
    g 0x0FFF0000 5 (status 0x0B 0) && g 0x00000033 5 (status 0x40 0) && g 0x10000034 0x300000000000007 (fun t => status 0 0 t && decide (gateWord (t.core 4096) 52 = 0x4))
    && g 0x00010003 0xFFFFFFFFFFFFFFFF (fun t => status 0 0 t && decide (gateWord (t.core 1) 3 = 0xE000FFFFFFFFFFF0))
    && (let b := (kern 0x00010003 5).netted fun n => { n with mcasts := [⟨7, ⟨0, 1, 3, 9⟩, 0, none, 2, [1], 0, 0, 0xFFF, 0, none⟩] }
        b.gateBusy 1 3 && !b.gateBusy 1 33 && done w b fun t => decide (t = b.halved { b.curHalf with block := .register }))
    && done r (kern 0x0FFF0000 0) (fun t => decide (readS (t.half 8192) 9 = 0))
    && done r ((kern 0x00010003 0).cored 1 fun c => { c with gate := [(3, 77)] }) (fun t => decide (readS (t.half 8192) 9 = 77))) = true := by decide +kernel

/-- The same with object 5 of the partition. -/
def withObj (o : Obj) (s : State) : State := { s with parts := [(0, { Part.created placeImage with objects := [(5, o)] })] }

/-- A live array in generation 2. -/
def liveObj : Obj := { Obj.reset with gen := 2, state := 1, kind := 1, body := [1, 2, 3] }

theorem witness_object_writes : (let w : Instr := .objw (fa 9 10 11)
    let s (a b : Word) (o : Obj) (k : Nat) := withWordAt 0x20000 k (withObj o (kern a b))
    done w (s 0x100000005 0x20000 liveObj 1) (status 0x44 0) && traps w (s 0x00010005 0x20000 liveObj 1) .stale 0 0x10005
    && done w (s 0x00020005 0x20001 liveObj 1) (status 0x0B 0)) = true := by decide +kernel

theorem witness_object_images : (let w : Instr := .objw (fa 9 10 11)
    let s (o : Obj) (k : Nat) := withWordAt 0x20000 k (withObj o (kern 0x00020005 0x20000))
    let t (o : Obj) (k : Nat) (p : State → Bool) := (s o k |>.sharedBytes w 0x20000 512).isSome && done w (s o k) p
    t liveObj 7 (status 0x41 0) && t { liveObj with holds := 1 } 1 (status 0x44 0)
    && t { liveObj with holds := 1 } 0 (fun t => status 0 0x20005 t && decide (t.objAt 0 5 = { liveObj with holds := 1, state := 2 }))
    && (let b := (s liveObj 3).netted fun n => { n with rings := [⟨7, 0, 1, [0, 1], [⟨1, 2, 5, 0, 0x100, 2, 4, 8, 2, 6, 5, false, Entry.blank⟩], []⟩] }
        b.objBusy 0 5 && (b.sharedBytes w 0x20000 512).isSome && done w b fun t => decide ((t.half 8192).block = .register) && decide (t.objAt 0 5 = liveObj))
    && !(s liveObj 0).objBusy 0 5 && t liveObj 0 (fun t => status 0 0x30005 t && decide (t.objAt 0 5 = { Obj.reset with gen := 3 }))
    && t liveObj 3 (fun t => status 0 0x20005 t && decide ((t.objAt 0 5).kind = 3) && decide ((t.objAt 0 5).body = List.replicate 63 0))) = true := by decide +kernel

theorem witness_object_reads : (let r : Instr := .objr (fa 9 10 11)
    let s (a b : Word) := withObj { liveObj with holds := 4 } (kern a b)
    traps r (s 0x00010005 0x20000) .stale 0 0x10005 && done r (s 0x00020005 0x20001) (status 0x0B 0)) = true := by decide +kernel

theorem witness_object_stored : (let r : Instr := .objr (fa 9 10 11)
    let s := withObj { liveObj with holds := 4 } (kern 0x00020005 0x20000)
    s.canonical && s.sharedRoom r 0x20000 512 ((List.range 8).map fun i => 0x20000 + 64 * i)
    && done r s (fun t => status 0 0 t && decide ((memBytes t.mem 0x20000 32) = bytesOf [0x0002000400000009, 1, 2, 3]))) = true := by decide +kernel

theorem witness_groups : (let g : Instr := .grpw (fa 9 10 11)
    let s (b : Word) (l : List (Nat × BitVec 4096)) := withWordAt 0x40018 (2 ^ 20) (withWordAt 0x30000 6 ({ kern 7 b with parts := [(0, { Part.created placeImage with groups := l })] }))
    let t (b : Word) (l : List (Nat × BitVec 4096)) (p : State → Bool) := ((s b l).sharedBytes g b.toNat 520).isSome && done g (s b l) p
    let now (t : State) : List (Nat × BitVec 4096) := match t.part? 0 with | some p => p.groups | none => []
    let b := (s 0x30000 []).netted fun n => { n with mcasts := [⟨7, ⟨0, 1, 3, 9⟩, 0, none, 7, [1], 0, 0, 0xFFF, 0, none⟩] }
    b.groupBusy 0 7 && (b.sharedBytes g 0x30000 520).isSome && done g b (fun t => decide ((t.half 8192).block = .register) && (now t).isEmpty)
    && !(s 0x30000 []).groupBusy 0 7 && t 0x40000 [] (status 0x0B 0) && t 0x30000 [(2, 2)] (status 0x42 0) && t 0x30000 [(1, 3), (2, 5), (3, 3), (4, 3), (5, 3)] (fun t => status 0x43 0 t && decide ((now t).length = 5))
    && t 0x30000 [(7, 1)] (fun t => status 0 0 t && decide (now t = [(7, 6)])) && t 0x20000 [(7, 1)] (fun t => status 0 0 t && decide (now t = []))) = true := by decide +kernel

/-! ### Witnesses: queues, saves and interrupts -/

/-- An image of a queue at 0x20000: a network queue of size 64 with a period of 100 and a budget of 40. -/
def queueImage (size period budget : Nat) (s : State) : State :=
  withWordAt 0x20010 (budget * 2 ^ 32 + period) (withWordAt 0x20000 (2 * 2 ^ 62 + size * 2 ^ 16) s)

/-- A queue of a partition. -/
def queueOfPart (n : Nat) : Queue := { Queue.reset with kind := 2, part := n, period := 100, budget := 40 }

/-- The same with queue 5 held by a partition. -/
def withQueue (n : Nat) (s : State) : State := { s with mf0 := { s.mf0 with queues := [(5, queueOfPart n)] } }

theorem witness_queues : (let q : Instr := .qmap (fa 9 10 11)
    let s (form : Nat) (b : Word) (size period budget : Nat) (o : State → State) := queueImage size period budget (o (kern (word (form * 2 ^ 60 + 5)) b))
    let t (form size period budget : Nat) (o : State → State) (p : State → Bool) :=
      ((s form 0x20000 size period budget o).sharedBytes q 0x20000 32).isSome && done q (s form 0x20000 size period budget o) p
    done q (s 0 0x20001 64 100 40 id) (status 0x0B 0)
    && t 0 64 100 40 id (fun t => status 0 0 t && decide (t.mf0.queues.map (fun x => (x.1, x.2.kind, x.2.size)) = [(5, 2, 64)])) && t 0 65 100 40 id (status 0x41 0)
    && decide ((kern 5 0).queueCheck 0 5 (queueOf 0 [word (2 * 2 ^ 62 + 65 * 2 ^ 16), 0, word (40 * 2 ^ 32 + 100), 0]) = 0x41)
    && t 0 64 100 40 (withQueue 1) (fun t => status 0x0B 0 t && decide (tget t.mf0.queues 5 = some (queueOfPart 1)))
    && t 1 0 80 20 (withQueue 1) (fun t => status 0x0B 0 t && decide (tget t.mf0.queues 5 = some (queueOfPart 1)))
    && t 1 0 0 0 (withQueue 0) (fun t => status 0x41 0 t && decide (tget t.mf0.queues 5 = some (queueOfPart 0)))
    && t 0 64 100 40 (fun s => { s with mf0 := { s.mf0 with queues := [(5, { queueOfPart 0 with inFlight := true })] } }) (fun t => decide ((t.half 8192).block = .register) && t.mf0.queues.all (·.2.inFlight))
    && t 1 0 80 20 id (fun t => status 0 0 t && decide (tget t.mf0.queues 5 = some { Queue.reset with period := 80, budget := 20 }))
    && t 1 0 80 20 (withQueue 0) (fun t => status 0 0 t && decide (tget t.mf0.queues 5 = some { queueOfPart 0 with next := some (80, 20) }))
    && done q (s 3 0x20000 0 0 0 (withQueue 1)) (status 0x0B 0)) = true := by decide +kernel

theorem witness_arbiters : (let q : Instr := .qmap (fa 9 10 11)
    let s (n : Nat) := withWordAt 0x20000 n (kern 0x2000000000000005 0x20000)
    let t (n : Nat) (p : State → Bool) := ((s n).sharedBytes q 0x20000 32).isSome && done q (s n) p
    t 200 (status 0x0B 0) && t 3 (fun t => status 0 0 t && (match t.part? 0 with | some p => decide (p.arbList = [(5, 3)]) | none => false))) = true := by decide +kernel

theorem witness_queue_words : (let q : Instr := .qmap (fa 9 10 11)
    let s := withQueue 0 (kern 0x3000000000000005 0x20000)
    s.canonical && s.sharedRoom q 0x20000 32 [0x20000] && done q s (fun t => status 0 0 t && decide (memBytes t.mem 0x20010 8 = toBytes 8 (40 * 2 ^ 32 + 100)))) = true := by
  decide +kernel

theorem witness_interrupts : (let q : Instr := .ipi (fa 9 10 11)
    done q (kern 63 5) (status 0x0B 0) && done q (kern 1 5) (fun t => decide (t.net.msgs.map (fun m => (m.src, m.core, m.pri, m.act.msg.pay)) = [(4096, 4097, 3, [5, 0])])
      && decide ((t.half 8192).hold = some (kern 1 5).curHalf.seq) && decide ((t.half 8192).replay.length = 1))) = true := by
  decide +kernel

/-- A kernel core beside a live half of core 1, whose frame goes to 0x100000. -/
def saver (a : Word) : State := { kern a 0x100000 with
  halves := [(2, { regs [(5, 77)] liveHalf with tid := 2 }), (8192, regs [(10, a), (11, 0x100000)] liveHalf)]
  tasks := [(1, liveTask 4096), (2, liveTask 1)] }

theorem witness_save_refused : (let q : Instr := .ssav (fa 9 10 11)
    done q (saver 0xFFF) (status 0x0B 0) && done q (saver 2) (status 0x45 0)) = true := by decide +kernel

theorem witness_save : (let q : Instr := .ssav (fa 9 10 11)
    let s := saver 1
    s.runs q && s.canonical && s.ownsCore s.curTask.part 1 && decide ((s.half 2).occ = .live) && (s.task? (s.half 2).tid).isSome
    && !s.saveWaits (s.half 2) Groups.all && decide ((s.half 2).traps = [])) = true := by decide +kernel

/-- The lines of the image. -/
def saveLines : List Nat := (List.range 907).map fun i => 0x100000 + 64 * i

/-- What room for shared bytes is made of. -/
theorem room_of (s : State) (i : Instr) (va n : Nat) (pas : List Nat) (h0 : va % 64 = 0) (h1 : va + n ≤ 2 ^ 56)
    (h2 : s.reachLines (s.party s.curCore) (whoOf (s.seen i)) .write (touchesOf va n) = .ok pas)
    (h3 : (linesOf va n).all (fun l => (rangeHit (s.station (stationOf (clusterOf s.curCore) l)) (s.party s.curCore).asid l).isSome) = true)
    (h4 : pas.Pairwise fun a b => a + 64 ≤ b ∨ b + 64 ≤ a) (h5 : s.unheld pas = true) : s.sharedRoom i va n pas = true := by
  simp only [State.sharedRoom, Bool.and_eq_true, decide_eq_true_eq]
  exact ⟨⟨⟨⟨⟨h0, h1⟩, h2⟩, h3⟩, h4⟩, h5⟩

theorem witness_save_room : (saver 1).sharedRoom (.ssav (fa 9 10 11)) 0x100000 58016 saveLines = true := by
  have apart : saveLines.Pairwise fun a b => a + 64 ≤ b ∨ b + 64 ≤ a := by
    refine List.pairwise_map.2 (List.Pairwise.imp ?_ List.pairwise_lt_range)
    intro a b h
    omega
  have reached : (saver 1).reachLines ((saver 1).party (saver 1).curCore) (whoOf ((saver 1).seen (.ssav (fa 9 10 11)))) .write
      (touchesOf 0x100000 58016) = .ok saveLines := by decide +kernel
  have ranges : (linesOf 0x100000 58016).all (fun l => (rangeHit ((saver 1).station (stationOf (clusterOf (saver 1).curCore) l))
      ((saver 1).party (saver 1).curCore).asid l).isSome) = true := by decide +kernel
  have unheld : (saver 1).unheld saveLines = true := by decide +kernel
  exact room_of _ _ _ _ _ (by decide) (by decide) reached ranges apart unheld

/-- A kernel core and a parked task of which the image stands at 0x100000: its header at 0x10000. -/
def restorer (a : Word) (f : State → State := id) : State := withWordAt 0x101700 2 (withWordAt 0x100020 0x10000 (withWordAt 0x10000 0x23
  (f { kern a 0x100000 with tasks := [(1, liveTask 4096), (2, { liveTask 1 with life := .parked })] })))

/-- A predicate on option values. -/
def someIs {α : Type} (o : Option α) (p : α → Bool) : Bool := match o with | some x => p x | none => false

/-- The same with no parked task. -/
def noParked : State := restorer 1 fun s => { s with tasks := [(1, liveTask 4096)] }

theorem witness_restore_refused : (done (.srst (fa 9 10 11)) (restorer 0xFFF) (status 0x0B 0)
    && done (.srst (fa 9 10 11)) (restorer 1 fun s => { s with
      halves := [(2, { liveHalf with tid := 3 }), (3, { liveHalf with tid := 4 }), (8192, regs [(10, 1), (11, 0x100000)] liveHalf)] }) (status 0x44 0)) = true := by
  decide +kernel

theorem witness_restore_unknown : someIs (noParked.sharedBytes (.srst (fa 9 10 11)) 0x100000 58016) (fun l =>
    (noParked.parkedFor noParked.curTask.part l).isNone) = true := by decide +kernel

theorem witness_restore : (let q : Instr := .srst (fa 9 10 11)
    let s := restorer 1
    s.runs q && s.ownsCore s.curTask.part 1 && decide ((s.half 2).occ = .free)
    && someIs (s.sharedBytes q 0x100000 58016) (fun l => (match s.imageCheck 1 l (halfFrom l Half.reset) with | .ok w => decide (w = 0x23) | _ => false)
      && someIs (s.parkedFor s.curTask.part l) fun t => decide (t.1 = 2) && decide (t.2.savedFrame = []) && t.2.saved.isNone && decide (s.task? 2 = some t.2))
    && s.ranged 0x100000 && (linesOf 0x100000 58016).all fun x => s.ranged (word x)) = true := by decide +kernel

/-! ### Witnesses: events of a core -/

/-- A machine in which the value 77 for s9 of task 1 is under way. -/
def fillDue (seq floor : Nat) (ctl : Option Nat := none) (others : List Fill := []) : State :=
  let s : State := { stageH (fun h => { h with replay := [{ Entry.blank with seq := seq }] }) with tasks := [(1, { liveTask 0 with floor := floor })] }
  given 0 (s.netted fun n => { n with fills := ⟨0, 1, seq, .s 9 77, 1, some 5, false, none, ctl⟩ :: others })

theorem witness_register_fill : (let s := fillDue 3 0
    (match ith s.net.fills s.data.n with | some f => !f.completion && f.sent.isNone && decide ((s.half f.hid).tid = f.tid) && decide ((s.half f.hid).occ = .live) && decide (s.floorOf f.tid ≤ f.seq) | none => false)
    && ok .registerFill s (fun t => decide (readS (t.half 0) 9 = 77) && decide ((t.half 0).ctl.fflags = 1) && decide ((t.half 0).ctl.ordst = 5) && t.net.fills.isEmpty && (t.half 0).replay.isEmpty)
    && (let more := fillDue 3 0 none [⟨0, 1, 3, .s 10 78, 0, none, false, none, none⟩]
        ok .registerFill more fun t => decide (readS (t.half 0) 9 = 77) && decide ((t.half 0).replay.map (·.seq) = [3]) && decide (t.net.fills.length = 1))
    && (let flags (earlier : Nat) := fillDue 3 0 (some 6) [⟨0, 1, earlier, .ready [.v 3] true, 1, none, false, none, none⟩]
        (flags 2).ctlWait 1 6 (some 3) && ok .registerFill (flags 2) (fun t => decide (t = flags 2))
        && !(flags 4).ctlWait 1 6 (some 3) && ok .registerFill (flags 4) fun t => decide (readS (t.half 0) 9 = 77) && isFull (t.half 0) (.s 9))
    && (let both := fillDue 3 0 none [⟨0, 1, 4, .s 10 2, 0, none, false, none, some 6⟩, ⟨0, 1, 5, .s 11 3, 0, none, false, none, some 17⟩]
        ok .registerFill both fun t => decide (t.net.fills.map (·.value) = [.s 10 3, .s 11 5]))
    && decide (3 < (fillDue 3 4).floorOf 1) && ok .registerFill (fillDue 3 4) (fun t => decide (readS (t.half 0) 9 = 0) && t.net.fills.isEmpty)) = true := by decide +kernel

/-- A machine in which a parity error in s9 shows, with a load to s9 under way or not. -/
def flipped (s : State) : State := { s with data := { EventData.none with n := 0, gran := .s 9 } }

theorem witness_parity_error : (let s := flipped (after (.lds (fmem 10 0 0 3)) loads)
    (s.task? (s.half 0).tid).isSome && decide ((s.half 0).occ = .live) && decide ((s.core 0).replayed ≠ some (0, .s 9)) && (s.half 0).replays (.s 9)
    && ok .parityError s (fun t => decide (t.halves = s.halves) && (match t.part? 0 with | some p => decide (tgetD p.errors 5 0 = 1) | none => false))
    && (let s := flipped (unsafely loads)
        s.canonical && !(s.half 0).replays (.s 9) && !s.safe 1 && ok .parityError s (fun t => (t.task? 1).isNone && decide (((t.core 0).inbox 0).ret.length = 1)))) = true := by decide +kernel

theorem witness_code_fetch : (let spot (s : State) := (fetchFrom s 0 (pcOf (s.half 0)) (hdrBlen (s.half 0).hdrWord - (s.half 0).roff)).2
    let s := given 0 (stage 0)
    let far := given 0 (stageH fun h => { h with hdr := 0x0100000000000000 })
    let dark := { given 0 (stage 0) with stations := [] }
    let heard : State := { s with data := { s.data with ecc := .uncorrectable } }
    s.sound && far.sound && dark.sound && s.net.reqs.isEmpty && far.net.reqs.isEmpty && dark.net.reqs.isEmpty && !heard.data.yes && decide (heard.eccAt 0x10008 8 = .uncorrectable) && decide (heard.reach (Machine.translate heard (heard.party 0) .fetch (pcOf (heard.half 0)).toNat) = some 0x10008)
    && !s.idleHalf 0 (s.half 0) && (s.half 0).traps.isEmpty && (s.half 0).reissue.isNone && (s.half 0).reinj.isEmpty && decide ((s.half 0).roff ≠ hdrBlen (s.half 0).hdrWord)
    && decide (spot s = none) && !far.idleHalf 0 (far.half 0) && decide (spot far = some (0x0100000000000008, false))
    && !dark.idleHalf 0 (dark.half 0) && decide (spot dark = some (0x10008, true)) && decide ((dark.half 0).refusedAt ≠ some 0x10008)) = true := by decide +kernel

/-- The machine of the traps above with the trap pending. -/
def pendingTrap : State := trapped.halved { trapped.curHalf with traps := [aTrap] }

theorem witness_trap_delivery_header : ∀ m : List Host.Cell,
    (∀ a, (a < scratchAt 0 (frameAt (pendingTrap.half 0)) ∨ scratchAt 0 (frameAt (pendingTrap.half 0)) + 0x1800 ≤ a) → memGet m a = memGet pendingTrap.mem a) →
    fetchHeader { pendingTrap with mem := m } 0 (pendingTrap.half 0).ctl.tvec = .ok 0x2000000000000023 := by
  intro m h
  have hb : 0x20008 ≤ scratchAt 0 (frameAt (pendingTrap.half 0)) := by decide +kernel
  have h4 (a : Nat) (ha : a + 4 ≤ 0x20008) : memNat m a 4 = memNat pendingTrap.mem a 4 := by
    simp only [memNat, memBytes]
    congr 1
    exact List.map_congr_left fun i hi => h _ (.inl (by have := List.mem_range.1 hi; omega))
  rw [show (pendingTrap.half 0).ctl.tvec = 0x20000 from rfl, handler_header pendingTrap m (by decide +kernel), h4 _ (by omega), h4 _ (by omega)]
  decide +kernel

theorem witness_trap_delivery : (let s := pendingTrap
    let h := s.half 0
    decide (s.data.n = 0) && s.canonical && decide (h.occ = .live) && decide (h.traps = [aTrap]) && !h.ctl.trapd && h.replay.isEmpty && h.reinj.isEmpty
    && aTrap.entry.isNone && h.jib.isNone && h.stack.isEmpty && decide (0x1800 ≤ (readS h 30).toNat) && decide ((readS h 30).toNat ≤ 0x40000)
    && !stageHits h.ctl.stage (frameAt h) 0x1800 && decide (hdrKind 0x2000000000000023 = 2) && decide (hdrBlen 0x2000000000000023 ≠ 0)) = true := by decide +kernel

/-- A residue error drops the multiply's pass; a second one is an uncorrectable event and a hard fault of the core. -/
theorem witness_residue_errors : (let s (again : Bool) : State := given 0 (loadedMma.cored 0 fun c => { c with mops := c.mops.map fun o => { o with repeated := again } }) 0 true
    match (s false).mop? 0 with
    | some (core, o) => (s false).canonical && o.loaded && !o.done && !o.repeated && (s false).data.yes && ((s false).core core).mops.all (fun x => x.id == o.id)
      && ok .mmulComputeDone (s false) (fun t => decide ((t.core 0).mops.map (·.repeated) = [true]) && decide (t.halves = (s false).halves))
      && ok .mmulComputeDone (s true) (fun t => (t.core 0).mops.isEmpty && decide (t.fabric.votes ≠ (s true).fabric.votes ∨ t.parts ≠ (s true).parts ∨ t.cores ≠ (s true).cores))
    | none => false) = true := by decide +kernel

/-! ### Witnesses: translation stations -/

/-- A request of task 1 for eight bytes at an address. -/
def req (acc : Access) (va : Nat) (phase : Phase) (pas : List Nat := []) : Req :=
  ⟨5, 0, 1, 3, 0, 0, 0, false, acc, 9, va, [va / 64 * 64], [0xFF], pas, phase, 0, 0, 0, 0, false, Entry.blank, 0, none, []⟩

/-- A machine with requests in flight. -/
def requests (l : List Req) (s : State) : State := given 0 (s.netted fun n => { n with reqs := l })

/-- A page table: the gigabyte at 0x40000000 maps to itself with all rights. -/
def tables : State := withWordAt 0x1008 0x4000003F (withWordAt 0x1000 0x1001 (withWordAt 0 0x1001 { stage 0 with stations := [] }))

theorem witness_translation : (let q := req (.load 8 false) 0x5000 .translate
    let fresh (s : State) (q : Req) := decide (ith s.net.reqs 0 = some q) && decide (q.phase = .translate ∨ q.phase = .missing) && !s.replaysFirst q
      && decide (q.lines.length = q.pas.length + 1)
      && decide (s.guardCause (clusterOf q.core) q.asid q.touching q.acc.reads q.acc.kind.writes (s.whoReq q) = none)
    let s := requests [q] (stage 0)
    let p := requests [{ q with acc := .probe }] (stage 0)
    let f := requests [{ q with acc := .probe, va := 0xC000000000, lines := [0xC000000000] }] { stage 0 with stations := [(0, { Station.reset with ranges := [(0, { placeRange with limit := 0xFFFFFFFFFFF })] })] }
    fresh s q && decide ((lookup s q.party q.acc.kind q.line).bind s.reach = some 0x5000) && s.homeTakes q.acc 0x5000
    && ok .translationRequest s (fun t => decide (t.net.reqs.map (fun r => (r.pas, r.phase)) = [([0x5000], .home)]))
    && fresh p { q with acc := .probe } && p.homeTakes .probe 0x5000 && ok .translationRequest p (fun t => t.net.reqs.isEmpty)
    && (let t := requests [q] tables
        fresh t q && decide (lookup t q.party q.acc.kind q.line = none) && ok .translationRequest t fun t => t.net.reqs.all fun r => decide (r.phase = .walk) && decide (r.stamp ≠ 0))
    && (match f.net.reqs with
      | [r] => fresh f r && decide (lookup f r.party r.acc.kind r.line ≠ none) && (match (lookup f r.party r.acc.kind r.line).bind f.reach with | some a => !f.homeTakes r.acc a | none => true)
        && ok .translationRequest f (fun t => decide (t.net.reqs.map (·.phase) = [.refused .access]))
      | _ => false)) = true := by decide +kernel

/-- Requests of which the walks of so many pages wait at a station. -/
def walking (n : Nat) : List Req := (List.range n).map fun i => { req (.load 8 false) (0x40000000 + 0x20000 * i) .walk with id := 100 + i, stamp := 1 + i }

/-- A station of 64 misses lets one more wait in the network, and the requests of a page come again in their order. -/
theorem witness_station_order : (let q := req (.load 8 false) 0x5000 .translate
    let s (l : List Req) := requests (q :: l) tables
    (s (walking 63)).missRoom q && !(s (walking 64)).missRoom q
    && ok .translationRequest (s (walking 64)) (fun t => decide ((ith t.net.reqs 0).map (·.phase) = some .missing))
    && (let late := { q with page := some 3, stamp := 5 }
        let x := requests [late, { q with id := 6, page := some 3, stamp := 2 }] (stage 0)
        x.replaysFirst late && ok .translationRequest x fun t => decide (t = x))
    && (let w := { req (.load 8 false) 0x5000 .walk with stamp := 9 }
        let x := requests (w :: walking 8) tables
        !((x.records w.station true).take stationWalks).contains w.record && ok .pageWalkComplete x fun t => decide (t = x))) = true := by decide +kernel

/-- A page request entry of partition 0 for the page at 0x5000 in a state. -/
def pageEntry (state : Nat) : PageReq := ⟨0x5000, 0, 0, 0, 0, false, 1, state, 0⟩

/-- A request waits while its page is walked for a RESUME; a frame that has been retired faults; what an instruction waits for
stands ready though it is refused; a probe that its home refuses is refused. -/
theorem witness_station_waits : (let q := req (.load 8 false) 0x5000 .translate
    let s (p : Phase) : State := { requests [{ q with phase := p }] (stage 0) with mf0 := { (stage 0).mf0 with pages := [(3, pageEntry 3)] } }
    let first (i : Instr) (p : Phase) := (s p).resuming { q with phase := p } && ok i (s p) fun t => decide (t = s p)
    first .translationRequest .translate && first .pageWalkComplete .walk && first .pageFaultPost .fault
    && (let gone : State := { requests [q] (stage 0) with fabric := { (stage 0).fabric with retired := [0x5000] } }
        decide (lookup gone q.party q.acc.kind q.line = some .fault) && ok .translationRequest gone fun t => decide (t.net.reqs.map (·.phase) = [.fault]))
    && (let c := { q with acc := .commit, va := 0x5000, seq := abandoned }
        let x := requests [c] { stage 0 with stations := [(0, { Station.reset with ranges := [(0, { placeRange with control := 0x21 })] })] }
        c.acc.waits && (match lookup x c.party c.acc.kind c.line with | some y => decide (y ≠ .fault) | none => false)
          && ok .translationRequest x fun t => decide (t.net.reqs.map (·.phase) = [.home]))) = true := by decide +kernel

theorem witness_page_walk : (let q := req (.load 8 false) 0x40005000 .walk
    let s := requests [q] tables
    let first (s : State) (q : Req) := decide (ith s.net.reqs 0 = some q) && decide (s.data.ecc = .clean) && ((s.records q.station true).take stationWalks).contains q.record
    first s q && decide (walk s q.world q.asid q.line = .leaf ⟨0, 0x40000000, 30, 0x40000000, 0x4000003F, 0x1008⟩) && decide (lookup s q.party .read q.line = none)
    && ok .pageWalkComplete s (fun t => decide ((t.station 0).cache.map (·.pa) = [0x40000000]) && decide (t.net.reqs.map (·.phase) = [.translate]))
    && (let y := requests [req (.load 8 false) 0x8000000000 .walk] (withWordAt 0 0x1001 { stage 0 with stations := [] })
        first y (req (.load 8 false) 0x8000000000 .walk) && decide (walk y false 0 0x8000000000 = .invalid)
          && ok .pageWalkComplete y fun t => decide (t.net.reqs.map (·.phase) = [.fault]))) = true := by decide +kernel

theorem witness_page_faults : (let q := req (.load 8 false) 0x5008 .fault
    let s := requests [q] tables
    let x : State := { s with mf0 := { s.mf0 with pages := [(3, pageEntry 1)] } }
    decide (x.mf0.pages.find? (fun e => e.2.asid == q.asid && e.2.va / 4096 == q.line / 4096 && e.2.station == stationOf (clusterOf q.core) q.line) = some (3, pageEntry 1))
    && ok .pageFaultPost x (fun t => decide (t.net.reqs.map (fun r => (r.phase, r.page)) = [(.held, some 3)]) && decide (t.mf0.pages = [(3, { pageEntry 1 with held := 2 })]))
    && decide ((postPlaces q.part).find? (fun i => (tget s.mf0.pages i).isNone) = some 0) && s.mf0.pages.isEmpty
    && ok .pageFaultPost s (fun t => decide (t.mf0.pages = [(0, pageEntry 1)]) && decide (t.net.msgs.map (fun m => (m.core, m.pri, nth m.act.msg.pay 0)) = [(4096, 3, 0)]))) = true := by
  decide +kernel

/-- A station with a command and cached pages. -/
def station (opcode : Nat) (pay : List Word) (s : State) : State := given 0 { s with stations := [(0, { Station.reset with
  cache := [⟨1, 0x5000, 12, 0x9000, 0x3D, 0x1008⟩, ⟨1, 0x6000, 12, 0xA000, 0x3D, 0x1010⟩, ⟨2, 0x5000, 12, 0x9000, 0x3D, 0x1008⟩]
  ranges := [(7, placeRange)], cmds := [⟨opcode, pay, 4096, 0xFFFFFFFF00000000, 0, 0⟩] })] }

theorem witness_invalidations : (let left (i : Instr) (opcode : Nat) (pay : List Word) (n : Nat) :=
      (let s := station opcode pay (stage 0)
       decide ((s.station 0).cmds.length = 1) && !s.translated 0 (some 1) && !s.translated 0 none && ok i s fun t => decide ((t.station 0).cache.length = n) && (t.station 0).cmds.isEmpty)
    left .invpage 1 [1, 0x5123] 2 && left .invasid 2 [1] 1 && left .invall 3 [] 0) = true := by decide +kernel

theorem witness_ranges : (let does (i : Instr) (opcode : Nat) (pay : List Word) (p : Table Range → Bool) :=
      (let s := station opcode pay (stage 0)
       decide ((s.station 0).cmds.length = 1) && !s.translated 0 none && ok i s fun t => p (t.station 0).ranges && (t.station 0).cmds.isEmpty)
    does .rangew 5 [3, 0x1000, 0x2000, 0, 0x3D] (fun r => decide (r = [(7, placeRange)])) && does .rangew 5 [256, 0x1000, 0x1FFF, 0, 0x3D] (fun r => decide (r = [(7, placeRange)]))
    && does .rangew 5 [3, 0x1000, 0x1FFF, 0x10, 0xFFFFFFFF] (fun r => decide (r = [(3, ⟨0x1000, 0x1FFF, 0x10, 0xFFFF007D⟩), (7, placeRange)]))
    && does .rangeinv 6 [7] (fun r => r.isEmpty)) = true := by decide +kernel

/-- A RESUME of entry 3 of a page at 0x5000. -/
def resuming (action : Word) (state : Nat) (s : State) : State :=
  let t := station 4 [3, action] s
  { t with mf0 := { t.mf0 with pages := [(3, pageEntry state)] } }

theorem witness_resume : (let held := req (.load 8 false) 0x5008 .held
    let free := station 4 [3, 0] (stage 0)
    ((free.station 0).cmds.length == 1) && (tget free.mf0.pages 3).isNone && ok .resume free (fun t => decide (t.mf0 = free.mf0))
    && ok .resume (resuming 0 1 (stage 0)) (fun t => decide (t.mf0.pages = [(3, pageEntry 1)]))
    && (let other : State := { resuming 0 3 (stage 0) with mf0 := { (stage 0).mf0 with pages := [(3, { pageEntry 3 with resumer := 7 })] } }
        ok .resume other fun t => decide (t.mf0 = other.mf0) && (t.station 0).cmds.isEmpty)
    && (let s := resuming 1 2 (requests [{ held with acc := .probe }] tables)
        s.net.reqs.all (fun q => !q.waitsOn (pageEntry 2) || decide (q.acc = .probe)) && ok .resume s fun t => t.mf0.pages.isEmpty && decide (t.net.reqs.map (·.phase) = [.refused .access]))
    && (let s := resuming 0 2 (requests [{ held with va := 0x40005008, lines := [0x40005000] }, { held with acc := .record, va := 0x40005008, lines := [0x40005000] }] tables)
        let at_ (n : Nat) : State := { s with mf0 := { s.mf0 with pages := [(3, { pageEntry n with va := 0x40005000 })] } }
        let dark : State := { resuming 0 3 (requests [held] (stage 0)) with mem := [] }
        ok .resume (at_ 2) (fun t => decide (t = at_ 3)) && decide (walk (at_ 3) ((at_ 3).secure 0) 0 0x40005000 ≠ .invalid)
          && ok .resume (at_ 3) (fun t => t.mf0.pages.isEmpty && decide (t.net.reqs.map (·.phase) = [.translate]) && (t.station 0).cmds.isEmpty)
          && decide (walk dark (dark.secure 0) 0 0x5000 = .invalid)
          && ok .resume dark fun t => decide (t.mf0.pages = [(3, pageEntry 1)]) && decide (t.net.reqs = dark.net.reqs) && (t.station 0).cmds.isEmpty)) = true := by decide +kernel

theorem witness_probe_refusal : (let q := { req .probe 0x5008 (.refused .access) with lines := [0x5000] }
    let s := requests [q] (stage 0)
    (match ith s.net.reqs s.data.n with | some r => decide (r.phase = .refused .access) && (s.task? r.tid).isSome | none => false)
    && ok .probeRefusal { s with halves := (loading (stage 0)).halves } (fun t => (match (t.half 0).traps with | [p] => decide (p.cause = .access) && decide (p.faddr = 0x5008) | _ => false) && t.net.reqs.isEmpty)) = true := by
  decide +kernel

/-! ### Witnesses: homes, scratchpads and engines -/

/-- A machine with one request at its home, memory at 0x5008 holding a value. -/
def atHome (acc : Access) : State := requests [{ req acc 0x5008 .home [0x5000] with lines := [0x5000] }] (withWordAt 0x5008 0xFFFFFFFF80000010 (stage 0))

/-- The same for a cell: a word of a bank in ratline mode. -/
def atCell (acc : Access) : State := { requests [{ req acc 0x5008 .home [abmBase] with lines := [0x5000] }] (withWordAt (abmBase + 8) 0xFFFFFFFF80000010 (stage 0)) with
  ratBanks := [0] }

/-- The home of the request in flight takes it now, and the next state passes a test. -/
def homes (s : State) (p : State → Bool) (pa : Nat := 0x5008) : Bool := s.canonical && (match ith s.net.reqs s.data.n with
    | some q => decide (q.phase = .home) && decide (q.lines.length = 1) && decide (q.got = 0) && s.homeTurn s.data.n q && !s.isDeferred q.tid q.seq
      && decide (q.pas.headD 0 + q.va % 64 = pa) && s.homeTakes q.acc (q.pas.getD 0 0) && (rangeHit (s.station (stationOf q.party.cluster q.va)) q.party.asid q.va).isSome
    | none => false)
  && s.sound && ok .homeAccess s p

theorem witness_home_loads : (homes (atHome (.load 4 true)) (fun t => filled t (.s 9 0xFFFFFFFF80000010)) && homes (atHome (.load 4 false)) (fun t => filled t (.s 9 0x80000010))
    && homes (atHome (.acquire 8 2)) (fun t => filled t (.s 9 0xFFFFFFFF80000010) && decide (t.net.fills.map (·.ordst) = [some 0]))
    && homes (atCell .cellRead) (fun t => filled t (.s 9 0xFFFFFFFF80000010)) (abmBase + 8)
    && (let s : State := { atHome (.load 8 false) with net := { (atHome (.load 8 false)).net with reqs := [{ req (.load 8 false) 0x5008 .home [abmBase + 0x8000] with lines := [0x5000] }] }
                                                       halves := (loading (stage 0)).halves, ratBanks := [0] }
        (match s.net.reqs with | [q] => !s.homeTakes q.acc (q.pas.getD 0 0) && s.homeTurn 0 q && decide (q.seq < abandoned) | _ => false)
        && ok .homeAccess s fun t => t.net.reqs.isEmpty && (match (t.half 0).traps with | [p] => decide (p.cause = .access) && decide (p.faddr = 0x5008) | _ => false))) = true := by decide +kernel

theorem witness_home_stores : (let now (t : State) := memWord t.mem 0x5008
    homes (atCell (.cellWrite 5)) (fun t => decide (memWord t.mem (abmBase + 8) = 5) && t.net.reqs.isEmpty) (abmBase + 8)
    && homes (atHome (.release 4 2 0x77)) (fun t => decide (now t = 0xFFFFFFFF00000077) && decide ((tget t.release 0x5008).map (fun r => (r.core, r.scope, r.missed)) = some (0, 2, false)))
    && (let s : State := { atCell (.cellWrite 5) with release := [(abmBase + 8, ⟨3, 2, 7, false⟩)] }
        decide (homeOf s.extent (abmBase + 8) = .abm 0) && homes s (fun t => decide (memWord t.mem (abmBase + 8) = 5) && t.release.isEmpty) (abmBase + 8))
    && homes (atHome (.red 0 true 0x10)) (fun t => decide (now t = 0xFFFFFFFF80000020))
    && homes (atHome (.red 0 false 0x80000000)) (fun t => decide (now t = 0xFFFFFFFF00000010))
    && homes (atHome (.atom 9 true 0xFFFFFFFF80000010 3)) (fun t => filled t (.s 9 0xFFFFFFFF80000010))
    && homes (atHome (.atom 0 true 1 0)) (fun t => filled t (.s 9 0xFFFFFFFF80000010) && decide (now t = 0xFFFFFFFF80000011))) = true := by decide +kernel

theorem witness_home_tags : (let s (l : List (Nat × BitVec 32)) (key : Nat) (now : BitVec 8 := 7) : State :=
      { (atCell (.cellReserve 7 key)).parted 0 fun p => { p with window := now } with tags := l }
    let tag (t : State) := tget t.tags (abmBase + 8)
    let gives (s : State) (x : Option (BitVec 32)) := homes s (fun t => decide (tag t = x)) (abmBase + 8)
    gives (s [] 5) (some 0x07000005) && gives (s [(abmBase + 8, 0x07000003)] 5) (some 0x07000003) && gives (s [(abmBase + 8, 0x07000009)] 5) (some 0x07000005)
    && gives (s [(abmBase + 8, 0x06000003)] 5) (some 0x07000005) && gives (s [(abmBase + 8, 0x08000003)] 5 8) (some 0x08000003)) = true := by decide +kernel

theorem witness_pin_group : (let s0 : State := stage 0
    let s : State := given 1 { s0 with fabric := { s0.fabric with corrections := [(65, 256)] }, parts := [(0, Part.created { placeImage with channels := [1] })] } 1
    decide (256 ≤ tgetD s.fabric.corrections 65 0) && !s.fabric.failedGroups.contains 65
    && ok .pinGroupFailed s (fun t => decide (t.fabric.failedGroups = [65]) && decide (t.net.msgs.map (fun m => (m.core, m.act.msg.pay)) = [(4096, [1, 0xFFFFFFFF, 1])]))) = true := by decide +kernel

/-- A message to an atomic engine, and a request to it. -/
def atomReq (widen : Bool) (op : Nat) (value : Bool) : AtomReq := ⟨7, 0, widen, ⟨0, 1, 3, 9⟩, 0, 0, 0x5008, op, true, 0x10, 0, value, false, [0x5008, 4, 9], 0x5008, Entry.blank, false, []⟩

/-- A machine with such a message in flight. -/
def atEngine (q : AtomReq) : State := given 0 ((withWordAt 0x5008 0x1234 (stage 0)).netted fun n => { n with atoms := [q] })

theorem witness_widen : (let s (tag : BitVec 32) : State := { atEngine (atomReq true 0 false) with release := [(0x5008, ⟨3, 2, tag, true⟩)] }
    let other : AtomReq := { atomReq true 0 false with id := 8, dest := ⟨0, 1, 4, 10⟩, owed := true }
    let owed : State := { s 9 with net := { (s 9).net with atoms := [other] } }
    let both : State := { s 9 with net := { (s 9).net with atoms := (s 9).net.atoms ++ [other] } }
    ((s 9).net.atoms.all fun q => (s 9).atomTurn 0 q) && ok .widen owed (fun t => decide (t = owed))
    && ok .widen (s 9) (fun t => decide (t.release = [(0x5008, ⟨3, 4, 9, false⟩)]) && t.net.atoms.isEmpty && t.net.fills.isEmpty)
    && ((both.net.atoms.take 1).all fun q => both.atomTurn 0 q) && both.engineRoom 0
    && ok .widen both (fun t => t.owes ⟨0, 1, 4, 10⟩ 0 && decide (t.net.atoms.map (fun q => (q.id, q.owed)) = [(8, false)]))
    && ok .widen (s 8) (fun t => decide (t.release = [(0x5008, ⟨3, 2, 8, true⟩)]) && t.net.atoms.isEmpty)) = true := by decide +kernel

theorem witness_atomic_engine : (let s := atEngine (atomReq false 0 true)
    let x := atEngine (atomReq false 2 false)
    let ready (s : State) := s.canonical && decide (s.data.ecc = .clean) && (match ith s.net.atoms 0 with | some q => s.atomTurn 0 q && !s.isDeferred q.dest.tid q.dest.seq | none => false)
    let far := atEngine { atomReq false 0 true with pa := 2 ^ 40 + 0x5008 }
    ready s && (tget s.release 0x5008).isNone && ok .atomicEngineRequest s (fun t => decide (memWord t.mem 0x5008 = 0x1244) && decide (t.net.replies = [⟨⟨0, 1, 3, 9⟩, 0x1234, some 0⟩]))
    && ready x && ok .atomicEngineRequest x (fun t => t.net.replies.isEmpty && t.net.atoms.isEmpty)
    && ready far && ok .atomicEngineRequest far (fun t => t.net.atoms.isEmpty && decide (t.mem = far.mem) && decide (t.net.replies.map (·.dest) = [⟨0, 1, 3, 9⟩]))
    && (let s := given 0 ((stage 0).netted fun n => { n with replies := [⟨⟨0, 1, 3, 9⟩, 0x1234, some 0⟩] })
        ok .atomrReply s (fun t => filled t (.s 9 0x1234) && decide (t.net.fills.map (·.completion) = [true])))) = true := by decide +kernel

/-- A window of a gate onto a whole scratchpad. -/
def opened (s : State) : State := (s.cored 1 fun c => { c with gate := [(32, word (15 * 2 ^ 60 + 0x3FFFF * 2 ^ 18))], arrivals := [(2, { Arrival.reset with count := 100, armed := true })] }).poked (scratchAt 1 0x100) (toBytes 8 0x99)

/-- An access of task 1 of core 0 to 0x100 of the scratchpad of core 1. -/
def remoteTo (op : RemOp) (s : State) : State := given 0 (s.netted fun n => { n with remotes := [⟨5, 0, 1, 3, 0, 1, 0x100, 0x40100, op, Entry.blank⟩] })

theorem witness_remote_access : (let free (s : State) := s.canonical && !s.detCore 1 && decide (s.remoteCause 0 1 0x100 8 true (s.whoTid 1) 5 = none) && decide (s.remoteCause 0 1 0x100 8 false (s.whoTid 1) 5 = none)
    let s (op : RemOp) := remoteTo op (opened (stage 0))
    let word (t : State) := memNat t.mem (scratchAt 1 0x100) 8
    decide ((remoteTo (.ldr 8 9) (stage 0)).remoteCause 0 1 0x100 8 false ((remoteTo (.ldr 8 9) (stage 0)).whoTid 1) 5 = some .gate)
    && ok .remoteScratchpadAccess (remoteTo (.ldr 8 9) (loading (stage 0))) (fun t => match (t.half 0).traps with | [p] => decide (p.cause = .gate) && decide (p.faddr = 0x40100) | _ => false)
    && free (s (.ldr 8 9)) && ok .remoteScratchpadAccess (s (.ldr 8 9)) (fun t => filled t (.s 9 0x99))
    && ok .remoteScratchpadAccess (s (.str 4 0x1122334455)) (fun t => decide (word t = 0x22334455) && t.net.remotes.isEmpty)
    && ok .remoteScratchpadAccess (s (.puth 8 0x55 2)) (fun t => decide (word t = 0x55) && decide ((tget (t.core 1).arrivals 2).map (·.count) = some 92))) = true := by decide +kernel

/-- A multicast store of task 1 that waits for core 1. -/
def mcast (waiting : List Nat) (s : State) : State := given 7 (s.netted fun n => { n with mcasts := [⟨7, ⟨0, 1, 3, 9⟩, 0, some (0x77, 0x100), 2, waiting, 2, 0, 0xFFF, 0, none⟩] }) 1

theorem witness_multicast : (let s := mcast [1, 2] (opened (stage 0))
    let x := mcast [1, 2] (stage 0)
    let first (s : State) := s.canonical && !s.detCore 1 && s.net.remotes.isEmpty && decide (s.net.mcasts.length = 1)
    let cause (s : State) := (s.net.mcasts.head?).bind fun m => s.memberCause m 1 0x100
    let away : State := { s with fabric := { s.fabric with spar := [(0, ⟨false, false, 0, 0⟩)] } }
    first s && first x && decide (cause s = none) && !s.cutOff 1
    && first away && away.cutOff 1 && decide (cause away = some .access)
    && ok .stsmMemberWrite away (fun t => decide (t.net.mcasts.map (fun m => (m.waiting, m.neg, m.reason, m.first)) = [([2], 1, causeCode .access, 1)]))
    && ok .stsmMemberWrite s (fun t => decide (memNat t.mem (scratchAt 1 0x100) 8 = 0x77) && decide (t.net.mcasts.map (fun m => (m.waiting, m.pos)) = [([2], 3)]))
    && decide (cause x = some .gate)
    && ok .stsmMemberWrite x (fun t => decide (t.net.mcasts.map (fun m => (m.waiting, m.neg, m.reason, m.first)) = [([2], 1, causeCode .gate, 1)]))
    && ok .stsmAnswerMerge (mcast [] (stage 0)) (fun t => t.net.mcasts.isEmpty && filled t (.s 9 0x00000FFF00000002))) = true := by decide +kernel

/-- An image with a heap at 0x100000. -/
def heapOf (size : BitVec 64) : Image := { placeImage with heapBase := 0x100000, heapSize := size }

/-- Eight granules, of which the map takes two bytes: the bits of its first granules say START and USED, USED, free, free. -/
def eightGranules : BitVec 64 := 0x10200

/-- A request at the heap unit of a partition with a heap of eight granules, of which the first two are a block, or of none. -/
def heap (alloc : Bool) (arg : Word) (size : BitVec 64) (allocs : List Word) : State :=
  let s := given 0 ((stage 0).netted fun n => { n with heap := [⟨⟨0, 1, 3, 9⟩, 0, alloc, arg⟩] })
  { s with tasks := [(1, { liveTask 0 with allocs := allocs })]
           mem := (s.poked 0x100200 [7]).mem
           parts := [(0, Part.created (heapOf size))] }

theorem witness_heap_unit : (let p := heapOf eightGranules
    let map (s : State) := (List.range 8).map (s.granule 0 p)
    let ready (s : State) (p : Image) := s.canonical && s.sound && (s.net.heap.take 0).isEmpty && decide (s.heapFault 0 p = none) && !s.isDeferred 1 3
    let s := heap true 100 eightGranules []
    let x := heap true 100 0 []
    let back (allocs : List Word) := heap false 0x100000 eightGranules allocs
    ready s p && ready x (heapOf 0) && decide (map s = [3, 1, 0, 0, 0, 0, 0, 0]) && decide (s.freeRun 0 p 2 8 0 0 = some 2)
    && ok .heapRequest s (fun t => t.owes ⟨0, 1, 3, 9⟩ 0x100080 && decide (map t = [3, 1, 3, 1, 0, 0, 0, 0]) && decide ((t.task? 1).map (·.allocs) = some [0x100080]))
    && ok .heapRequest x (fun t => t.owes ⟨0, 1, 3, 9⟩ 0 && decide ((t.half 0).ctl.fflags = 0x20))
    && ready (back [0x100000]) p && ok .heapRequest (back [0x100000]) (fun t => decide (map t = [0, 0, 0, 0, 0, 0, 0, 0]) && decide ((t.task? 1).map (·.allocs) = some []))
    && ok .heapRequest (back []) (fun t => decide (map t = [3, 1, 0, 0, 0, 0, 0, 0]) && decide ((t.task? 1).map (·.frees) = some [0x100000]))) = true := by decide +kernel

/-- An address that a range entry translates is reached whatever memory holds. -/
theorem device_ranged (s : State) (m : List Host.Cell) (part va : Nat) (p : Part) (r : Range) (h0 : s.part? part = some p)
    (h1 : rangeHit (s.station (stationOf (p.image.shape.headD 0) va)) (p.image.asids.headD 0) va = some r) :
    ({ s with mem := m } : State).devicePa part va = s.devicePa part va := by
  have h0' : ({ s with mem := m } : State).part? part = some p := h0
  have spa : ({ s with mem := m } : State).deviceSpa part va = s.deviceSpa part va := by
    simp only [State.deviceSpa, h0, h0']
    rw [show rangeHit (({ s with mem := m } : State).station (stationOf (p.image.shape.headD 0) va)) (p.image.asids.headD 0) va = some r from h1, h1]
  unfold State.devicePa
  rw [spa]
  rfl

theorem witness_heap_map : (heap true 100 eightGranules []).heapMapped 0 (heapOf eightGranules) := by
  have h (g : Nat) (hg : g < 8) : (rangeHit ((heap true 100 eightGranules []).station (stationOf 0 ((heapOf eightGranules).mapVa g))) 0
        ((heapOf eightGranules).mapVa g) = some placeRange) ∧
      (heap true 100 eightGranules []).devicePa 0 ((heapOf eightGranules).mapVa g) = some ((heapOf eightGranules).mapVa g) ∧
      (heap true 100 eightGranules []).inRatBank ((heapOf eightGranules).mapVa g) = false := by
    revert g
    decide +kernel
  intro g hg
  have hg' : g < 8 := hg
  refine ⟨(heapOf eightGranules).mapVa g, fun m => ?_, (h g hg').2.2, fun i hi e => ?_⟩
  · rw [device_ranged _ m 0 _ (Part.created (heapOf eightGranules)) placeRange (by decide +kernel) (h g hg').1]
    exact (h g hg').2.1
  · rw [(h i hi).2.1] at e
    exact Option.some.inj e

/-- A core's portion of a ring: two rows of eight bytes. -/
def ringMember (core base op : Nat) : Member := ⟨core, 2 * core, 1, 3, base, 2, 8, 16, 0, op, 1, false, Entry.blank⟩

/-- A ring of cores 0 and 1 that have both joined, the gates letting the engine read and write. -/
def rings : State :=
  let c (x : Core) : Core := { x with gate := [(32, word (15 * 2 ^ 60 + 0x3FFFF * 2 ^ 18))] }
  given 7 ((((((stage 0).cored 0 c).cored 1 c).poked (scratchAt 0 0x100) (toBytes 8 0x11)).poked (scratchAt 1 0x210) (toBytes 8 0x22)).netted fun n =>
    { n with rings := [⟨7, 0, 2, [0, 1], [ringMember 0 0x100 1, ringMember 1 0x200 2], []⟩] })

theorem witness_ring_start : (let s := rings
    s.canonical && (match s.net.rings.find? (fun g => g.id == s.data.n) with | some g => decide (g.id = 7) && !s.det g.part && decide (g.members = [0, 1]) | none => false)
    && decide (s.hopCause (ringMember 0 0x100 1) (ringMember 1 0x200 2) = none) && decide (s.hopCause (ringMember 1 0x200 2) (ringMember 0 0x100 1) = none)
    && ok .ringStart s (fun t => decide (memNat t.mem (scratchAt 1 0x200) 8 = 0x11) && decide (memNat t.mem (scratchAt 0 0x110) 8 = 0x22)
      && decide (memNat t.mem (scratchAt 0 0x100) 8 = 0) && t.net.rings.isEmpty)) = true := by decide +kernel

/-- A copy of eight signed bytes from 0x100 to 0x6000 of scratchpad 0, with these elements landed. -/
def copying (started : Bool) (landed : List (Nat × Nat)) (code : Nat) (vf : Option Nat := none) : State :=
  given 5 ((((stage 0).cored 0 fun c => { c with arrivals := [(2, { Arrival.reset with count := 100, armed := true })] }).poked (scratchAt 0 0x100) (toBytes 8 0x8877665544332211)).netted fun n =>
    { n with cmds := [⟨5, false, 0, 0, ⟨0, 1, 3, 9⟩, 0, 0, 0, false, 1, [word (1 + 1 * 2 ^ 8), 8, 1, 8, 8], 0x100, 0x6000, some 2, false, started, 0, vf, 0, [], landed, landed.length, 0, code⟩] }) 3

/-- A status stands in s9. -/
def stands (t : State) (w : Word) : Bool := decide (readS (t.half 0) 9 = w) && isFull (t.half 0) (.s 9) && !isBusy (t.half 0) (.s 9)

/-- The data of an event on one element. -/
def one (s : State) : State := { s with data := { s.data with k := 1 } }

theorem witness_engine_start : (let s := { copying false [] 0 with data := EventData.none }
    (s.engineNext 0).isSome && ok .engineCommandStart s (fun t => t.net.cmds.all (·.started))) = true := by decide +kernel

theorem witness_engine_bytes : (let ready (s : State) := (match s.cmd? 5 with
      | some q => (let d := copyDesc q.desc
          q.started && decide (q.code = 0) && !s.detCore q.core && decide (s.data.ecc = .clean) && !s.data.yes && !q.erasure && !d.conv && decide (8 ≤ typeWidth d.stype)
          && decide (3 < d.elements) && !q.hasLanded 3 && q.buf.isEmpty && !q.retain
          && (match d.source q.core q.sA, d.dest q.core q.sB with
            | some x, some y => !x.shared && !y.shared && (match s.endBytes q x 3 1 false, s.endBytes q y 3 1 true with | .ok [a], .ok [b] => decide (a = scratchAt 0 0x103) && decide (b = scratchAt 0 0x6003) | _, _ => false)
            | _, _ => false))
      | none => false) && s.canonical
    let s := one (copying true [] 0)
    let x := one (copying true [(0, 3), (4, 4)] 0)
    ready s && ok .engineBytesLand s (fun t => decide (memNat t.mem (scratchAt 0 0x6000) 8 = 0x44000000) && (match t.cmd? 5 with | some q => q.hasLanded 3 && decide (q.bytes = 1) | none => false)
      && decide ((tget (t.core 0).arrivals 2).map (·.count) = some 99))
    && ready x && ok .engineBytesLand x (fun t => (t.cmd? 5).isNone && stands t 0x300000000)
    && (let y : State := x.cored 0 fun c => { c with arrivals := [(2, { Arrival.reset with count := 1, armed := true })] }
        ok .engineBytesLand y fun t => decide ((tget (t.core 0).arrivals 2).map (fun r => (r.count, r.armed)) = some (0, false)))) = true := by decide +kernel

theorem witness_engine_end : (let s := copying true [] 4
    s.canonical && (match s.cmd? 5 with | some q => q.started && !s.detCore q.core && !q.retain && decide (q.code ≠ 0) | none => false)
    && ok .engineCommandComplete s (fun t => (t.cmd? 5).isNone && stands t 4)
    && (match (copying true [(0, 8)] 0).cmd? 5 with | some q => q.complete | none => false)) = true := by decide +kernel

/-! ### Witnesses: the mapper -/

/-- A queue of partition 0 of a kind: base 0x20000, 16 entries, a period of 100 and a budget of 40 that is all left. -/
def aQueue (kind cls : Nat) : Queue := ⟨kind, cls, 0, 3, 16, 0, 0x20000, 100, 40, 40000, 0, none, false⟩

/-- A machine with queue 5 in slot 2, at a time in ns. -/
def slotted (q : Queue) (now : Nat) (n : Nat) : State :=
  let s := stage 0
  given n { s with clock := { s.clock with ns := now }, mf0 := { s.mf0 with queues := [(5, q)], slots := [(2, ⟨5, 0, none⟩)] } }

theorem witness_slots : (let s0 := stage 0
    let s : State := given 2 { s0 with mf0 := { s0.mf0 with queues := [(5, aQueue 2 1), (6, { aQueue 2 1 with period := 90 })] } }
    (tget s.mf0.slots 2).isNone && decide (s.nextQueue = some 6) && ok .slotSchedule s (fun t => decide (t.mf0.slots = [(2, ⟨6, 0, none⟩)]))
    && (let s := slotted (aQueue 2 1) 40000 2
        s.canonical && trising s.mf0.slots && decide (tget s.mf0.slots 2 = some ⟨5, 0, none⟩) && decide (s.budgetLeft 5 (aQueue 2 1) = 0) && (s.part? 0).isSome
        && ok .overrun s fun t => t.mf0.slots.isEmpty && decide (t.net.msgs.map (fun m => (m.core, m.act.msg.pay)) = [(4096, [5, 0, 40, 100])]))
    && (let s := slotted { aQueue 2 1 with next := some (80, 20) } 100000 5
        ok .queuePeriodStart s fun t => decide ((tget t.mf0.queues 5).map (fun q => (q.start, q.period, q.budget, q.left)) = some (100, 80, 20, 20000)))
    && (let s := slotted (aQueue 2 1) 2000 2
        let s : State := { s with mf0 := { s.mf0 with slots := [(2, ⟨5, 0, some 900⟩)] } }
        ok .slotBusyTimeout s fun t => decide (tget t.mf0.slots 2 = some ⟨5, 0, none⟩))) = true := by decide +kernel

theorem witness_launch_queue : (let s := withWordAt 0x20000 4 (withWordAt 0x20008 3 (withWordAt 0x20100 0x700003000 (withWordAt 0x20108 0x4000 (slotted (aQueue 2 1) 0 2))))
    (match s.served 2 with | some (i, q, _) => decide (i = 5) && decide (q.kind = 2) && !q.inFlight | none => false)
    && decide (s.deviceWord 0 0x20000 = some 4) && decide (s.deviceWord 0 0x20008 = some 3) && decide (s.devicePa 0 0x20100 = some 0x20100)
    && ok .launchQueueServe s (fun t => (match t.net.launches with | [q] => decide (q.desc.n = 7) && decide (q.desc.handler = 0x4000) && decide (q.desc.reef = 3) && decide (q.desc.pri = 1) | _ => false)
      && decide ((tget t.mf0.queues 5).map (·.inFlight) = some true))) = true := by decide +kernel

theorem witness_boundary : (let s0 := stage 0
    let s : State := given 0 { s0 with tasks := [], halves := [], cores := [(0, { Core.reset with qpos := 7 })], parts := [(0, Part.created { placeImage with det := true })] }
    s.canonical && (match s.part? 0 with | some p => s.boundaryDue 0 p && p.loop.isNone && p.reefs.all (fun x => decide (x.2.state ≠ 2)) | none => false) && s.deferred.isEmpty
    && decide (s.net = { Net.reset with nextId := s.net.nextId }) && s.cores.all (fun x => x.2.ingress.isEmpty) && s.clusters.all (fun x => x.2.launches.isEmpty) && decide (s.partOf 0 = some 0)
    && ok .quantumBoundary s (fun t => decide ((t.core 0).qpos = 0) && (match t.part? 0 with | some p => decide (p.quanta = 1) | none => false))) = true := by decide +kernel

/-! ### Witnesses: the host's side -/

/-- A machine whose function 3 is of partition 0 and has connections, with queue 5 as its queue `qidx` in a slot. -/
def host (qidx : Nat) (conns : Table Conn) (d : EventData) : State :=
  let s := slotted { aQueue 1 1 with qidx := qidx } 0 0
  { s with fabric := { s.fabric with vfs := [(3, ⟨some 0, 0x100000000, true, conns, [], [], []⟩)] }, data := { d with n := 3 } }

theorem witness_vf_reset : (let s := (host 1 [] EventData.none).clustered 0 fun c => { c with launches := [] }
    let x := (host 1 [] EventData.none).clustered 0 fun c => { c with launches := [(1, { Launch.fresh (desc 3) with desc := { desc 3 with vf := some 3 } }), (2, Launch.fresh (desc 3))] }
    let y : State := { copying true [(0, 3)] 0 (some 3) with data := { EventData.none with n := 3 } }
    decide (s.data.n ≠ 0 ∧ s.data.n ≤ 1024) && s.canonical && s.net.cmds.isEmpty && (s.cluster 0).launches.isEmpty
    && ok .vfReset s (fun t => t.mf0.queues.isEmpty && decide (t.vf 3 = { Vf.reset with part := some 0 }))
    && x.canonical && x.parts.all (fun p => p.2.reefs.all fun w => w.2.launches.all fun l => !l.again) && ok .vfReset x (fun t => decide ((t.cluster 0).launches.map (·.1) = [2]))
    && y.canonical && y.net.cmds.all (fun q => !q.erasure && decide (q.vf = some 3)) && decide (y.net.cmds.length = 1)
    && ok .vfReset y (fun t => t.net.cmds.isEmpty && stands t 0x100000021)) = true := by decide +kernel

/-- A vsock packet for the context of partition 0. -/
def packet (op : BitVec 16) (payload : List Byte) : VsockPkt := ⟨2, 0x10000, 700, 80, true, op, 0, 0, payload⟩

/-- An event with a packet. -/
def sending (p : VsockPkt) : EventData := { EventData.none with pkt := some p }

/-- An open connection of that packet, its ring of 1 KiB at 0x30000, ending at core 4096's endpoint. -/
def aConn : Conn := ⟨7, 2, 700, 80, 0x10000, 0x4000, 2, 0x30000, 1024, 1020, true⟩

/-- The operation codes of the mapper's answers that wait for the host. -/
def toldHost (t : State) : List Nat := (t.vf 3).answers.map fun b => ofBytes ((b.drop 30).take 2)

/-- A partition whose receive ring at 0x30000 stands so. -/
def withRing (x : RecvRing) (s : State) : State := s.parted 0 fun p => { p with rings := [(0x30000, x)] }

theorem witness_vsock_refused : (let s (p : VsockPkt) (l : Table Conn) := host 1 l (sending p)
    ((s (packet 5 []) []).virtqueue 3 1).isSome && ok .vsockPacket (s { packet 5 [] with dstCid := 9 } []) (fun t => decide (toldHost t = [3]))
    && (let x := { s (packet 1 []) [] with stations := [] }
        (match x.virtqueue 3 1 with | some (_, p) => decide (x.portEntry 0 p 80 = none) | none => false) && ok .vsockPacket x fun t => decide (toldHost t = [3]))
    && decide (((s (packet 5 []) []).vf 3).conn (packet 5 []) = none) && ok .vsockPacket (s (packet 5 []) []) (fun t => decide (toldHost t = [3]))) = true := by decide +kernel

theorem witness_vsock_open : (let s := withWordAt 0 (2 ^ 63 + 1 * 2 ^ 32 + 80) (withWordAt 8 0x10000 (host 1 [] (sending (packet 1 []))))
    (match s.virtqueue 3 1 with | some (_, p) => (s.portEntry 0 p 80).isSome | none => false) && decide ((s.vf 3).conn (packet 1 []) = none)
    && decide ((List.range 4096).find? (fun i => (tget (s.vf 3).conns i).isNone) = some 0)
    && ok .vsockPacket s (fun t => decide (toldHost t = [2]) && decide ((t.vf 3).conns.map (fun c => (c.1, c.2.ringBytes, c.2.srcPort, c.2.stream)) = [(0, 1024, 700, true)]))
    && (let x (l : List (BitVec 64 × BitVec 32 × BitVec 32 × Bool)) : State := { s with
          fabric := { s.fabric with vfs := [(3, { s.vf 3 with asked := l })] }, data := { (sending (packet 2 [])) with n := 3 } }
        ok .vsockPacket (x [(packet 2 []).key]) (fun t => (toldHost t).isEmpty && (t.vf 3).asked.isEmpty && decide ((t.vf 3).conns.length = 1))
        && ok .vsockPacket (x []) (fun t => decide (toldHost t = [3]) && (t.vf 3).conns.isEmpty))) = true := by decide +kernel

theorem witness_vsock_data : (let s (op : BitVec 16) := withRing ⟨1020, [(1000, 20)]⟩ (host 1 [(4, aConn)] (sending (packet op [1, 2, 3, 4, 5])))
    let full := withRing ⟨1020, [(0, 1020)]⟩ (s 5)
    decide (((s 5).vf 3).conn (packet 5 [1, 2, 3, 4, 5]) = some (4, aConn)) && ok .vsockPacket (s 3) (fun t => (t.vf 3).conns.isEmpty)
    && ok .vsockPacket (s 4) (fun t => decide (toldHost t = [3]) && (t.vf 3).conns.isEmpty) && ok .vsockPacket (s 7) (fun t => decide (toldHost t = [6]))
    && !(full.ringOf 0 0x30000).fits 1024 5 && ok .vsockPacket full (fun t => decide (t = full))
    && (s 5).canonical && ((s 5).ringOf 0 0x30000).fits 1024 5 && decide ((s 5).ringPas 0 0x30000 1024 1020 5 = some [0x303FC, 0x303FD, 0x303FE, 0x303FF, 0x30000])
    && decide (epPkg (zx aConn.endpoint) = (s 5).package.id.toNat) && decide (epKind (zx aConn.endpoint) ≤ 1)
    && ok .vsockPacket (s 5) (fun t => decide (memBytes t.mem 0x303FC 4 = [1, 2, 3, 4]) && decide (memGet t.mem 0x30000 = 5) && decide (t.ringOf 0 0x30000 = ⟨1025, [(1000, 20), (1020, 5)]⟩)
      && decide (t.net.msgs.map (fun m => m.act.msg.pay) = [[2, 0x2BC00000050, 0x303FC, 5, 4]]))) = true := by decide +kernel

theorem witness_host_ring : (let s := withWordAt 0x20000 4 (withWordAt 0x20008 3 (withWordAt 0x20118 2 (withWordAt 0x20130 0x40000 (withWordAt 0x40000 0xBBAA
      (host 0 [] { EventData.none with yes := true })))))
    let answers := host 0 [] { EventData.none with yes := true }
    let answers : State := { answers with fabric := { answers.fabric with vfs := [(3, { answers.vf 3 with answers := [[7], [8]] })] } }
    (answers.virtqueue 3 0).isSome && ok .hostSendRingService answers (fun t => decide ((t.vf 3).toHost = [[7]]) && decide ((t.vf 3).answers = [[8]]))
    && (let none_ := host 1 [] { EventData.none with yes := true }
        (none_.virtqueue 3 0).isNone && ok .hostSendRingService none_ fun t => decide (t = none_))
    && s.canonical && s.sound && (s.virtqueue 3 0).isSome && (s.vf 3).answers.isEmpty && decide (s.deviceWord 0 0x20000 = some 4) && decide (s.deviceWord 0 0x20008 = some 3) && decide (s.devicePa 0 0x20008 = some 0x20008)
    && decide (s.devicePa 0 0x20100 = some 0x20100) && decide (s.ringPas 0 (memWord s.mem 0x20130) (2 ^ 56) 0 (memNat s.mem 0x20118 4) = some [0x40000, 0x40001])
    && ok .hostSendRingService s (fun t => decide ((t.vf 3).toHost.map (·.drop 44) = [[0xAA, 0xBB]]) && decide (memWord t.mem 0x20008 = 4))) = true := by decide +kernel

theorem witness_negotiation : (let s := host 1 [] { EventData.none with word := 0x123456789 }
    decide (s.data.n ≤ 1024) && ok .virtioFeatureNegotiation s (fun t => decide ((t.vf 3).features = 0x120000000) && (t.vf 3).featuresOk)) = true := by decide +kernel

theorem witness_ethernet : (let s0 := stage 0
    let ep := BitVec.ofNat 32 (s0.package.id.toNat * 2 ^ 20)
    let s (x : RecvRing) : State := withRing x { s0 with fabric := { s0.fabric with ports := [(2, { Port.reset with ethernet := true, part := some 0 })] }
                                                         data := { EventData.none with n := 2, bytes := [7, 8, 9] }
                                                         parts := [(0, Part.created { placeImage with netRing := 0x30000, netBytes := 64, netEndpoint := ep })] }
    let x := s ⟨62, [(60, 2)]⟩
    x.canonical && (match x.part? 0 with | some p => p.running && decide (x.ringPas 0 p.image.netRing p.image.netBytes 62 3 = some [0x3003E, 0x3003F, 0x30000]) | none => false)
    && decide (epKind (zx ep) ≤ 1) && decide (epPkg (zx ep) = x.package.id.toNat) && x.ownsCore 0 (epCore (zx ep)) && (x.ringOf 0 0x30000).fits 64 3
    && ok .ethernetFrameReceive x (fun t => decide (memBytes t.mem 0x3003E 2 = [7, 8]) && decide (memGet t.mem 0x30000 = 9) && decide (t.ringOf 0 0x30000 = ⟨65, [(60, 2), (62, 3)]⟩)
      && decide (t.net.msgs.map (fun m => (m.core, m.act.msg.pay)) = [(0, [0, 0, 0x3003E, 3, 0])]))
    && !((s ⟨62, [(0, 62)]⟩).ringOf 0 0x30000).fits 64 3 && ok .ethernetFrameReceive (s ⟨62, [(0, 62)]⟩) (fun t => decide (t = s ⟨62, [(0, 62)]⟩))) = true := by decide +kernel

theorem witness_console : (let s (features : BitVec 64) : State := { stage 0 with fabric := { (stage 0).fabric with consoleFeatures := features } }
    ok .consoleCommand (s 0) (fun t => decide (t = s 0)) && ok .consoleCommand (s 0x100000000) (fun t => decide (t.fabric.console.length = 1))) = true := by decide +kernel

theorem witness_management_page : (let s0 := stage 0
    let s : State := given 0 (withWordAt 0x50000 1 { s0 with clock := { s0.clock with ns := 20000 }, parts := [(0, Part.created { placeImage with mgmtPage := 0x50000 })] })
    s.canonical && (match s.part? 0 with | some p => p.running && decide (p.polled + 10000 ≤ s.clock.ns) && decide (s.devicePa 0 p.image.mgmtPage.toNat = some 0x50000) | none => false)
    && decide (memNat s.mem 0x50000 8 ≠ 0)) = true := by decide +kernel

/-! ### Witnesses: the package -/

/-- A machine with these event data. -/
def told (n m k : Nat) (yes : Bool) (f : State → State) : State := { f (stage 0) with data := { EventData.none with n := n, m := m, k := k, yes := yes } }

theorem witness_links : (ok .ucieLaneRepair (told 3 0 0 false id) (fun t => decide (t = told 3 0 0 false id))
    && (let counts (n : Nat) (c : Nat) := (told n 0 0 true id).canonical && ok .ucieLaneRepair (told n 0 0 true id) fun t =>
          decide (tgetD t.fabric.unitErrors ((Source.link n).key + 6) 0 = 1) && (match t.part? 0 with | some p => decide (tgetD p.errors 6 0 = BitVec.ofNat 64 c) | none => false)
        counts 3 1 && counts 4 0 && (told 3 0 0 true id).usesLink 3 (Part.created placeImage) && !(told 4 0 0 true id).usesLink 4 (Part.created placeImage))
    && (let s := told 5 3 0 false id
        decide (s.data.n < portCount s.package.fj20) && (s.port 5).up && !(s.port 5).ethernet
        && ok .nimoshLaneLoss s (fun t => decide (t.port 5 = { Port.reset with lanes := 3, resends := 3 }) && decide ((t.port 5).width = 2))
        && ok .nimoshLinkRetry s (fun t => decide ((t.port 5).resends = 1)))
    && (let s := told 5 0 0 false fun s => { s with fabric := { s.fabric with ports := [(5, { Port.reset with lanes := 1 })] } }
        ok .nimoshLaneLoss s fun t => decide (t.port 5 = { Port.reset with lanes := 0, up := false }))) = true := by decide +kernel

theorem witness_self_test : (let s (m : Nat) (spares : Nat) (die : Option Nat) : State :=
      let x : State := { told 9 m 0 false id with data := { EventData.none with n := 9, m := m, bytes := [0x20, 0] } }
      { x with fabric := { x.fabric with spareDie := die } }.clustered 0 fun c => { c with spares := spares }
    let ready (s : State) := decide (s.partOf 9 = some 0) && decide (s.twins 9 = [9]) && !(s.core 9).failed && s.tasks.all (fun x => decide (x.2.core ≠ 9)) && s.canonical
      && s.fabric.lostStays.isEmpty && s.fabric.votes.isEmpty && s.fabric.decided.isEmpty && decide (s.fabric.group = Group.none)
    let id := (stage 0).package.id.toNat
    ready (s 0 0 (some 8)) && ok .coreSelfTest (s 0 0 (some 8)) (fun t => (t.core 9).failed && decide (t.fabric.decided = [(8, 0)]) && t.fabric.votes.isEmpty)
    && ready (s 1 2 none) && ok .coreSelfTest (s 1 2 none) (fun t => (t.core 9).failed && t.fabric.decided.isEmpty && decide (t.fabric.votes.map (fun v => (v.cls, v.unit, v.voters)) = [(8, 0, [(id, false), (id, true)])]))
    && (let x := (s 0 2 none).poked (scratchAt 9 0x100) (toBytes 8 0x99)
        ready x && ok .coreSelfTest x (fun t => !(t.core 9).failed && decide ((t.cluster 0).spares = 1) && decide (memNat t.mem (scratchAt 9 0x100) 8 = 0)))) = true := by decide +kernel

/-- An action that a vote has decided. -/
def decided (cls unit : Nat) (s : State) : State := { s with fabric := { s.fabric with decided := [(cls, unit)] } }

theorem witness_die_loss : (let s := told 0 5 1 false fun s => decided 8 0 { s with parts := [], tasks := [] }
    decide (s.fabric.decided.head? = some (8, s.data.n)) && decide (s.data.n < s.package.dies) && s.detImage.isNone && s.canonical && decide (s.dieOf 0 = 0)
    && ok .computeDieLoss s (fun t => decide (t.half 0 = Half.reset) && t.fabric.decided.isEmpty
      && decide (tget t.fabric.spar 0 = some (match s.fabric.spareDie with | some phys => ⟨true, false, s.package.id, phys⟩ | none => ⟨true, true, 5, 1⟩)))) = true := by decide +kernel

theorem witness_mf_loss : (let s := told 0 0 0 false (decided 9 0)
    s.canonical && decide (s.fabric.decided.head? = some (9, 0)) && decide (0 < s.package.mfDies) && ok .mfDieLoss s (fun t => t.package.lost)
    && (let x := told 1 0 0 false fun s => decided 9 1 { s with parts := [(0, Part.created { placeImage with channels := [200] })] }
        x.canonical && (match x.part? 0 with | some p => usesMf x.extent 1 p | none => false) && decide (1 < x.package.mfDies)
        && ok .mfDieLoss x (fun t => (match t.part? 0 with | some p => !p.running | none => false) && t.tasks.isEmpty))) = true := by decide +kernel

theorem witness_package_loss : (let n := (stage 0).package.id.toNat
    ok .packageLoss (told n 0 0 false (decided 10 n)) (fun t => t.package.lost)
    && (let s := told (n + 1) 0 0 false fun s => decided 10 (n + 1) { s with fabric := { s.fabric with standby := some 9 } }
        let l (e : BitVec 32) : Launch := Launch.fresh { desc 3 with reply := e }
        let x := (s.clustered 0 fun c => { c with launches := [(1, l (BitVec.ofNat 32 ((n + 1) * 2 ^ 20))), (2, l (BitVec.ofNat 32 (n * 2 ^ 20)))] }).netted fun m => { m with
          atoms := [{ atomReq false 0 true with pa := (n + 2) * 2 ^ 40 + 0x5008 }] }
        s.canonical && s.net.atoms.isEmpty && decide (s.fabric.decided.head? = some (10, n + 1))
          && decide (9 ≠ s.package.id.toNat) && ok .packageLoss s (fun t => t.fabric.standby.isNone && decide (t.fabric.lostPackages = [n + 1]) && !t.package.lost)
          && (let y : State := { s with parts := [], tasks := [], clusters := [], fabric := { s.fabric with standby := some n, peers := [(n + 1, ⟨[placeImage], [[(0, Reef.root), (5, { Reef.root with depth := 1, pres := [⟨false, 0, 0x100000, 128, true⟩] })]]⟩)] } }
              y.canonical && y.accepts placeImage && decide (y.freePart = 0)
              && ok .packageLoss y fun t => decide (t.package.id.toNat = n + 1) && (match t.part? 0, t.reef? 0 5 with
                | some p, some w => p.running && decide (p.image = placeImage) && decide (w.state = 2) && w.taken && decide (w.pres = [⟨false, 0, 0x100000, 128, true⟩]) | _, _ => false))
          && ok .packageLoss { x with net := { x.net with atoms := [] } } (fun t => decide ((t.cluster 0).launches.map (fun l => (l.1, l.2.withdrawn)) = [(1, true), (2, false)]))
          && x.net.atoms.all (fun q => decide (q.package n = n + 1))
          && ok .packageLoss { x with halves := (loading (stage 0)).halves } fun t => t.net.atoms.isEmpty && (match (t.half 0).traps with | [p] => decide (p.cause = .access) && decide (p.faddr = 0x5008) | _ => false))
    && (let s := told (n + 1) 0 0 false (decided 10 (n + 1))
        s.fabric.standby.isNone && ok .packageLoss s (fun t => t.fabric.decided.isEmpty && t.fabric.lostPackages.isEmpty))) = true := by decide +kernel

/-- A diagnosis of this package's forestay. -/
def diagnosis (cls : Nat) : Diagnosis := ⟨cls, 4, 7, (stage 0).package.id.toNat, false⟩

/-- The event that brings it. -/
def voting (d : Diagnosis) (votes : List Vote) : State := let s := stage 0
  { s with fabric := { s.fabric with votes := votes }, data := { EventData.none with vote := some d } }

theorem witness_votes : (let s := voting (diagnosis 9) []
    let mine (s : State) (d : Diagnosis) := s.isVoter d && !s.fabric.lostStays.contains (d.package, d.backstay)
    mine s (diagnosis 9) && !s.reached ⟨9, 4, 7, [((diagnosis 9).package, false)], 0⟩ && ok .diagnosisVote s (fun t => decide (t.fabric.votes.map (·.voters) = [[((diagnosis 9).package, false)]]))
    && (let d := { diagnosis 9 with backstay := true }
        let x := voting d [⟨9, 4, 7, [(d.package, false)], 0⟩]
        mine x d && x.reached ⟨9, 4, 7, [(d.package, false), (d.package, true)], 0⟩ && ok .diagnosisVote x (fun t => t.fabric.votes.isEmpty && decide (t.fabric.decided = [(9, 4)]))
        && (let late : State := { x with clock := { x.clock with ns := 20000000 } }
            late.expired ⟨9, 4, 7, [(d.package, false)], 0⟩ && ok .diagnosisVote late fun t => t.fabric.votes.isEmpty && t.fabric.decided.isEmpty)
        && ok .diagnosisVote { x with fabric := { x.fabric with lostStays := [(d.package, true)] } } (fun t => decide (t.fabric.votes.length = 1))
        && ok .diagnosisVote (voting (diagnosis 9) x.fabric.votes) fun t => decide (t.fabric.votes = x.fabric.votes))) = true := by decide +kernel

theorem witness_vote_timeout : (let s := told 0 0 0 false fun s => { s with clock := { s.clock with ns := 10000000 }, fabric := { s.fabric with votes := [⟨9, 4, 7, [], 0⟩] } }
    ok .voteTimeout s (fun t => t.fabric.votes.isEmpty && decide (t.net.msgs.map (fun m => (m.core, m.act.msg.pay)) = [(4096, [7, 0xFFFFFFFF, 9])]))) = true := by decide +kernel

theorem witness_bring_up : (let s := State.reset
    !s.fabric.booted && s.parts.isEmpty && s.fabric.flash.isEmpty && ok .powerOnBringUp s (fun t => t.fabric.booted && t.clock.locked)
    && (let members (l : List Nat) : List (Nat × Nat) := l.map fun n => (n, n)
        let with_ (g : Group) : State := { s with fabric := { s.fabric with config := (g, some 40) } }
        let good : Group := ⟨members (List.range 14), members [20, 21]⟩
        let bad : Group := ⟨members (List.range 14), [(20, 0), (21, 21)]⟩
        good.ok && !bad.ok && ok .powerOnBringUp (with_ good) (fun t => decide (t.fabric.group = good) && decide (t.fabric.standby = some 40))
          && ok .powerOnBringUp (with_ bad) fun t => decide (t.fabric.group = s.fabric.group) && decide (t.fabric.standby = s.fabric.standby))
    && (let x : State := { s with fabric := { s.fabric with flash := [placeImage] } }
        x.accepts placeImage && ok .powerOnBringUp x fun t => decide ((t.cluster 0).part = some 0) && decide ((t.core 4096).inbox3.q.length = 1) && (t.part? 0).isSome)) = true := by decide +kernel

theorem witness_clock : (ok .clockStepDown (told 3000 30 25 false id) (fun t => decide (t.fabric.step = 1) && decide (t.fabric.watts = 3000))
    && (let s := told 61 0 0 false id
        s.canonical && ok .inletOverLimit s (fun t => (match t.part? 0 with | some p => !p.running | none => false) && t.tasks.isEmpty))
    && ok .ptpMessage (told 500 9 0 false id) (fun t => t.clock.locked && decide (t.clock.ns = 500)) && ok .ptpLockLoss (told 0 0 0 false id) (fun t => !t.clock.locked)) = true := by decide +kernel

theorem witness_teardown : (let s := { slotted (aQueue 2 1) 0 0 with data := EventData.none }
    s.canonical && (s.part? 0).isSome && ok .partitionTeardown s (fun t => (t.part? 0).isNone && t.mf0.queues.isEmpty && t.tasks.isEmpty && decide ((t.cluster 0).part = none))) = true := by decide +kernel

end Sys2Proof.Tests
end

section
/-! PROOFS. Numbers and bits of the scalar instructions: the condition codes, sign extension, and the bits of a predicate. -/
namespace Sys2Proof.Machine

/-! ### Numbers -/

/-- The signed value of a pattern is its two's complement reading (R2). -/
theorem sval_toNat {n : Nat} (x : BitVec n) : sval n x.toNat = x.toInt := by
  cases n with
  | zero => simp [BitVec.of_length_zero, sval]
  | succ n =>
    have hp : 2 ^ (n + 1) = 2 * 2 ^ n := Nat.pow_succ'
    rw [sval, BitVec.toInt_eq_toNat_cond, Nat.add_sub_cancel, hp]
    exact if_congr (by omega) rfl rfl

/-- Sign extension, as a number. -/
theorem sx_eq_wordI_sval {n : Nat} (x : BitVec n) : sx x = wordI (sval n x.toNat) := by
  rw [sval_toNat]; rfl

/-- The conditions of R107 on words are those on the numbers that they hold. -/
theorem condHolds_eq_condition (code : Nat) (a b : Word) : condHolds code a b = condition code a b := by
  match code with
  | 0 | 1 => exact Bool.eq_iff_iff.mpr (by simp [condHolds, condition, BitVec.toNat_inj])
  | 2 => exact BitVec.slt_eq_decide
  | 3 => exact BitVec.sle_eq_decide
  | 4 => exact BitVec.ult_eq_decide
  | 5 => exact BitVec.ule_eq_decide
  | 6 =>
    have hand : Nat.land a.toNat b.toNat = (a &&& b).toNat := rfl
    exact Bool.eq_iff_iff.mpr (by simp only [condHolds, condition, hand]; simp [← BitVec.toNat_inj])
  | _ + 7 => rfl

/-- CMPI's condition code is IMM[12:10] (R108). -/
theorem cmpi_code (imm : BitVec 13) : (imm.extractLsb' 10 3).toNat = imm.toNat / 1024 := by
  have h := imm.isLt
  simp only [BitVec.extractLsb'_toNat, Nat.shiftRight_eq_div_pow]
  omega

/-- CMPI's immediate is IMM[9:0], sign-extended (R108). -/
theorem cmpi_immediate (imm : BitVec 13) : sx (imm.extractLsb' 0 10) = wordI (sval 10 (imm.toNat % 1024)) := by
  rw [sx_eq_wordI_sval]; rfl

/-! ### Bits -/

theorem bit_eq_testBit (x i : Nat) : bit x i = x.testBit i := Nat.testBit_eq_decide_div_mod_eq.symm

/-- The bits that are set, counted one by one. -/
theorem popCount_eq_length (n : Nat) : ∀ x, popCount n x = ((List.range n).filter fun i => x.testBit i).length := by
  induction n with
  | zero => exact fun _ => rfl
  | succ n ih =>
    intro x
    have hrest : (List.filter (fun i => x.testBit i) ((List.range n).map Nat.succ)).length = popCount n (x / 2) := by
      rw [ih, List.filter_map, List.length_map]
      simp only [Function.comp_def, Nat.succ_eq_add_one, Nat.testBit_succ]
    have hlow : (x.testBit 0 = true ∧ x % 2 = 1) ∨ (x.testBit 0 = false ∧ x % 2 = 0) := by
      rw [Nat.testBit_zero, decide_eq_true_iff, decide_eq_false_iff_not]; omega
    rw [List.range_succ_eq_map, popCount, ← hrest, List.filter_cons]
    rcases hlow with ⟨h0, h1⟩ | ⟨h0, h1⟩
    · simp only [h0, h1, if_true, List.length_cons]; omega
    · simp only [h0, h1, Bool.false_eq_true, if_false, Nat.zero_add]

/-- The lowest bit that is set, where one is (R111). -/
theorem lowestSet_some {n x i : Nat} (h : lowestSet n x = some i) :
    i < n ∧ x.testBit i = true ∧ ∀ j, j < i → x.testBit j = false := by
  simp only [lowestSet, List.find?_range_eq_some, bit_eq_testBit, Bool.not_eq_true'] at h
  obtain ⟨hi, hn, hlow⟩ := h
  exact ⟨List.mem_range.mp hn, hi, hlow⟩

/-- No bit among n is set. -/
theorem lowestSet_none {n x : Nat} (h : lowestSet n x = none) : ∀ i, i < n → x.testBit i = false := by
  simpa [lowestSet, bit_eq_testBit] using h

/-- The bits of a 64-bit slice of a predicate (R111). -/
theorem slice_bit (m : Mask) (j : Nat) {n : Nat} (hn : n < 64) : (slice m j).getLsbD n = m.getLsbD (64 * j + n) := by
  simp [slice, hn]

/-- The bits of a predicate with one 64-bit slice replaced (R111). -/
theorem setSlice_bit (m : Mask) (j : Nat) (w : Word) {n : Nat} (hn : n < 1024) :
    (setSlice m j w).getLsbD n = if n / 64 = j then w.getLsbD (n % 64) else m.getLsbD n := by
  simp only [setSlice, BitVec.getLsbD_or, BitVec.getLsbD_and, BitVec.getLsbD_not, BitVec.getLsbD_shiftLeft,
    BitVec.getLsbD_setWidth, BitVec.getLsbD_allOnes, hn, decide_true, Bool.true_and]
  by_cases hlow : n < 64 * j
  · rw [if_neg (by omega)]
    simp [hlow]
  · have hin : n - 64 * j < 1024 := by omega
    by_cases hj : n / 64 = j
    · have hmod : n - 64 * j = n % 64 := by omega
      have hmod64 : ¬ 64 ≤ n % 64 := by omega
      have hmask : n % 64 < 1024 := by omega
      simp [hj, hlow, hmod, hmod64, hmask]
    · have hout : 64 ≤ n - 64 * j := by omega
      simp [hj, hlow, hin, Nat.not_lt.mpr hout, BitVec.getLsbD_of_ge w _ hout]

end Sys2Proof.Machine
end

section
/-! PROOFS. What an instruction that runs sees of the half at issue. -/
namespace Sys2Proof.Machine

variable {s : State} {i : Instr}

/-- The value of a scalar A field. -/
theorem seen_a (h : s.runs i = true) {r : Nat} {w : Bool}
    (hA : (operandsOf i).srcs.find? (fun x => x.fld == 1) = some ⟨1, .s r, w⟩) : (s.seen i).a = readS s.curHalf r := by
  rw [State.seen, ctx_a, fieldValue_fresh _ _ (State.ready_fresh (State.runs_ready h)), hA]

/-- The value of a scalar B field. -/
theorem seen_b (h : s.runs i = true) {r : Nat} {w : Bool}
    (hB : (operandsOf i).srcs.find? (fun x => x.fld == 2) = some ⟨2, .s r, w⟩) : (s.seen i).b = readS s.curHalf r := by
  rw [State.seen, ctx_b, fieldValue_fresh _ _ (State.ready_fresh (State.runs_ready h)), hB]

/-- The predicate of an instruction that names one. -/
theorem seen_kmask (h : s.runs i = true) {k : BitVec 3} (hk : (operandsOf i).k = some k) :
    (s.seen i).kmask = readK s.curHalf k.toNat := by
  rw [State.seen, ctx_kmask (State.ready_fresh (State.runs_ready h)), hk]; rfl

theorem seen_addr (h : s.runs i = true) : (s.seen i).addr = pcOf s.curHalf :=
  ctx_addr (State.ready_fresh (State.runs_ready h))

end Sys2Proof.Machine
end

section
/-! PROOFS. The comparisons and the predicate instructions (R107, R108, R111). -/
namespace Sys2Proof.Machine

variable {s : State} {i : Instr} {f : FA}

/-! ### The shared shapes -/

/-- An instruction that runs and writes kD from the half at issue (R111). -/
theorem writeK_ran (g : Ctx → Half → Mask) (h : s.runs i = true) (d : Nat) :
    perform (issue i (operandsOf i) fun c => finish c fun x => writeK x d (g c x)) s
      = .next (s.ran i (writeK s.curHalf d (g (s.seen i) s.curHalf))) :=
  perform_ran h (fun c x => writeK x d (g c x)) rfl (by simpa using State.ready_fresh (State.runs_ready h))

/-- A comparison that runs writes its condition to every bit of kD (R107). -/
theorem scalarCmp_ran {code : Nat} (hsp : operandsOf i = specCmp f) (h : s.runs i = true) :
    perform (scalarCmp i f code) s = .next (s.ran i (writeK s.curHalf (f.d.toNat % 8)
      (if condition code (readS s.curHalf f.a.toNat) (readS s.curHalf f.b.toNat) then BitVec.allOnes 1024 else 0))) := by
  have ha : (s.seen i).a = readS s.curHalf f.a.toNat := seen_a h (w := f.wa) (by rw [hsp]; rfl)
  have hb : (s.seen i).b = readS s.curHalf f.b.toNat := seen_b h (w := f.wb) (by rw [hsp]; rfl)
  rw [scalarCmp, ← hsp, ← ha, ← hb, ← condHolds_eq_condition]
  exact writeK_ran (fun c _ => allBits (condHolds code c.a c.b)) h _

/-- An instruction that runs and writes kD from kA and kB (R111). -/
theorem predAB_ran (hsp : operandsOf i = ⟨some f.k, true,
      [⟨1, .k (f.a.toNat % 8), f.wa⟩, ⟨2, .k (f.b.toNat % 8), f.wb⟩], [.k (f.d.toNat % 8)]⟩)
    (op : Mask → Mask → Mask) (h : s.runs i = true) :
    perform (predAB i f op) s = .next (s.ran i (writeK s.curHalf (f.d.toNat % 8)
      (op (readK s.curHalf (f.a.toNat % 8)) (readK s.curHalf (f.b.toNat % 8))))) := by
  rw [predAB, ← hsp]
  exact writeK_ran (fun _ x => op (readK x (f.a.toNat % 8)) (readK x (f.b.toNat % 8))) h _

/-- An instruction that runs and writes sD from kA (R111). -/
theorem predToS_ran (hsp : operandsOf i = ⟨some f.k, true, [⟨1, .k (f.a.toNat % 8), f.wa⟩], [.s f.d.toNat]⟩)
    (op : Mask → Word) (h : s.runs i = true) :
    perform (predToS i f op) s = .next (s.ran i (writeS s.curHalf f.d.toNat (op (readK s.curHalf (f.a.toNat % 8))))) := by
  rw [predToS, ← hsp]
  exact perform_ran h (fun _ x => writeS x f.d.toNat (op (readK x (f.a.toNat % 8)))) rfl
    (by simpa using State.ready_fresh (State.runs_ready h))

/-! ### Comparisons -/

/-- Every SCMP instruction is a comparison with its code (R107). -/
theorem exec_comparison {code : Nat} (hi : comparison i = some (f, code)) (s : State) :
    operandsOf i = specCmp f ∧ exec i s = perform (scalarCmp i f code) s := by
  unfold comparison at hi
  split at hi
  case h_8 => exact absurd hi (by simp)
  all_goals
    cases hi
    exact ⟨rfl, rfl⟩

/-- CMPI writes its condition on sA and the immediate to every bit of kD (R108). -/
theorem exec_cmpi {f : FI} (h : s.runs (.cmpi f) = true) :
    exec (.cmpi f) s = .next (s.ran (.cmpi f) (writeK s.curHalf (f.d.toNat % 8)
      (if condition (f.imm.toNat / 1024) (readS s.curHalf f.a.toNat) (wordI (sval 10 (f.imm.toNat % 1024)))
       then BitVec.allOnes 1024 else 0))) := by
  have ha : (s.seen (.cmpi f)).a = readS s.curHalf f.a.toNat := seen_a h (w := f.wa) rfl
  rw [← ha, ← cmpi_code, ← cmpi_immediate, ← condHolds_eq_condition]
  exact writeK_ran (fun c _ => allBits (condHolds (f.imm.extractLsb' 10 3).toNat c.a (sx (f.imm.extractLsb' 0 10)))) h _

/-- An instruction that is present, that its core may run, and that breaks a rule of its encoding traps ILL (R75, R76). -/
theorem exec_malformed (hop : (operands i).isSome = true) (hb : s.between = true) (ha : s.absent s.curHalf i = false)
    (hsys : isSys i = false) (hwf : i.wf = false) : exec i s = .next ((raiseIssue s.cur .ill 0 0).run s) := by
  obtain ⟨body, hbody⟩ := exec_is_issue i hop
  obtain ⟨t, ht, hcheck⟩ := issueCheck_between (i := i) (sp := operandsOf i) hb
  have hverdict : issueCheck s s.cur i (operandsOf i) = .trap .ill 0 0 := by
    have ha' : s.absent (s.half s.cur) i = false := ha
    rw [hcheck]; simp [ha', hsys, hwf]
  rw [hbody, perform, run_issue_check s i _ body ht, hverdict]

/-! ### Predicates -/

/-- KAND, KOR and KXOR combine kA and kB bit by bit (R111). -/
theorem exec_predicate2 {op : Bool → Bool → Bool} (hi : predicate2 i = some (f, op)) (h : s.runs i = true) :
    ∃ m : Mask, exec i s = .next (s.ran i (writeK s.curHalf (f.d.toNat % 8) m)) ∧
      ∀ n, n < 1024 → m.getLsbD n =
        op ((readK s.curHalf (f.a.toNat % 8)).getLsbD n) ((readK s.curHalf (f.b.toNat % 8)).getLsbD n) := by
  unfold predicate2 at hi
  split at hi
  case h_1 => cases hi; exact ⟨_, predAB_ran rfl _ h, fun _ _ => BitVec.getLsbD_and⟩
  case h_2 => cases hi; exact ⟨_, predAB_ran rfl _ h, fun _ _ => BitVec.getLsbD_or⟩
  case h_3 => cases hi; exact ⟨_, predAB_ran rfl _ h, fun _ _ => BitVec.getLsbD_xor⟩
  case h_4 => exact absurd hi (by simp)

/-- KNOT complements kA (R111). -/
theorem exec_knot (h : s.runs (.knot f) = true) :
    exec (.knot f) s = .next (s.ran (.knot f) (writeK s.curHalf (f.d.toNat % 8) (~~~ readK s.curHalf (f.a.toNat % 8)))) :=
  writeK_ran (fun _ x => ~~~ readK x (f.a.toNat % 8)) h _

/-- KMOVS replaces one 64-bit slice of kD by sA (R111). -/
theorem exec_kmovs (h : s.runs (.kmovs f) = true) :
    exec (.kmovs f) s = .next (s.ran (.kmovs f) (writeK s.curHalf (f.d.toNat % 8)
      (setSlice (readK s.curHalf (f.d.toNat % 8)) (f.b.toNat % 16) (readS s.curHalf f.a.toNat)))) := by
  rw [← seen_a (i := .kmovs f) h (w := f.wa) rfl]
  exact writeK_ran (fun c x => setSlice (readK x (f.d.toNat % 8)) (f.b.toNat % 16) c.a) h _

/-- KMOVK reads one 64-bit slice of kA (R111). -/
theorem exec_kmovk (h : s.runs (.kmovk f) = true) :
    exec (.kmovk f) s = .next (s.ran (.kmovk f) (writeS s.curHalf f.d.toNat
      (slice (readK s.curHalf (f.a.toNat % 8)) (f.b.toNat % 16)))) :=
  predToS_ran rfl (fun m => slice m (f.b.toNat % 16)) h

/-- KPOPC counts the bits of kA (R111). -/
theorem exec_kpopc (h : s.runs (.kpopc f) = true) :
    exec (.kpopc f) s = .next (s.ran (.kpopc f) (writeS s.curHalf f.d.toNat
      (word ((List.range 1024).filter fun n => (readK s.curHalf (f.a.toNat % 8)).getLsbD n).length))) := by
  have hcount := popCount_eq_length 1024 (readK s.curHalf (f.a.toNat % 8)).toNat
  simp only [BitVec.testBit_toNat] at hcount
  rw [← hcount]
  exact predToS_ran rfl (fun m => word (popCount 1024 m.toNat)) h

/-- What KFIRST gives of a predicate: all ones where no bit is set, and otherwise the lowest bit that is (R111). -/
def IsFirstSet (m : Mask) (w : Word) : Prop :=
  w = wordI (-1) ∧ m = 0 ∨ w.toNat < 1024 ∧ m.getLsbD w.toNat = true ∧ ∀ n, n < w.toNat → m.getLsbD n = false

/-- No bit is set. -/
theorem isFirstSet_of_none {m : Mask} (h : lowestSet 1024 m.toNat = none) : IsFirstSet m (BitVec.allOnes 64) := by
  refine .inl ⟨by decide, BitVec.eq_of_getLsbD_eq fun n hn => ?_⟩
  rw [← BitVec.testBit_toNat, lowestSet_none h n hn, BitVec.ofNat_eq_ofNat, BitVec.getLsbD_zero]

theorem isFirstSet_of_some {m : Mask} {k : Nat} (h : lowestSet 1024 m.toNat = some k) : IsFirstSet m (word k) := by
  obtain ⟨hk, hset, hlow⟩ := lowestSet_some h
  have hw : (word k).toNat = k := by rw [word, BitVec.toNat_ofNat]; omega
  simp only [IsFirstSet, hw, ← BitVec.testBit_toNat]
  exact .inr ⟨hk, hset, hlow⟩

/-- KFIRST finds the lowest bit of kA (R111). -/
theorem exec_kfirst (h : s.runs (.kfirst f) = true) :
    ∃ w, exec (.kfirst f) s = .next (s.ran (.kfirst f) (writeS s.curHalf f.d.toNat w)) ∧
      IsFirstSet (readK s.curHalf (f.a.toNat % 8)) w := by
  refine ⟨_, predToS_ran rfl _ h, ?_⟩
  split
  case h_1 k hk => exact isFirstSet_of_some hk
  case h_2 hnone => exact isFirstSet_of_none hnone

end Sys2Proof.Machine

namespace Sys2Proof.Proofs
open Sys2Proof.Machine

/-- Settles O8, from what each comparison and predicate instruction writes and the bits of what it writes. -/
theorem comparisonsAndPredicates : Obligations.ComparisonsAndPredicates := by
  unfold Obligations.ComparisonsAndPredicates
  refine ⟨?cmp, fun f s h => exec_cmpi h, ?ill, fun i f op s hi h => exec_predicate2 hi h, ?knot, ?kmovs, ?kmovk,
    fun f s h => exec_kpopc h, fun f s h => exec_kfirst h⟩
  case cmp =>
    intro i f code s hi h
    obtain ⟨hsp, hexec⟩ := exec_comparison hi s
    rw [hexec, scalarCmp_ran hsp h]
  case ill =>
    intro f s hb ha hcode
    have hwf : (Instr.cmpi f).wf = false := by
      show decide ((f.imm.extractLsb' 10 3).toNat ≠ 7) = false
      rw [cmpi_code, hcode]; rfl
    exact exec_malformed rfl hb ha rfl hwf
  case knot =>
    exact fun f s h => ⟨_, exec_knot h, fun n hn => by simp [hn]⟩
  case kmovs =>
    exact fun f s h => ⟨_, exec_kmovs h, fun n hn => setSlice_bit _ _ _ hn⟩
  case kmovk =>
    exact fun f s h => ⟨_, exec_kmovk h, fun n hn => slice_bit _ _ hn⟩

end Sys2Proof.Proofs
end

section
/-! PROOFS. The transfers of format J (R115, R119). -/
namespace Sys2Proof.Machine

variable {s : State} {i : Instr}

/-- The body of an instruction that runs makes a transfer, to a good target (R114). -/
theorem run_transfer_seen (h : s.runs i = true) {go w : Word} (pre : Half → Half) (hl : (pre s.curHalf).lanes = s.curHalf.lanes)
    (hs : (pre s.curHalf).stack = s.curHalf.stack) (hq : (pre s.curHalf).seq = s.curHalf.seq) (hgo : s.transfers go w = true) :
    (transfer (s.seen i) go pre).run s = s.retired 0 (entered (pre s.curHalf) go w) :=
  run_transfer pre (ctx_hid ..) (ctx_core ..) (ctx_h ..) (State.ready_ss (State.runs_ready h)) hl hs hq hgo

/-- The body of an instruction without destinations makes no transfer, and code goes on after it (R57, R58). -/
theorem run_notTaken_seen (h : s.runs i = true) (pre : Half → Half) (hd : (operandsOf i).dsts = [])
    (hr : (pre s.curHalf).reissue = s.curHalf.reissue) (hc : s.continues (parcelCount i) = true) :
    (notTaken (s.seen i) pre).run s = s.retired (parcelCount i) (pre s.curHalf) := by
  have hready := State.runs_ready h
  have hcheck : s.fallCheck (s.seen i).hid (s.seen i).h (s.seen i).len = .go := by
    simpa [State.seen] using fallCheck_continues hc
  have hfin : (notTaken (s.seen i) pre).run s = (finish (s.seen i) pre).run s := by
    simp only [notTaken, run_look, hcheck]
  rw [hfin, run_finish pre (by simp [State.seen]) (by simpa [State.seen] using State.ready_ss hready)
    (hr.trans (State.ready_fresh hready))]
  simp [State.seen, hd]

/-- The half with LC changed. -/
def Half.withLc (lc : Word) (h : Half) : Half := { h with ctl := { h.ctl with lc := lc } }

variable {f : FJ}

/-- The meaning of BR, of a half that is ready (R115). -/
theorem exec_br (h : s.runs (.br f) = true) : exec (.br f) s = .next
    ((if bit0 (readK s.curHalf f.k.toNat) != f.clr then transfer (s.seen (.br f)) (jTarget (pcOf s.curHalf) f.off) id
      else notTaken (s.seen (.br f)) id).run s) := by
  rw [← seen_kmask (i := .br f) h rfl, ← seen_addr h]
  exact perform_issue (State.runs_ready h) _

/-- The meaning of LOOP, of a half that is ready (R119). -/
theorem exec_loop (h : s.runs (.loop f) = true) : exec (.loop f) s = .next
    ((if loopCount s.curHalf.ctl.lc ≠ 0 && (bit0 (readK s.curHalf f.k.toNat) != f.clr)
      then transfer (s.seen (.loop f)) (jTarget (pcOf s.curHalf) f.off) (Half.withLc (loopCount s.curHalf.ctl.lc))
      else notTaken (s.seen (.loop f)) (Half.withLc (loopCount s.curHalf.ctl.lc))).run s) := by
  have hh : (s.seen (.loop f)).h = s.curHalf := ctx_h ..
  rw [← seen_kmask (i := .loop f) h rfl, ← seen_addr h, ← hh]
  exact perform_issue (State.runs_ready h) _

/-- JMP always transfers (R115). -/
theorem exec_jmp (h : s.runs (.jmp f) = true) :
    exec (.jmp f) s = .next ((transfer (s.seen (.jmp f)) (jTarget (pcOf s.curHalf) f.off) id).run s) := by
  rw [← seen_addr h]
  exact perform_issue (State.runs_ready h) _

/-- CALL always transfers, and links (R115). -/
theorem exec_call (h : s.runs (.call f) = true) : exec (.call f) s = .next
    ((transfer (s.seen (.call f)) (jTarget (pcOf s.curHalf) f.off) (linked (s.seen (.call f)))).run s) := by
  rw [← seen_addr h]
  exact perform_issue (State.runs_ready h) _

/-- What a call leaves of the half at issue: s31 holds the address of the parcel after it (R115). -/
theorem linked_seen (h : s.runs i = true) :
    linked (s.seen i) s.curHalf = s.written i (writeS s.curHalf 31 (pcOf s.curHalf + 4)) := by
  rw [linked, linkOf, seen_addr h]
  simp [State.seen, State.written]

end Sys2Proof.Machine

namespace Sys2Proof.Proofs
open Sys2Proof.Machine

/-- Settles O15: each instruction's meaning is a transfer or falls through, by the bit it tests and by LC. -/
theorem branches : Obligations.Branches := by
  unfold Obligations.Branches
  refine ⟨?brTaken, ?brNot, ?jmp, ?call, ?loop⟩
  case brTaken =>
    intro f s w h
    dsimp only
    intro htaken hgo
    rw [exec_br h, if_pos htaken, run_transfer_seen h id rfl rfl rfl hgo, id]
  case brNot =>
    intro f s h hnot hc
    rw [exec_br h, hnot, if_neg (by decide), run_notTaken_seen h id rfl rfl hc]
    rfl
  case jmp =>
    intro f s w h hgo
    rw [exec_jmp h, run_transfer_seen h id rfl rfl rfl hgo, id]
  case call =>
    intro f s w h hgo
    rw [exec_call h, run_transfer_seen h (linked (s.seen (.call f))) rfl rfl rfl hgo, linked_seen h]
  case loop =>
    intro f s w h
    dsimp only
    refine ⟨fun htaken hgo => ?_, fun hnot hc => ?_⟩
    · rw [exec_loop h, if_pos (by simpa [loopCount] using htaken), run_transfer_seen h _ rfl rfl rfl hgo]
      rfl
    · rw [exec_loop h, if_neg (by simpa [loopCount] using hnot), run_notTaken_seen h _ rfl rfl hc]
      rfl

end Sys2Proof.Proofs
end
